-- ==== Sys2Proof/Word.lean ====
section
/-! DEFINITION. The words of the machine and their plainest arithmetic (spec 00 R5, R6; 01 R12). -/

namespace Sys2Proof

/-- A 32-bit register word (R12, R25). -/
abbrev Word := BitVec 32

/-- A byte of any memory. -/
abbrev Byte := BitVec 8

/-- A 64-bit quantity: a scalar pair, a tick, an address before it is cut to 49 bits. -/
abbrev DWord := BitVec 64

/-- One bit per lane of a warp: masks and predicates (R24, R25). -/
abbrev Mask := BitVec 48

/-- One 32-bit register across the 48 lanes of a warp, lane 0 first (R12). -/
abbrev Row := List Word

/-- The lanes of a warp (R12). -/
def lanes : Nat := 48

/-- Lane numbers in ascending order (R9). -/
def laneList : List Nat := List.range 48

end Sys2Proof
end

