-- ==== Sys2Proof/Config.lean ====
section
/-! DEFINITION. What one device fixes and the values that the spec leaves open. Each open value is an opaque
constant, so that no proof can rest on what it is. -/

namespace Sys2Proof.Config

/-- Bits 31:0 of the SHA3-512 digest of the device's identity key (16 R395): unique to the device (log 5). -/
opaque keyDigest : BitVec 32

/-- Bits 19:16 of the device identity (16 R395): false a package, true a module. -/
opaque isModule : Bool

/-- Bits 23:20 of the device identity (16 R395): the silicon revision. -/
opaque revision : BitVec 4

/-- A byte of a peer device's memory that this device has not written: peer number, peer context, address (log 4). -/
opaque peerByte : Nat → Nat → Nat → BitVec 8

/-- The clock rate in kHz to which the management controller lowers the clock at the thermal limit (16 R392 gives
no rate), drawn at the fresh counter (log 10). -/
opaque loweredKhz : Nat → Nat

/-- Which line of a full cache is given up for a new one (09 R233 gives no replacement rule), drawn at the fresh
counter (log 11). -/
opaque victim : Nat → Nat

/-- Whether a byte of a cancelled or abandoned copy holds its copied value (12 R310, R311 leave it open byte by
byte): fresh counter and window or global offset (log 12). -/
opaque copiedByte : Nat → Nat → Bool

/-- The signature of the identity key over the bytes that attestation returns (16 R433 gives no bytes) (log 13). -/
opaque signature : List (BitVec 8) → List (BitVec 8)

/-- The words of the mailbox that tell one report of the management controller, by its kind and its numbers (16 R393 gives the
mailbox no layout) (log 10). -/
opaque mailBytes : Nat → List Nat → List (BitVec 8)

/-- What a word that the host writes into the mailbox asks for: offset and value (16 R393 gives no commands) (log 10). -/
opaque mailAsks : Nat → BitVec 32 → Nat

/-- The power in watts and the junction temperature in °C that telemetry tells, drawn at the fresh counter (log 10). -/
opaque watts : Nat → Nat
opaque celsius : Nat → Nat

/-- The data set by which the device's own clock takes part in the choice of a grandmaster, its class apart (16 R431 names IEEE
1588-2019): priority 1, accuracy, variance, priority 2, identity (log 3). -/
opaque clockRank : Nat × Nat × Nat × Nat × Nat

/-- The clock class that a device without a valid pulse-per-second input advertises (16 R431 gives none) (log 3). -/
opaque clockClass : Nat

/-- Whether an access to a page whose entry was altered still uses the translation held before (09 R224 allows either
until the invalidation): fresh counter and virtual address (log 15). -/
opaque oldTranslation : Nat → Nat → Bool

/-- Whether a peer refuses another lane of an access at which it reports a fault (16 R396 lets the peer translate), by fresh counter
and address (log 79). -/
opaque peerRefuses : Nat → Nat → Bool

/-- A byte of a record that the spec names without giving its codes: the unit and the action of an uncorrectable-error
record, the cause of a replay record (16 R418), by field and by what it stands for (log 18). -/
opaque recordByte : Nat → Nat → BitVec 8

/-- The physical address that the record of an uncorrectable error gives for a word that lies in no memory: a register, a scalar, a
row of a queue (16 R418 gives none), drawn at the fresh counter (log 18). -/
opaque errorAddress : Nat → BitVec 64

/-- The body of a debug-stop record (15 R377, R378 name its content, no layout): core, crew, warp, split, PC, reason
(log 18). -/
opaque debugStopBody : Nat → Nat → Nat → Nat → BitVec 32 → Nat → List (BitVec 8)

end Sys2Proof.Config
end

