-- ==== Sys2Proof/Syntax.lean ====
section
/-! DEFINITION. The instructions and events of spec/opcode_table.json, one constructor of `Instr` per row, with
decoded operands. Nothing here says what an instruction does. -/

namespace Sys2Proof

/-- The register specifiers of R54. -/
inductive Spec where
  | v (n : Fin 192)
  | s (n : Fin 32)
  | q (n : Fin 8)
  | vx (k : Fin 4)
  | zero
  | laneid
  | sib
  | tid
  deriving DecidableEq, Repr

/-- The type codes of R57. -/
inductive Ty where
  | none | i8 | i16 | i32 | n8 | n16 | n32 | f32 | f16 | bf16 | e4m3 | e5m2 | e2m1 | i4 | i3
  deriving DecidableEq, Repr

/-- The rounding codes of R58. -/
inductive Rm where
  | none | rne | rz | ru | rd | rna | rsib | rsto
  deriving DecidableEq, Repr

/-- The scope codes of R59. -/
inductive Scope where
  | warp | group | crew | core | die | dev | sys
  deriving DecidableEq, Repr

/-- The integer condition codes of R82. -/
inductive Cc where
  | eq | ne | lt | le | gt | ge
  deriving DecidableEq, Repr

/-- The floating condition codes of R116. -/
inductive Fcc where
  | eq | ne | lt | le | gt | ge | un | ord
  deriving DecidableEq, Repr

/-- A predicate named as a guard names it: bit 3 negates, bits 2:0 select `p0` to `p7` (R41, R83). -/
structure Pred where
  neg : Bool
  p : BitVec 3
  deriving DecidableEq, Repr

/-- The fields every format shares (R41): guard, STALL, WAIT and SETF. -/
structure Ctl where
  guard : Pred
  stall : BitVec 4
  wait : BitVec 12
  setf : BitVec 4
  deriving DecidableEq, Repr

/-- A second operand: SRCB, or IMM12 under IB (R81). -/
inductive Src2 where
  | reg (r : Spec)
  | imm (i : BitVec 12)
  deriving DecidableEq, Repr

/-- The index scale of an address, ×1, ×2, ×4 or ×8 (R48, R81), as its code. -/
abbrev Scale := BitVec 2

/-- Operands of the binary and unary lane operations (R85). An operation that does not use `c`, or `b`, holds
`Spec.v 0` there, whose code is 0x00. -/
structure IntArgs where
  ty : Ty
  sat : Bool
  dst : Spec
  a : Spec
  b : Src2
  c : Spec
  deriving DecidableEq, Repr

/-- Operands of `bfx` and `bfi` (R86). -/
structure FieldArgs where
  ty : Ty
  dst : Spec
  a : Spec
  b : Spec
  pos : BitVec 5
  wid : BitVec 6
  deriving DecidableEq, Repr

/-- Operands of `sel` (R87). -/
structure SelArgs where
  dst : Spec
  a : Spec
  b : Src2
  p : Pred
  deriving DecidableEq, Repr

/-- A destination and one source under a type tag. -/
structure UnArgs where
  ty : Ty
  dst : Spec
  a : Spec
  deriving DecidableEq, Repr

/-- Operands of `icmp` and `scmp` (R89, R94); `w64` is `scmp` only. -/
structure CmpArgs where
  ty : Ty
  w64 : Bool
  cc : Cc
  p : BitVec 3
  a : Spec
  b : Src2
  deriving DecidableEq, Repr

/-- Operands of `lea` and `slea` (R90, R95). -/
structure LeaArgs where
  ty : Ty
  sc : Scale
  dst : Spec
  a : Spec
  b : Spec
  imm : BitVec 12
  deriving DecidableEq, Repr

/-- Operands of the scalar operations (R92). -/
structure ScalArgs where
  ty : Ty
  w64 : Bool
  dst : Spec
  a : Spec
  b : Src2
  deriving DecidableEq, Repr

/-- The shuffle modes of R81. -/
inductive Shuf where
  | idx | up | down | xor
  deriving DecidableEq, Repr

/-- Operands of the rounding float instructions, `fmin`, `fmax` and `fclass` (R112, R113). -/
structure FArgs where
  ty : Ty
  rm : Rm
  dst : Spec
  a : Spec
  b : Spec
  c : Spec
  na : Bool
  nb : Bool
  nc : Bool
  deriving DecidableEq, Repr

/-- Operands of `fcmp` (R116). -/
structure FcmpArgs where
  ty : Ty
  cc : Fcc
  p : BitVec 3
  a : Spec
  b : Spec
  deriving DecidableEq, Repr

/-- Operands of `cvt` (R121). -/
structure CvtArgs where
  dty : Ty
  sty : Ty
  rm : Rm
  dst : Spec
  a : Spec
  elem : BitVec 3
  deriving DecidableEq, Repr

/-- The tail of a memory word (R48, R49): OFF20, or OFF13 with AOP and SCOPE. -/
inductive MemTail where
  | wide (off : BitVec 20)
  | narrow (off : BitVec 13) (aop : BitVec 4) (scope : Scope)
  deriving DecidableEq, Repr

/-- The base of a memory word (R48): a global base, or a group slot. -/
inductive MemBase where
  | glob (r : Spec)
  | slot (g : BitVec 2)
  deriving DecidableEq, Repr

/-- Operands of class 0x7 (R241). -/
structure MemArgs where
  dst : Spec
  base : MemBase
  data : Spec
  index : Spec
  sz : BitVec 3
  sx : Bool
  scl : Scale
  sem : BitVec 2
  tail : MemTail
  deriving DecidableEq, Repr

/-- A barrier operand `gN.bM` (R270). -/
structure BarName where
  slot : BitVec 2
  bar : BitVec 4
  deriving DecidableEq, Repr

/-- The condition slots of `wait` (R53). -/
inductive Cond where
  | none
  | flag (k : BitVec 4)
  | phase (b : BarName) (ph : Bool)
  | word (cmp : BitVec 2) (quad : BitVec 3) (slot : BitVec 2) (sp : Bool)
  | queue (q : BitVec 3) (push : Bool)
  | grace (k : BitVec 5)
  | tick (n : BitVec 4)
  deriving DecidableEq, Repr

/-- Operands of `wait` (R52). -/
structure WaitArgs where
  dst : Spec
  c0 : Cond
  c1 : Cond
  c2 : Cond
  c3 : Cond
  all : Bool
  ts : BitVec 4
  tp : BitVec 3
  deriving DecidableEq, Repr

/-- Operands of the copy instructions (R300). -/
structure CopyArgs where
  dst : Spec
  oct : Spec
  bar : BarName
  pm : Bool
  deriving DecidableEq, Repr

/-- Operands of `tld` and `tst` (R338): `src` is 0 for the tile's own format (R337). -/
structure TileMemArgs where
  tile : BitVec 3
  slot : BitVec 2
  a : Spec
  off : BitVec 20
  src : BitVec 2
  deriving DecidableEq, Repr

/-- Operands of `mma` and `mdist` (R338). -/
structure MmaArgs where
  slot : BitVec 2
  acc : BitVec 2
  ta : BitVec 3
  tb : BitVec 3
  deriving DecidableEq, Repr

/-- Operands of `asave` and `arest` (R338). -/
structure AccMemArgs where
  slot : BitVec 2
  acc : BitVec 2
  a : Spec
  off : BitVec 20
  all : Bool
  deriving DecidableEq, Repr

/-- A placed crew: its launch, its index, and whether it is the shadow of a paired crew (16 R422). -/
structure CrewRef where
  launch : Nat
  crew : Nat
  shadow : Bool
  deriving DecidableEq, Repr

/-- A warp of a placed crew. -/
structure WarpRef where
  crew : CrewRef
  warp : Nat
  deriving DecidableEq, Repr

/-- A context of a partition (16 R395, R398). -/
structure CtxRef where
  part : Nat
  ctx : Nat
  deriving DecidableEq, Repr

/-- A command queue of a partition (16 R400). -/
structure QueueRef where
  part : Nat
  q : Nat
  deriving DecidableEq, Repr

/-- A queue of a crew: its position among the crew's declared queues (08 R195). -/
structure CrewQueueRef where
  crew : CrewRef
  q : Nat
  deriving DecidableEq, Repr

/-- A line held by a core's L1 or by a die's remote-data cache (09 R233). -/
inductive CacheRef where
  | l1 (core : Nat)
  | rdc (die : Nat)
  deriving DecidableEq, Repr

/-- Where an error of storage arises (03 R80, 08 R212, 13 R334, 16 R427, R428): an uncorrectable one, or `corrected`, one that the
check bits put right. -/
inductive ErrorSite where
  | memory (pa : Nat)
  | register (w : WarpRef) (row lane : Nat)
  | scalar (w : WarpRef) (n : Nat)
  | cacheLine (cache : CacheRef) (line off : Nat)
  | spillBuffer (core granule row lane : Nat)
  | scratch (c : CrewRef) (off : Nat)
  | tile (c : CrewRef) (t off : Nat)
  | scale (c : CrewRef) (t entry : Nat)
  | accumulator (c : CrewRef) (a plane i j : Nat)
  | coreControl (core : Nat)
  | corrected
  deriving DecidableEq, Repr

/-- What an access of the host or of a peer does (16 R395, R396). `bad`: words that arrive poisoned over the fabric (R427). -/
inductive ExtAccess where
  | read (bytes : Nat)
  | write (data : List (BitVec 8)) (bad : Bool)
  | atomic (aop : BitVec 4) (sz : BitVec 3) (d cmp : BitVec 64)
  deriving DecidableEq, Repr

/-- Who uses the fabric (16 R396, R430; 09 R238): a warp by its next instruction, a copy of a warp, the spill engine of a core with a
granule of its buffer, a refill for a warp, or the sorting office for a command queue. -/
inductive FabricUser where
  | warp (w : WarpRef)
  | copy (w : WarpRef)
  | spill (core granule : Nat)
  | refill (w : WarpRef)
  | packet (q : QueueRef)
  deriving DecidableEq, Repr

/-- What a path of a split has: a PC, lanes and a window base (06 R148, R149). -/
inductive PathField where
  | pc | mask | base
  deriving DecidableEq, Repr

/-- A piece of a warp's state (01 R24 to R26, 15 R364). -/
inductive DebugPlace where
  | lane (row lane : Nat)
  | scalar (n : Nat)
  | pred (n : Nat)
  | index (k lane : Nat)
  | limit (k : Nat)
  | path (split : Nat) (entry : Option Nat) (field : PathField)
  | joinWait (split : Nat)
  | issued (split : Nat)
  | issuing
  | control (n : Nat)
  | opcount (lane : Nat)
  | binding (k : Nat)
  | flag (k : Nat)
  | vacant
  | depth
  | tag
  | stall
  | band
  | high
  | reason
  | priority
  | group (k : Nat)
  deriving DecidableEq, Repr

/-- What a debugger does to the state of a stopped warp (15 R377). -/
inductive DebugAccess where
  | read (p : DebugPlace)
  | write (p : DebugPlace) (v : BitVec 64)
  deriving DecidableEq, Repr

/-- The scope of a debugger's stop (15 R377). -/
inductive StopScope where
  | warp | crew | context
  deriving DecidableEq, Repr

/-- What the configuration record fixes (16 R434): the clock in kHz, the fabric ports in use, and the junction temperatures in °C
above which the clock is lowered and at which power is removed. -/
structure Settings where
  khz : Nat
  ports : List Nat
  lowerAt : Nat
  offAt : Nat
  deriving DecidableEq, Repr

/-- What start-up runs (16 R432, R433): the bytes that it measures, and whether the boot image verifies. -/
structure BootImage where
  image : List (BitVec 8)
  firmware : List (BitVec 8)
  verifies : Bool
  deriving DecidableEq, Repr

/-- The configuration record in the flash (16 R433, R434): its bytes, and what it fixes when it passes its check. -/
structure BootRecord where
  bytes : List (BitVec 8)
  settings : Option Settings
  deriving DecidableEq, Repr

/-- The data by which the best master clock algorithm of IEEE 1588-2019 compares clocks (16 R431), the better one lower in the first
that differs. -/
structure PtpClock where
  priority1 : Nat
  class_ : Nat
  accuracy : Nat
  variance : Nat
  priority2 : Nat
  identity : Nat
  deriving DecidableEq, Repr

/-- What a message of IEEE 1588 brings: the clock that sent it, and the slew that follows it. -/
structure PtpMessage where
  clock : PtpClock
  slewPpm : Int
  deriving DecidableEq, Repr

/-- What a partition-formation request names (16 R397, R401). -/
structure FormArgs where
  dies : List Nat
  queueBase : Nat
  queueSize : Nat
  seqBase : BitVec 32
  ringBase : Nat
  ringSize : Nat
  deriving DecidableEq, Repr

/-- One constructor per row of spec/opcode_table.json, in the table's order: first the instructions with an encoding
(02 R62), each with its shared fields, then the events. -/
inductive Instr where
  -- class 0x0 (03)
  | iadd (c : Ctl) (x : IntArgs)
  | isub (c : Ctl) (x : IntArgs)
  | imul (c : Ctl) (x : IntArgs)
  | imulh (c : Ctl) (x : IntArgs)
  | imad (c : Ctl) (x : IntArgs)
  | imin (c : Ctl) (x : IntArgs)
  | imax (c : Ctl) (x : IntArgs)
  | iabs (c : Ctl) (x : IntArgs)
  | and (c : Ctl) (x : IntArgs)
  | or (c : Ctl) (x : IntArgs)
  | xor (c : Ctl) (x : IntArgs)
  | andn (c : Ctl) (x : IntArgs)
  | shl (c : Ctl) (x : IntArgs)
  | shr (c : Ctl) (x : IntArgs)
  | sar (c : Ctl) (x : IntArgs)
  | rot (c : Ctl) (x : IntArgs)
  | popc (c : Ctl) (x : IntArgs)
  | clz (c : Ctl) (x : IntArgs)
  | bfx (c : Ctl) (x : FieldArgs)
  | bfi (c : Ctl) (x : FieldArgs)
  | sel (c : Ctl) (x : SelArgs)
  | mov (c : Ctl) (dst a : Spec)
  | movi (c : Ctl) (dst : Spec) (imm : Word)
  | icmp (c : Ctl) (x : CmpArgs)
  | lea (c : Ctl) (x : LeaArgs)
  | sxt (c : Ctl) (x : UnArgs)
  -- class 0x1 (03)
  | sadd (c : Ctl) (x : ScalArgs)
  | ssub (c : Ctl) (x : ScalArgs)
  | smul (c : Ctl) (x : ScalArgs)
  | sand (c : Ctl) (x : ScalArgs)
  | sor (c : Ctl) (x : ScalArgs)
  | sxor (c : Ctl) (x : ScalArgs)
  | sshl (c : Ctl) (x : ScalArgs)
  | sshr (c : Ctl) (x : ScalArgs)
  | smov (c : Ctl) (x : ScalArgs)
  | smovi (c : Ctl) (dst : Spec) (imm : Word)
  | scmp (c : Ctl) (x : CmpArgs)
  | slea (c : Ctl) (x : LeaArgs)
  | bcast (c : Ctl) (dst a : Spec) (k : Src2)
  | rdlane (c : Ctl) (dst a : Spec) (k : Src2)
  | voteAny (c : Ctl) (p : BitVec 3) (q : Pred)
  | voteAll (c : Ctl) (p : BitVec 3) (q : Pred)
  | voteBallot (c : Ctl) (dst : Spec) (q : Pred)
  | shfl (c : Ctl) (sm : Shuf) (dst a : Spec) (b : Src2)
  | elect (c : Ctl) (dst : Spec) (ep : BitVec 3)
  -- class 0x2 (04)
  | fadd (c : Ctl) (x : FArgs)
  | fsub (c : Ctl) (x : FArgs)
  | fmul (c : Ctl) (x : FArgs)
  | ffma (c : Ctl) (x : FArgs)
  | fmin (c : Ctl) (x : FArgs)
  | fmax (c : Ctl) (x : FArgs)
  | fcmp (c : Ctl) (x : FcmpArgs)
  | fdiv (c : Ctl) (x : FArgs)
  | fsqrt (c : Ctl) (x : FArgs)
  | frcp (c : Ctl) (x : FArgs)
  | frsq (c : Ctl) (x : FArgs)
  | fexp2 (c : Ctl) (x : FArgs)
  | flog2 (c : Ctl) (x : FArgs)
  | fclass (c : Ctl) (x : FArgs)
  | frnd (c : Ctl) (x : FArgs)
  | hadd2 (c : Ctl) (x : FArgs)
  | hmul2 (c : Ctl) (x : FArgs)
  | hfma2 (c : Ctl) (x : FArgs)
  | cvt (c : Ctl) (x : CvtArgs)
  -- class 0x3 (05)
  | sibmodeNear (c : Ctl)
  | sibmodeRand (c : Ctl)
  | digits (c : Ctl) (x : UnArgs)
  | smean (c : Ctl) (x : UnArgs)
  | sibget (c : Ctl) (dst a : Spec) (k : BitVec 2)
  | sibagree (c : Ctl) (ty : Ty) (p : BitVec 3) (a : Spec)
  | nchk (c : Ctl) (ty : Ty) (p : BitVec 3) (a : Spec) (n : Src2)
  | rand (c : Ctl) (ty : Ty) (same w64 : Bool) (dst : Spec)
  | mdpack (c : Ctl) (x : UnArgs)
  | mdunpack (c : Ctl) (x : UnArgs)
  -- class 0x4 (06)
  | bra (c : Ctl) (p : Pred) (off : Word)
  | bru (c : Ctl) (p : Pred) (off : Word)
  | brx (c : Ctl) (a : Spec) (off : Word)
  | call (c : Ctl) (off : Word) (shift : BitVec 5)
  | callx (c : Ctl) (a : Spec) (off : Word) (shift : BitVec 5)
  | ret (c : Ctl)
  | exit (c : Ctl)
  | join (c : Ctl)
  | yield (c : Ctl)
  | nop (c : Ctl)
  -- class 0x5 (07)
  | rclaim (c : Ctl) (n : Word)
  | rrelease (c : Ctl) (n : Word)
  | rpool (c : Ctl) (dst : Spec) (sel : Word)
  | wflush (c : Ctl)
  | wdepth (c : Ctl) (dst : Spec) (sel : Word)
  | xset (c : Ctl) (k : BitVec 2) (a : Spec) (lim : Word)
  | xadd (c : Ctl) (k : BitVec 2) (a : Spec) (ib : Bool) (imm : Word)
  -- class 0x6 (08)
  | qmap (c : Ctl) (q : BitVec 3) (slot rights : BitVec 2) (off : BitVec 20)
  | qunmap (c : Ctl) (q : BitVec 3)
  | qpush (c : Ctl) (q : BitVec 3) (a : Spec) (whole : Bool)
  | qpop (c : Ctl) (dst : Spec) (q : BitVec 3) (st : Bool) (p : BitVec 3)
  | qtryPop (c : Ctl) (p : BitVec 3) (dst : Spec) (q : BitVec 3)
  | qtryPush (c : Ctl) (p : BitVec 3) (q : BitVec 3) (a : Spec)
  | qclose (c : Ctl) (q : BitVec 3)
  | qstat (c : Ctl) (dst : Spec) (q : BitVec 3) (sel : BitVec 12)
  | refill (c : Ctl) (dst : Spec) (q : BitVec 3) (p : BitVec 3) (wait : Bool)
  -- class 0x7 (09)
  | ld (c : Ctl) (x : MemArgs)
  | st (c : Ctl) (x : MemArgs)
  | lds (c : Ctl) (x : MemArgs)
  | sts (c : Ctl) (x : MemArgs)
  | ldu (c : Ctl) (x : MemArgs)
  | atom (c : Ctl) (x : MemArgs)
  | atoms (c : Ctl) (x : MemArgs)
  | red (c : Ctl) (x : MemArgs)
  | pref (c : Ctl) (x : MemArgs)
  | cctl (c : Ctl) (x : MemArgs)
  -- class 0x8 (10)
  | fenceAcq (c : Ctl) (sc : Scope)
  | fenceRel (c : Ctl) (sc : Scope)
  | fenceAcqrel (c : Ctl) (sc : Scope)
  | fenceSc (c : Ctl) (sc : Scope)
  | fenceAsync (c : Ctl)
  | barinit (c : Ctl) (b : BarName) (n : BitVec 7)
  | barinitInv (c : Ctl) (b : BarName)
  | bararr (c : Ctl) (b : BarName)
  | barwait (c : Ctl) (b : BarName) (ph : Bool)
  | bartx (c : Ctl) (b : BarName) (a : Spec) (ib : Bool) (imm : BitVec 24)
  | wait (c : Ctl) (x : WaitArgs)
  -- class 0x9 (11)
  | rdenter (c : Ctl)
  | rdexit (c : Ctl)
  | gstart (c : Ctl) (dst : Spec)
  | gsync (c : Ctl) (dst : Spec)
  | dfree (c : Ctl) (a len : Spec) (q : BitVec 3)
  | gstat (c : Ctl) (dst : Spec) (sel : BitVec 12)
  -- class 0xA (12)
  | cpyLoad (c : Ctl) (x : CopyArgs)
  | cpyStore (c : Ctl) (x : CopyArgs)
  | cpytLoad (c : Ctl) (x : CopyArgs)
  | cpytStore (c : Ctl) (x : CopyArgs)
  | cpym (c : Ctl) (x : CopyArgs) (fromsp : Bool)
  | cpyfLoad (c : Ctl) (x : CopyArgs)
  | cpyfStore (c : Ctl) (x : CopyArgs)
  | cpycan (c : Ctl) (dst h : Spec)
  -- class 0xB (14)
  | tctl (c : Ctl) (slot : BitVec 2) (tile : BitVec 3) (a : Spec) (imm : BitVec 20)
  | tld (c : Ctl) (x : TileMemArgs)
  | tst (c : Ctl) (x : TileMemArgs)
  | mma (c : Ctl) (x : MmaArgs)
  | mdist (c : Ctl) (x : MmaArgs)
  | azero (c : Ctl) (slot acc : BitVec 2)
  | ard (c : Ctl) (dst e : Spec) (slot acc psel : BitVec 2) (raw : Bool)
  | acvt (c : Ctl) (slot : BitVec 2) (tile : BitVec 3) (acc psel : BitVec 2)
  | atopk (c : Ctl) (slot acc : BitVec 2) (a : Spec) (k : BitVec 5) (init min : Bool)
  | asave (c : Ctl) (x : AccMemArgs)
  | arest (c : Ctl) (x : AccMemArgs)
  -- class 0xC (15)
  | trap (c : Ctl) (n : Word)
  | rtt (c : Ctl)
  | ctlrd (c : Ctl) (dst : Spec) (creg : Word)
  | ctlwr (c : Ctl) (creg : Word) (a : Spec)
  | clockTick (c : Ctl) (dst : Spec)
  | clockCyc (c : Ctl) (dst : Spec)
  | brk (c : Ctl)
  | mark (c : Ctl) (a : Spec) (sr : Bool) (imm : Word)
  -- events of the core
  | breakpointHit (w : WarpRef)
  | stallCountExpiry (w : WarpRef)
  | fetchRedirectExpiry (w : WarpRef)
  | splitSwitchExpiry (w : WarpRef)
  | instructionCompletion (w : WarpRef) (k : Nat)
  | registerWriteLands (w : WarpRef) (k : Nat)
  | windowMoveDone (w : WarpRef)
  | spillWrite (core k : Nat)
  | claimServed (cr : CrewRef) (quarter : Nat)
  | claimDeadlock (cr : CrewRef) (quarter : Nat)
  | crewDeadlock (cr : CrewRef)
  | queueRowLands (q : CrewQueueRef) (k : Nat)
  | queueHeadStaged (q : CrewQueueRef)
  | queueStateError (q : CrewQueueRef)
  | graceDelivery (x : CtxRef)
  | deliveryPendingSlot (q : CrewQueueRef)
  | arrivalApplied (cr : CrewRef) (group bar warp : Nat)
  | waitEvaluation (w : WarpRef)
  | waitDeadline (w : WarpRef)
  | graceStartAtHome (x : CtxRef)
  | graceNumberReturned (w : WarpRef)
  | depthChangeAtHome (x : CtxRef)
  | curReceived (x : CtxRef) (core : Nat)
  | curAcknowledged (x : CtxRef) (core : Nat)
  | doneReceived (x : CtxRef) (core : Nat)
  | copyUnitLanded (core k unit receiver : Nat)
  | copyUnitFault (core k unit : Nat)
  | matrixUnitTake (core : Nat)
  | matrixOpCompletion (core : Nat)
  | tilePathCompletion (core : Nat)
  | uncorrectableError (e : ErrorSite)
  | lineAgeExpiry (cache : CacheRef) (line : Nat)
  | watchdog (w : WarpRef)
  | pcSampling (core quarter : Nat)
  | comparePoint (w : WarpRef)
  -- packets and the sorting office
  | kick (q : QueueRef) (value : BitVec 32)
  | packetReread (q : QueueRef)
  | launch (q : QueueRef)
  | waitOnValue (q : QueueRef)
  | waitOnValuePoll (q : QueueRef)
  | writeValue (q : QueueRef)
  | copy (q : QueueRef)
  | faultAcknowledgement (q : QueueRef)
  | createContext (q : QueueRef)
  | destroyContext (q : QueueRef)
  | queueCreate (q : QueueRef)
  /-- By a packet at the head of `q`, or, `managed`, of the control queue `q` itself by the management interface (R401). -/
  | queueStop (q : QueueRef) (managed : Bool)
  /-- As `queueStop`; the management interface names the head index. -/
  | queueRestart (q : QueueRef) (managed : Option (BitVec 32))
  | translationInvalidation (q : QueueRef)
  | swapOut (q : QueueRef)
  | resume (q : QueueRef)
  | partitionSave (q : QueueRef)
  | partitionRestore (q : QueueRef)
  | preemptionComplete (q : QueueRef)
  | setWdogctl (q : QueueRef)
  | setApertureEntry (q : QueueRef)
  | sampling (q : QueueRef)
  | dispatchDecision (part : Nat)
  | crewEnd (cr : CrewRef)
  -- host, peers, fabric, time
  | eventRingReadIndex (part : Nat) (ctx : Option Nat) (value : BitVec 32)
  | samplingRingReadIndex (x : CtxRef) (value : BitVec 32)
  | deadLetterTail (die : Nat) (value : BitVec 32)
  | registerWriteOther (off : Nat) (value : BitVec 32)
  | hostBar2Access (off : Nat) (a : ExtAccess)
  | peerAccess (x : CtxRef) (va : Nat) (a : ExtAccess)
  | flitRetry (port : Nat)
  | linkFailure (port : Nat) (victims : List FabricUser)
  | ptpMessage (m : PtpMessage)
  | pulsePerSecond
  | offsetRemoval (masterTick : BitVec 64)
  | offsetRemoved
  | masterLoss
  | holdoverExpiry
  -- start-up, management, debug
  | powerGood (image : BootImage) (record : BootRecord)
  | stageComplete
  | thermalLimit
  | thermalShutdown
  | partitionFormation (a : FormArgs)
  | attestation (nonce : List (BitVec 8))
  | debuggerAttach (x : CtxRef) (scope : StopScope)
  | debugStop (w : WarpRef)
  | debugResume (w : WarpRef)
  | singleStep (w : WarpRef)
  | setBreakpoint (x : CtxRef) (k : Nat) (pc : Option Word)
  | debugStateAccess (w : WarpRef) (a : DebugAccess)
  | peerFault (u : FabricUser) (addr : BitVec 64)
  deriving DecidableEq, Repr

end Sys2Proof
end

