-- ==== Sys2Proof/Machine/State.lean ====
section
/-! DEFINITION. The state of the machine as plain data: everything 01 R24 to R30 list, what the engines and the host
side hold, and the model's own three fields `turn`, `agenda` and `fresh` (log 1, log 8). -/

namespace Sys2Proof.Machine

/-- Why a step stops without a next state. -/
inductive Fault where
  /-- Raised by the meaning of an encoded instruction when no warp is at its turn: an instruction word acts only
  through the issue attempt of a warp (R14, R167), so there is nothing to act on. `step` never raises it. Safe: the
  hardware has no such step. -/
  | noIssuingWarp
  deriving DecidableEq, Repr

/-- Why a meaning is refused. -/
inductive Refusal where
  /-- An instruction without a meaning in `exec`. Safe: nothing is claimed of it. -/
  | notModelled (mnemonic : String)
  deriving DecidableEq, Repr

/-! ## Warps -/

/-- A parked path (R149): top of the lay-by first in `Split.layby`. -/
structure LayEntry where
  pc : Word
  mask : Mask
  base : Nat
  deriving DecidableEq, Repr

/-- R24, R149. -/
structure Split where
  pc : Word
  mask : Mask
  base : Nat
  layby : List LayEntry
  joinWait : Bool
  issued : Nat
  deriving DecidableEq, Repr

/-- What holds a blocked warp (R31, R381). -/
inductive Block where
  /-- The replayable fault record of this number (R239). -/
  | fault (num : Nat)
  /-- A queue of the crew, named through group slot `slot` (R201). -/
  | queue (q : Nat) (slot : Nat)
  | claim (n : Nat)
  | barrier (b : BarName) (ph : Bool)
  | wait (used : Nat) (all : Bool)
  /-- Grace: the awaited number (R371). -/
  | grace (n : DWord)
  /-- A window move that makes `b` the bottom of the band (R175). `now`: the band changes as the move ends, because
  the instruction names rows that it brings in (R174); otherwise it changes as the instruction issues (R172). -/
  | move (b : Nat) (now : Bool)
  /-- The engine reads the rows of `wflush` (R192). -/
  | flush
  | fence
  deriving DecidableEq, Repr

/-- A binding of `q0` to `q7` (R199). -/
structure Binding where
  queue : Nat
  pop : Bool
  push : Bool
  closed : Bool
  deriving DecidableEq, Repr

/-- A register with a write that has not landed (R45). -/
inductive Reg where
  | row (r : Nat)
  | scalar (n : Nat)
  | pred (n : Nat)
  | index (k : Nat)
  deriving DecidableEq, Repr

/-- What the completion of an instruction in flight waits for (R44). -/
inductive FlightKind where
  | timed
  /-- `wflush`: the spill buffer holds nothing of the warp (R192). -/
  | flush
  /-- `gstart`, `gsync`, `dfree`: the home returns the number (R296); `n` is known once it has. -/
  | grace (n : Option DWord)
  /-- A matrix or tile-path operation of the core, by its serial (R355). -/
  | engine (id : Nat)
  deriving DecidableEq, Repr

/-- An issued instruction that has not completed: its pending register writes, its flag (R44, R45) and, of a floating
instruction, the `FPCTL` flags that it sets as it completes (R110, R123). -/
structure Flight where
  id : Nat
  regs : List Reg
  setf : Nat
  raise : Option Word
  kind : FlightKind
  deriving DecidableEq, Repr

/-- A held entry of an outbound hold (R419, R422): physical bytes of one store, in program order. -/
structure HoldEntry where
  crew : CrewRef
  warp : Nat
  pa : Nat
  data : List Byte
  poison : Bool
  store : Nat
  sig : DWord
  deriving DecidableEq, Repr

/-- R25, R26, with the rows of the resident ring (R170). `paused`: ticks since `since` that the watchdog does not count
(R367). `compare`, `passed` and `given` belong to a paired launch (R424): the point the warp waits at, whether its
instruction may go on (while it waits: whether it has issued), and the old values that the primary's atomic left for the
shadow. `owed`: the trap that a warp woken from an invalidated barrier takes (R268). `issuedAt`: the cycle of its last issue
(R381). `landed`: cycles until a warp that a pending register write held is eligible (R45). `serving`: passes of a branch with several
targets are still to come (R156). `awaits`: the queues that the instruction blocked on queues transfers over, and whether it
pushes (R202). `taken`: the granules that a `wflush` which waits for room has handed over (R179). `spoiled`: its signature took in a
poisoned word (R335). -/
structure Warp where
  num : Nat
  quarter : Nat
  slot : Nat
  prio : Nat
  splits : List (Option Split)
  cur : Nat
  bot : Nat
  ring : Nat
  high : Nat
  rows : List Row
  poison : List (Nat × Nat)
  scalars : List Word
  scalarPoison : List Nat
  preds : List Mask
  xregs : List (List Byte)
  xlim : List Byte
  flags : List Nat
  bindings : List (Option Binding)
  groups : List Nat
  vacant : Mask
  depth : Nat
  tag : DWord
  stall : Nat
  redirect : Nat
  switch : Nat
  wake : Nat
  landed : Nat
  issuedAt : Option Nat
  block : Option Block
  since : DWord
  paused : Nat
  moved : Option Nat
  numctl : Word
  numstat : Word
  fpctl : Word
  reach : Nat
  woc : BitVec 3
  rej : Bool
  spillBase : DWord
  spillLim : Nat
  laneFault : DWord
  trapBase : Word
  trapCause : Word
  trapPc : Word
  opcount : List (BitVec 48)
  flights : List Flight
  nextFlight : Nat
  graceWait : Option DWord
  graceSent : Bool
  deadline : Option (Option DWord)
  age : Nat
  stopped : Bool
  stepping : Bool
  stopPc : Option Word
  retired : Bool
  lfMask : Mask
  lfCause : BitVec 3
  sig : DWord
  stores : Nat
  compare : Option Nat
  passed : Bool
  given : Option (List Row)
  waitHit : Option (Nat × Bool)
  owed : Option (Nat × Nat)
  serving : Bool
  awaits : List (Nat × Bool)
  taken : List Nat
  spoiled : Bool
  deriving DecidableEq, Repr

/-! ## Crews -/

/-- R265. -/
structure Barrier where
  arrived : DWord
  expect : BitVec 7
  ph : Bool
  inv : Bool
  pend : BitVec 48
  deriving DecidableEq, Repr

/-- R27: one entry of the group table at work. -/
structure Group where
  members : DWord
  base : Nat
  size : Nat
  producer : Option Nat
  tiles : BitVec 8
  accs : BitVec 4
  bars : List Barrier
  serial : BitVec 24
  deriving DecidableEq, Repr

/-- A warp that waits to push to a queue, and whether a slot is reserved for it (R202). -/
structure Waiter where
  warp : Nat
  held : Bool
  deriving DecidableEq, Repr

/-- A warp that waits to pop a queue, and the slot of the row that is reserved for it (R202). -/
structure Popper where
  warp : Nat
  row : Option Nat
  deriving DecidableEq, Repr

/-- A pushed row whose data has not landed (R203); `flight`: the warp and the instruction in flight with whose completion it lands
(R44, R123). -/
structure Landing where
  slot : Nat
  words : Row
  valid : Mask
  poison : Mask
  flight : Option (Nat × Nat)
  deriving DecidableEq, Repr

/-- A delivery of a deferred free (R209, R289). -/
structure Delivery where
  addr : DWord
  len : Word
  num : DWord
  deriving DecidableEq, Repr

/-- R196 with the live state of the queue unit (R198, R202, R218). `offered`: the ready rows that have been offered to the warps
that wait. `fresh`: the slots of rows that the grace unit delivered,
whose pop acquires (R209). -/
structure Queue where
  group : Nat
  off : Nat
  cap : Nat
  state : BitVec 2
  prod : Nat
  head : Nat
  tail : Nat
  count : Nat
  pushed : Word
  popped : Word
  faultw : BitVec 7
  landing : List Landing
  poppers : List Popper
  pushers : List Waiter
  offered : List Nat
  staged : Bool
  pending : List Delivery
  fresh : List Nat
  deriving DecidableEq, Repr

/-- R315, R316: storage and scales list their nonzero entries; `poison` holds 4-byte words, `scalePoison` entries. -/
structure Tile where
  bytes : List Host.Cell
  scales : List (Nat × BitVec 16)
  shape : Word
  poison : List Nat
  scalePoison : List Nat
  readers : Nat
  writers : Nat
  deriving DecidableEq, Repr

/-- One element of an accumulator plane, at index 4096 * plane + 64 * i + j. -/
structure AccCell where
  at_ : Nat
  sum : Word
  err : Word
  deriving DecidableEq, Repr

/-- R324: cells list the elements that are not +0, +0. -/
structure Acc where
  cells : List AccCell
  poison : List Nat
  ridx : BitVec 36
  deriving DecidableEq, Repr

/-- A blocked claim (R185). -/
structure Claim where
  warp : Nat
  rows : Nat
  served : Bool
  deriving DecidableEq, Repr

/-- A bararr that waits for the earlier stores of its warp: `after` are the operations of `tst` and `asave` among them, by
serial (R273, R342). -/
structure Arrival where
  group : Nat
  bar : Nat
  warp : Nat
  after : List Nat
  deriving DecidableEq, Repr

/-- A shadow word of the race check (R383), by word index. -/
structure RaceWord where
  word : Nat
  stamp : BitVec 24
  writer : Nat
  deriving DecidableEq, Repr

/-- What kind of copy the engine holds (R298). -/
inductive CopyKind where
  | linear (load fabric : Bool)
  | rect (load : Bool) (w3 w4 : Word)
  | multicast (fromsp : Bool) (c0 : Nat)
  /-- A copy packet of a command queue (R413): from `glob` to this address. -/
  | packet (q : QueueRef) (index : BitVec 32) (dst : Nat)
  deriving DecidableEq, Repr

/-- One receiver of a copy: the crew whose barrier counts, the units counted, whether it was acknowledged (R304,
R308). A copy without multicast has its own crew as its one receiver. -/
structure Receiver where
  crew : CrewRef
  counted : List Nat
  finished : Bool
  deriving DecidableEq, Repr

/-- A copy that has not completed (R299, R312). -/
structure Copy where
  crew : CrewRef
  warp : Nat
  ctx : CtxRef
  group : Nat
  bar : Nat
  handle : Word
  kind : CopyKind
  glob : Nat
  win : Nat
  len : Nat
  mark : Option (Nat × Word)
  receivers : List Receiver
  suspended : Option Nat
  aperture : Option Nat
  store : Option (Nat × DWord)
  deriving DecidableEq, Repr

/-- A granule the spill engine holds; `faulted`: its write has met a replayable fault and has not completed since (R179). -/
structure Granule where
  warp : WarpRef
  ctx : CtxRef
  index : Nat
  rows : List Row
  poison : List (Nat × Nat)
  base : Nat
  suspended : Option Nat
  faulted : Bool
  deriving DecidableEq, Repr

/-- R28, with the crew's share of its core. A crew that is swapped out keeps its copies and its granules (R179, R312). -/
structure Crew where
  ref : CrewRef
  core : Option Nat
  resuming : Bool
  spillSlot : Nat
  warps : List Warp
  groups : List Group
  queues : List Queue
  arrivals : List Arrival
  scratch : List Host.Cell
  scratchPoison : List Nat
  scratchSize : Nat
  budget : List Nat
  reserve : List Nat
  claims : List (List Claim)
  tiles : List Tile
  accs : List Acc
  gen : BitVec 24
  races : List RaceWord
  savedCopies : List Copy
  savedSpills : List Granule
  deriving DecidableEq, Repr

/-! ## Launches -/

/-- R16, R406. -/
structure WarpEntry where
  quarter : Nat
  ring : Nat
  prio : Nat
  deriving DecidableEq, Repr

structure GroupEntry where
  members : DWord
  base : Nat
  size : Nat
  bars : Nat
  producer : Option Nat
  tiles : BitVec 8
  accs : BitVec 4
  deriving DecidableEq, Repr

structure QueueEntry where
  group : Nat
  producers : Nat
  cap : Nat
  off : Nat
  deriving DecidableEq, Repr

structure Template where
  codeBase : Nat
  codeSize : Nat
  triple : Bool
  scratch : Nat
  tiles : Nat
  accs : Nat
  budget : List Nat
  warps : List WarpEntry
  groups : List GroupEntry
  queues : List QueueEntry
  deriving DecidableEq, Repr

/-- A page copied to the snapshot pool (R419). -/
structure Snapshot where
  page : Nat
  pa : Nat
  size : Nat
  cells : List Host.Cell
  poison : List Nat
  deriving DecidableEq, Repr

/-- R405, with the launch's progress (R30, R448). `badCode`: the 4-byte words of the code that were poisoned when it was read, with
their physical addresses (R428). `fallen`: the warp whose unhandled trap ended the launch, as the trap left it (R135). `ending`: the
status of R449 that a cause has given the launch, and the cycle; at the end of the cycle the launch ends with it. -/
structure Launch where
  id : Nat
  queue : QueueRef
  ctx : CtxRef
  seq : BitVec 32
  tag : DWord
  compl : Bool
  tmpl : Template
  image : List Host.Cell
  badCode : List (Nat × Nat)
  count : Nat
  next : Nat
  ended : Nat
  replay : Bool
  paired : Bool
  coloc : Bool
  race : Bool
  aff : Option (Nat × Nat × Nat)
  replayLimit : Nat
  replays : Nat
  unreplayable : Bool
  confirmed : Bool
  rndkey : DWord
  args : List Word
  spillBase : Nat
  spillW : Nat
  spillSlots : Nat
  hold : List HoldEntry
  snapshots : List Snapshot
  laneFaults : List (Nat × List DWord)
  races : Nat
  sigs : List (CrewRef × DWord)
  done : Option Nat
  fallen : Option Warp
  ending : Option (Nat × Nat)
  deriving DecidableEq, Repr

/-! ## Contexts, queues and partitions -/

/-- An outstanding replayable fault record (R239, R418): its number and the 64 KB page. -/
structure Outstanding where
  num : Nat
  page : Nat
  deriving DecidableEq, Repr

/-- A record written to a ring of bytes. -/
abbrev Record := List Byte

/-- An event or sampling ring and its indices (R395, R417). `last`: the records written at the tick of the latest one, oldest
first. -/
structure Ring where
  base : Nat
  size : Nat
  write : BitVec 32
  read : BitVec 32
  last : List Record
  held : List Record
  dropped : BitVec 32
  deriving DecidableEq, Repr

/-- R396, R415. -/
structure Aperture where
  peer : Nat
  peerCtx : Nat
  base : Nat
  deriving DecidableEq, Repr

/-- A pending deferred free (R289). -/
structure Free where
  entry : Delivery
  queue : CrewQueueRef
  deriving DecidableEq, Repr

/-- What a message from a core carries to the grace home (R283 to R285, R292). -/
inductive GraceMsg where
  /-- A start by a warp. -/
  | start (w : WarpRef) (free : Option (DWord × Word × CrewQueueRef))
  /-- A depth change: the tag the home counts after it, none outside a section, the warp's operations whose stores it follows
  (R292), and in a paired launch the count of the held stores that it follows (R422). -/
  | depth (w : WarpRef) (tag : Option DWord) (after : List Nat) (stores : Nat)
  deriving DecidableEq, Repr

/-- One core's copies of the grace numbers (R283), and the CUR at its last invalidation for `rdenter` (R296). -/
structure GraceCopy where
  core : Nat
  cur : DWord
  acked : DWord
  done : DWord
  seen : DWord
  deriving DecidableEq, Repr

/-- A section the home counts: of a resident warp, or held (R285, R286). -/
structure Section where
  warp : WarpRef
  tag : DWord
  held : Bool
  deriving DecidableEq, Repr

/-- R30, R283 to R286. -/
structure Grace where
  cur : DWord
  ack : DWord
  done : DWord
  starts : List GraceMsg
  depths : List GraceMsg
  copies : List GraceCopy
  sections : List Section
  frees : List Free
  deriving DecidableEq, Repr

/-- A diagnostic record not yet consumed: where it lies in the area and which event record points to it (R447). -/
structure Diag where
  off : Nat
  len : Nat
  record : BitVec 32
  deriving DecidableEq, Repr

/-- The layout of a page (R221, R225). -/
inductive Layout where
  | plain | triple | meanDigits
  deriving DecidableEq, Repr

/-- A leaf of the page table, for the page that starts at virtual address `va` (R220 to R223). -/
structure Leaf where
  va : Nat
  size : Nat
  layout : Layout
  ef : Ty
  stripe : Bool
  ro : Bool
  spill : Bool
  rp : Bool
  poison : Bool
  frame : Nat
  frame1 : Nat
  frame2 : Nat
  plane : Nat
  deriving DecidableEq, Repr

/-- R30, R398. -/
structure Context where
  ref : CtxRef
  root : Nat
  replayOn : Bool
  wdogctl : Word
  diagBase : Nat
  diagNext : Nat
  diags : List Diag
  ring : Ring
  sampleRing : Option Ring
  pool : Nat
  poolSize : Nat
  poolUsed : Nat
  apTable : Nat
  apertures : List (Nat × Option Aperture)
  faultCount : Nat
  outstanding : List Outstanding
  sampling : Option Nat
  grace : Grace
  debugger : Option StopScope
  breakpoints : List (Nat × Word)
  tlb : List Leaf
  deriving DecidableEq, Repr

/-- A packet accepted and not yet completed (R404, R413). -/
structure Pending where
  index : BitVec 32
  seq : BitVec 32
  tag : DWord
  compl : Bool
  kind : Nat
  body : List Byte
  deriving DecidableEq, Repr

/-- R400, R402. `rereads` counts the re-reads of the packet at the head, plus
one once it was found stale; the last read was made at `readTick`; `fetched` is the packet that a re-read accepted. -/
structure CmdQueue where
  ref : QueueRef
  base : Nat
  size : Nat
  prio : Nat
  ctx : Option Nat
  seqbase : BitVec 32
  head : BitVec 32
  last : BitVec 32
  stopped : Bool
  remembered : Option (BitVec 32)
  rereads : Nat
  readTick : DWord
  fetched : Option (List Byte)
  waiting : Option Pending
  pending : List Pending
  deriving DecidableEq, Repr

/-- What an image slot of the shadow region holds (R399): nothing, a context, or crews. -/
inductive ImageSlot where
  | empty
  | context (x : CtxRef)
  | crews (l : List CrewRef)
  deriving DecidableEq, Repr

/-- The saved image of a context (R372): its records as they stood, and for each crew that was swapped out the position in the
partition of the die that held it (R399), the copies of its packets (R312), and the granules of ended crews that are not in memory
(R179). -/
structure Saved where
  slot : Nat
  context : Context
  queues : List CmdQueue
  launches : List Launch
  crews : List Crew
  holders : List (CrewRef × Nat)
  copies : List Copy
  spills : List Granule
  deriving DecidableEq, Repr

/-- R397, R401, R409, R410. -/
structure Partition where
  id : Nat
  dies : List Nat
  ring : Ring
  rotation : Nat
  decisions : Nat
  level : Nat
  slots : List (Nat × Nat × ImageSlot)
  saved : List Saved
  resumes : List CrewRef
  deriving DecidableEq, Repr

/-! ## Cores and dies -/

/-- A line of a data cache (R233, R257). -/
structure Line where
  addr : Nat
  data : List Byte
  poison : List Nat
  filled : Nat
  deriving DecidableEq, Repr

/-- A matrix-unit operation handed over at issue (R332, R340): everything that its effect depends on. -/
structure MatOp where
  id : Nat
  warp : WarpRef
  near : Bool
  instr : Instr
  shapes : List Word
  lanes : Mask
  elems : Row
  rows : List Nat
  queue : Option Nat
  landSlot : Nat
  off : Nat
  base : Word
  acc : Nat
  tiles : List Nat
  deriving DecidableEq, Repr

/-- What a core holds beside its crews. `stamp`, `place`: how far the moves of cycle `stamp` have come (R267, R340; log 1). -/
structure CoreState where
  stamp : Nat
  place : Nat
  l1 : List Line
  copies : List Copy
  matQueue : List MatOp
  matUnit : Option MatOp
  tilePath : List MatOp
  spillBuf : List Granule
  pointers : List Nat
  sampled : List Nat
  nextOp : Nat
  deriving DecidableEq, Repr

structure DieState where
  rdc : List Line
  deadHead : BitVec 32
  deadTail : BitVec 32
  deadLost : BitVec 32
  deriving DecidableEq, Repr

/-! ## The device -/

/-- R389, R431. `holdover`: the tick at which the device lost its master. `pps`: the tick of the last pulse of the timing input.
`heard`: the clocks it has heard of, each by what its last message told. -/
structure Clock where
  cycle : Nat
  tick : DWord
  phase : Nat
  locked : Bool
  removing : Bool
  slewPpm : Int
  hold : Nat
  holdover : Option DWord
  pps : Option DWord
  heard : List PtpClock
  khz : Nat
  deriving DecidableEq, Repr

/-- What a report in the mailbox is about (R393, R432, R447). -/
inductive MailKind where
  | failure | ringFault | telemetry | stage | counters | links | limits
  deriving DecidableEq, Repr

/-- A report of the management controller in the mailbox. -/
structure Mail where
  kind : MailKind
  numbers : List Nat
  deriving DecidableEq, Repr

/-- R392, R393, R395, R432 to R434. `image`, `firmware`, `record`: what attestation measures; `defaults`: the record was ignored;
`errorCount` counts kicks of queues that do not exist and faults of event rings, `corrected` corrected errors. -/
structure Device where
  powered : Bool
  stage : Nat
  failed : Bool
  image : List Byte
  firmware : List Byte
  record : List Byte
  settings : Settings
  defaults : Bool
  mailbox : List Mail
  errorCount : Nat
  corrected : Nat
  hot : Bool
  outOfService : List Nat
  linkDown : List Nat
  answer : List Byte
  answerBad : Bool
  deriving DecidableEq, Repr

/-- A byte of a peer device: peer, peer context, address (R396), and whether it was written as poison (R427). -/
structure PeerCell where
  peer : Nat
  ctx : Nat
  addr : Nat
  byte : Byte
  bad : Bool
  deriving DecidableEq, Repr

/-- Who moves next: a quarter of a core takes its scheduler cycle (R167), or an event comes about (log 1). -/
inductive Move where
  | quarter (core q : Nat)
  | event (i : Instr)
  deriving DecidableEq, Repr

/-- A move and the cycles that pass before it. -/
structure Turn where
  cycles : Nat
  move : Move
  deriving DecidableEq, Repr

/-- The whole machine. Launches are numbered from 1: no crew belongs to launch 0, which stands for the sorting office's own
copies. -/
structure State where
  clock : Clock
  device : Device
  mem : List Host.Cell
  memPoison : List Nat
  peers : List PeerCell
  dies : List DieState
  cores : List CoreState
  partitions : List Partition
  queues : List CmdQueue
  contexts : List Context
  launches : List Launch
  crews : List Crew
  nextLaunch : Nat
  turn : Option WarpRef
  agenda : List Turn
  fresh : Nat
  deriving DecidableEq, Repr

/-! ## Reset -/

def CoreState.reset : CoreState where
  stamp := 0
  place := 0
  l1 := []
  copies := []
  matQueue := []
  matUnit := none
  tilePath := []
  spillBuf := []
  pointers := [0, 0, 0, 0]
  sampled := [15, 15, 15, 15]
  nextOp := 0

def DieState.reset : DieState where
  rdc := []
  deadHead := 0
  deadTail := 0
  deadLost := 0

/-- R389, R431: the counts read 0 at device reset and the tick runs free and unlocked. -/
def Clock.reset : Clock where
  cycle := 0
  tick := 0
  phase := 0
  locked := false
  removing := false
  slewPpm := 0
  hold := 0
  holdover := none
  pps := none
  heard := []
  khz := 1900000

/-- R392, R394, R430: the settings of a device whose record is ignored. -/
def defaultSettings : Settings where
  khz := 1900000
  ports := List.range 36
  lowerAt := 105
  offAt := 115

/-- R432: power is good at no stage yet. -/
def Device.reset : Device where
  powered := true
  stage := 0
  failed := false
  image := []
  firmware := []
  record := []
  settings := defaultSettings
  mailbox := []
  defaults := false
  errorCount := 0
  corrected := 0
  hot := false
  outOfService := []
  linkDown := []
  answer := []
  answerBad := false

/-- The machine right after reset: no partition is formed, no context, launch or crew exists. -/
def State.reset : State where
  clock := .reset
  device := .reset
  mem := []
  memPoison := []
  peers := []
  dies := List.replicate 4 .reset
  cores := List.replicate 192 .reset
  partitions := []
  queues := []
  contexts := []
  launches := []
  crews := []
  nextLaunch := 1
  turn := none
  agenda := []
  fresh := 0

end Sys2Proof.Machine
end

