-- ==== Sys2Proof/Machine/Cells.lean ====
section
/-! DEFINITION. Sparse byte stores in one canonical form, and little-endian words over them (00 R5). -/

namespace Sys2Proof.Machine

/-- The canonical form: addresses strictly rising from `lo`, and no entry equal to what an unlisted address reads. -/
def Memory.wfFrom : Nat → List Host.Cell → Bool
  | _, [] => true
  | lo, (a, b) :: m => lo ≤ a && b != 0 && Memory.wfFrom (a + 1) m

/-- The canonical form of a memory. -/
def Memory.wf (m : List Host.Cell) : Bool := Memory.wfFrom 0 m

/-- What an address that nothing lists reads as (log 2; 09 R232 and 13 R315 for scratchpad and tiles). -/
def Memory.unlisted : Byte := 0

/-- One byte. -/
def Memory.read : List Host.Cell → Nat → Byte
  | [], _ => Memory.unlisted
  | (k, b) :: m, a => if k = a then b else Memory.read m a

/-- Write one byte, keeping the canonical form. -/
def Memory.write : List Host.Cell → Nat → Byte → List Host.Cell
  | [], a, b => if b = 0 then [] else [(a, b)]
  | (k, c) :: m, a, b =>
    if a < k then (if b = 0 then (k, c) :: m else (a, b) :: (k, c) :: m)
    else if a = k then (if b = 0 then m else (a, b) :: m)
    else (k, c) :: Memory.write m a b

/-- `n` bytes from `a`, lowest address first. -/
def Memory.readN (m : List Host.Cell) (a n : Nat) : List Byte :=
  (List.range n).map fun k => Memory.read m (a + k)

/-- Bytes from `a` upwards. -/
def Memory.writeN (m : List Host.Cell) (a : Nat) : List Byte → List Host.Cell
  | [] => m
  | b :: bs => Memory.writeN (Memory.write m a b) (a + 1) bs

/-- Little-endian number of bytes (R5). -/
def leNat (bs : List Byte) : Nat := bs.foldr (fun b n => n * 256 + b.toNat) 0

/-- The low `n` bytes of a number, lowest first. -/
def leBytes (n v : Nat) : List Byte := (List.range n).map fun k => BitVec.ofNat 8 (v >>> (8 * k))

/-- A sorted set of numbers: insertion. -/
def setInsert (a : Nat) : List Nat → List Nat
  | [] => [a]
  | b :: l => if a < b then a :: b :: l else if a = b then b :: l else b :: setInsert a l

/-- A sorted set of numbers: removal. -/
def setErase (a : Nat) (l : List Nat) : List Nat := l.filter (· != a)

/-- The 4-byte words that `n` bytes from `a` touch: the unit in which poison is kept (03 R80, log 14). -/
def wordsOf (a n : Nat) : List Nat :=
  if n = 0 then [] else (List.range ((a + n - 1) / 4 - a / 4 + 1)).map (· + a / 4)

/-- After a write of `n` bytes at `a`: a word that the write covers whole takes the write's poison; one covered in
part keeps its own or gains the write's (log 14). -/
def poisonWrite (ps : List Nat) (a n : Nat) (p : Nat → Bool) : List Nat :=
  (wordsOf a n).foldl (fun ps w =>
    if p w then setInsert w ps
    else if a ≤ 4 * w && 4 * w + 4 ≤ a + n then setErase w ps else ps) ps

/-- Whether any word of a range is poisoned. -/
def anyPoison (ps : List Nat) (a n : Nat) : Bool := (wordsOf a n).any ps.contains

/-- The word at position `i` of a list, 0 beyond its end. -/
def wordAt (l : List Word) (i : Nat) : Word := l.getD i 0

end Sys2Proof.Machine
end

