-- ==== Sys2Proof/Machine/Access.lean ====
section
/-! DEFINITION. Reading and replacing the parts of the state by their names: crews, warps, launches, contexts,
partitions, queues and cores. -/

namespace Sys2Proof.Machine

/-- Replace the members that `p` selects. -/
def updWhere (p : α → Bool) (f : α → α) (l : List α) : List α := l.map fun x => if p x then f x else x

def State.crew? (s : State) (r : CrewRef) : Option Crew := s.crews.find? (·.ref == r)
def State.modCrew (s : State) (r : CrewRef) (f : Crew → Crew) : State :=
  { s with crews := updWhere (·.ref == r) f s.crews }

def State.warp? (s : State) (w : WarpRef) : Option Warp := (s.crew? w.crew).bind fun c => c.warps[w.warp]?
def Crew.modWarp (c : Crew) (n : Nat) (f : Warp → Warp) : Crew := { c with warps := c.warps.modify n f }
def State.modWarp (s : State) (w : WarpRef) (f : Warp → Warp) : State :=
  s.modCrew w.crew fun c => c.modWarp w.warp f

def State.launch? (s : State) (id : Nat) : Option Launch := s.launches.find? (·.id == id)
def State.modLaunch (s : State) (id : Nat) (f : Launch → Launch) : State :=
  { s with launches := updWhere (·.id == id) f s.launches }

def State.context? (s : State) (x : CtxRef) : Option Context := s.contexts.find? (·.ref == x)
def State.modContext (s : State) (x : CtxRef) (f : Context → Context) : State :=
  { s with contexts := updWhere (·.ref == x) f s.contexts }

def State.partition? (s : State) (k : Nat) : Option Partition := s.partitions.find? (·.id == k)
def State.modPartition (s : State) (k : Nat) (f : Partition → Partition) : State :=
  { s with partitions := updWhere (·.id == k) f s.partitions }

def State.cmdQueue? (s : State) (q : QueueRef) : Option CmdQueue := s.queues.find? (·.ref == q)
def State.modCmdQueue (s : State) (q : QueueRef) (f : CmdQueue → CmdQueue) : State :=
  { s with queues := updWhere (·.ref == q) f s.queues }

def State.coreAt (s : State) (n : Nat) : CoreState := s.cores.getD n .reset
def State.modCore (s : State) (n : Nat) (f : CoreState → CoreState) : State :=
  { s with cores := s.cores.modify n f }
def State.dieAt (s : State) (d : Nat) : DieState := s.dies.getD d .reset
def State.modDie (s : State) (d : Nat) (f : DieState → DieState) : State :=
  { s with dies := s.dies.modify d f }

def Crew.modQueue (c : Crew) (n : Nat) (f : Queue → Queue) : Crew := { c with queues := c.queues.modify n f }
def Crew.modGroup (c : Crew) (n : Nat) (f : Group → Group) : Crew := { c with groups := c.groups.modify n f }
def Crew.modBarrier (c : Crew) (g b : Nat) (f : Barrier → Barrier) : Crew :=
  c.modGroup g fun gr => { gr with bars := gr.bars.modify b f }
def Crew.modTile (c : Crew) (n : Nat) (f : Tile → Tile) : Crew := { c with tiles := c.tiles.modify n f }
def Crew.modAcc (c : Crew) (n : Nat) (f : Acc → Acc) : Crew := { c with accs := c.accs.modify n f }

/-- The operations of a core's matrix unit and tile-load path that have not completed (R340). -/
def CoreState.ops (k : CoreState) : List MatOp := k.matQueue ++ k.matUnit.toList ++ k.tilePath

/-- An operation that stores to the scratchpad as it completes (R342). -/
def MatOp.stores (o : MatOp) : Bool :=
  match o.instr with
  | .tst _ _ | .asave _ _ => true
  | _ => false

/-- The unfinished `tst` and `asave` of a warp on a core, by serial (R342). -/
def State.storing (s : State) (core : Nat) (r : WarpRef) : List Nat :=
  ((s.coreAt core).ops.filter fun o => o.stores && o.warp == r).map (·.id)

/-- The core a placed crew stands on, and 0 for one that is swapped out. -/
def Crew.coreNo (c : Crew) : Nat := c.core.getD 0

/-- The die of a core (R13). -/
def dieOfCore (core : Nat) : Nat := core / 48

/-- A scalar register (R25). -/
def Warp.scalar (w : Warp) (n : Nat) : Word := w.scalars.getD n 0
/-- A 64-bit scalar operand: the even register holds the low half (R56). -/
def Warp.scalarPair (w : Warp) (n : Nat) : DWord := w.scalar (n + 1) ++ w.scalar n
def Warp.setScalar (w : Warp) (n : Nat) (v : Word) : Warp :=
  { w with scalars := w.scalars.set n v, scalarPoison := w.scalarPoison.filter (· != n) }
def Warp.setScalarPair (w : Warp) (n : Nat) (v : DWord) : Warp :=
  (w.setScalar n (v.extractLsb' 0 32)).setScalar (n + 1) (v.extractLsb' 32 32)

/-- A predicate: `p7` reads true (R25). -/
def Warp.pred (w : Warp) (n : BitVec 3) : Mask := if n = 7 then BitVec.allOnes 48 else w.preds.getD n.toNat 0
def Warp.setPred (w : Warp) (n : BitVec 3) (m : Mask) : Warp := { w with preds := w.preds.set n.toNat m }

/-- A split that holds nothing, for a slot that is free. -/
def Split.empty : Split := ⟨0, 0, 0, [], false, 0⟩

def Warp.splitAt (w : Warp) (n : Nat) : Option Split := (w.splits[n]?).join
/-- The issuing split (R149). -/
def Warp.split (w : Warp) : Split := (w.splitAt w.cur).getD .empty
def Warp.setSplit (w : Warp) (n : Nat) (x : Option Split) : Warp := { w with splits := w.splits.set n x }
def Warp.modSplit (w : Warp) (n : Nat) (f : Split → Split) : Warp :=
  { w with splits := w.splits.modify n (·.map f) }

/-- A completion flag f1 to f12; f0 reads 0 (R44). -/
def Warp.flag (w : Warp) (k : Nat) : Nat := if k = 0 then 0 else w.flags.getD (k - 1) 0
def Warp.modFlag (w : Warp) (k : Nat) (f : Nat → Nat) : Warp :=
  if k = 0 then w else { w with flags := w.flags.modify (k - 1) f }

/-- A lane register word of the stack row `r`: rows outside the band hold nothing a program reads (R169, R174). -/
def Warp.rowAt (w : Warp) (r : Nat) : Row := if r < w.bot then [] else w.rows.getD (r - w.bot) []
def Warp.laneWord (w : Warp) (r l : Nat) : Word := wordAt (w.rowAt r) l
def Warp.setRow (w : Warp) (r : Nat) (row : Row) : Warp :=
  if r < w.bot then w else { w with rows := w.rows.set (r - w.bot) row }

/-- Whether a lane word is poisoned (R37). -/
def Warp.poisoned (w : Warp) (r l : Nat) : Bool := w.poison.contains (r, l)

/-- Write the lanes of `m` of a row, with the poison of the new words. -/
def Warp.writeRow (w : Warp) (r : Nat) (m : Mask) (new : Row) (bad : Mask) : Warp :=
  let old := w.rowAt r
  let w := w.setRow r (laneList.map fun l => if m.getLsbD l then wordAt new l else wordAt old l)
  let kept := w.poison.filter fun x => !(x.1 == r && m.getLsbD x.2)
  { w with poison := kept ++ (laneList.filter fun l => m.getLsbD l && bad.getLsbD l).map fun l => (r, l) }

/-- The index register xk of a lane (R188). -/
def Warp.index (w : Warp) (k l : Nat) : Byte := (w.xregs.getD k []).getD l 0
def Warp.limit (w : Warp) (k : Nat) : Byte := w.xlim.getD k 0

/-- The group in a slot of a warp (R15). -/
def Crew.slotGroup (c : Crew) (w : Warp) (slot : Nat) : Option (Nat × Group) :=
  (w.groups[slot]?).bind fun g => (c.groups[g]?).map fun gr => (g, gr)

/-- The lanes of a mask in ascending order (R9). -/
def maskLanes (m : Mask) : List Nat := laneList.filter fun l => m.getLsbD l

/-- A mask from a test on lanes. -/
def maskOf (p : Nat → Bool) : Mask :=
  laneList.foldr (fun l m => if p l then m ||| (1#48 <<< l) else m) 0

/-- Whether a launch runs in triple mode (R22). -/
def Launch.triple (l : Launch) : Bool := l.tmpl.triple

/-- The threads of a warp (R22): each thread's lanes in sibling order. -/
def threadLanes (triple : Bool) (t : Nat) : List Nat := if triple then [3 * t, 3 * t + 1, 3 * t + 2] else [t]
def threads (triple : Bool) : Nat := if triple then 16 else 48
def threadOf (triple : Bool) (l : Nat) : Nat := if triple then l / 3 else l
def siblingOf (triple : Bool) (l : Nat) : Nat := if triple then l % 3 else 0

end Sys2Proof.Machine
end

