-- ==== Sys2Proof/Machine/Float.lean ====
section
/-! DEFINITION. Floating values, exact reals as far as rounding needs them, and the one rounding rule (04 R103 to
R108, R119, R121), with the sibling measures `digits`, `mean` and `recon` (05 R129 to R132). -/

namespace Sys2Proof.Machine

/-! ## Formats -/

/-- A binary format: significand bits, exponents of the smallest normal and of the largest binade, total width,
whether it has subnormals, and whether its top exponent codes infinities and NaNs (R103; 13 R320). -/
structure Fmt where
  p : Nat
  emin : Int
  emax : Int
  width : Nat
  subn : Bool
  special : Bool
  deriving DecidableEq, Repr

def Fmt.fp32 : Fmt := ⟨24, -126, 127, 32, true, true⟩
def Fmt.fp16 : Fmt := ⟨11, -14, 15, 16, true, true⟩
def Fmt.bf16 : Fmt := ⟨8, -126, 127, 16, false, true⟩
def Fmt.e4m3 : Fmt := ⟨4, -6, 8, 8, true, false⟩
def Fmt.e5m2 : Fmt := ⟨3, -14, 16, 8, true, false⟩
def Fmt.e2m1 : Fmt := ⟨2, 0, 2, 4, true, false⟩

/-- The format of a floating type code; FP32 is also the default of classes 0x2 and 0x3 (R113, R140). -/
def fmtOf : Ty → Fmt
  | .f16 => .fp16
  | .bf16 => .bf16
  | .e4m3 => .e4m3
  | .e5m2 => .e5m2
  | .e2m1 => .e2m1
  | _ => .fp32

/-- A floating value: a zero is `fin` with significand 0, and keeps its sign. -/
inductive FVal where
  | nan (signalling : Bool)
  | inf (neg : Bool)
  | fin (neg : Bool) (m : Nat) (e : Int)
  deriving DecidableEq, Repr

/-- The value of a code, BF16 subnormals not flushed. -/
def Fmt.decodeRaw (f : Fmt) (c : Nat) : FVal :=
  let frac := c % 2 ^ (f.p - 1)
  let ex := (c / 2 ^ (f.p - 1)) % 2 ^ (f.width - f.p)
  let neg := c.testBit (f.width - 1)
  if f.special && ex == 2 ^ (f.width - f.p) - 1 then
    (if frac == 0 then .inf neg else .nan (!c.testBit (f.p - 2)))
  else if ex == 0 then .fin neg frac (f.emin - (f.p - 1))
  else .fin neg (frac + 2 ^ (f.p - 1)) (f.emin + (ex : Int) - 1 - (f.p - 1))

/-- The value of a code as an operand: BF16 subnormals are flushed to zero with their sign (R103). -/
def Fmt.decode (f : Fmt) (c : Nat) : FVal :=
  match f.decodeRaw c with
  | .fin neg m e => if !f.subn && m < 2 ^ (f.p - 1) then .fin neg 0 e else .fin neg m e
  | v => v

def FVal.isNan : FVal → Bool
  | .nan _ => true
  | _ => false
def FVal.isSnan : FVal → Bool
  | .nan s => s
  | _ => false
def FVal.isInf : FVal → Bool
  | .inf _ => true
  | _ => false
def FVal.isZero : FVal → Bool
  | .fin _ m _ => m == 0
  | _ => false
def FVal.finite : FVal → Bool
  | .fin _ _ _ => true
  | _ => false
def FVal.sign : FVal → Bool
  | .nan _ => false
  | .inf n => n
  | .fin n _ _ => n
/-- R112: negation flips the sign and leaves a NaN a NaN. -/
def FVal.negIf (b : Bool) : FVal → FVal
  | .nan s => .nan s
  | .inf n => .inf (n != b)
  | .fin n m e => .fin (n != b) m e

/-- The default NaN's code (R104). -/
def Fmt.nanCode (f : Fmt) : Nat := (2 ^ (f.width - f.p) - 1) * 2 ^ (f.p - 1) + 2 ^ (f.p - 2)
def Fmt.infCode (f : Fmt) (neg : Bool) : Nat :=
  (2 ^ (f.width - f.p) - 1) * 2 ^ (f.p - 1) + (if neg then 2 ^ (f.width - 1) else 0)
def Fmt.signBit (f : Fmt) (neg : Bool) : Nat := if neg then 2 ^ (f.width - 1) else 0
/-- The largest finite code without its sign. -/
def Fmt.maxCode (f : Fmt) : Nat := if f.special then f.infCode false - 1 else 2 ^ (f.width - 1) - 1

/-- The code of `m` times 2 to the `e`, which the format holds exactly. -/
def Fmt.pack (f : Fmt) (neg : Bool) (m : Nat) (e : Int) : Nat :=
  if m == 0 then f.signBit neg
  else
    let l : Int := (m.log2 : Int) + e
    let q : Int := max l f.emin - (f.p - 1)
    let k := if q ≤ e then m <<< (e - q).toNat else m >>> (q - e).toNat
    let field : Nat := if l < f.emin then 0 else (l - f.emin + 1).toNat
    f.signBit neg + (if field == 0 then k else (field - 1) * 2 ^ (f.p - 1) + k)

/-! ## Exact values -/

/-- A dyadic number: `n` times 2 to the `e`. -/
structure Dy where
  n : Int
  e : Int
  deriving DecidableEq, Repr

def Dy.zero : Dy := ⟨0, 0⟩
def Dy.at_ (a : Dy) (e : Int) : Int := a.n * 2 ^ (a.e - e).toNat
def Dy.add (a b : Dy) : Dy := let e := min a.e b.e; ⟨a.at_ e + b.at_ e, e⟩
def Dy.neg (a : Dy) : Dy := ⟨-a.n, a.e⟩
def Dy.sub (a b : Dy) : Dy := a.add b.neg
def Dy.mul (a b : Dy) : Dy := ⟨a.n * b.n, a.e + b.e⟩
def Dy.lt (a b : Dy) : Bool := (a.sub b).n < 0
def Dy.eq (a b : Dy) : Bool := (a.sub b).n == 0
/-- floor of the binary logarithm of the magnitude (R129); 0 for zero, which callers exclude. -/
def Dy.ilogb (a : Dy) : Int := (a.n.natAbs.log2 : Int) + a.e

def FVal.dy : FVal → Dy
  | .fin neg m e => ⟨if neg then -(m : Int) else m, e⟩
  | _ => .zero

/-- A positive real as rounding uses it: the floor of its logarithm, and for each k the floor of x over 2 to the k
with whether that division is exact. -/
structure PosReal where
  ilog : Int
  flr : Int → Nat × Bool

def shiftFlr (n : Nat) (sh : Int) : Nat × Bool :=
  if 0 ≤ sh then (n <<< sh.toNat, true)
  else if (n.log2 : Int) < -sh then (0, n == 0)
  else (n >>> (-sh).toNat, n % 2 ^ (-sh).toNat == 0)

def PosReal.dyadic (m : Nat) (e : Int) : PosReal where
  ilog := (m.log2 : Int) + e
  flr k := shiftFlr m (e - k)

/-- n over d, times 2 to the e. -/
def PosReal.ratio (n d : Nat) (e : Int) : PosReal where
  ilog :=
    let g : Int := (n.log2 : Int) - d.log2
    let below := if 0 ≤ g then n < d <<< g.toNat else n <<< (-g).toNat < d
    (if below then g - 1 else g) + e
  flr k :=
    let sh := e - k
    let (a, b) := if 0 ≤ sh then (n <<< sh.toNat, d) else (n, d <<< (-sh).toNat)
    (a / b, a % b == 0)

/-- Newton's descent to the integer square root, from above. -/
def isqrtFrom (n : Nat) : Nat → Nat → Nat
  | 0, x => x
  | fuel + 1, x => let y := (x + n / x) / 2; if y < x then isqrtFrom n fuel y else x

def isqrt (n : Nat) : Nat := if n == 0 then 0 else isqrtFrom n (n.log2 + 2) (2 ^ (n.log2 / 2 + 1))

/-- The square root of n times 2 to the e. -/
def PosReal.sqrt (n : Nat) (e : Int) : PosReal where
  ilog := ((n.log2 : Int) + e) / 2
  flr k :=
    let (v, ex) := shiftFlr n (e - 2 * k)
    let r := isqrt v
    (r, ex && r * r == v)

/-- One over the square root of n times 2 to the e. -/
def PosReal.rsqrt (n : Nat) (e : Int) : PosReal where
  ilog :=
    let l : Int := (n.log2 : Int) + e
    if n == 2 ^ n.log2 && l % 2 == 0 then -(l / 2) else -(l / 2) - 1
  flr k :=
    let j := -(e + 2 * k)
    if j < 0 then (0, false)
    else
      let q := 2 ^ j.toNat / n
      let r := isqrt q
      (r, r * r * n == 2 ^ j.toNat)

/-! The two transcendental functions: fixed-point values of `fracBits` bits below the point, each a lower bound that
is less than 2 to the -300 below the exact value (log 16). -/

def fracBits : Nat := 320

/-- ln 2 as the sum of 1 over k times 2 to the k. -/
def ln2From : Nat → Nat → Nat
  | 0, _ => 0
  | fuel + 1, k => 2 ^ fracBits / (k * 2 ^ k) + ln2From fuel (k + 1)

def ln2Fixed : Nat := ln2From fracBits 1

/-- The exponential series from term `k` on, `t` being the current term. -/
def expSeries (x : Nat) : Nat → Nat → Nat → Nat
  | 0, _, t => t
  | fuel + 1, k, t => t + expSeries x fuel (k + 1) (t * x / 2 ^ fracBits / k)

/-- 2 to a fraction given in fixed point. -/
def exp2Frac (f : Nat) : Nat := expSeries (f * ln2Fixed / 2 ^ fracBits) 80 1 (2 ^ fracBits)

/-- 2 to the a, for a finite nonzero a: exact for an integer, otherwise irrational. -/
def PosReal.exp2 (a : Dy) : PosReal :=
  let i : Int := if 0 ≤ a.e then a.n * 2 ^ a.e.toNat else a.n / 2 ^ (-a.e).toNat
  let isInt := 0 ≤ a.e || a.n % 2 ^ (-a.e).toNat == 0
  if isInt then .dyadic 1 i
  else
    let f : Nat := ((a.n - i * 2 ^ (-a.e).toNat) * 2 ^ fracBits / 2 ^ (-a.e).toNat).toNat
    let v := exp2Frac f
    { ilog := i, flr := fun k => ((shiftFlr v (i - k - fracBits)).1, false) }

/-- Bits of the logarithm of m, a fixed-point number in [1, 2), most significant first. -/
def log2Bits : Nat → Nat → Nat → Nat
  | 0, _, acc => acc
  | fuel + 1, m, acc =>
    let sq := m * m / 2 ^ 640
    if sq < 2 ^ 641 then log2Bits fuel sq (2 * acc) else log2Bits fuel (sq / 2) (2 * acc + 1)

/-- The magnitude of log2 of m times 2 to the e, neither being a power of two: 160 bits below the point. -/
def log2Fixed (m : Nat) (e : Int) : Bool × Nat :=
  let i : Int := (m.log2 : Int) + e
  let f := log2Bits 160 (m * 2 ^ 640 / 2 ^ m.log2) 0
  if 0 ≤ i then (false, i.toNat * 2 ^ 160 + f) else (true, (-i).toNat * 2 ^ 160 - f - 1)

def PosReal.fixed160 (v : Nat) : PosReal where
  ilog := (v.log2 : Int) - 160
  flr k := ((shiftFlr v (-160 - k)).1, false)

/-- What an operation hands to the rounding: a special value or a signed real (R106). -/
inductive Exact where
  | nan
  | inf (neg : Bool)
  | zero (neg : Bool)
  | real (neg : Bool) (r : PosReal)

/-- A dyadic number, with the sign its zero takes. -/
def Exact.ofDy (d : Dy) (zneg : Bool) : Exact :=
  if d.n == 0 then .zero zneg else .real (d.n < 0) (.dyadic d.n.natAbs d.e)

def FVal.exact : FVal → Exact
  | .nan _ => .nan
  | .inf n => .inf n
  | .fin n m e => if m == 0 then .zero n else .real n (.dyadic m e)

/-! ## Rounding -/

/-- The flag conditions of R109. -/
structure FFlags where
  nv : Bool := false
  dz : Bool := false
  ov : Bool := false
  uf : Bool := false
  nx : Bool := false
  deriving DecidableEq, Repr

def FFlags.or (a b : FFlags) : FFlags :=
  ⟨a.nv || b.nv, a.dz || b.dz, a.ov || b.ov, a.uf || b.uf, a.nx || b.nx⟩

/-- The neighbour that a mode chooses at spacing 2 to the q: the magnitude in units of it, and whether it is exact
(R106, R119). `w` is the generator word of a drawing mode. -/
def pick (mode : Rm) (w : BitVec 64) (neg : Bool) (r : PosReal) (q : Int) : Nat × Bool :=
  let (m, ex) := r.flr q
  if ex then (m, true)
  else
    let (h, hex) := r.flr (q - 1)
    let upper := h % 2 == 1
    let tie := upper && hex
    let away : Bool :=
      match mode with
      | .rz => false
      | .ru => !neg
      | .rd => neg
      | .rna => upper
      | .rsib => w.getLsbD 63 != neg
      | .rsto =>
        let (t, tex) := r.flr (q - 24)
        let fr := t - m * 2 ^ 24
        let f := if neg then 2 ^ 24 - fr - (if tex then 0 else 1) else fr
        decide ((w.toNat >>> 40) < f) != neg
      | _ => if tie then m % 2 == 1 else upper
    (if away then m + 1 else m, false)

/-- R106: the code of x in format f, and the flags of R109 that the rounding raises. -/
def roundTo (f : Fmt) (mode : Rm) (w : BitVec 64) : Exact → Nat × FFlags
  | .nan => (f.nanCode, {})
  | .inf n => (f.infCode n, {})
  | .zero n => (f.signBit n, {})
  | .real neg r =>
    let q : Int := (if f.subn then max r.ilog f.emin else r.ilog) - (f.p - 1)
    let (m, ex) := pick mode w neg r q
    let tiny := decide (r.ilog < f.emin)
    if m == 0 then (f.signBit neg, { uf := true, nx := true })
    else
      let l : Int := (m.log2 : Int) + q
      let maxM : Nat := if f.special then 2 ^ f.p - 1 else f.maxCode % 2 ^ (f.p - 1) + 2 ^ (f.p - 1)
      let huge := decide (f.emax < l) ||
        (decide (l = f.emax) && decide (maxM * 2 ^ (f.emax - (f.p - 1) - q).toNat < m))
      if huge then
        let toMax := !f.special || mode == .rz || (mode == .ru && neg) || (mode == .rd && !neg)
        (if toMax then f.signBit neg + f.maxCode else f.infCode neg, { ov := true, nx := true })
      else if !f.subn && decide (l < f.emin) then (f.signBit neg, { uf := true, nx := true })
      else (f.pack neg m q, { uf := tiny && !ex, nx := !ex })

/-- R119: a finite value at spacing 1. -/
def roundInt (mode : Rm) (w : BitVec 64) (neg : Bool) (m : Nat) (e : Int) : Nat × Bool :=
  pick mode w neg (.dyadic m e) 0

/-- Round to nearest even, without a draw. -/
def roundNear (f : Fmt) (x : Exact) : Nat := (roundTo f .rne 0 x).1

/-! ## Sums, products and special operands (R114, R118) -/

/-- R114: the sum, with the sign of an exact zero under the mode. -/
def exactAdd (mode : Rm) (a b : FVal) : Exact :=
  match a, b with
  | .nan _, _ | _, .nan _ => .nan
  | .inf x, .inf y => if x == y then .inf x else .nan
  | .inf x, _ => .inf x
  | _, .inf y => .inf y
  | .fin x _ _, .fin y _ _ =>
    .ofDy (a.dy.add b.dy) (if a.isZero && b.isZero && x == y then x else mode == .rd)

def exactMul (a b : FVal) : FVal :=
  match a, b with
  | .nan _, _ | _, .nan _ => .nan false
  | .inf x, y => if y.isZero then .nan false else .inf (x != y.sign)
  | x, .inf y => if x.isZero then .nan false else .inf (x.sign != y)
  | .fin x m e, .fin y n d => .fin (x != y) (m * n) (e + d)

/-- Whether a sum or product of operands that are no NaN is invalid (R114). -/
def addInvalid (a b : FVal) : Bool := a.isInf && b.isInf && a.sign != b.sign
def mulInvalid (a b : FVal) : Bool := (a.isInf && b.isZero) || (a.isZero && b.isInf)

/-! ## Sibling measures (05) -/

/-- Numeric order: 0 equal, with -0 equal to +0; only for values that are no NaN. -/
def FVal.ltNum (a b : FVal) : Bool :=
  match a, b with
  | .inf x, .inf y => x && !y
  | .inf x, _ => x
  | _, .inf y => !y
  | a, b => a.dy.lt b.dy
def FVal.eqNum (a b : FVal) : Bool := !a.isNan && !b.isNan && !a.ltNum b && !b.ltNum a

def clampInt (x lo hi : Int) : Int := if x < lo then lo else if hi < x then hi else x

/-- R129. -/
def digits3 (f : Fmt) (x0 x1 x2 : FVal) : Nat :=
  if x0.isNan || x1.isNan || x2.isNan then 0
  else if x0.isInf || x1.isInf || x2.isInf then (if x0 == x1 && x1 == x2 then f.p else 0)
  else
    let mx := [x1, x2].foldl (fun (a b : FVal) => if a.ltNum b then b else a) x0
    let mn := [x1, x2].foldl (fun (a b : FVal) => if b.ltNum a then b else a) x0
    let d := mx.dy.sub mn.dy
    if d.n == 0 then f.p
    else
      let sum := (x0.dy.add x1.dy).add x2.dy
      if sum.n == 0 then 0
      else
        let r := PosReal.ratio sum.n.natAbs 3 sum.e
        let (m, _) := pick .rne 0 false r (r.ilog - 23)
        let l := if m == 2 ^ 24 then r.ilog + 1 else r.ilog
        (clampInt (l - d.ilogb - 1) 0 f.p).toNat

/-- R130: the code of the mean. -/
def mean3 (f : Fmt) (x0 x1 x2 : FVal) : Nat :=
  let xs := [x0, x1, x2]
  if xs.any (·.isNan) then f.nanCode
  else
    let pos := xs.any (· == .inf false)
    let neg := xs.any (· == .inf true)
    if pos && neg then f.nanCode
    else if pos then f.infCode false
    else if neg then f.infCode true
    else
      let sum := (x0.dy.add x1.dy).add x2.dy
      if sum.n == 0 then f.signBit (xs.all fun x => x.isZero && x.sign)
      else roundNear f (.real (sum.n < 0) (.ratio sum.n.natAbs 3 sum.e))

/-- R132: the code of sibling s of a stored pair. A mean that decodes to zero, a subnormal BF16 code among them, is returned as it is
coded (log 72). -/
def recon (f : Fmt) (code b s : Nat) : Nat :=
  let m := f.decode code
  if !m.finite || m.isZero || f.p ≤ b then code
  else
    let d : Dy := ⟨(s : Int) - 1, m.dy.ilogb - b - 2⟩
    roundNear f (.ofDy (m.dy.add d) m.sign)

end Sys2Proof.Machine
end

