-- ==== Sys2Proof/Machine/Space.lean ====
section
/-! DEFINITION. The address space: the physical map (16 R394, R399), the page table (09 R219 to R223), caches (R233,
R257), and reading and writing physical bytes, outbound hold included (16 R419, R422). -/

namespace Sys2Proof.Machine

/-! ## The physical map -/

inductive Region where
  | dram (die loc : Nat)
  | aperture (a off : Nat)
  | host
  | absent
  deriving DecidableEq, Repr

def dieSlot : Nat := 0x20_0000_0000
def diePopulated : Nat := 0x18_0000_0000
def reservedSize : Nat := 0x4000_0000
/-- The die-local address of the reserved gigabyte (R399). -/
def reservedBase : Nat := diePopulated - reservedSize

/-- R394. -/
def region (pa : Nat) : Region :=
  if pa < 0x80_0000_0000 then
    (if pa % dieSlot < diePopulated then .dram (pa / dieSlot) (pa % dieSlot) else .absent)
  else if pa < 0x4000_0000_0000 then .absent
  else if pa < 0x8000_0000_0000 then
    .aperture ((pa - 0x4000_0000_0000) / 0x100_0000_0000) ((pa - 0x4000_0000_0000) % 0x100_0000_0000)
  else if pa < 0x1_0000_0000_0000 then .host
  else .absent

/-- Whether `n` bytes of DRAM from `pa` lie in one partition die, populated and not reserved; host memory and
apertures pass (R221, R394). -/
def placeOk (dies : List Nat) (pa n : Nat) : Bool :=
  match region pa, region (pa + n - 1) with
  | .dram d l, .dram d' l' => d == d' && dies.contains d && l' < reservedBase && l ≤ l'
  | .host, .host => true
  | .aperture a _, .aperture a' _ => a == a'
  | _, _ => false

/-! ## Bytes of memory and apertures (R396, R415) -/

/-- A byte of device or host memory as it stands at its home. -/
def State.rawByte (s : State) (pa : Nat) : Byte := Memory.read s.mem pa

def State.rawNat (s : State) (pa n : Nat) : Nat := leNat ((List.range n).map fun k => s.rawByte (pa + k))

/-- Entry `a` of a context's aperture table: one that a packet set, else the table in memory. -/
def State.apertureEntry (s : State) (c : Context) (a : Nat) : Option Aperture :=
  match c.apertures.find? (·.1 == a) with
  | some (_, e) => e
  | none =>
    if c.apTable == 0 then none
    else
      let at_ := c.apTable + 32 * a
      if (s.rawNat (at_ + 3) 1).testBit 0 then
        some ⟨s.rawNat at_ 2, s.rawNat (at_ + 2) 1, s.rawNat (at_ + 8) 8⟩
      else none

/-- The poisoned word of entry `a` in the aperture table in memory, which an access through it consumes (R428). -/
def State.apertureBad (s : State) (c : Context) (a : Nat) : Option Nat :=
  let at_ := c.apTable + 32 * a
  if c.apTable == 0 || c.apertures.any (·.1 == a) then none
  else ([0, 4, 8, 12].map (at_ + ·)).find? fun pa => s.memPoison.contains (pa / 4)

/-- A byte of a peer, and whether it was written as poison (R427). -/
def State.peerByte (s : State) (p c a : Nat) : Byte × Bool :=
  match s.peers.find? fun x => x.peer == p && x.ctx == c && x.addr == a with
  | some x => (x.byte, x.bad)
  | none => (Config.peerByte p c a, false)

def State.setPeerByte (s : State) (p c a : Nat) (b : Byte) (bad : Bool) : State :=
  { s with peers := ⟨p, c, a, b, bad⟩ :: s.peers.filter fun x => !(x.peer == p && x.ctx == c && x.addr == a) }

/-- A byte through an aperture of a context; one whose entry is not set reads 0: the access was refused before (R238). -/
def State.apertureByte (s : State) (c : Option Context) (a o : Nat) : Byte × Bool :=
  match c.bind fun c => s.apertureEntry c a with
  | some e => s.peerByte e.peer e.peerCtx (e.base + o)
  | none => (0, false)

/-- A byte that a table walk of a context reads (R224, R394), and whether its word is poisoned. -/
def State.tableByte (s : State) (c : Context) (pa : Nat) : Byte × Bool :=
  match region pa with
  | .aperture a o => s.apertureByte (some c) a o
  | _ => (s.rawByte pa, s.memPoison.contains (pa / 4))

/-! ## Page tables -/

/-- Bits `hi` to `lo` of a number. -/
def bitsOf (v lo n : Nat) : Nat := (v >>> lo) % 2 ^ n

/-- The code, above those of R238, of an access whose walk reads a poisoned entry: it consumes the error (R80, R428), and the code
carries the physical address of the entry. -/
def consumedCode (pa : Nat) : Nat := 16 + pa

/-- What a translation answers: a leaf, or a fault code of R238 (2 not present, 3 malformed), or that the walk consumed an error. -/
inductive Xlat where
  | ok (l : Leaf)
  | fault (code : Nat)
  deriving DecidableEq, Repr

/-- Entries, first indexed bit and leaf size of a level (R220). -/
def levelBits : Nat → Nat × Nat
  | 0 => (10, 39)
  | 1 => (9, 30)
  | 2 => (9, 21)
  | _ => (5, 16)

def efOf (n : Nat) : Option Ty :=
  match n with
  | 0 => some .f32
  | 1 => some .f16
  | 2 => some .bf16
  | _ => none

/-- A striped page's frame: every 4 KB unit on each of the four dies (R221, R223). -/
def stripedOk (dies : List Nat) (frame size : Nat) : Bool :=
  match region frame with
  | .dram _ l => dies.length == 4 && l + size / 4 ≤ reservedBase
  | _ => false

def frameOk (dies : List Nat) (stripe : Bool) (frame size : Nat) : Bool :=
  frame % size == 0 && (if stripe then stripedOk dies frame size else placeOk dies frame size)

def isDram (pa : Nat) : Bool :=
  match region pa with
  | .dram _ _ => true
  | _ => false

/-- A leaf entry of 16 or 32 bytes, read as one number (R221, R222). -/
def leafOf (dies : List Nat) (level : Nat) (wide : Bool) (e va : Nat) : Xlat :=
  let size := 2 ^ (levelBits level).2
  let lay := bitsOf e 3 2
  let stripe := e.testBit 7
  let frame := bitsOf e 16 32 * 65536
  let hi := e / 2 ^ 128
  let f1 := bitsOf hi 16 32 * 65536
  let f2 := bitsOf hi 80 32 * 65536
  let plane := bitsOf hi 16 36 * 4096
  let clear := bitsOf e 12 4 == 0 && bitsOf e 48 80 == 0 && !e.testBit 2 && level != 0
  let leaf (layout : Layout) (ef : Ty) (f1 f2 plane : Nat) : Leaf :=
    { va := va / size * size, size, layout, ef, stripe, ro := e.testBit 8, spill := e.testBit 9,
      rp := e.testBit 10, poison := e.testBit 11, frame, frame1 := f1, frame2 := f2, plane }
  match efOf (bitsOf e 5 2) with
  | none => .fault 3
  | some ef =>
    if !clear || !frameOk dies stripe frame size then .fault 3
    else if !isDram frame && (lay != 0 || stripe) then .fault 3
    else if lay == 0 then
      (if wide && hi != 0 then .fault 3 else .ok (leaf .plain ef 0 0 0))
    else if !wide then .fault 3
    else if lay == 1 then
      (if bitsOf hi 0 16 == 0 && bitsOf hi 48 32 == 0 && bitsOf hi 112 16 == 0 &&
          isDram f1 && isDram f2 && frameOk dies stripe f1 size && frameOk dies stripe f2 size
        then .ok (leaf .triple ef f1 f2 0) else .fault 3)
    else if lay == 2 then
      (let psize := if ef == .f32 then size / 4 else size / 2
       if bitsOf hi 0 16 == 0 && bitsOf hi 52 76 == 0 && isDram plane && placeOk dies plane psize
        then .ok (leaf .meanDigits ef 0 0 plane) else .fault 3)
    else .fault 3

/-- One level of the walk (R220, R224), from the table at `tab`; `fuel` levels remain. -/
def State.walk (s : State) (c : Context) (dies : List Nat) (va : Nat) : Nat → Nat → Nat → Bool → Xlat
  | 0, _, _, _ => .fault 3
  | fuel + 1, level, tab, wide =>
    let (n, lo) := levelBits level
    let esize := if wide then 32 else 16
    let at_ := tab + bitsOf va lo n * esize
    let bs := (List.range esize).map fun k => s.tableByte c (at_ + k)
    let e := leNat (bs.map (·.1))
    if bs.any (·.2) then .fault (consumedCode at_)
    else if !e.testBit 0 then .fault 2
    else if e.testBit 1 then leafOf dies level wide e va
    else
      let next := bitsOf e 9 39 * 512
      let w := e.testBit 2
      let (n', _) := levelBits (level + 1)
      let tsize := 2 ^ n' * (if w then 32 else 16)
      if level == 3 || bitsOf e 3 6 != 0 || bitsOf e 48 80 != 0 || (wide && e / 2 ^ 128 != 0)
          || next % tsize != 0 || !placeOk dies next tsize then .fault 3
      else s.walk c dies va fuel (level + 1) next w

/-- The dies of a context's partition. -/
def State.diesOf (s : State) (x : CtxRef) : List Nat := ((s.partition? x.part).map (·.dies)).getD []

/-- The translation of a virtual address for the access that starts at `first` (R219 to R224). A leaf the context's translation
caches still hold, other than what the table now says, may be used in its place, and then for all of the access (log 15). -/
def State.translateIn (s : State) (x : CtxRef) (first va : Nat) : Xlat :=
  match s.context? x with
  | none => .fault 2
  | some c =>
    let now := s.walk c (s.diesOf x) va 4 0 c.root false
    match c.tlb.find? fun l => l.va ≤ va && va < l.va + l.size with
    | some old => if now != .ok old && Config.oldTranslation s.fresh first then .ok old else now
    | none => now

def State.translate (s : State) (x : CtxRef) (va : Nat) : Xlat := s.translateIn x va va

/-- The translation caches take the leaf of a page that was used (R224). -/
def State.noteLeaf (s : State) (x : CtxRef) (l : Leaf) : State :=
  s.modContext x fun c => if c.tlb.contains l then c
    else { c with tlb := l :: c.tlb.filter fun k => k.va + k.size ≤ l.va || l.va + l.size ≤ k.va }

/-- The physical address of page offset `o` in the frame at `frame` (R223). -/
def Leaf.phys (l : Leaf) (frame o : Nat) : Nat :=
  if l.stripe then
    let u := o / 4096
    ((frame / dieSlot + u) % 4) * dieSlot + frame % dieSlot + u / 4 * 4096 + o % 4096
  else frame + o

/-- Frame `k` of a triple page; other layouts have frame 0 only (R222). -/
def Leaf.frameNo (l : Leaf) (k : Nat) : Nat :=
  if l.layout == .triple then (if k == 1 then l.frame1 else if k == 2 then l.frame2 else l.frame) else l.frame

/-- The digit byte of the element at page offset `o` (R222). -/
def Leaf.digitByte (l : Leaf) (o : Nat) : Nat := l.plane + (if l.ef == .f32 then o / 4 else o / 2)

def Leaf.elemSize (l : Leaf) : Nat := if l.ef == .f32 then 4 else 2

def isAperture (pa : Nat) : Bool :=
  match region pa with
  | .aperture _ _ => true
  | _ => false

/-! ## Agents, caches and physical bytes -/

/-- Who accesses memory: its context, the core whose L1 serves it (none for engines and the sorting office), and its
crew. -/
structure Agent where
  ctx : CtxRef
  core : Option Nat
  crew : Option CrewRef
  deriving DecidableEq, Repr

/-- R257: a line is valid for at most 65 536 cycles after its fill. -/
def Line.valid (l : Line) (now : Nat) : Bool := now ≤ l.filled + 65536

def findLine (now pa : Nat) (ls : List Line) : Option Line :=
  ls.find? fun l => l.addr == pa / 128 && l.valid now

/-- The device-memory byte a load of core `core` is served: L1, then for another die's line the remote-data cache,
then the home (R233). -/
def State.cachedByte (s : State) (core pa : Nat) : Byte × Bool :=
  let home := (s.rawByte pa, s.memPoison.contains (pa / 4))
  let fromLine (l : Line) := (l.data.getD (pa % 128) 0, l.poison.contains (pa / 4))
  match findLine s.clock.cycle pa (s.coreAt core).l1 with
  | some l => fromLine l
  | none =>
    if pa / dieSlot == dieOfCore core then home
    else
      match findLine s.clock.cycle pa (s.dieAt (dieOfCore core)).rdc with
      | some l => fromLine l
      | none => home

/-- The latest held byte of an address that an agent reads in place of memory's: the hold of a replayable launch for
every device agent (R419), and of a paired launch for its own crew alone until a compare point has passed it (R422). An
address in an aperture is its context's own (R396). -/
def State.heldByte (s : State) (ag : Agent) (pa : Nat) : Option (Byte × Bool) :=
  s.launches.foldl (fun r l =>
    l.hold.foldl (fun r h =>
      if h.pa ≤ pa && pa < h.pa + h.data.length && (!l.paired || h.store == 0 || ag.crew == some h.crew) &&
          (l.ctx == ag.ctx || !isAperture pa) then
        some (h.data.getD (pa - h.pa) 0, h.poison) else r) r) none

/-- One physical byte and whether its word is poisoned. -/
def State.physByte (s : State) (ag : Agent) (pa : Nat) : Byte × Bool :=
  match s.heldByte ag pa with
  | some b => b
  | none =>
    match region pa with
    | .dram _ _ =>
      match ag.core with
      | some c => s.cachedByte c pa
      | none => (s.rawByte pa, s.memPoison.contains (pa / 4))
    | .aperture a o => s.apertureByte (s.context? ag.ctx) a o
    | .host => (s.rawByte pa, s.memPoison.contains (pa / 4))
    | .absent => (0, false)

/-- `n` physical bytes and whether any word of them is poisoned. -/
def State.physRead (s : State) (ag : Agent) (pa n : Nat) : List Byte × Bool :=
  let bs := (List.range n).map fun k => s.physByte ag (pa + k)
  (bs.map (·.1), bs.any (·.2))

/-- The line of an address as the home holds it now. -/
def State.homeLine (s : State) (pa : Nat) : Line :=
  let a := pa / 128 * 128
  ⟨pa / 128, Memory.readN s.mem a 128, (wordsOf a 128).filter s.memPoison.contains, s.clock.cycle⟩

/-- Put a line into a cache of `cap` lines; a full cache gives one up (R233, log 11). -/
def putLine (cap now fresh : Nat) (n : Line) (ls : List Line) : List Line :=
  let ls := ls.filter fun l => l.addr != n.addr && l.valid now
  if ls.length < cap then n :: ls else n :: ls.eraseIdx (Config.victim fresh % cap)

/-- R233: a load or store of device memory by a core brings the line into its L1 and, from another die, into its
die's remote-data cache. -/
def State.touchLine (s : State) (l1 : Bool) (core pa : Nat) : State :=
  if !isDram pa then s
  else
    let d := dieOfCore core
    let now := s.clock.cycle
    let remote := pa / dieSlot != d
    let inRdc := findLine now pa (s.dieAt d).rdc
    let s :=
      if remote && inRdc.isNone then
        s.modDie d fun x => { x with rdc := putLine 262144 now s.fresh (s.homeLine pa) x.rdc } else s
    let line := if remote then inRdc.getD (s.homeLine pa) else s.homeLine pa
    if l1 && (findLine now pa (s.coreAt core).l1).isNone then
      s.modCore core fun x => { x with l1 := putLine 2048 now s.fresh { line with filled := now } x.l1 }
    else s

def setLineByte (pa : Nat) (b : Byte) (ls : List Line) : List Line :=
  updWhere (·.addr == pa / 128) (fun l => { l with data := l.data.set (pa % 128) b }) ls

def setLinePoison (pa n : Nat) (bad : Bool) (ls : List Line) : List Line :=
  ls.map fun l =>
    if l.addr * 128 < pa + n && pa < l.addr * 128 + 128 then
      { l with poison := (poisonWrite l.poison pa n fun _ => bad).filter fun w => w / 32 == l.addr } else l

/-- Bytes written reach the copies that a core's L1 and its die's remote-data cache hold of their lines (R233). -/
def State.setLines (s : State) (core pa : Nat) (data : List Byte) (bad : Bool) : State :=
  let n := data.length
  let upd (ls : List Line) := setLinePoison pa n bad
    ((List.range n).foldl (fun ls k => setLineByte (pa + k) (data.getD k 0) ls) ls)
  (s.modCore core fun x => { x with l1 := upd x.l1 }).modDie (dieOfCore core) fun x => { x with rdc := upd x.rdc }

/-- Write bytes at the home, and in the copies of the issuing core and die (R233). -/
def State.homeWrite (s : State) (core : Option Nat) (pa : Nat) (data : List Byte) (bad : Bool) : State :=
  let s := { s with
    mem := Memory.writeN s.mem pa data
    memPoison := poisonWrite s.memPoison pa data.length fun _ => bad }
  match core with
  | none => s
  | some c => s.setLines c pa data bad

/-- Write physical bytes without any hold (R233, R394, R396). -/
def State.physWrite (s : State) (ag : Agent) (pa : Nat) (data : List Byte) (bad : Bool) : State :=
  match region pa with
  | .aperture a o =>
    match (s.context? ag.ctx).bind fun c => s.apertureEntry c a with
    | some e => (List.range data.length).foldl (fun s k => s.setPeerByte e.peer e.peerCtx (e.base + o + k) (data.getD k 0) bad) s
    | none => s
  | .absent => s
  | .dram _ _ => s.homeWrite ag.core pa data bad
  | .host => s.homeWrite none pa data bad

/-- R235: an acquire of die scope or wider drops the core's L1 lines and the die's remote-data cache lines. -/
def State.invalidate (s : State) (core : Nat) : State :=
  (s.modCore core fun x => { x with l1 := [] }).modDie (dieOfCore core) fun x => { x with rdc := [] }

/-- Where an agent stands: its warp, the groups of its crew that it is a member of, its crew and its core (R246). The host and
the agents of a peer stand nowhere on this device. -/
structure Station where
  warp : Option WarpRef
  groups : List (CrewRef × Nat)
  crew : Option CrewRef
  core : Option Nat
  onDevice : Bool
  deriving DecidableEq, Repr

def sameSome [DecidableEq α] (a b : Option α) : Bool := a.isSome && decide (a = b)

/-- R250: `scope_includes`. -/
def scopeIncludes (sc : Scope) (a b : Station) : Bool :=
  match sc with
  | .warp => sameSome a.warp b.warp
  | .group => a.groups.any b.groups.contains
  | .crew => sameSome a.crew b.crew
  | .core => sameSome a.core b.core
  | .die => sameSome (a.core.map dieOfCore) (b.core.map dieOfCore)
  | .dev => a.onDevice && b.onDevice
  | .sys => true

/-- The station of a warp's threads. -/
def State.stationOf (s : State) (r : WarpRef) : Station where
  warp := some r
  groups := (((s.warp? r).map (·.groups)).getD []).map fun g => (r.crew, g)
  crew := some r.crew
  core := (s.crew? r.crew).bind (·.core)
  onDevice := true

/-- A scope that takes in agents of other cores, and so asks for cache actions (R235). -/
def scopeWide : Scope → Bool
  | .die | .dev | .sys => true
  | _ => false

end Sys2Proof.Machine
end

