-- ==== Sys2Proof/Machine/Global.lean ====
section
/-! DEFINITION. Global accesses by page layout (09 R225, R226), their faults (R238), and how a store reaches memory:
directly, through the hold of a replayable or paired launch, or after a snapshot (16 R419, R422). -/

namespace Sys2Proof.Machine

/-! ## Faults of one access -/

/-- The access of R450; `red` has the code of an atomic. -/
inductive Acc4 where
  | load | store | atomic | reduce | fetch | waitRead | copyRead | copyWrite | spillWrite | refill | packet
  deriving DecidableEq, Repr

def Acc4.code : Acc4 → Nat
  | .load => 0 | .store => 1 | .atomic => 2 | .reduce => 2 | .fetch => 3 | .waitRead => 4 | .copyRead => 5 | .copyWrite => 6
  | .spillWrite => 7 | .refill => 8 | .packet => 9

def Acc4.writes : Acc4 → Bool
  | .store | .atomic | .reduce | .copyWrite | .spillWrite => true
  | _ => false
def Acc4.copies : Acc4 → Bool
  | .copyRead | .copyWrite => true
  | _ => false
def Acc4.spills : Acc4 → Bool
  | .spillWrite | .refill => true
  | _ => false

/-- The aperture a leaf maps a virtual address to. -/
def Leaf.aperture (l : Leaf) (va : Nat) : Option Nat :=
  match region (l.phys l.frame (va - l.va)) with
  | .aperture a _ => some a
  | _ => none

def Leaf.inHost (l : Leaf) (va : Nat) : Bool :=
  match region (l.phys l.frame (va - l.va)) with
  | .host => true
  | _ => false

/-- R432, R434: the fabric carries traffic from stage 3 on, while a port that the configuration enables has its link. -/
def Device.fabricUp (d : Device) : Bool :=
  d.powered && !d.failed && 3 ≤ d.stage && d.settings.ports.any fun p => !d.linkDown.contains p

/-- What a part of the access that starts at `first` meets: its leaf, or the first kind of R238 in order of priority with whether
it is fatal. `ap` is the aperture a fabric copy must stay in; `replay` a launch whose writes must be protected (R419). Kind 11 comes
from the fabric (R396), and so does kind 12 (R430), but for an access through an aperture while no port is up (log 82). -/
def State.checkPart (s : State) (x : CtxRef) (k : Acc4) (first va n : Nat) (replay : Bool) (ap : Option (Option Nat)) :
    Except (Nat × Bool) Leaf :=
  if va % min n 8 != 0 then .error (1, true)
  else
    match s.translateIn x first va, s.context? x with
    | _, none => .error (2, true)
    | .fault 2, some c => .error (2, !c.replayOn)
    | .fault code, some _ => .error (code, true)
    | .ok l, some c =>
      let a := l.aperture va
      let unset := match a with
        | some a => (s.apertureEntry c a).isNone
        | none => false
      if let some pa := a.bind (s.apertureBad c) then .error (consumedCode pa, true)
      else if unset then .error (2, true)
      else if l.spill && !k.spills && k != .fetch then .error (4, true)
      else if !l.spill && k.spills then .error (5, true)
      else if k.copies && (match ap with
          | some (some want) => a != some want
          | some none => a.isNone
          | none => a.isSome) then .error (6, true)
      else if l.layout == .meanDigits && (k == .atomic || k == .reduce || (!k.copies && k != .fetch && !k.spills && n != l.elemSize))
        then .error (7, true)
      else if (k.writes || k == .refill) && l.ro then .error (8, true)
      else if k.writes && !k.spills && l.poison then .error (9, true)
      else if replay && k.writes && !k.spills && (!l.rp || (k == .atomic && (a.isSome || l.inHost va))) then .error (10, true)
      else if a.isSome && !s.device.fabricUp then .error (12, true)
      else .ok l

/-- The check of an access by itself. -/
def State.checkAccess (s : State) (x : CtxRef) (k : Acc4) (va n : Nat) (replay : Bool) (ap : Option (Option Nat)) :
    Except (Nat × Bool) Leaf :=
  s.checkPart x k va va n replay ap

/-! ## Reading by layout -/

/-- Elements wholly covered by `n` bytes at page offset `o`: their offsets. -/
def Leaf.elems (l : Leaf) (o n : Nat) : List Nat :=
  if o % l.elemSize == 0 && n % l.elemSize == 0 then (List.range (n / l.elemSize)).map fun k => o + k * l.elemSize else []

/-- Bytes of frame `k` at a page offset, and whether a word of them is poisoned; a POISON page reads poisoned (R238). -/
def State.frameRead (s : State) (ag : Agent) (l : Leaf) (k o n : Nat) : List Byte × Bool :=
  let (bs, p) := s.physRead ag (l.phys (l.frameNo k) o) n
  (bs, p || l.poison)

/-- The mean of R225: three codes equal bit for bit are taken unchanged. -/
def meanKept (f : Fmt) (a b c : Nat) : Nat :=
  if a == b && b == c then a else mean3 f (f.decode a) (f.decode b) (f.decode c)

/-- A single-mode load (R225), which is also how engines and the sorting office read (R302). -/
def State.readSingle (s : State) (ag : Agent) (l : Leaf) (o n : Nat) : List Byte × Bool :=
  match l.layout with
  | .plain | .meanDigits => s.frameRead ag l 0 o n
  | .triple =>
    let es := l.elemSize
    let r0 := s.frameRead ag l 0 o n
    let r1 := s.frameRead ag l 1 o n
    let r2 := s.frameRead ag l 2 o n
    let el (bs : List Byte) (k : Nat) := leNat ((bs.drop (k * es)).take es)
    match l.elems o n with
    | [] => r0
    | offs => ((List.range offs.length).flatMap fun k =>
        leBytes es (meanKept (fmtOf l.ef) (el r0.1 k) (el r1.1 k) (el r2.1 k)), r0.2 || r1.2 || r2.2)

/-- A triple-mode load by sibling `sib` (R225). -/
def State.readTriple (s : State) (ag : Agent) (l : Leaf) (o n sib : Nat) : List Byte × Bool :=
  match l.layout with
  | .plain => s.frameRead ag l 0 o n
  | .triple => s.frameRead ag l sib o n
  | .meanDigits =>
    let m := s.frameRead ag l 0 o n
    let d := s.physRead ag (l.digitByte o) 1
    (leBytes n (recon (fmtOf l.ef) (leNat m.1) (leNat d.1) sib), m.2 || d.2)

/-! ## Writing by layout -/

/-- One physical write. -/
structure PWrite where
  pa : Nat
  data : List Byte
  bad : Bool
  deriving DecidableEq, Repr

/-- The bytes of a write that `keep` picks, by their positions in it: all of it at once, else each by itself. -/
def PWrite.picked (w : PWrite) (keep : Nat → Bool) : List PWrite :=
  let ks := List.range w.data.length
  if ks.all keep then [w] else (ks.filter keep).map fun k => ⟨w.pa + k, [w.data.getD k 0], w.bad⟩

/-- R131: the digit byte of a single-mode value. -/
def singleDigits (f : Fmt) (code : Nat) : Nat := if (f.decode code).isNan then 0 else f.p

/-- A single-mode store (R225). -/
def Leaf.writeSingle (l : Leaf) (o : Nat) (data : List Byte) (bad : Bool) : List PWrite :=
  match l.layout with
  | .plain => [⟨l.phys l.frame o, data, bad⟩]
  | .triple => [0, 1, 2].map fun k => ⟨l.phys (l.frameNo k) o, data, bad⟩
  | .meanDigits =>
    ⟨l.phys l.frame o, data, bad⟩ :: (l.elems o data.length).map fun e =>
      ⟨l.digitByte e, leBytes 1 (singleDigits (fmtOf l.ef) (leNat ((data.drop (e - o)).take l.elemSize))), bad⟩

/-- A triple-mode store by one thread (R225): the data of its three siblings. -/
def Leaf.writeTriple (l : Leaf) (o : Nat) (d0 d1 d2 : List Byte) : List PWrite :=
  let es := l.elemSize
  let f := (fmtOf l.ef)
  let el (bs : List Byte) (k : Nat) := leNat ((bs.drop (k * es)).take es)
  match l.layout with
  | .plain =>
    match l.elems o d0.length with
    | [] => [⟨l.phys l.frame o, d0, false⟩]
    | offs => [⟨l.phys l.frame o, (List.range offs.length).flatMap fun k =>
        leBytes es (meanKept f (el d0 k) (el d1 k) (el d2 k)), false⟩]
  | .triple => [⟨l.phys l.frame o, d0, false⟩, ⟨l.phys l.frame1 o, d1, false⟩, ⟨l.phys l.frame2 o, d2, false⟩]
  | .meanDigits =>
    let v (d : List Byte) := f.decode (leNat d)
    [⟨l.phys l.frame o, leBytes es (meanKept f (leNat d0) (leNat d1) (leNat d2)), false⟩,
     ⟨l.digitByte o, leBytes 1 (digits3 f (v d0) (v d1) (v d2)), false⟩]

/-! ## The outbound hold and snapshots -/

/-- Bytes held for the crews on a die (R399). -/
def State.holdUsed (s : State) (die : Nat) : Nat :=
  s.launches.foldl (fun n l => l.hold.foldl (fun n h =>
    match (s.crew? h.crew).bind (·.core) with
    | some c => if dieOfCore c == die then n + h.data.length else n
    | none => n) n) 0

def holdSize : Nat := 0x400_0000

/-- The physical ranges of a page: each frame, striped over the dies where it is, and a digit plane (R222, R223). -/
def Leaf.ranges (l : Leaf) : List (Nat × Nat) :=
  let frame (f : Nat) : List (Nat × Nat) :=
    if l.stripe then (List.range 4).map fun d => (d * dieSlot + f % dieSlot, l.size / 4) else [(f, l.size)]
  match l.layout with
  | .plain => frame l.frame
  | .triple => frame l.frame ++ frame l.frame1 ++ frame l.frame2
  | .meanDigits => frame l.frame ++ [(l.plane, if l.ef == .f32 then l.size / 4 else l.size / 2)]

/-- Whether an entry is withheld for replay alone: in a paired launch, one that a compare point has passed (R424). -/
def Launch.outbound (l : Launch) (h : HoldEntry) : Bool := !l.paired || h.store == 0

/-- Drain a launch's hold in order and stop taking snapshots (R420). -/
def State.drainHold (s : State) (id : Nat) : State :=
  match s.launch? id with
  | none => s
  | some l =>
    let s := (l.hold.filter l.outbound).foldl (fun s h => s.physWrite ⟨l.ctx, none, none⟩ h.pa h.data h.poison) s
    s.modLaunch id fun l => { l with hold := l.hold.filter fun h => !l.outbound h, unreplayable := true }

/-- The memory of `n` bytes from `src`, its poison with it, comes to stand at `dst` too. -/
def State.copyCells (s : State) (src dst n : Nat) : State :=
  let inside (o a : Nat) : Bool := o ≤ a && a < o + n
  { s with
    mem := (s.mem.filter fun c => inside src c.1).foldl (fun m c => Memory.write m (c.1 - src + dst) c.2)
      (s.mem.filter fun c => !inside dst c.1)
    memPoison := (s.memPoison.filter fun w => inside src (4 * w)).foldl (fun ps w => setInsert (w - src / 4 + dst / 4) ps)
      (s.memPoison.filter fun w => !inside dst (4 * w)) }

/-- R419: the frames of a page go to the snapshot pool from virtual address `va` on, 4 KB at a time; a part of the pool that no page
maps to memory takes nothing (log 78). -/
def State.fillPool (s : State) (x : CtxRef) (va : Nat) (ranges : List (Nat × Nat)) : State :=
  let parts := ranges.flatMap fun r => (List.range (r.2 / 4096)).map fun k => r.1 + 4096 * k
  parts.zipIdx.foldl (fun s p =>
    let at_ := va + 4096 * p.2
    match s.translate x at_ with
    | .ok l =>
      let dst := l.phys l.frame (at_ - l.va)
      if isAperture dst then s else s.copyCells p.1 dst 4096
    | .fault _ => s) s

/-- R419: before the first write to a page, its bytes go to the snapshot pool; a pool without room ends replay. -/
def State.snapshot (s : State) (id : Nat) (l : Leaf) : State :=
  match s.launch? id, (s.launch? id).bind fun x => s.context? x.ctx with
  | some x, some c =>
    if !x.replay || x.unreplayable || x.snapshots.any (·.page == l.va) then s
    else
      let need := (l.ranges.map (·.2)).sum
      if c.poolSize < c.poolUsed + need then s.drainHold id
      else
        let take (r : Nat × Nat) : Snapshot :=
          ⟨l.va, r.1, r.2, s.mem.filter fun m => r.1 ≤ m.1 && m.1 < r.1 + r.2,
            s.memPoison.filter fun w => r.1 ≤ 4 * w && 4 * w < r.1 + r.2⟩
        ((s.fillPool x.ctx (c.pool + c.poolUsed) l.ranges).modContext x.ctx fun c =>
          { c with poolUsed := c.poolUsed + need }).modLaunch id fun x => { x with snapshots := x.snapshots ++ l.ranges.map take }
  | _, _ => s

/-- Which warp a write is accounted to: the warp and its store count and signature after the store (R423). -/
structure Writer where
  warp : WarpRef
  store : Nat
  sig : DWord
  deriving DecidableEq, Repr

/-- A write that pairing does not withhold: a replayable launch holds it when it leaves the device (R419). -/
def State.openWrite (s : State) (ag : Agent) (id : Nat) (h : HoldEntry) : State :=
  match s.launch? id with
  | none => s
  | some x =>
    if x.replay && !x.unreplayable && !isDram h.pa then
      (let die := dieOfCore (((s.crew? h.crew).bind (·.core)).getD 0)
       if holdSize < s.holdUsed die + h.data.length then (s.drainHold id).physWrite ag h.pa h.data h.poison
       else s.modLaunch id fun x => { x with hold := x.hold ++ [{ h with store := 0 }] })
    else s.physWrite ag h.pa h.data h.poison

/-- One write of a launch reaches memory or its hold (R233, R419, R422). -/
def State.launchWrite (s : State) (ag : Agent) (id : Nat) (l : Leaf) (wr : Writer) (w : PWrite) : State :=
  match s.launch? id with
  | none => s
  | some x =>
    let entry : HoldEntry := ⟨wr.warp.crew, wr.warp.warp, w.pa, w.data, w.bad, wr.store, wr.sig⟩
    let s := if isDram w.pa then s.snapshot id l else s
    if x.paired then s.modLaunch id fun x => { x with hold := x.hold ++ [entry] }
    else s.openWrite ag id entry

def State.launchWrites (s : State) (ag : Agent) (id : Nat) (l : Leaf) (wr : Writer) (ws : List PWrite) : State :=
  ws.foldl (fun s w => s.launchWrite ag id l wr w) s

end Sys2Proof.Machine
end

