-- ==== Sys2Proof/Machine/Records.lean ====
section
/-! DEFINITION. What the device writes for the host: event records, diagnostic records, sampling records and the
dead-letter log (16 R417, R418, R447, R450; 15 R382; 12 R313), and the sorting office's own virtual accesses (R413). -/

namespace Sys2Proof.Machine

/-- A fault of an engine's or the sorting office's access: address, code of R238, whether it is fatal. -/
structure VFault where
  va : Nat
  code : Nat
  fatal : Bool
  deriving DecidableEq, Repr

/-- The aligned pieces of `step` bytes that cover `n` bytes from `va` on. -/
def pieces (step va n : Nat) : List Nat := (List.range ((n + step - 1) / step)).map fun k => va + step * k

/-- Check every piece of a range; the first that fails decides. -/
def State.checkRange (s : State) (x : CtxRef) (k : Acc4) (step va n : Nat) (replay : Bool) (ap : Option (Option Nat)) :
    Except VFault (List Leaf) :=
  (pieces step va n).foldr (fun p r =>
    match s.checkAccess x k p step replay ap with
    | .error (c, f) => .error ⟨p, c, f⟩
    | .ok l => r.map (l :: ·)) (.ok [])

/-- Read bytes of a range in pieces of 4, as a single-mode load reads (R302, R413). -/
def State.vRead (s : State) (ag : Agent) (k : Acc4) (va n : Nat) : Except VFault (List Byte × Bool) :=
  (s.checkRange ag.ctx k 4 va n false none).map fun ls =>
    let parts := List.zipWith (fun l p => s.readSingle ag l (p - l.va) 4) ls (pieces 4 va n)
    ((parts.flatMap (·.1)).take n, parts.any (·.2))

/-- Write bytes of a range in pieces of 4, outside any launch (R447). -/
def State.vWrite (s : State) (x : CtxRef) (va : Nat) (data : List Byte) : Except VFault State :=
  (s.checkRange x .store 4 va data.length false none).map fun ls =>
    (List.zip ls (pieces 4 va data.length)).foldl (fun s lp =>
      (lp.1.writeSingle (lp.2 - lp.1.va) ((data.drop (lp.2 - va)).take 4) false).foldl
        (fun s w => s.physWrite ⟨x, none, none⟩ w.pa w.data w.bad) s) s

/-! ## Event rings -/

/-- R417: the common header and a body of 40 bytes. -/
def recordBytes (kind status queue : Nat) (seq : BitVec 32) (tick tag : DWord) (body : List Byte) : Record :=
  leBytes 1 kind ++ leBytes 1 status ++ leBytes 2 queue ++ leBytes 4 seq.toNat ++ leBytes 8 tick.toNat ++
    leBytes 8 tag.toNat ++ (body ++ List.replicate 40 0).take 40

def Ring.full (r : Ring) : Bool := (r.write - r.read).toNat ≥ r.size

/-- The management controller counts an error (R393, R402, R447). -/
def State.countError (s : State) : State := { s with device := { s.device with errorCount := s.device.errorCount + 1 } }

/-- The management controller leaves a report in the mailbox (R393). -/
def State.mail (s : State) (kind : MailKind) (numbers : List Nat) : State :=
  { s with device := { s.device with mailbox := s.device.mailbox ++ [⟨kind, numbers⟩] } }

/-! ### The order of records (R417) -/

def recordSeq (r : Record) : Nat := leNat ((r.drop 4).take 4)
def recordTick (r : Record) : Nat := leNat ((r.drop 8).take 8)

/-- Whether `a` stands before `b`: by tick, and at equal ticks by sequence number. -/
def recordBefore (a b : Record) : Bool :=
  recordTick a < recordTick b || (recordTick a == recordTick b && recordSeq a ≤ recordSeq b)

/-- A record takes its place among others in order. -/
def insertRecord (r : Record) (l : List Record) : List Record :=
  l.takeWhile (recordBefore · r) ++ r :: l.dropWhile (recordBefore · r)

/-- The records of the ring that a record of the same tick stands before and that the host has not consumed: the last ones
written. -/
def Ring.movedBy (g : Ring) (r : Record) : List Record :=
  let later := g.last.dropWhile (recordBefore · r)
  later.drop (later.length - (g.write - g.read).toNat)

/-! ### Writing records -/

/-- Try to write one event record; none when the ring is full or the write faults, and whether it faulted (R417,
R447). A partition's own ring is physical (R401). -/
def State.putEvent (s : State) (x : CtxRef) (r : Record) : Option State × Bool :=
  match s.context? x with
  | none => (none, false)
  | some c =>
    if c.ring.full then (none, false)
    else
      match s.vWrite x (c.ring.base + 64 * (c.ring.write.toNat % c.ring.size)) r with
      | .error _ => (none, true)
      | .ok s => (some (s.modContext x fun c =>
          { c with ring := { c.ring with
            write := c.ring.write + 1
            last := c.ring.last.filter (fun o => recordTick o == recordTick r) ++ [r] } }), false)

/-- Write the first `n` of some records, in order, as far as they go; the rest is held. A fault is reported and counted each time
(R417, R447). -/
def State.putEvents (s : State) (x : CtxRef) : Nat → List Record → State
  | _, [] => s.modContext x fun c => { c with ring := { c.ring with held := [] } }
  | 0, rs => s.modContext x fun c => { c with ring := { c.ring with held := rs } }
  | n + 1, r :: rs =>
    match s.putEvent x r with
    | (some s, _) => s.putEvents x n rs
    | (none, faulted) =>
      (if faulted then s.countError.mail .ringFault [x.part, x.ctx] else s).modContext x fun c =>
        { c with ring := { c.ring with held := r :: rs } }

/-- A diagnostic record belongs to its event record, wherever that stands (R447): the record that comes next takes the place `at_`,
and those from there on move up. -/
def Diag.shift (next at_ : BitVec 32) (d : Diag) : Diag :=
  if d.record == next then { d with record := at_ }
  else if (d.record - at_).toNat < (next - at_).toNat then { d with record := d.record + 1 } else d

/-- A record is written in its place among those of its tick, or held with those that are (R417). -/
def State.event (s : State) (x : CtxRef) (r : Record) : State :=
  match s.context? x with
  | none => s
  | some c =>
    let g := c.ring
    let moved := g.movedBy r
    let others := moved ++ g.held
    let all := insertRecord r others
    let next := g.write + BitVec.ofNat 32 g.held.length
    let at_ := next - BitVec.ofNat 32 (others.length - (others.takeWhile (recordBefore · r)).length)
    let s := s.modContext x fun c =>
      { c with
        diags := c.diags.map (·.shift next at_)
        ring := { c.ring with
          write := c.ring.write - BitVec.ofNat 32 moved.length
          last := c.ring.last.take (c.ring.last.length - moved.length) } }
    s.putEvents x (if g.held.isEmpty then all.length else moved.length) all

/-- Write held records again, in order, as far as they go (R417, R447). -/
def State.retryEvents (s : State) (x : CtxRef) : State :=
  match s.context? x with
  | none => s
  | some c => s.putEvents x c.ring.held.length c.ring.held

/-- R401: the partition event ring, at physical addresses. -/
def State.partEvent (s : State) (k : Nat) (r : Record) : State :=
  match s.partition? k with
  | none => s
  | some p =>
    if p.ring.full || !p.ring.held.isEmpty then
      s.modPartition k fun p => { p with ring := { p.ring with held := p.ring.held ++ [r] } }
    else
      let s := s.physWrite ⟨⟨k, 0⟩, none, none⟩ (p.ring.base + 64 * (p.ring.write.toNat % p.ring.size)) r false
      s.modPartition k fun p => { p with ring := { p.ring with write := p.ring.write + 1 } }

def State.retryPart (s : State) (k : Nat) : State :=
  match s.partition? k with
  | none => s
  | some p =>
    p.ring.held.foldl (fun s r => s.partEvent k r)
      (s.modPartition k fun p => { p with ring := { p.ring with held := [] } })

/-- A record of a command queue: the control queue's go to the partition ring (R401). -/
def State.queueEvent (s : State) (q : CmdQueue) (r : Record) : State :=
  match q.ctx with
  | none => s.partEvent q.ref.part r
  | some c => s.event ⟨q.ref.part, c⟩ r

/-- A record about a launch, under its queue, sequence number and tag (R417). -/
def State.launchEvent (s : State) (l : Launch) (kind status : Nat) (body : List Byte) : State :=
  s.event l.ctx (recordBytes kind status l.queue.q l.seq s.clock.tick l.tag body)

/-! ## Memory-fault records -/

/-- A memory fault as its record tells it (R239, R418, R450): `agent` 0 warp, 1 copy engine, 2 spill engine, 3
sorting office. -/
structure MemFault where
  va : Nat
  code : Nat
  fatal : Bool
  mask : Mask
  acc : Acc4
  agent : Nat
  core : Nat
  quarter : Nat
  warp : Nat
  pc : Word
  crew : Nat
  handle : Word
  deriving DecidableEq, Repr

def MemFault.body (f : MemFault) (num : Nat) : List Byte :=
  leBytes 8 f.va ++ leBytes 6 f.mask.toNat ++ leBytes 1 (f.code * 16 + f.acc.code) ++ leBytes 1 f.agent ++
    leBytes 2 f.core ++ leBytes 1 f.quarter ++ leBytes 1 f.warp ++ leBytes 4 f.pc.toNat ++ leBytes 4 f.crew ++
    leBytes 4 f.handle.toNat ++ leBytes 4 num

/-- R239: wait on the page's outstanding record, or send a new one. Returns the record's number. An address without a leaf has no
page size: its page is taken to be the 64 KB around it (log 73). -/
def State.replayable (s : State) (l : Launch) (f : MemFault) : State × Nat :=
  match s.context? l.ctx with
  | none => (s, 0)
  | some c =>
    match c.outstanding.find? (·.page == f.va / 65536) with
    | some o => (s, o.num)
    | none =>
      let num := c.faultCount % 2 ^ 31
      let s := s.modContext l.ctx fun c =>
        { c with faultCount := (c.faultCount + 1) % 2 ^ 31, outstanding := c.outstanding ++ [⟨num, f.va / 65536⟩] }
      (s.launchEvent l 2 0 (f.body num), num)

/-- The record of a fatal fault: bit 31 set over the count as it stands (R418). -/
def State.fatalRecord (s : State) (l : Launch) (f : MemFault) : State :=
  let count := ((s.context? l.ctx).map (·.faultCount)).getD 0
  s.launchEvent l 2 1 (f.body (2 ^ 31 + count % 2 ^ 31))

/-! ## The diagnostic area (R447) -/

/-- Whether a record index has not been consumed: the host's read index has not passed it. -/
def Ring.unread (r : Ring) (i : BitVec 32) : Bool := (i - r.read).toNat < 2 ^ 31

/-- Write a diagnostic record or detail for the event record that comes next; its address, 0 when it is not written. -/
def State.diagWrite (s : State) (x : CtxRef) (data : List Byte) : State × Nat :=
  match s.context? x with
  | none => (s, 0)
  | some c =>
    let start := (c.diagNext + 63) / 64 * 64
    let start := if start + data.length ≤ 2 ^ 20 then start else 0
    let live := c.diags.filter fun d => c.ring.unread d.record
    let clash := live.any fun d => d.off < start + data.length && start < d.off + d.len
    if clash || 2 ^ 20 < data.length then (s, 0)
    else
      match s.vWrite x (c.diagBase + start) data with
      | .error _ => (s, 0)
      | .ok s =>
        let rec_ := c.ring.write + BitVec.ofNat 32 c.ring.held.length
        (s.modContext x fun c => { c with diagNext := start + data.length, diags := live ++ [⟨start, data.length, rec_⟩] },
          c.diagBase + start)

/-! ## The dead-letter log (R313, R395, R399) -/

/-- The log entry of a dropped update. -/
def deadEntry (kind die core : Nat) (seq : BitVec 32) (crew group bar field bytes : Nat) (tick : DWord) : List Byte :=
  leBytes 1 kind ++ leBytes 1 die ++ leBytes 2 core ++ leBytes 4 seq.toNat ++ leBytes 4 crew ++ leBytes 1 group ++
    leBytes 1 bar ++ leBytes 2 0 ++ leBytes 4 field ++ leBytes 4 bytes ++ leBytes 8 tick.toNat

/-- Write an entry into a die's log; a full log loses it. Returns the entry's index. -/
def State.deadWrite (s : State) (die : Nat) (e : List Byte) : State × BitVec 32 :=
  let d := s.dieAt die
  if (d.deadHead - d.deadTail).toNat ≥ 524288 then
    (s.modDie die fun d => { d with deadLost := d.deadLost + 1 }, d.deadHead)
  else
    let pa := die * dieSlot + reservedBase + 0x2400_0000 + 32 * (d.deadHead.toNat % 524288)
    let s := s.homeWrite none pa e false
    (s.modDie die fun d => { d with deadHead := d.deadHead + 1 }, d.deadHead)

/-! ## Sampling rings (15 R380, R382, R390, R384) -/

def sampleBytes (tick : DWord) (seq : BitVec 32) (pc : Word) (quarter slot info crew type warp value : Nat) : Record :=
  leBytes 8 tick.toNat ++ leBytes 4 seq.toNat ++ leBytes 4 pc.toNat ++ leBytes 2 quarter ++ leBytes 1 slot ++
    leBytes 1 info ++ leBytes 4 crew ++ leBytes 1 type ++ leBytes 1 warp ++ leBytes 2 0 ++ leBytes 4 value

/-- A record to the context's sampling ring; a full ring, or a write that faults, drops it (R380, log 17). -/
def State.sample (s : State) (x : CtxRef) (r : Record) : State :=
  match (s.context? x).bind (·.sampleRing) with
  | none => s
  | some g =>
    let drop (s : State) := s.modContext x fun c =>
      { c with sampleRing := c.sampleRing.map fun g => { g with dropped := g.dropped + 1 } }
    if g.full then drop s
    else
      match s.vWrite x (g.base + 32 * (g.write.toNat % g.size)) r with
      | .error _ => drop s
      | .ok s => s.modContext x fun c =>
          { c with sampleRing := c.sampleRing.map fun g => { g with write := g.write + 1 } }

end Sys2Proof.Machine
end

