-- ==== Sys2Proof/Machine/Scratch.lean ====
section
/-! DEFINITION. A crew's scratchpad, its barrier registers (10 R265 to R268), its queues' live state and descriptors
(08 R196 to R206) and waking warps. -/

namespace Sys2Proof.Machine

/-! ## Bytes -/

def Crew.scratchRead (c : Crew) (o n : Nat) : List Byte × Bool :=
  (Memory.readN c.scratch o n, anyPoison c.scratchPoison o n)

def Crew.scratchWrite (c : Crew) (o : Nat) (data : List Byte) (bad : Bool) : Crew :=
  { c with
    scratch := Memory.writeN c.scratch o data
    scratchPoison := poisonWrite c.scratchPoison o data.length fun _ => bad }

/-- Copies, queue rows and atomics make the race shadow of the words they write invalid (R384). -/
def Crew.clearShadow (c : Crew) (o n : Nat) : Crew :=
  { c with races := c.races.filter fun r => !(wordsOf o n).contains r.word }

/-! ## Waking -/

/-- A blocked warp becomes eligible 2 cycles later (R202, R266, R285). -/
def Warp.wakeUp (w : Warp) : Warp := { w with block := none, wake := 2 }

/-- A warp blocks, unissued, at the tick `now` (R31, R367). -/
def Warp.blockOn (w : Warp) (b : Block) (now : DWord) : Warp :=
  if w.block.isSome then { w with block := some b } else { w with block := some b, since := now, paused := 0 }

/-! ## Barrier registers -/

def popCount (v n : Nat) : Nat := ((List.range n).filter v.testBit).length

/-- R270: BAR. -/
def barByte (b : BarName) (ph : Bool) : Nat := b.slot.toNat * 64 + b.bar.toNat * 4 + (if ph then 2 else 0)

/-- The group and barrier that a slot name gives a warp (R270). -/
def Crew.barrierOf (c : Crew) (w : Warp) (b : BarName) : Option (Nat × Barrier) :=
  (c.slotGroup w b.slot.toNat).bind fun g => (g.2.bars[b.bar.toNat]?).map fun x => (g.1, x)

/-- R266: the completion test after a change, with the warps it wakes; the crew generation counts phases (R383). -/
def Crew.settleBarrier (c : Crew) (g b : Nat) : Crew :=
  match (c.groups[g]?).bind fun gr => gr.bars[b]? with
  | none => c
  | some x =>
    if !x.inv && x.expect.toNat ≤ popCount x.arrived.toNat 64 && x.pend == 0 then
      let ph := !x.ph
      let c := c.modBarrier g b fun x => { x with ph := ph, arrived := 0 }
      { c with
        gen := c.gen + 1
        warps := c.warps.map fun w =>
          match w.block with
          | some (.barrier nm want) =>
            if (c.slotGroup w nm.slot.toNat).map (·.1) == some g && nm.bar.toNat == b && want == ph then w.wakeUp else w
          | _ => w }
    else c

/-- R304, R275: change the pending bytes, then test. -/
def Crew.addPend (c : Crew) (g b : Nat) (d : BitVec 48) : Crew :=
  (c.modBarrier g b fun x => { x with pend := x.pend + d }).settleBarrier g b

/-- The warp wakes to take a trap at its next attempt, whatever its instruction finds then. -/
def Warp.wakeToTrap (w : Warp) (code arg : Nat) : Warp := { w.wakeUp with owed := some (code, arg) }

/-- R268: warps blocked on an invalidated barrier wake and take the trap. -/
def Crew.wakeOnBarrier (c : Crew) (g b : Nat) : Crew :=
  { c with warps := c.warps.map fun w =>
      match w.block with
      | some (.barrier nm ph) =>
        if (c.slotGroup w nm.slot.toNat).map (·.1) == some g && nm.bar.toNat == b then w.wakeToTrap 12 (barByte nm ph) else w
      | _ => w }

/-! ## Queues -/

/-- R196: the descriptor's 64 bytes, from the slot base O + 64. -/
def Queue.descriptor (q : Queue) : List Byte :=
  leBytes 64 <|
    (q.off + 64) + q.cap * 2 ^ 32 + q.state.toNat * 2 ^ 48 + q.prod * 2 ^ 56 + q.head * 2 ^ 64 + q.tail * 2 ^ 80 +
      q.count * 2 ^ 96 + q.pushed.toNat * 2 ^ 128 + q.popped.toNat * 2 ^ 160 + q.faultw.toNat * 2 ^ 192

/-- Where a queue's descriptor lies in the crew's scratchpad. -/
def Crew.queueBase (c : Crew) (q : Queue) : Nat := ((c.groups[q.group]?).map (·.base)).getD 0 + q.off

def Crew.slotOff (c : Crew) (q : Queue) (slot : Nat) : Nat := c.queueBase q + 64 + 200 * slot

/-- R198, R384: the queue unit writes a changed state into the descriptor. -/
def Crew.syncQueue (c : Crew) (n : Nat) : Crew :=
  match c.queues[n]? with
  | none => c
  | some q =>
    if Memory.readN c.scratch (c.queueBase q) 64 == q.descriptor then c
    else (c.scratchWrite (c.queueBase q) q.descriptor false).clearShadow (c.queueBase q) 64

/-- How many waiters of a list hold a reservation, and whether warp `w` does (R202). -/
def heldCount (l : List Waiter) : Nat := l.countP (·.held)
def heldBy (l : List Waiter) (w : Nat) : Bool := l.any fun x => x.warp == w && x.held

/-- The slots of rows whose data has landed, in the order of the queue (R201). -/
def Queue.readyRows (q : Queue) : List Nat :=
  ((List.range q.count).map fun k => (q.head + k) % q.cap).filter fun k => !q.landing.any (·.slot == k)

/-- The warp that the row in a slot is reserved for (R202). -/
def Queue.holder (q : Queue) (slot : Nat) : Option Nat := (q.poppers.find? (·.row == some slot)).map (·.warp)

/-- How many ready rows, and how many free slots, no warp has reserved (R202). -/
def Queue.openRows (q : Queue) : Nat := (q.readyRows.filter fun k => (q.holder k).isNone).length
def Queue.openSlots (q : Queue) : Nat := q.cap - q.count - heldCount q.pushers

/-- The data of the row at the head has landed (R201, R204). -/
def Queue.headReady (q : Queue) : Bool := 0 < q.count && !q.landing.any (·.slot == q.head)

/-- Whether the queue has a ready row, and a free slot, for warp `w` (R201): one reserved for it or for none. The row popped is
the one at the head, which holds back every pop until its data has landed (R204). -/
def Queue.readyFor (q : Queue) (w : Nat) : Bool := q.headReady && (q.holder q.head).all (· == w)
def Queue.freeFor (q : Queue) (w : Nat) : Bool := heldBy q.pushers w || 0 < q.openSlots

/-- A row is reserved for the first of some warps that wait which has none yet. -/
def reserveRow (slot : Nat) : List Popper → List Popper
  | [] => []
  | x :: l => if x.row.isSome then x :: reserveRow slot l else { x with row := some slot } :: l

/-- Rows that become ready are reserved for the warps that wait, in order of blocking (R202). -/
def Queue.offer (q : Queue) : Queue :=
  let ready := q.readyRows
  let fresh := ready.filter fun k => !q.offered.contains k && (q.holder k).isNone
  { q with poppers := fresh.foldl (fun l k => reserveRow k l) q.poppers, offered := ready }

/-- A head that is staged while it is no warp's is reserved for the oldest warp that waits without a row, else for the oldest
(log 65). -/
def Queue.offerHead (q : Queue) : Queue :=
  if !q.headReady || !q.staged || (q.holder q.head).isSome then q
  else if q.poppers.any (·.row.isNone) then { q with poppers := reserveRow q.head q.poppers }
  else match q.poppers with
    | [] => q
    | x :: l => { q with poppers := { x with row := some q.head } :: l }

/-- The oldest waiters without a reservation get `k` of them (R202). -/
def reserveOldest : Nat → List Waiter → List Waiter
  | 0, l => l
  | _, [] => []
  | k + 1, x :: l => if x.held then x :: reserveOldest (k + 1) l else { x with held := true } :: reserveOldest k l

/-- The youngest waiters with a reservation give `k` of them up. -/
def yieldYoungest : Nat → List Waiter → List Waiter
  | 0, l => l
  | k, l => (l.reverse.foldl (fun (r : List Waiter × Nat) x =>
      if x.held && 0 < r.2 then ({ x with held := false } :: r.1, r.2 - 1) else (x :: r.1, r.2)) ([], k)).1

/-- Warps of the crew blocked on queues that `p` selects wake (R202, R205, R206). -/
def Crew.wakeOnQueue (c : Crew) (p : Warp → Bool) : Crew :=
  { c with warps := c.warps.map fun w =>
      match w.block with
      | some (.queue _ _) => if p w then w.wakeUp else w
      | _ => w }

/-- Queue `n` of the crew, as it stands, makes step 2, 3 or 4 of R201 apply to the blocked instruction (R202, R205, R206). -/
def Warp.stepApplies (w : Warp) (n : Nat) (q : Queue) : Bool :=
  (q.state == 2 && w.awaits.any (·.1 == n)) || (q.state == 1 && (w.awaits.contains (n, true) ||
    (q.count == 0 && w.awaits.contains (n, false))))

/-- R209: deliveries wait for free slots ahead of every blocked pusher. A delivered row lands as it is pushed. -/
def deliveryRow (d : Delivery) : Row :=
  [d.addr.extractLsb' 0 32, d.addr.extractLsb' 32 32, d.len, d.num.extractLsb' 0 32, d.num.extractLsb' 32 32] ++
    List.replicate 43 0

def rowBytes (r : Row) : List Byte := (r.take 48).flatMap fun w => leBytes 4 w.toNat

/-- Mark scratchpad words as poisoned. -/
def Crew.poisonScratch (c : Crew) (words : List Nat) : Crew :=
  { c with scratchPoison := words.foldl (fun ps w => setInsert w ps) c.scratchPoison }

/-- Write a row into a slot: words of lanes that are not valid are 0 (R197, R203). -/
def Crew.writeSlot (c : Crew) (q : Queue) (slot : Nat) (words : Row) (valid bad : Mask) : Crew :=
  let row := laneList.map fun l => if valid.getLsbD l then wordAt words l else 0
  let o := c.slotOff q slot
  let bads := (laneList.filter fun l => valid.getLsbD l && bad.getLsbD l).flatMap fun l => wordsOf (o + 4 * l) 4
  ((c.scratchWrite o (rowBytes row ++ leBytes 6 valid.toNat ++ leBytes 2 0) false).poisonScratch bads).clearShadow o 200

/-- Advance the tail for one pushed row (R203). -/
def Queue.pushSlot (q : Queue) : Queue :=
  { q with tail := (q.tail + 1) % q.cap, count := q.count + 1, pushed := q.pushed + 1 }

/-- Deliver pending rows while the queue is not full (R209), ahead of the warps that wait to push: a slot reserved for one is
taken back (log 29). -/
def Crew.deliverPending (c : Crew) (n : Nat) : Nat → Crew
  | 0 => c
  | fuel + 1 =>
    match c.queues[n]? with
    | none => c
    | some q =>
      match q.pending with
      | [] => c
      | d :: ds =>
        if q.cap ≤ q.count then c
        else
          let c := c.writeSlot q q.tail (deliveryRow d) 0x1F 0
          (c.modQueue n fun q =>
            { q.pushSlot with
              pending := ds, fresh := q.fresh ++ [q.tail]
              pushers := yieldYoungest (heldCount q.pushers - (q.cap - q.count - 1)) q.pushers }).deliverPending n fuel

/-- Every row and slot that a warp waits for is reserved for it, and the heads it waits to pop can be taken (R202, R204,
R218). -/
def Crew.servedAll (c : Crew) (warp : Nat) : Bool :=
  c.queues.all fun q =>
    (!q.poppers.any (·.warp == warp) || (q.holder q.head == some warp && q.headReady && q.staged)) &&
      (!q.pushers.any (·.warp == warp) || heldBy q.pushers warp)

/-- After any change of a queue: pending deliveries, reservations, waking, and the descriptor (R198, R202, R205). -/
def Crew.settleQueue (c : Crew) (n : Nat) : Crew :=
  let c := match c.queues[n]? with
    | some q => if q.state == 2 then c else c.deliverPending n q.pending.length
    | none => c
  match c.queues[n]? with
  | none => c
  | some q =>
    let q := Queue.offerHead (Queue.offer { q with staged := q.staged && q.headReady })
    let pushers := reserveOldest q.openSlots q.pushers
    let c := c.modQueue n fun _ => { q with pushers }
    let listed (w : Warp) := q.poppers.any (·.warp == w.num) || pushers.any (·.warp == w.num)
    (c.wakeOnQueue fun w => w.stepApplies n q || (listed w && c.servedAll w.num)).syncQueue n

/-- R205: one close. -/
def Crew.closeQueue (c : Crew) (n : Nat) : Crew :=
  (c.modQueue n fun q =>
    if q.prod == 0 then q else { q with prod := q.prod - 1, state := if q.prod == 1 && q.state == 0 then 1 else q.state }).settleQueue n

/-- R206, R212: break a queue. -/
def Crew.breakQueue (c : Crew) (n : Nat) (who : BitVec 7) : Crew :=
  (c.modQueue n fun q => if q.state == 2 then q else { q with state := 2, faultw := who }).settleQueue n

/-- R206: the queues that a warp produces for break. -/
def Crew.breakOf (c : Crew) (w : Warp) : Crew :=
  w.bindings.foldl (fun c b => match b with
    | some b => if b.push && !b.closed then c.breakQueue b.queue (BitVec.ofNat 7 w.num) else c
    | none => c) c

/-- R203: a pop advances the head; the next head is not staged yet (R218). The warp gives its place up. -/
def Crew.takeRow (c : Crew) (n warp : Nat) : Crew :=
  c.modQueue n fun q =>
    { q with
      head := (q.head + 1) % q.cap, count := q.count - 1, popped := q.popped + 1, staged := false
      poppers := q.poppers.filter (·.warp != warp), offered := q.offered.filter (· != q.head), fresh := q.fresh.filter (· != q.head) }

/-- R203: a push reserves the slot at the tail; its data lands later. The warp gives its place up. -/
def Crew.putRow (c : Crew) (n warp : Nat) (words : Row) (valid bad : Mask) (flight : Option (Nat × Nat)) : Crew :=
  c.modQueue n fun q =>
    { q.pushSlot with
      landing := q.landing ++ [⟨q.tail, words, valid, bad, flight⟩]
      pushers := q.pushers.filter (·.warp != warp) }

/-- The data of a pushed row lands in its slot (R203). -/
def Crew.landRow (c : Crew) (n : Nat) (l : Landing) : Crew :=
  match c.queues[n]? with
  | none => c
  | some q =>
    ((c.writeSlot q l.slot l.words l.valid l.poison).modQueue n fun q => { q with landing := q.landing.filter (· != l) }).settleQueue n

/-- The rows that land as an instruction of a warp completes (R44, R123). -/
def Crew.landFlight (c : Crew) (warp id : Nat) : Crew :=
  c.queues.zipIdx.foldl (fun c q =>
    (q.1.landing.filter fun l => l.flight == some (warp, id)).foldl (fun c l => c.landRow q.2 l) c) c

/-- The row at the head was delivered by the grace unit (R209). -/
def Crew.headFresh (c : Crew) (n : Nat) : Bool := (c.queues[n]?).any fun q => q.fresh.contains q.head

/-- The row at the head: words, valid mask, and which words are poisoned (R203). -/
def Crew.headRow (c : Crew) (n : Nat) : Row × Mask × Mask :=
  match c.queues[n]? with
  | none => ([], 0, 0)
  | some q =>
    let o := c.slotOff q q.head
    let word (l : Nat) : Word := BitVec.ofNat 32 (leNat (Memory.readN c.scratch (o + 4 * l) 4))
    let valid := BitVec.ofNat 48 (leNat (Memory.readN c.scratch (o + 192) 6))
    (laneList.map fun l => if valid.getLsbD l then word l else 0, valid,
      maskOf fun l => valid.getLsbD l && anyPoison c.scratchPoison (o + 4 * l) 4)

end Sys2Proof.Machine
end

