-- ==== Sys2Proof/Machine/CopyUnits.lean ====
section
/-! DEFINITION. The bytes that a copy moves, unit by unit (12 R298, R302 to R307), and what a cancelled or abandoned
copy leaves (R310, R311). -/

namespace Sys2Proof.Machine

/-- Fields of a layout record (R306). -/
structure RectInfo where
  rows : Nat
  pitch : Nat
  br : Nat
  bw : Nat
  width : Nat
  ord : Bool
  inner : Bool
  m : Nat
  deriving DecidableEq, Repr

def rectInfo (w3 w4 : Word) : RectInfo where
  rows := bitsOf w3.toNat 0 12
  pitch := 16 * bitsOf w3.toNat 12 20
  br := bitsOf w4.toNat 0 7
  bw := 16 * (bitsOf w4.toNat 7 5 + 1)
  width := 16 * bitsOf w4.toNat 12 12
  ord := w4.getLsbD 24
  inner := w4.getLsbD 25
  m := [1, 4, 8, 32].getD (bitsOf w4.toNat 26 2) 1

/-- R307: the payload piece `t` of 16 bytes, in block order: its global offset and its window offset. -/
def RectInfo.piece (r : RectInfo) (t : Nat) : Nat × Nat :=
  let o := 16 * t
  let blk := r.br * r.bw
  let q := o / blk
  let k := o % blk
  let i := if r.inner then (k % (r.br * 16)) / 16 else k / r.bw
  let c := if r.inner then k / (r.br * 16) * 16 else k % r.bw
  let nr := r.rows / r.br
  let nc := r.width / r.bw
  let bi := if r.ord then q % nr else q / nc
  let bj := if r.ord then q / nr else q % nc
  let u := t
  let line := u / 32
  ((bi * r.br + i) * r.pitch + bj * r.bw + c, (line * 32 + (u % 32).xor (line % r.m)) * 16)

/-- The payload size T (R298). -/
def Copy.total (c : Copy) : Nat := c.len

/-- The bytes of a piece: a copy packet's addresses need not be multiples of 16 (R413), and 8 bytes lie in one page. -/
def Copy.step (c : Copy) : Nat :=
  match c.kind with
  | .packet _ _ _ => 8
  | _ => 16

/-- The pieces of unit `u`: global address and window offset. A pitch that carries a global address past 2^49 wraps (log 86). -/
def Copy.pieces (c : Copy) (u : Nat) : List (Nat × Nat) :=
  let n := min 128 (c.len - 128 * u)
  (List.range (n / c.step)).map fun k =>
    let t := 128 / c.step * u + k
    match c.kind with
    | .rect _ w3 w4 => let p := (rectInfo w3 w4).piece t; ((c.glob + p.1) % 2 ^ 49, c.win + p.2)
    | .packet _ _ dst => (c.glob + 8 * t, dst + 8 * t)
    | _ => (c.glob + 16 * t, c.win + 16 * t)

def Copy.units (c : Copy) : Nat := (c.len + 127) / 128
def Copy.unitBytes (c : Copy) (u : Nat) : Nat := min 128 (c.len - 128 * u)

/-- Whether the copy writes global memory. -/
def Copy.isStore (c : Copy) : Bool :=
  match c.kind with
  | .linear load _ => !load
  | .rect load _ _ => !load
  | .multicast _ _ => false
  | .packet _ _ _ => true

/-- Whether the copy reads global memory. -/
def Copy.readsGlobal (c : Copy) : Bool :=
  match c.kind with
  | .linear load _ => load
  | .rect load _ _ => load
  | .multicast sp _ => !sp
  | .packet _ _ _ => true

/-- R298: the aperture that a fabric copy stays in: that of its first unit, which the unit's first piece settles. -/
def State.unitAperture (s : State) (c : Copy) (u : Nat) : Option Nat :=
  c.aperture.or ((c.pieces u).head?.bind fun p => match s.translate c.ctx p.1 with
    | .ok l => l.aperture p.1
    | .fault _ => none)

/-- What R298 asks of the aperture a unit translates into: none for an ordinary copy. -/
def State.apertureRule (s : State) (c : Copy) (u : Nat) : Option (Option Nat) :=
  match c.kind with
  | .linear _ true => some (s.unitAperture c u)
  | _ => none

/-- R310's lowest faulting address of a unit and its kind: the reads first, then the writes. -/
def State.copyCheck (s : State) (c : Copy) (replay : Bool) (u : Nat) : Except (VFault × Acc4) (List Leaf × List Leaf) :=
  let check (k : Acc4) (va : Nat) := s.checkAccess c.ctx k va c.step replay (s.apertureRule c u)
  let all (k : Acc4) (vas : List Nat) : Except (VFault × Acc4) (List Leaf) :=
    vas.foldr (fun va r =>
      match check k va, r with
      | .error (code, f), .error (o, _) => .error (if o.va < va then o else ⟨va, code, f⟩, k)
      | .error (code, f), .ok _ => .error (⟨va, code, f⟩, k)
      | .ok _, .error e => .error e
      | .ok l, .ok ls => .ok (l :: ls)) (.ok [])
  let ps := c.pieces u
  match (if c.readsGlobal then all .copyRead (ps.map (·.1)) else .ok []) with
  | .error e => .error e
  | .ok rs =>
    let dsts := match c.kind with
      | .packet _ _ _ => ps.map (·.2)
      | _ => ps.map (·.1)
    match (if c.isStore then all .copyWrite dsts else .ok []) with
    | .error e => .error e
    | .ok ws => .ok (rs, ws)

/-- The engine's accesses are its crew's (R246); a packet's belong to no crew. It reads at the home. -/
def Copy.agent (c : Copy) : Agent :=
  match c.kind with
  | .packet _ _ _ => ⟨c.ctx, none, none⟩
  | _ => ⟨c.ctx, none, some c.crew⟩

/-- The agent of a store copy's writes: they update the lines that the core of its crew and that core's die hold, so that a member of
the group which acquires the completion reads them (R233, R261, R304). -/
def State.copyWriter (s : State) (c : Copy) : Agent := { c.agent with core := (s.crew? c.crew).bind (·.core) }

/-- The window base of the copy's group in a crew (R298). -/
def Crew.windowBase (c : Crew) (g : Nat) : Nat := ((c.groups[g]?).map (·.base)).getD 0

/-- The bytes of each piece of a unit, in words of 4 with their poison: from global memory or from the sender's window
(R302). -/
def State.copyData (s : State) (c : Copy) (leaves : List Leaf) (u : Nat) : List (List (List Byte × Bool)) :=
  let ps := c.pieces u
  if c.readsGlobal then
    List.zipWith (fun l p => (List.range (c.step / 4)).map fun k => s.readSingle c.agent l (p.1 - l.va + 4 * k) 4) leaves ps
  else
    match s.crew? c.crew with
    | none => ps.map fun _ => []
    | some cr =>
      let base (p : Nat × Nat) : Nat := cr.windowBase c.group + (match c.kind with
        | .multicast true _ => c.glob + (p.2 - c.win)
        | _ => p.2)
      ps.map fun p => (List.range 4).map fun k => cr.scratchRead (base p + 4 * k) 4

/-- The store count and signature to which a store copy's writes are accounted (R422, R423). -/
def Copy.writer (c : Copy) : Writer :=
  match c.store with
  | some (n, sig) => ⟨⟨c.crew, c.warp⟩, n, sig⟩
  | none => ⟨⟨c.crew, c.warp⟩, 0, 0⟩

/-- Write a unit's data at its destination: global memory, or the receiver's window. `keep` says which bytes take the
copied value, by position in the payload; the others, and the poison of a word none of whose bytes is taken, stand. -/
def State.copyPut (s : State) (c : Copy) (rcv : CrewRef) (leaves : List Leaf) (u : Nat)
    (data : List (List (List Byte × Bool))) (keep : Nat → Bool) : State :=
  let ps := c.pieces u
  (List.zip (List.range ps.length) (List.zip ps data)).foldl (fun s x =>
    let (k, p, ws) := x
    (List.zip (List.range ws.length) ws).foldl (fun s y =>
      let (j, bs, bad) := y
      if c.isStore then
        match leaves[k]? with
        | none => s
        | some l =>
          let va := (match c.kind with
            | .packet _ _ _ => p.2
            | _ => p.1) + 4 * j
          let pw := (l.writeSingle (va - l.va) bs bad).flatMap (·.picked fun b => keep (128 * u + c.step * k + 4 * j + b))
          match c.kind with
          | .packet _ _ _ => pw.foldl (fun s w => s.physWrite c.agent w.pa w.data w.bad) s
          | _ => s.launchWrites (s.copyWriter c) c.crew.launch l c.writer pw
      else
        s.modCrew rcv fun cr =>
          let o := cr.windowBase c.group + p.2 + 4 * j
          let ws := PWrite.picked ⟨o, bs, bad⟩ fun b => keep (128 * u + c.step * k + 4 * j + b)
          (ws.foldl (fun (cr : Crew) w => cr.scratchWrite w.pa w.data w.bad) cr).clearShadow o 4) s) s

/-! ## What overlaps (R303) -/

/-- 128 bytes that a unit reads or writes: of a crew's scratchpad, or of a context's address space. -/
structure Spot where
  crew : Option CrewRef
  ctx : CtxRef
  unit : Nat
  deriving DecidableEq, Repr

def State.scratchSpot (s : State) (c : Copy) (r : CrewRef) (o : Nat) : Spot :=
  let base := ((s.crew? r).map fun k => k.windowBase c.group).getD 0
  ⟨some r, c.ctx, (base + o) / 128⟩

def Copy.globalSpot (c : Copy) (va : Nat) : Spot := ⟨none, c.ctx, va / 128⟩

def Copy.fromScratch (c : Copy) : Option Nat :=
  match c.kind with
  | .multicast true _ => some c.glob
  | _ => none

def State.copyReads (s : State) (c : Copy) (u : Nat) : List Spot :=
  (c.pieces u).map fun p =>
    if c.readsGlobal then c.globalSpot p.1
    else match c.fromScratch with
      | some g => s.scratchSpot c c.crew (g + (p.2 - c.win))
      | none => s.scratchSpot c c.crew p.2

def State.copyWrites (s : State) (c : Copy) (r : CrewRef) (u : Nat) : List Spot :=
  (c.pieces u).map fun p =>
    match c.kind with
    | .packet _ _ _ => c.globalSpot p.2
    | _ => if c.isStore then c.globalSpot p.1 else s.scratchSpot c r p.2

/-- What the units that a copy has not counted will still write. -/
def State.copyDue (s : State) (c : Copy) : List Spot :=
  (c.receivers.filter fun r => !r.finished).flatMap fun r =>
    ((List.range c.units).filter fun u => !r.counted.contains u).flatMap fun u => s.copyWrites c r.crew u

/-- R303: one of the earlier copies of the core still writes where this unit reads or writes. -/
def State.unitHeld (s : State) (earlier : List Copy) (c : Copy) (r : CrewRef) (u : Nat) : Bool :=
  let mine := s.copyReads c u ++ s.copyWrites c r u
  earlier.any fun e => (s.copyDue e).any mine.contains

/-- The copies that were issued before this one on its core. -/
def State.earlierCopies (s : State) (c : Copy) : List Copy :=
  ((s.cores.find? fun k => k.copies.contains c).map fun k => k.copies.takeWhile (· != c)).getD []

/-! ## Copies that stop -/

/-- R310, R311: what a cancelled or abandoned copy leaves in the bytes of the units it has not counted: the earlier or
the copied value, byte by byte and receiver by receiver (log 12). A unit that faults, or that an earlier copy holds back, has not been
read and leaves its earlier bytes. -/
def State.abandonUnits (s : State) (c : Copy) : State :=
  let replay := ((s.launch? c.crew.launch).map (·.replay)).getD false
  let earlier := s.earlierCopies c
  c.receivers.foldl (fun s r =>
    let s := ((List.range c.units).filter fun u => !r.counted.contains u && !s.unitHeld earlier c r.crew u).foldl (fun s u =>
      match s.copyCheck c replay u with
      | .error _ => s
      | .ok (rs, ws) => s.copyPut c r.crew ws u (s.copyData c rs u) fun b => Config.copiedByte s.fresh b) s
    { s with fresh := s.fresh + 1 }) s

end Sys2Proof.Machine
end

