-- ==== Sys2Proof/Machine/Spill.lean ====
section
/-! DEFINITION. The spill area: granule records with packed rows (07 R176, R177), spill writes and refills with their
faults (R178, R179). -/

namespace Sys2Proof.Machine

/-- The tag of a row and the bytes of its slot that the tag uses (R177). -/
def packRow (row : Row) (poisoned : Bool) : Nat × List Byte :=
  let w (l : Nat) := wordAt row l
  let k := w 1 - w 0
  if poisoned then (0, rowBytes row)
  else if laneList.all fun l => w l == w 0 then (1, leBytes 4 (w 0).toNat)
  else if laneList.all fun l => w l == w 0 + BitVec.ofNat 32 l * k then (2, leBytes 4 (w 0).toNat ++ leBytes 4 k.toNat)
  else if laneList.all fun l => w l == ((w l).extractLsb' 0 16).signExtend 32 then
    (3, laneList.flatMap fun l => leBytes 2 ((w l).extractLsb' 0 16).toNat)
  else (0, rowBytes row)

/-- How many slot bytes a tag uses. -/
def tagBytes : Nat → Nat
  | 1 => 4
  | 2 => 8
  | 3 => 96
  | _ => 192

/-- The row that a tag and its bytes stand for (R177). -/
def unpackRow (tag : Nat) (bs : List Byte) : Row :=
  let word (i n : Nat) : Word := BitVec.ofNat 32 (leNat ((bs.drop i).take n))
  match tag with
  | 1 => laneList.map fun _ => word 0 4
  | 2 => laneList.map fun l => word 0 4 + BitVec.ofNat 32 l * word 4 4
  | 3 => laneList.map fun l => ((word (2 * l) 2).extractLsb' 0 16).signExtend 32
  | _ => laneList.map fun l => word (4 * l) 4

/-- The record of a granule: the address of each piece and its bytes (R176). -/
def Granule.pieces (g : Granule) : List (Nat × List Byte × Bool) :=
  let at_ := g.base + 1600 * g.index
  let bad (i : Nat) := g.poison.any (·.1 == 8 * g.index + i)
  let packs := (List.range 8).map fun i => packRow (g.rows.getD i []) (bad i)
  let tags := (List.range 8).foldl (fun n i => n + (packs.getD i (0, [])).1 * 4 ^ i) 0
  (at_, leBytes 64 tags, false) ::
    (List.range 8).flatMap fun i =>
      let bs := (packs.getD i (0, [])).2
      let slot := at_ + 64 + 192 * i
      if bad i then laneList.map fun l => (slot + 4 * l, (bs.drop (4 * l)).take 4, g.poison.contains (8 * g.index + i, l))
      else [(slot, bs, false)]

/-- The spans that a granule's record writes: its header, and of each row the slot bytes in use. -/
def Granule.spans (g : Granule) : List (Nat × Nat) :=
  let at_ := g.base + 1600 * g.index
  let bad (i : Nat) := g.poison.any (·.1 == 8 * g.index + i)
  (at_, 64) :: (List.range 8).map fun i => (at_ + 64 + 192 * i, (packRow (g.rows.getD i []) (bad i)).2.length)

/-- Check the pages of the pieces of a record that the spill engine touches, each with its address and length; the first
that fails decides (R178). -/
def State.spillCheck (s : State) (x : CtxRef) (k : Acc4) (spans : List (Nat × Nat)) : Except VFault Unit :=
  spans.foldr (fun p r =>
    match s.checkRange x k 64 p.1 p.2 false none with
    | .error e => .error e
    | .ok _ => r) (.ok ())

/-- Write a granule to memory (R176). Spill traffic is no program access and enters no hold (R180). -/
def State.writeGranule (s : State) (g : Granule) : Except VFault State :=
  (s.spillCheck g.ctx .spillWrite g.spans).map fun _ =>
    g.pieces.foldl (fun s p =>
      (pieces 4 p.1 p.2.1.length).foldl (fun s va =>
        match s.translate g.ctx va with
        | .fault _ => s
        | .ok l => (l.writeSingle (va - l.va) ((p.2.1.drop (va - p.1)).take 4) p.2.2).foldl
            (fun s w => s.physWrite ⟨g.ctx, none, none⟩ w.pa w.data w.bad) s) s) s

/-- Read a granule back from memory, its header first and then the bytes that the tags use: its rows and which of their
words are poisoned (R176, R177). A poisoned word in the slot of a row that was packed poisons every lane of it, and one in the header
none (log 85). -/
def State.readGranule (s : State) (x : CtxRef) (base index : Nat) : Except VFault (List Row × List (Nat × Nat)) :=
  let at_ := base + 1600 * index
  let ag : Agent := ⟨x, none, none⟩
  let bytes (va n : Nat) : List (Byte × Bool) := (List.range n).map fun k =>
    match s.translate x (va + k) with
    | .fault _ => (0, false)
    | .ok l => let r := s.readSingle ag l (va + k - l.va) 1; (r.1.headD 0, r.2)
  let tag (i : Nat) : Nat := leNat ((bytes at_ 2).map (·.1)) / 4 ^ i % 4
  let slot (i : Nat) : Nat := at_ + 64 + 192 * i
  match s.spillCheck x .refill [(at_, 64)] with
  | .error e => .error e
  | .ok _ =>
    (s.spillCheck x .refill ((List.range 8).map fun i => (slot i, tagBytes (tag i)))).map fun _ =>
      let slots := (List.range 8).map fun i => (tag i, bytes (slot i) (tagBytes (tag i)))
      (slots.map fun t => unpackRow t.1 (t.2.map (·.1)),
        (List.range 8).flatMap fun i =>
          let t := slots.getD i (0, [])
          if t.1 == 0 then
            (laneList.filter fun l => ((t.2.drop (4 * l)).take 4).any (·.2)).map fun l => (8 * index + i, l)
          else if t.2.any (·.2) then laneList.map fun l => (8 * index + i, l)
          else [])

/-- The granule of a warp in a core's spill buffer, the latest first (R179). -/
def CoreState.buffered (c : CoreState) (w : WarpRef) (index : Nat) : Option Granule :=
  c.spillBuf.findRev? fun g => g.warp == w && g.index == index

end Sys2Proof.Machine
end

