-- ==== Sys2Proof/Machine/Ends.lean ====
section
/-! DEFINITION. How crews and launches end: the grace home's counting (11 R283 to R286), what an ending launch leaves
(09 R236, R240; 15 R358, R362), its completion record (16 R448, R449), retirement (R412) and replay (R420). -/

namespace Sys2Proof.Machine

/-! ## The grace home -/

def minTag (l : List Section) : Option DWord :=
  l.foldl (fun r x => match r with
    | none => some x.tag
    | some t => some (if x.tag.toNat < t.toNat then x.tag else t)) none

/-- R285: DONE after any change; it never decreases. -/
def Grace.settle (g : Grace) : Grace :=
  let d := match minTag g.sections with
    | none => g.ack
    | some t => if t.toNat < g.ack.toNat then t else g.ack
  { g with done := if g.done.toNat < d.toNat then d else g.done }

def Grace.new (cores : List Nat) : Grace where
  cur := 0
  ack := 0
  done := 0
  starts := []
  depths := []
  copies := cores.map fun n => ⟨n, 0, 0, 0, 0⟩
  sections := []
  frees := []

def Grace.copy (g : Grace) (core : Nat) : GraceCopy := (g.copies.find? (·.core == core)).getD ⟨core, 0, 0, 0, 0⟩
def Grace.modCopy (g : Grace) (core : Nat) (f : GraceCopy → GraceCopy) : Grace :=
  { g with copies := updWhere (·.core == core) f g.copies }

/-- R282: warps that are removed leave every section; a start that they sent still reaches the home. -/
def Grace.removeWarps (g : Grace) (p : WarpRef → Bool) : Grace :=
  let keep : GraceMsg → Bool
    | .start _ _ => true
    | .depth w _ _ _ => !p w
  { g with
    sections := g.sections.filter fun x => !p x.warp
    depths := g.depths.filter keep }.settle

/-- R289: the entries of the pending list, those on their way to it included. -/
def Grace.freeCount (g : Grace) : Nat :=
  g.frees.length + (g.starts.filter fun m => match m with
    | .start _ (some _) => true
    | _ => false).length

def freeLimit : Nat := 4096

/-! ## Crews leaving their cores -/

/-- R313 kinds 3 and 4: an entry, and no record. The crew of a launch that is gone leaves its number only. -/
def State.deadFree (s : State) (x : CtxRef) (f : Free) (kind : Nat) : State :=
  let dies := (s.diesOf x)
  let die := dies.foldl min (dies.headD 0)
  let l := s.launch? f.queue.crew.launch
  let entry := l.bind fun l => l.tmpl.queues[f.queue.q]?
  let group := (entry.map (·.group)).getD 0
  let off := (entry.map (·.off)).getD 0
  let e := deadEntry kind die (48 * die) ((l.map (·.seq)).getD 0) f.queue.crew.crew group 0xFF off 20 s.clock.tick
  (s.deadWrite die e).1

/-- Deliveries that the queues of a crew hold pending are discarded: kind 3 where the queue is broken (R209). -/
def State.discardHeld (s : State) (r : CrewRef) (kind : Nat) (p : Queue → Bool) : State :=
  match s.crew? r, s.launch? r.launch with
  | some c, some l =>
    let held := c.queues.zipIdx.flatMap fun q => if p q.1 then q.1.pending.map fun d => Free.mk d ⟨r, q.2⟩ else []
    let s := s.modCrew r fun c => { c with queues := c.queues.map fun q => if p q then { q with pending := [] } else q }
    held.foldl (fun s f => s.deadFree l.ctx f kind) s
  | _, _ => s

def State.discardBroken (s : State) (r : CrewRef) : State := s.discardHeld r 3 fun q => q.state == 2

/-- The word of a warp in the retirement report (R448). -/
def Warp.laneFaultWord (w : Warp) : DWord := w.lfMask.setWidth 64 ||| (w.lfCause.setWidth 64 <<< 48)

/-- R18: a crew that has ended returns its resources; its lane faults and signatures stay with the launch (R448,
R424), but for signatures that took in a poisoned word (R335), and what its queues hold pending finds no queue (R209). -/
def State.removeCrew (s : State) (r : CrewRef) : State :=
  match s.crew? r with
  | none => s
  | some c =>
    let s := (s.discardBroken r).discardHeld r 4 fun _ => true
    let words := c.warps.map (·.laneFaultWord)
    let sig := c.warps.foldl (fun x w => x ^^^ w.sig) 0
    let s := s.modLaunch r.launch fun l =>
      { l with
        laneFaults := if !r.shadow && c.warps.any (·.lfMask != 0) then l.laneFaults ++ [(r.crew, words)] else l.laneFaults
        sigs := if c.warps.any (·.spoiled) then l.sigs else l.sigs ++ [(r, sig)] }
    let gone (w : WarpRef) := w.crew == r
    let s := match s.launch? r.launch with
      | some l => s.modContext l.ctx fun x => { x with grace := x.grace.removeWarps gone }
      | none => s
    { s with
      crews := s.crews.filter (·.ref != r)
      partitions := s.partitions.map fun (p : Partition) =>
        { p with
          resumes := p.resumes.filter (· != r)
          slots := p.slots.map fun x => match x.2.2 with
            | .crews l => (x.1, x.2.1, if l.all (· == r) then .empty else .crews (l.filter (· != r)))
            | _ => x }
      cores := s.cores.map fun k =>
        { k with
          copies := k.copies.filter (·.crew != r)
          matQueue := k.matQueue.filter (·.warp.crew != r)
          matUnit := k.matUnit.filter (·.warp.crew != r)
          tilePath := k.tilePath.filter (·.warp.crew != r) } }

/-! ## Completion of a launch -/

/-- The lane-fault detail of R448, in ascending crew index. -/
def laneFaultDetail (seq : BitVec 32) (l : List (Nat × List DWord)) : List Byte :=
  let sorted := l.foldl (fun (acc : List (Nat × List DWord)) x =>
    acc.takeWhile (·.1 < x.1) ++ [x] ++ acc.dropWhile (·.1 < x.1)) []
  leBytes 1 4 ++ leBytes 3 0 ++ leBytes 4 l.length ++ leBytes 4 seq.toNat ++ leBytes 4 0 ++
    sorted.flatMap fun x => leBytes 4 x.1 ++ leBytes 1 x.2.length ++ leBytes 3 0 ++ x.2.flatMap fun w => leBytes 8 w.toNat

/-- The packet of a queue is complete (R403, FENCE). -/
def State.packetDone (s : State) (q : QueueRef) (seq : BitVec 32) : State :=
  s.modCmdQueue q fun c => { c with pending := c.pending.filter (·.seq != seq) }

/-- Write the completion record of a launch (R418, R448) and let its packet complete. -/
def State.completeLaunch (s : State) (id status : Nat) : State :=
  match s.launch? id with
  | none => s
  | some l =>
    if l.done.isSome then s
    else
      let s := s.modLaunch id fun l => { l with done := some status, hold := [], snapshots := [] }
      let freed := (l.snapshots.map (·.size)).sum
      let s := s.modContext l.ctx fun c => { c with poolUsed := c.poolUsed - freed }
      let s := s.packetDone l.queue l.seq
      if !l.compl && status == 0 then s
      else
        let (s, va) := if l.laneFaults.isEmpty then (s, 0) else s.diagWrite l.ctx (laneFaultDetail l.seq l.laneFaults)
        s.launchEvent l 1 status
          (leBytes 4 l.ended ++ leBytes 4 l.laneFaults.length ++ leBytes 4 l.races ++ leBytes 1 l.replays ++
            leBytes 1 ((if l.confirmed then 1 else 0) + (if l.unreplayable then 2 else 0)) ++ leBytes 2 0 ++ leBytes 8 va)

/-- The crews of a launch that have been placed and have not ended. -/
def State.crewsOf (s : State) (id : Nat) : List CrewRef := (s.crews.filter (·.ref.launch == id)).map (·.ref)

/-- R240, R310: every warp of a launch stops, its queues break, its copies are abandoned and its crews are removed, with the granules
that it has not written. -/
def State.stopLaunch (s : State) (id : Nat) : State :=
  let s : State := { s with crews := s.crews.map fun (c : Crew) => if c.ref.launch == id then c.warps.foldl Crew.breakOf c else c }
  let copies := s.cores.flatMap fun k => k.copies.filter (·.crew.launch == id)
  let s := copies.foldl (fun s c => if c.isStore then s.abandonUnits c else s) s
  let s := (s.crewsOf id).foldl State.removeCrew s
  { s with cores := s.cores.map fun k => { k with spillBuf := k.spillBuf.filter (·.warp.crew.launch != id) } }

/-- R449: of two causes in one cycle the lower status stands, but the watchdog's and the destruction's stand before the others; a
launch that a cause has reached does not retire as done. -/
def endStatus (old new : Nat) : Nat :=
  let first (n : Nat) : Bool := n == 20 || n == 26
  if new == 0 then old
  else if first old && !first new then old
  else if first new && !first old then new
  else min old new

/-- A cause of a status of R449 other than 0 reaches a launch; in a later cycle than the first it comes too late. -/
def State.endLaunch (s : State) (id status : Nat) : State :=
  match s.launch? id with
  | none => s
  | some l =>
    if l.done.isSome then s
    else
      match l.ending with
      | none => s.modLaunch id fun l => { l with ending := some (status, s.clock.cycle) }
      | some (old, at_) =>
        if at_ == s.clock.cycle then s.modLaunch id fun l => { l with ending := some (endStatus old status, at_) } else s

/-- A launch that a cause has reached ends. Held stores stay withheld (R240). -/
def State.settleEnd (s : State) (id : Nat) : State :=
  match s.launch? id with
  | none => s
  | some l =>
    match l.done, l.ending with
    | none, some e => (s.stopLaunch id).completeLaunch id e.1
    | _, _ => s

/-- A launch ends at once. -/
def State.endNow (s : State) (id status : Nat) : State := (s.endLaunch id status).settleEnd id

/-- The status with which a launch has ended, or ends as far as the causes of the cycle go. -/
def Launch.status (l : Launch) : Option Nat := l.done <|> l.ending.map (·.1)

/-- The status of a launch that a cause of status `n` reaches now. -/
def State.endsAs (s : State) (id n : Nat) : Nat :=
  match (s.launch? id).bind (·.ending) with
  | none => n
  | some (old, at_) => if at_ == s.clock.cycle then endStatus old n else old

/-- R236: a kernel boundary leaves no line in any L1 or remote-data cache. -/
def State.dropCaches (s : State) : State :=
  { s with cores := s.cores.map fun k => { k with l1 := [] }, dies := s.dies.map fun d => { d with rdc := [] } }

/-! ## Replay (R420) -/

/-- Whether an error of a launch replays it: REPLAY is set, it is still replayable, and its limit is not reached. -/
def Launch.armed (l : Launch) : Bool := l.replay && !l.unreplayable && l.replays < l.replayLimit

/-- R420: stop, discard the hold, copy every snapshot back, and start again from the packet. `cause` goes into the
replay record. A launch that another cause has reached ends. -/
def State.replayLaunch (s : State) (id cause : Nat) : State :=
  match s.launch? id with
  | none => s
  | some l =>
    if l.ending.isSome then s else
    let s := s.stopLaunch id
    let restore (s : State) (p : Snapshot) : State :=
      let inside (a : Nat) : Bool := p.pa ≤ a && a < p.pa + p.size
      let cleared := s.mem.filter fun m => !inside m.1
      { s with
        mem := p.cells.foldl (fun m c => Memory.write m c.1 c.2) cleared
        memPoison := p.poison.foldl (fun ps w => setInsert w ps) (s.memPoison.filter fun w => !inside (4 * w)) }
    let s := (s.launch? id).elim s fun l => l.snapshots.foldl restore s
    let freed := (l.snapshots.map (·.size)).sum
    let s := s.modContext l.ctx fun c => { c with poolUsed := c.poolUsed - freed }
    let s := s.dropCaches.modLaunch id fun l =>
      { l with replays := l.replays + 1, next := 0, ended := 0, hold := [], snapshots := [], laneFaults := [],
               races := 0, sigs := [] }
    s.launchEvent l 8 0 (leBytes 1 (l.replays + 1) ++ [Config.recordByte 2 cause])

/-- The units that an uncorrectable-error record names. -/
inductive ErrorUnit where
  | warp | queueUnit | office | walk | fetch
  deriving DecidableEq, Repr

/-- The body of an uncorrectable-error record (R418): of a word that lies in no memory the address is open, and the codes of the
unit and of the action (0 none, 1 replay, 2 the launch ends) are too (log 18). -/
def State.errorBody (s : State) (pa : Option Nat) (unit : ErrorUnit) (core warp action : Nat) : List Byte :=
  leBytes 8 (pa.getD (Config.errorAddress s.fresh).toNat) ++ [Config.recordByte 0 unit.ctorIdx] ++ leBytes 2 core ++
    leBytes 1 warp ++ [Config.recordByte 1 action]

/-- R428, R420: a consumed uncorrectable error replays the launch or ends it with status 23, after its record. -/
def State.consumedError (s : State) (id : Nat) (pa : Option Nat) (unit : ErrorUnit) (core warp : Nat) : State :=
  match s.launch? id with
  | none => s
  | some l =>
    let s := s.launchEvent l 7 0 (s.errorBody pa unit core warp (if l.armed then 1 else 2))
    if l.armed then s.replayLaunch id 1 else s.endLaunch id 23

end Sys2Proof.Machine
end

