-- ==== Sys2Proof/Machine/Flags.lean ====
section
/-! DEFINITION. The per-warp control registers as fields and flags: `FPCTL` (04 R109, R110), `NUMCTL` and `NUMSTAT`
(05 R134 to R138), `WINCTL` (07 R181), `LANEFAULT` (09 R230), `TRAPBASE` (15 R359), and the generator (05 R125). -/

namespace Sys2Proof.Machine

/-! ## Fields of a register word -/

/-- Replace `n` bits at `lo` of a word. -/
def setField (w : Word) (lo n v : Nat) : Word :=
  (w &&& ~~~(BitVec.ofNat 32 ((2 ^ n - 1) * 2 ^ lo))) ||| BitVec.ofNat 32 ((v % 2 ^ n) * 2 ^ lo)

/-! ## FPCTL -/

/-- R110: the flags are sticky. -/
def FFlags.toWord (f : FFlags) : Word :=
  (if f.nv then 16 else 0) ||| (if f.dz then 32 else 0) ||| (if f.ov then 64 else 0) |||
    (if f.uf then 128 else 0) ||| (if f.nx then 256 else 0)

def Warp.raise (w : Warp) (v : Word) : Warp := { w with fpctl := w.fpctl ||| v }

/-- The rounding code of `FPCTL.RM` (R58, R109). -/
def Warp.defaultRm (w : Warp) : Rm :=
  match (w.fpctl.extractLsb' 0 3).toNat with
  | 2 => .rz
  | 3 => .ru
  | 4 => .rd
  | 5 => .rna
  | 6 => .rsib
  | 7 => .rsto
  | _ => .rne

/-- `NUMCTL.NEAR` (R137, R139). -/
def Warp.near (w : Warp) : Bool := w.numctl.getLsbD 12

/-- The resolved mode, in a nearest region RNE in place of a drawing mode (R106, R139). -/
def Warp.resolveRm (w : Warp) (m : Rm) : Rm :=
  let m := if m == .none then w.defaultRm else m
  if w.near && (m == .rsib || m == .rsto) then .rne else m

def drawing (m : Rm) : Bool := m == .rsib || m == .rsto

/-- R365, R109: a write of `FPCTL`. -/
def Warp.writeFpctl (w : Warp) (v : Word) : Warp :=
  let rm := (v.extractLsb' 0 3).toNat
  let x := w.fpctl &&& ~~~(v &&& 0x1F0)
  { w with fpctl := if rm == 0 then x else setField x 0 3 rm }

/-! ## Numerical causes -/

/-- The four causes, with the codes of `NUMSTAT.LAST` (R138). -/
inductive Cause where
  | cancel | cmpdis | divz | addrdis
  deriving DecidableEq, Repr

def Cause.no : Cause → Nat
  | .cancel => 0 | .cmpdis => 1 | .divz => 2 | .addrdis => 3

/-- R135: an event of a set of threads is recorded. -/
def Warp.record (w : Warp) (c : Cause) (threads : Nat) : Warp :=
  { w with numstat :=
      setField (setField (w.numstat ||| BitVec.ofNat 32 (2 ^ c.no)) 8 3 (c.no + 1)) 12 16 threads }

/-- The enable bit of a cause in `NUMCTL` (R137). -/
def Warp.enabled (w : Warp) (c : Cause) : Bool := w.numctl.getLsbD (8 + c.no)

/-- The trap code of a cause (R356). -/
def Cause.trap (c : Cause) : Nat := c.no + 2

/-- R133. -/
def maj (a b c : Bool) : Bool := (a && b) || (a && c) || (b && c)

/-- The threads of a mask whose lanes disagree in a predicate (R134), as a set of thread numbers. -/
def disagreeing (m v : Mask) : Nat :=
  (List.range 16).foldl (fun n t =>
    if m.getLsbD (3 * t) &&
        !(v.getLsbD (3 * t) == v.getLsbD (3 * t + 1) && v.getLsbD (3 * t + 1) == v.getLsbD (3 * t + 2))
      then n + 2 ^ t else n) 0

/-- Each thread takes the majority of its three values (R135). -/
def majorityMask (v : Mask) : Mask :=
  maskOf fun l => let t := l / 3; maj (v.getLsbD (3 * t)) (v.getLsbD (3 * t + 1)) (v.getLsbD (3 * t + 2))

/-- R134 to R136: resolve a per-lane result over the lanes of `m` in a launch of either mode. The error is the warp
with its event recorded, which traps. -/
def Warp.resolve (w : Warp) (triple : Bool) (m v : Mask) : Except Warp (Warp × Mask) :=
  if !triple then .ok (w, v)
  else
    let d := disagreeing m v
    if d == 0 then .ok (w, v)
    else
      let w := w.record .cmpdis d
      if w.enabled .cmpdis then .error w else .ok (w, majorityMask v)

/-- R137: a write of `NUMCTL`; NEAR is ignored in single launches. -/
def Warp.writeNumctl (w : Warp) (triple : Bool) (v : Word) : Warp :=
  { w with numctl := if triple then v &&& 0x1F1F else v &&& 0x0F1F }

/-- R138: W1C bits 0 to 4. -/
def Warp.writeNumstat (w : Warp) (v : Word) : Warp := { w with numstat := w.numstat &&& ~~~(v &&& 0x1F) }

/-! ## WINCTL, LANEFAULT -/

/-- R181; BUSY comes from the spill engine. -/
def Warp.winctl (w : Warp) (busy : Bool) : Word :=
  BitVec.ofNat 32 (w.reach + (w.ring / 8) * 256 + w.woc.toNat * 65536 + (if w.rej then 2 ^ 19 else 0) +
    (if busy then 2 ^ 20 else 0))

/-- R230: lanes switched off by one instruction, with the cause of the highest-numbered one, and the crew's mask. -/
def Warp.recordLaneFault (w : Warp) (lanes : Mask) (cause : BitVec 3) : Warp :=
  if lanes == 0 then w
  else
    { w with
      laneFault := ((w.laneFault &&& 0x0000_FFFF_FFFF_FFFF) ||| lanes.setWidth 64) ||| (cause.setWidth 64 <<< 48)
      lfMask := w.lfMask ||| lanes
      lfCause := cause }

/-- R230: LANES is W1C, CAUSE is read only. -/
def Warp.writeLaneFault (w : Warp) (v : DWord) : Warp :=
  { w with laneFault := w.laneFault &&& ~~~(v &&& 0x0000_FFFF_FFFF_FFFF) }

/-! ## The generator (R125) -/

def mix (z : DWord) : DWord :=
  let z := (z ^^^ (z >>> 30)) * 0xBF58_476D_1CE4_E5B9
  let z := (z ^^^ (z >>> 27)) * 0x94D0_49BB_1331_11EB
  z ^^^ (z >>> 31)

/-- The word of a counter a and a crew word b under key k (R125, 13 R329). -/
def drawWord (k a b : DWord) : DWord := mix (mix (k ^^^ a) ^^^ (b * 0xD6E8_FEB8_6659_FD93))

/-- R125: the generator word of a lane at an op count. -/
def genWord (k : DWord) (crew warp : Nat) (triple same : Bool) (stream lane opc : Nat) : DWord :=
  let sib := if same then 0 else siblingOf triple lane
  let a := opc + stream * 2 ^ 48 + sib * 2 ^ 52 + threadOf triple lane * 2 ^ 54
  let b := crew % 2 ^ 32 + (warp % 64) * 2 ^ 32
  drawWord k (BitVec.ofNat 64 a) (BitVec.ofNat 64 b)

/-- R125: the counts of the lanes of `m` advance by `n`; a count that passes its end sets `NUMSTAT.WRAP`. -/
def Warp.advance (w : Warp) (m : Mask) (n : Nat) : Warp :=
  let wraps := laneList.any fun l => m.getLsbD l && 2 ^ 48 ≤ (w.opcount.getD l 0).toNat + n
  { w with
    opcount := laneList.map fun l =>
      if m.getLsbD l then w.opcount.getD l 0 + BitVec.ofNat 48 n else w.opcount.getD l 0
    numstat := if wraps then w.numstat ||| 16 else w.numstat }

end Sys2Proof.Machine
end

