-- ==== Sys2Proof/WellFormed.lean ====
section
/-! DEFINITION. Which instruction terms are legal: the roles, alignments, tags and ranges of R55, R56, R63 and of
each instruction's own table. A word that no legal term encodes is the illegal-instruction trap. -/

namespace Sys2Proof

/-- Lane destination (R55). -/
def Spec.laneDst : Spec → Bool
  | .v _ | .q _ | .vx _ | .zero => true
  | _ => false

/-- Scalar source or destination (R55). -/
def Spec.scal : Spec → Bool
  | .s _ | .zero => true
  | _ => false

/-- An even scalar or `zero`: a 64-bit scalar operand, or a global base (R55, R56). -/
def Spec.scal64 : Spec → Bool
  | .s n => n.val % 2 == 0
  | .zero => true
  | _ => false

/-- A 64-bit lane source (R56). -/
def Spec.src64 : Spec → Bool
  | .v n => n.val % 2 == 0
  | .s n => n.val % 2 == 0
  | .zero => true
  | _ => false

/-- A 64-bit lane destination (R56). -/
def Spec.dst64 : Spec → Bool
  | .v n => n.val % 2 == 0
  | .zero => true
  | _ => false

/-- A 128-bit lane operand (R56). -/
def Spec.lane128 : Spec → Bool
  | .v n => n.val % 4 == 0
  | .zero => true
  | _ => false

/-- `v` or `v[x]` only (R96, R140, R213). -/
def Spec.vOrVx : Spec → Bool
  | .v _ | .vx _ => true
  | _ => false

/-- A target specifier of an indirect transfer (R157). -/
def Spec.target : Spec → Bool
  | .v _ | .vx _ | .s _ => true
  | _ => false

/-- The content of an unused specifier field, code 0x00. -/
def Spec.unused : Spec := .v 0

/-- A second operand whose register may be any lane source. -/
def Src2.laneOk : Src2 → Bool := fun _ => true

/-- A second operand whose register must be a scalar source. -/
def Src2.scalOk : Src2 → Bool
  | .reg r => r.scal
  | .imm _ => true

/-- A second operand whose register must be an even scalar or `zero`. -/
def Src2.scal64Ok : Src2 → Bool
  | .reg r => r.scal64
  | .imm _ => true

def Src2.isUnused (b : Src2) : Bool := b == .reg .unused

def Ty.int32 (t : Ty) : Bool := t == .none || t == .i32 || t == .n32
def Ty.float3 (t : Ty) : Bool := t == .none || t == .f32 || t == .f16 || t == .bf16
def Ty.half2 (t : Ty) : Bool := t == .none || t == .f16 || t == .bf16

/-- R41: SETF 13 to 15 is illegal. -/
def Ctl.wf (c : Ctl) : Bool := c.setf.toNat ≤ 12

/-- R85's binary operations: which of the tag, SAT and SRCC each one uses. -/
def IntArgs.wf (x : IntArgs) (tags : Ty → Bool) (sat unary three : Bool) : Bool :=
  tags x.ty && x.dst.laneDst && (sat || !x.sat) && (!unary || x.b.isUnused) && (three || x.c == .unused)

def FieldArgs.wf (x : FieldArgs) (tags : Ty → Bool) (insert : Bool) : Bool :=
  tags x.ty && x.dst.laneDst && x.wid.toNat ≤ 32 && (insert || x.b == .unused)

def CmpArgs.wf (x : CmpArgs) (scalar : Bool) : Bool :=
  x.ty.int32 && x.p != 7 &&
    (if scalar then
      (if x.w64 then x.a.scal64 && x.b.scal64Ok else x.a.scal && x.b.scalOk)
     else !x.w64)

def ScalArgs.wf (x : ScalArgs) (tags : Ty → Bool) (wide shift unary : Bool) : Bool :=
  tags x.ty && (wide || !x.w64) &&
    (if x.w64 then x.dst.scal64 && x.a.scal64 else x.dst.scal && x.a.scal) &&
    (if unary then x.b.isUnused else if x.w64 && !shift then x.b.scal64Ok else x.b.scalOk)

/-- R112, R113: which sources, negations and rounding each float instruction uses. -/
def FArgs.wf (x : FArgs) (tags : Ty → Bool) (srcs : Nat) (neg rounds : Bool) : Bool :=
  tags x.ty && x.dst.laneDst && (rounds || x.rm == .none) &&
    (2 ≤ srcs || x.b == .unused) && (3 ≤ srcs || x.c == .unused) &&
    (neg || !x.na) && ((neg && 2 ≤ srcs) || !x.nb) && ((neg && 3 ≤ srcs) || !x.nc)

/-- Floating types of `cvt`. -/
def Ty.isFloat : Ty → Bool
  | .f32 | .f16 | .bf16 | .e4m3 | .e5m2 | .e2m1 => true
  | _ => false

/-- The types `cvt` accepts (R121). -/
def Ty.cvtOk : Ty → Bool
  | .none | .i4 | .i3 => false
  | _ => true

/-- The largest ELEM of a source type (R121). -/
def Ty.elemMax : Ty → Nat
  | .i8 | .n8 | .e4m3 | .e5m2 => 3
  | .e2m1 => 7
  | .i16 | .n16 | .f16 | .bf16 => 1
  | _ => 0

def CvtArgs.wf (x : CvtArgs) : Bool :=
  x.dty.cvtOk && x.sty.cvtOk && (x.dty.isFloat || x.sty.isFloat) && x.dty != x.sty &&
    x.dst.laneDst && x.elem.toNat ≤ x.sty.elemMax

/-- The memory forms of R241. -/
inductive MemKind where
  | load | store | loadU | atomic | reduce | prefetch | control
  deriving DecidableEq, Repr

/-- The legal AOP codes by width (R242): `red` excludes `.exch` and `.cas` (R241). -/
def aopOk (k : MemKind) (sz : BitVec 3) (aop : BitVec 4) : Bool :=
  let n := aop.toNat
  let known := if sz == 2 then 1 ≤ n && n ≤ 11 else n == 1 || (6 ≤ n && n ≤ 10)
  match k with
  | .atomic => known
  | .reduce => known && n != 9 && n != 10
  | .prefetch => n == 1 || n == 2
  | .control => n == 1
  | _ => n == 0

/-- The data register of a store or atomic, by the bytes it supplies. -/
def Spec.dataOk (r : Spec) (words : Nat) : Bool :=
  if words == 4 then r.lane128 else if words == 2 then r.src64 else true

def MemArgs.tailOk (x : MemArgs) (k : MemKind) : Bool :=
  match x.tail, k with
  | .wide _, .load | .wide _, .store | .wide _, .loadU => x.sem == 0
  | .narrow _ aop sc, .prefetch => aopOk .prefetch x.sz aop && sc == .warp
  | .narrow _ aop sc, .control => aopOk .control x.sz aop && (sc == .core || sc == .die)
  | .narrow _ aop _, .atomic => aopOk .atomic x.sz aop
  | .narrow _ aop _, .reduce => aopOk .reduce x.sz aop
  | .narrow _ aop _, k => aopOk k x.sz aop && x.sem != 0
  | _, _ => false

def MemArgs.aop (x : MemArgs) : BitVec 4 :=
  match x.tail with
  | .narrow _ a _ => a
  | .wide _ => 0

/-- The words of a datum: two for 64 bits, doubled for `.cas` (R56, R242). -/
def MemArgs.dataWords (x : MemArgs) (k : MemKind) : Nat :=
  let base := if x.sz == 4 then 4 else if x.sz == 3 then 2 else 1
  if (k == .atomic || k == .reduce) && x.aop == 10 then 2 * base else base

def MemArgs.wf (x : MemArgs) (k : MemKind) (scratch : Bool) : Bool :=
  (match x.base with
    | .glob r => !scratch && r.scal64
    | .slot _ => scratch) &&
  x.tailOk k && x.sz.toNat ≤ 4 && (x.sz.toNat < 2 || !x.sx) &&
  (match k with
    | .load =>
      (x.sem == 0 || x.sem == 1) && x.data == .unused &&
        (if x.sz == 4 then x.dst.lane128 else if x.sz == 3 then x.dst.dst64 else x.dst.laneDst)
    | .store => (x.sem == 0 || x.sem == 2) && x.dst == .unused && x.data.dataOk (x.dataWords .store)
    | .loadU =>
      (x.sem == 0 || x.sem == 1) && x.data == .unused && x.index.scal && x.sz.toNat ≤ 3 &&
        (if x.sz == 3 then x.dst.scal64 else x.dst.scal)
    | .atomic =>
      (x.sz == 2 || x.sz == 3) && x.data.dataOk (x.dataWords .atomic) &&
        (if x.sz == 3 then x.dst.dst64 else x.dst.laneDst)
    | .reduce =>
      (x.sz == 2 || x.sz == 3) && (x.sem == 0 || x.sem == 2) && x.dst == .unused &&
        x.data.dataOk (x.dataWords .reduce)
    | .prefetch | .control => x.sz == 0 && !x.sx && x.sem == 0 && x.dst == .unused && x.data == .unused)

/-- R53: the argument of a condition slot. -/
def Cond.wf : Cond → Bool
  | .flag k => 1 ≤ k.toNat && k.toNat ≤ 12
  | .word cmp _ slot sp => cmp != 3 && (sp || slot == 0)
  | .grace k => k.toNat % 2 == 0
  | _ => true

def WaitArgs.wf (x : WaitArgs) : Bool :=
  x.dst.scal && x.c0.wf && x.c1.wf && x.c2.wf && x.c3.wf && (x.tp != 7 || x.ts == 0) &&
    !(x.c0 == .none && x.c1 == .none && x.c2 == .none && x.c3 == .none && x.tp == 7)

/-- The four octet starts of R300. -/
def Spec.octet : Spec → Bool
  | .s n => n.val % 8 == 0
  | _ => false

def CopyArgs.wf (x : CopyArgs) : Bool := x.dst.scal && x.oct.octet

/-- The operand a control register takes (R364): scalar, scalar pair, lane pair, or no such register. -/
inductive CregKind where
  | scalar | pair | lanePair | none
  deriving DecidableEq, Repr

def cregKind (n : Word) : CregKind :=
  match n.toNat with
  | 0x00 | 0x01 | 0x02 | 0x05 | 0x07 | 0x09 | 0x0A | 0x0B | 0x0C => .scalar
  | 0x03 | 0x06 | 0x08 | 0x0D => .pair
  | 0x04 => .lanePair
  | 0x10 | 0x11 | 0x12 | 0x13 | 0x14 | 0x15 | 0x16 | 0x17 => .scalar
  | _ => .none

def cregOperand (n : Word) (r : Spec) (dst : Bool) : Bool :=
  match cregKind n with
  | .scalar => r.scal
  | .pair => r.scal64
  | .lanePair => (if dst then r.dst64 else match r with | .v n => n.val % 2 == 0 | .zero => true | _ => false)
  | .none => false

/-- A legal row count of `rclaim` and `rrelease` (R189). -/
def rowsOk (n : Word) : Bool := n.toNat % 8 == 0 && 8 ≤ n.toNat && n.toNat ≤ 1016

/-- The conditions on an instruction's own operands; events have none. `slea` and `vote.ballot` take `zero` for a destination, as R56 lets
a wide operand, and discard the result (log 84). -/
def Instr.argsWf : Instr → Bool
  | .iadd _ x | .isub _ x => x.wf Ty.int32 true false false
  | .imul _ x | .imulh _ x | .imin _ x | .imax _ x => x.wf Ty.int32 false false false
  | .imad _ x => x.wf Ty.int32 true false true
  | .iabs _ x => x.wf (fun t => t == .none || t == .i32) true true false
  | .and _ x | .or _ x | .xor _ x | .andn _ x | .shl _ x | .shr _ x | .sar _ x | .rot _ x =>
    x.wf (· == .none) false false false
  | .popc _ x | .clz _ x => x.wf (· == .none) false true false
  | .bfx _ x => x.wf Ty.int32 false
  | .bfi _ x => x.wf (· == .none) true
  | .sel _ x => x.dst.laneDst
  | .mov _ dst _ => dst.laneDst
  | .movi _ dst _ => dst.laneDst
  | .icmp _ x => x.wf false
  | .lea _ x => x.ty.int32 && x.dst.dst64 && x.a.src64
  | .sxt _ x => (x.ty == .i8 || x.ty == .i16 || x.ty == .n8 || x.ty == .n16) && x.dst.laneDst
  | .sadd _ x | .ssub _ x | .sand _ x | .sor _ x | .sxor _ x => x.wf (· == .none) true false false
  | .smul _ x => x.wf (· == .none) false false false
  | .sshl _ x => x.wf (· == .none) true true false
  | .sshr _ x => x.wf Ty.int32 true true false
  | .smov _ x => x.wf (· == .none) true false true
  | .smovi _ dst _ => dst.scal
  | .scmp _ x => x.wf true
  | .slea _ x => x.ty.int32 && x.dst.scal64 && x.a.scal64 && x.b.scal
  | .bcast _ dst a k => dst.laneDst && a.vOrVx && k.scalOk
  | .rdlane _ dst a k => dst.scal && a.vOrVx && k.scalOk
  | .voteAny _ p _ | .voteAll _ p _ => p != 7
  | .voteBallot _ dst _ => dst.scal64
  | .shfl _ _ dst a _ => dst.laneDst && a.vOrVx
  | .elect _ dst _ => dst.scal
  | .fadd _ x | .fsub _ x | .fmul _ x | .fdiv _ x => x.wf Ty.float3 2 true true
  | .ffma _ x => x.wf Ty.float3 3 true true
  | .fmin _ x | .fmax _ x => x.wf Ty.float3 2 false false
  | .fcmp _ x => x.ty.float3 && x.p != 7
  | .fsqrt _ x | .frcp _ x | .frsq _ x | .fexp2 _ x | .flog2 _ x | .frnd _ x => x.wf Ty.float3 1 true true
  | .fclass _ x => x.wf Ty.float3 1 false false
  | .hadd2 _ x | .hmul2 _ x => x.wf Ty.half2 2 true true
  | .hfma2 _ x => x.wf Ty.half2 3 true true
  | .cvt _ x => x.wf
  | .sibmodeNear _ | .sibmodeRand _ => true
  | .digits _ x | .smean _ x => x.ty.float3 && x.dst.laneDst
  | .sibget _ dst a k => dst.laneDst && a.vOrVx && k != 3
  | .sibagree _ ty p _ => ty.float3 && p != 7
  | .nchk _ ty p _ n => ty.float3 && p != 7 && n.scalOk
  | .rand _ ty _ w64 dst =>
    (ty == .none || ty == .n32 || ty == .f32) && !(w64 && ty == .f32) && (if w64 then dst.dst64 else dst.laneDst)
  | .mdpack _ x => x.ty.float3 && (if x.ty.half2 && x.ty != .none then x.dst.laneDst else x.dst.dst64)
  | .mdunpack _ x => x.ty.float3 && x.dst.laneDst && (if x.ty.half2 && x.ty != .none then true else x.a.src64)
  | .bra _ _ _ | .bru _ _ _ => true
  | .brx _ a _ => a.target
  | .call _ _ _ => true
  | .callx _ a _ _ => a.target
  | .ret _ | .exit _ | .join _ | .yield _ | .nop _ => true
  | .rclaim _ n | .rrelease _ n => rowsOk n
  | .rpool _ dst k | .wdepth _ dst k => dst.scal && k.toNat ≤ 4
  | .wflush _ => true
  | .xset _ _ _ lim => lim.toNat ≤ 191
  | .xadd _ _ a ib imm => if ib then a == .unused else imm == 0
  | .qmap _ _ _ rights off => rights != 0 && off.toNat < 2 ^ 19 && off.toNat % 64 == 0
  | .qunmap _ _ => true
  | .qpush _ _ _ _ => true
  | .qpop _ dst _ stf p => dst.vOrVx && (if stf then p != 7 else p == 0)
  | .qtryPop _ p dst _ => dst.vOrVx && p != 7
  | .qtryPush _ p _ _ => p != 7
  | .qclose _ _ => true
  | .qstat _ dst _ k => dst.scal && k.toNat ≤ 7
  | .refill c dst _ p _ => dst.vOrVx && p != 7 && !c.guard.neg && c.guard.p == 7
  | .ld _ x => x.wf .load false
  | .st _ x => x.wf .store false
  | .lds _ x => x.wf .load true
  | .sts _ x => x.wf .store true
  | .ldu _ x => x.wf .loadU false
  | .atom _ x => x.wf .atomic false
  | .atoms _ x => x.wf .atomic true
  | .red _ x => x.wf .reduce false
  | .pref _ x => x.wf .prefetch false
  | .cctl _ x => x.wf .control false
  | .fenceAcq _ _ | .fenceRel _ _ | .fenceAcqrel _ _ | .fenceSc _ _ | .fenceAsync _ => true
  | .barinit _ _ n => 1 ≤ n.toNat && n.toNat ≤ 64
  | .barinitInv _ _ | .bararr _ _ | .barwait _ _ _ => true
  | .bartx _ _ a ib imm => if ib then a == .unused else a.scal && imm == 0
  | .wait _ x => x.wf
  | .rdenter _ | .rdexit _ => true
  | .gstart _ dst | .gsync _ dst => dst.scal64
  | .dfree _ a len _ => a.scal64 && len.scal
  | .gstat _ dst k =>
    k.toNat ≤ 4 && (if k == 0 || k == 1 || k == 3 then dst.scal64 else dst.scal)
  | .cpyLoad _ x | .cpyStore _ x | .cpytLoad _ x | .cpytStore _ x | .cpyfLoad _ x | .cpyfStore _ x => x.wf
  | .cpym _ x _ => x.wf
  | .cpycan _ dst h => dst.scal && h.scal
  | .tctl _ _ _ a imm => a.scal && imm.toNat < 2 ^ 19 && (a == .zero || imm == 0)
  | .tld _ x => x.a.scal
  | .tst _ x => x.a.scal && x.src == 0
  | .mma _ _ | .mdist _ _ => true
  | .azero _ _ _ => true
  | .ard _ dst _ _ _ psel _ => dst.laneDst && psel != 3
  | .acvt _ _ _ _ psel => psel != 3
  | .atopk _ _ _ a k _ _ => a.scal && 1 ≤ k.toNat && k.toNat ≤ 16
  | .asave _ x | .arest _ x => x.a.scal
  | .trap _ n => n.toNat ≤ 255
  | .rtt _ => true
  | .ctlrd _ dst creg => cregOperand creg dst true
  | .ctlwr _ creg a => cregOperand creg a false
  | .clockTick _ dst | .clockCyc _ dst => dst.scal64
  | .brk _ => true
  | .mark _ a sr imm => if sr then a.scal && imm == 0 else a == .unused
  | _ => true

/-- The shared fields of an instruction; an event has none, written as zeros. -/
def Instr.ctl : Instr → Ctl
  | .iadd c _ => c
  | .isub c _ => c
  | .imul c _ => c
  | .imulh c _ => c
  | .imad c _ => c
  | .imin c _ => c
  | .imax c _ => c
  | .iabs c _ => c
  | .and c _ => c
  | .or c _ => c
  | .xor c _ => c
  | .andn c _ => c
  | .shl c _ => c
  | .shr c _ => c
  | .sar c _ => c
  | .rot c _ => c
  | .popc c _ => c
  | .clz c _ => c
  | .bfx c _ => c
  | .bfi c _ => c
  | .sel c _ => c
  | .mov c _ _ => c
  | .movi c _ _ => c
  | .icmp c _ => c
  | .lea c _ => c
  | .sxt c _ => c
  | .sadd c _ => c
  | .ssub c _ => c
  | .smul c _ => c
  | .sand c _ => c
  | .sor c _ => c
  | .sxor c _ => c
  | .sshl c _ => c
  | .sshr c _ => c
  | .smov c _ => c
  | .smovi c _ _ => c
  | .scmp c _ => c
  | .slea c _ => c
  | .bcast c _ _ _ => c
  | .rdlane c _ _ _ => c
  | .voteAny c _ _ => c
  | .voteAll c _ _ => c
  | .voteBallot c _ _ => c
  | .shfl c _ _ _ _ => c
  | .elect c _ _ => c
  | .fadd c _ => c
  | .fsub c _ => c
  | .fmul c _ => c
  | .ffma c _ => c
  | .fmin c _ => c
  | .fmax c _ => c
  | .fcmp c _ => c
  | .fdiv c _ => c
  | .fsqrt c _ => c
  | .frcp c _ => c
  | .frsq c _ => c
  | .fexp2 c _ => c
  | .flog2 c _ => c
  | .fclass c _ => c
  | .frnd c _ => c
  | .hadd2 c _ => c
  | .hmul2 c _ => c
  | .hfma2 c _ => c
  | .cvt c _ => c
  | .sibmodeNear c => c
  | .sibmodeRand c => c
  | .digits c _ => c
  | .smean c _ => c
  | .sibget c _ _ _ => c
  | .sibagree c _ _ _ => c
  | .nchk c _ _ _ _ => c
  | .rand c _ _ _ _ => c
  | .mdpack c _ => c
  | .mdunpack c _ => c
  | .bra c _ _ => c
  | .bru c _ _ => c
  | .brx c _ _ => c
  | .call c _ _ => c
  | .callx c _ _ _ => c
  | .ret c => c
  | .exit c => c
  | .join c => c
  | .yield c => c
  | .nop c => c
  | .rclaim c _ => c
  | .rrelease c _ => c
  | .rpool c _ _ => c
  | .wflush c => c
  | .wdepth c _ _ => c
  | .xset c _ _ _ => c
  | .xadd c _ _ _ _ => c
  | .qmap c _ _ _ _ => c
  | .qunmap c _ => c
  | .qpush c _ _ _ => c
  | .qpop c _ _ _ _ => c
  | .qtryPop c _ _ _ => c
  | .qtryPush c _ _ _ => c
  | .qclose c _ => c
  | .qstat c _ _ _ => c
  | .refill c _ _ _ _ => c
  | .ld c _ => c
  | .st c _ => c
  | .lds c _ => c
  | .sts c _ => c
  | .ldu c _ => c
  | .atom c _ => c
  | .atoms c _ => c
  | .red c _ => c
  | .pref c _ => c
  | .cctl c _ => c
  | .fenceAcq c _ => c
  | .fenceRel c _ => c
  | .fenceAcqrel c _ => c
  | .fenceSc c _ => c
  | .fenceAsync c => c
  | .barinit c _ _ => c
  | .barinitInv c _ => c
  | .bararr c _ => c
  | .barwait c _ _ => c
  | .bartx c _ _ _ _ => c
  | .wait c _ => c
  | .rdenter c => c
  | .rdexit c => c
  | .gstart c _ => c
  | .gsync c _ => c
  | .dfree c _ _ _ => c
  | .gstat c _ _ => c
  | .cpyLoad c _ => c
  | .cpyStore c _ => c
  | .cpytLoad c _ => c
  | .cpytStore c _ => c
  | .cpym c _ _ => c
  | .cpyfLoad c _ => c
  | .cpyfStore c _ => c
  | .cpycan c _ _ => c
  | .tctl c _ _ _ _ => c
  | .tld c _ => c
  | .tst c _ => c
  | .mma c _ => c
  | .mdist c _ => c
  | .azero c _ _ => c
  | .ard c _ _ _ _ _ _ => c
  | .acvt c _ _ _ _ => c
  | .atopk c _ _ _ _ _ _ => c
  | .asave c _ => c
  | .arest c _ => c
  | .trap c _ => c
  | .rtt c => c
  | .ctlrd c _ _ => c
  | .ctlwr c _ _ => c
  | .clockTick c _ => c
  | .clockCyc c _ => c
  | .brk c => c
  | .mark c _ _ _ => c
  | _ => ⟨⟨false, 0⟩, 0, 0, 0⟩

/-- A legal instruction term: its shared fields and its own operands (R63). -/
def Instr.wf (i : Instr) : Bool :=
  i.ctl.wf && i.argsWf

/-- Whether a term has an encoding at all: an event has none. -/
def Instr.hasWord : Instr → Bool
  | .iadd _ _ => true
  | .isub _ _ => true
  | .imul _ _ => true
  | .imulh _ _ => true
  | .imad _ _ => true
  | .imin _ _ => true
  | .imax _ _ => true
  | .iabs _ _ => true
  | .and _ _ => true
  | .or _ _ => true
  | .xor _ _ => true
  | .andn _ _ => true
  | .shl _ _ => true
  | .shr _ _ => true
  | .sar _ _ => true
  | .rot _ _ => true
  | .popc _ _ => true
  | .clz _ _ => true
  | .bfx _ _ => true
  | .bfi _ _ => true
  | .sel _ _ => true
  | .mov _ _ _ => true
  | .movi _ _ _ => true
  | .icmp _ _ => true
  | .lea _ _ => true
  | .sxt _ _ => true
  | .sadd _ _ => true
  | .ssub _ _ => true
  | .smul _ _ => true
  | .sand _ _ => true
  | .sor _ _ => true
  | .sxor _ _ => true
  | .sshl _ _ => true
  | .sshr _ _ => true
  | .smov _ _ => true
  | .smovi _ _ _ => true
  | .scmp _ _ => true
  | .slea _ _ => true
  | .bcast _ _ _ _ => true
  | .rdlane _ _ _ _ => true
  | .voteAny _ _ _ => true
  | .voteAll _ _ _ => true
  | .voteBallot _ _ _ => true
  | .shfl _ _ _ _ _ => true
  | .elect _ _ _ => true
  | .fadd _ _ => true
  | .fsub _ _ => true
  | .fmul _ _ => true
  | .ffma _ _ => true
  | .fmin _ _ => true
  | .fmax _ _ => true
  | .fcmp _ _ => true
  | .fdiv _ _ => true
  | .fsqrt _ _ => true
  | .frcp _ _ => true
  | .frsq _ _ => true
  | .fexp2 _ _ => true
  | .flog2 _ _ => true
  | .fclass _ _ => true
  | .frnd _ _ => true
  | .hadd2 _ _ => true
  | .hmul2 _ _ => true
  | .hfma2 _ _ => true
  | .cvt _ _ => true
  | .sibmodeNear _ => true
  | .sibmodeRand _ => true
  | .digits _ _ => true
  | .smean _ _ => true
  | .sibget _ _ _ _ => true
  | .sibagree _ _ _ _ => true
  | .nchk _ _ _ _ _ => true
  | .rand _ _ _ _ _ => true
  | .mdpack _ _ => true
  | .mdunpack _ _ => true
  | .bra _ _ _ => true
  | .bru _ _ _ => true
  | .brx _ _ _ => true
  | .call _ _ _ => true
  | .callx _ _ _ _ => true
  | .ret _ => true
  | .exit _ => true
  | .join _ => true
  | .yield _ => true
  | .nop _ => true
  | .rclaim _ _ => true
  | .rrelease _ _ => true
  | .rpool _ _ _ => true
  | .wflush _ => true
  | .wdepth _ _ _ => true
  | .xset _ _ _ _ => true
  | .xadd _ _ _ _ _ => true
  | .qmap _ _ _ _ _ => true
  | .qunmap _ _ => true
  | .qpush _ _ _ _ => true
  | .qpop _ _ _ _ _ => true
  | .qtryPop _ _ _ _ => true
  | .qtryPush _ _ _ _ => true
  | .qclose _ _ => true
  | .qstat _ _ _ _ => true
  | .refill _ _ _ _ _ => true
  | .ld _ _ => true
  | .st _ _ => true
  | .lds _ _ => true
  | .sts _ _ => true
  | .ldu _ _ => true
  | .atom _ _ => true
  | .atoms _ _ => true
  | .red _ _ => true
  | .pref _ _ => true
  | .cctl _ _ => true
  | .fenceAcq _ _ => true
  | .fenceRel _ _ => true
  | .fenceAcqrel _ _ => true
  | .fenceSc _ _ => true
  | .fenceAsync _ => true
  | .barinit _ _ _ => true
  | .barinitInv _ _ => true
  | .bararr _ _ => true
  | .barwait _ _ _ => true
  | .bartx _ _ _ _ _ => true
  | .wait _ _ => true
  | .rdenter _ => true
  | .rdexit _ => true
  | .gstart _ _ => true
  | .gsync _ _ => true
  | .dfree _ _ _ _ => true
  | .gstat _ _ _ => true
  | .cpyLoad _ _ => true
  | .cpyStore _ _ => true
  | .cpytLoad _ _ => true
  | .cpytStore _ _ => true
  | .cpym _ _ _ => true
  | .cpyfLoad _ _ => true
  | .cpyfStore _ _ => true
  | .cpycan _ _ _ => true
  | .tctl _ _ _ _ _ => true
  | .tld _ _ => true
  | .tst _ _ => true
  | .mma _ _ => true
  | .mdist _ _ => true
  | .azero _ _ _ => true
  | .ard _ _ _ _ _ _ _ => true
  | .acvt _ _ _ _ _ => true
  | .atopk _ _ _ _ _ _ _ => true
  | .asave _ _ => true
  | .arest _ _ => true
  | .trap _ _ => true
  | .rtt _ => true
  | .ctlrd _ _ _ => true
  | .ctlwr _ _ _ => true
  | .clockTick _ _ => true
  | .clockCyc _ _ => true
  | .brk _ => true
  | .mark _ _ _ _ => true
  | _ => false

/-- R63, R64: which launch mode an instruction is limited to. -/
def Instr.modeOk (triple : Bool) : Instr → Bool
  | .sibmodeNear _ | .sibmodeRand _ | .sibget _ _ _ _ => triple
  | .atopk _ _ _ _ _ _ _ => !triple
  | .ard _ _ _ _ _ psel _ => !triple || psel == 0
  | _ => true

end Sys2Proof
end

