-- ==== Sys2Proof/Machine/Operands.lean ====
section
/-! DEFINITION. Operands: which registers each instruction names (02 R54 to R56, with each instruction's own table), and
reading and writing them in the lanes of an issuing split (03 R76, R79; 07 R169, R188; 08 R203). -/

namespace Sys2Proof.Machine

/-! ## What an instruction names -/

/-- A named operand: a specifier and how many consecutive registers it spans (R56). -/
structure Opnd where
  spec : Spec
  words : Nat
  deriving DecidableEq, Repr

/-- The registers an instruction reads and writes. `cross` are sources whose lanes the instruction itself chooses
(R96); `queues` are names used as queue names (R213, R291). -/
structure Uses where
  reads : List Opnd := []
  writes : List Opnd := []
  cross : List Opnd := []
  preads : List Nat := []
  pwrites : List Nat := []
  index : Option Nat := none
  deriving DecidableEq, Repr

def src2Opnd (b : Src2) (words : Nat) : List Opnd :=
  match b with
  | .reg r => [⟨r, words⟩]
  | .imm _ => []

def IntArgs.uses (x : IntArgs) (srcs : Nat) : Uses :=
  { reads := ⟨x.a, 1⟩ :: (if 2 ≤ srcs then src2Opnd x.b 1 else []) ++ (if 3 ≤ srcs then [⟨x.c, 1⟩] else [])
    writes := [⟨x.dst, 1⟩] }

def ScalArgs.uses (x : ScalArgs) (shift unary : Bool) : Uses :=
  let n := if x.w64 then 2 else 1
  { reads := ⟨x.a, n⟩ :: (if unary then [] else src2Opnd x.b (if shift then 1 else n))
    writes := [⟨x.dst, n⟩] }

def FArgs.uses (x : FArgs) (srcs : Nat) : Uses :=
  { reads := ⟨x.a, 1⟩ :: (if 2 ≤ srcs then [⟨x.b, 1⟩] else []) ++ (if 3 ≤ srcs then [⟨x.c, 1⟩] else [])
    writes := [⟨x.dst, 1⟩] }

/-- Registers of a memory instruction: the base pair, the index, the datum and the destination (R241, R242). -/
def MemArgs.uses (x : MemArgs) (k : MemKind) : Uses :=
  let base := match x.base with
    | .glob r => [⟨r, 2⟩]
    | .slot _ => []
  let n := x.dataWords k
  let dstWords := if x.sz == 4 then 4 else if x.sz == 3 then 2 else 1
  let data := match k with
    | .store | .atomic | .reduce => [⟨x.data, n⟩]
    | _ => []
  let dst := match k with
    | .load | .loadU | .atomic => [⟨x.dst, dstWords⟩]
    | _ => []
  { reads := base ++ data ++ [⟨x.index, 1⟩], writes := dst }

/-- The scalars a condition slot of `wait` reads (R53). -/
def condReads : Cond → List Opnd
  | .word _ quad _ sp =>
    let n := 4 * quad.toNat
    (if sp then [n] else [n, n + 1]).append [n + 2] |>.map fun k => ⟨.s (Fin.ofNat 32 k), 1⟩
  | .grace k => [⟨.s (Fin.ofNat 32 k.toNat), 2⟩]
  | .tick n => [⟨.s (Fin.ofNat 32 (2 * n.toNat)), 2⟩]
  | _ => []

/-- The operand width of a control register (R364). -/
def cregWords (n : Word) : Nat :=
  match cregKind n with
  | .pair | .lanePair => 2
  | _ => 1

/-- The octet of a copy (R298). -/
def CopyArgs.uses (x : CopyArgs) : Uses := { reads := [⟨x.oct, 8⟩], writes := [⟨x.dst, 1⟩] }

/-- The registers of each instruction; the guard's predicate is added by `usesOf`. -/
def operandsOf : Instr → Uses
  | .iadd _ x | .isub _ x | .imul _ x | .imulh _ x | .imin _ x | .imax _ x
  | .and _ x | .or _ x | .xor _ x | .andn _ x | .shl _ x | .shr _ x | .sar _ x | .rot _ x => IntArgs.uses x 2
  | .imad _ x => IntArgs.uses x 3
  | .iabs _ x | .popc _ x | .clz _ x => IntArgs.uses x 1
  | .bfx _ x => { reads := [⟨x.a, 1⟩], writes := [⟨x.dst, 1⟩] }
  | .bfi _ x => { reads := [⟨x.a, 1⟩, ⟨x.b, 1⟩], writes := [⟨x.dst, 1⟩] }
  | .sel _ x => { reads := ⟨x.a, 1⟩ :: src2Opnd x.b 1, writes := [⟨x.dst, 1⟩], preads := [x.p.p.toNat] }
  | .mov _ d a => { reads := [⟨a, 1⟩], writes := [⟨d, 1⟩] }
  | .movi _ d _ => { writes := [⟨d, 1⟩] }
  | .icmp _ x => { reads := ⟨x.a, 1⟩ :: src2Opnd x.b 1, pwrites := [x.p.toNat] }
  | .lea _ x => { reads := [⟨x.a, 2⟩, ⟨x.b, 1⟩], writes := [⟨x.dst, 2⟩] }
  | .sxt _ x => { reads := [⟨x.a, 1⟩], writes := [⟨x.dst, 1⟩] }
  | .sadd _ x | .ssub _ x | .smul _ x | .sand _ x | .sor _ x | .sxor _ x => ScalArgs.uses x false false
  | .sshl _ x | .sshr _ x => ScalArgs.uses x true false
  | .smov _ x => ScalArgs.uses x false true
  | .smovi _ d _ => { writes := [⟨d, 1⟩] }
  | .scmp _ x =>
    let n := if x.w64 then 2 else 1
    { reads := ⟨x.a, n⟩ :: src2Opnd x.b n, pwrites := [x.p.toNat] }
  | .slea _ x => { reads := [⟨x.a, 2⟩, ⟨x.b, 1⟩], writes := [⟨x.dst, 2⟩] }
  | .bcast _ d a k => { reads := src2Opnd k 1, cross := [⟨a, 1⟩], writes := [⟨d, 1⟩] }
  | .rdlane _ d a k => { reads := src2Opnd k 1, cross := [⟨a, 1⟩], writes := [⟨d, 1⟩] }
  | .voteAny _ p q | .voteAll _ p q => { preads := [q.p.toNat], pwrites := [p.toNat] }
  | .voteBallot _ d q => { preads := [q.p.toNat], writes := [⟨d, 2⟩] }
  | .shfl _ _ d a b => { reads := src2Opnd b 1, cross := [⟨a, 1⟩], writes := [⟨d, 1⟩] }
  | .elect _ d ep => { writes := [⟨d, 1⟩], pwrites := if ep == 7 then [] else [ep.toNat] }
  | .fadd _ x | .fsub _ x | .fmul _ x | .fmin _ x | .fmax _ x | .fdiv _ x | .hadd2 _ x | .hmul2 _ x => FArgs.uses x 2
  | .ffma _ x | .hfma2 _ x => FArgs.uses x 3
  | .fsqrt _ x | .frcp _ x | .frsq _ x | .fexp2 _ x | .flog2 _ x | .fclass _ x | .frnd _ x => FArgs.uses x 1
  | .fcmp _ x => { reads := [⟨x.a, 1⟩, ⟨x.b, 1⟩], pwrites := [x.p.toNat] }
  | .cvt _ x => { reads := [⟨x.a, 1⟩], writes := [⟨x.dst, 1⟩] }
  | .sibmodeNear _ | .sibmodeRand _ => {}
  | .digits _ x | .smean _ x => { reads := [⟨x.a, 1⟩], writes := [⟨x.dst, 1⟩] }
  | .sibget _ d a _ => { reads := [⟨a, 1⟩], writes := [⟨d, 1⟩] }
  | .sibagree _ _ p a => { reads := [⟨a, 1⟩], pwrites := [p.toNat] }
  | .nchk _ _ p a n => { reads := ⟨a, 1⟩ :: src2Opnd n 1, pwrites := [p.toNat] }
  | .rand _ _ _ w64 d => { writes := [⟨d, if w64 then 2 else 1⟩] }
  | .mdpack _ x => { reads := [⟨x.a, 1⟩], writes := [⟨x.dst, if x.ty.half2 && x.ty != .none then 1 else 2⟩] }
  | .mdunpack _ x => { reads := [⟨x.a, if x.ty.half2 && x.ty != .none then 1 else 2⟩], writes := [⟨x.dst, 1⟩] }
  | .bra _ p _ | .bru _ p _ => { preads := [p.p.toNat] }
  | .brx _ a _ => { reads := [⟨a, 1⟩] }
  | .call _ _ _ => {}
  | .callx _ a _ _ => { reads := [⟨a, 1⟩] }
  | .ret _ => { reads := [⟨.v 0, 1⟩] }
  | .exit _ | .join _ | .yield _ | .nop _ => {}
  | .rclaim _ _ | .rrelease _ _ | .wflush _ => {}
  | .rpool _ d _ | .wdepth _ d _ => { writes := [⟨d, 1⟩] }
  | .xset _ k a _ => { reads := [⟨a, 1⟩], index := some k.toNat }
  | .xadd _ k a ib _ => { reads := if ib then [] else [⟨a, 1⟩], index := some k.toNat }
  | .qmap _ _ _ _ _ | .qunmap _ _ | .qclose _ _ => {}
  | .qpush _ _ a _ => { reads := [⟨a, 1⟩] }
  | .qpop _ d _ st p => { writes := [⟨d, 1⟩], pwrites := if st then [p.toNat] else [] }
  | .qtryPop _ p d _ => { writes := [⟨d, 1⟩], pwrites := [p.toNat] }
  | .qtryPush _ p _ a => { reads := [⟨a, 1⟩], pwrites := [p.toNat] }
  | .qstat _ d _ _ => { writes := [⟨d, 1⟩] }
  | .refill _ d _ p _ => { writes := [⟨d, 1⟩], preads := [p.toNat], pwrites := [p.toNat] }
  | .ld _ x | .lds _ x => MemArgs.uses x .load
  | .st _ x | .sts _ x => MemArgs.uses x .store
  | .ldu _ x => MemArgs.uses x .loadU
  | .atom _ x | .atoms _ x => MemArgs.uses x .atomic
  | .red _ x => MemArgs.uses x .reduce
  | .pref _ x | .cctl _ x => MemArgs.uses x .prefetch
  | .fenceAcq _ _ | .fenceRel _ _ | .fenceAcqrel _ _ | .fenceSc _ _ | .fenceAsync _ => {}
  | .barinit _ _ _ | .barinitInv _ _ | .bararr _ _ | .barwait _ _ _ => {}
  | .bartx _ _ a ib _ => { reads := if ib then [] else [⟨a, 1⟩] }
  | .wait _ x =>
    { reads := condReads x.c0 ++ condReads x.c1 ++ condReads x.c2 ++ condReads x.c3 ++
        (if x.tp == 7 then [] else [⟨.s (Fin.ofNat 32 (2 * x.ts.toNat)), 2⟩])
      writes := [⟨x.dst, 1⟩], pwrites := if x.tp == 7 then [] else [x.tp.toNat] }
  | .rdenter _ | .rdexit _ => {}
  | .gstart _ d | .gsync _ d => { writes := [⟨d, 2⟩] }
  | .dfree _ a len _ => { reads := [⟨a, 2⟩, ⟨len, 1⟩] }
  | .gstat _ d k => { writes := [⟨d, if k == 0 || k == 1 || k == 3 then 2 else 1⟩] }
  | .cpyLoad _ x | .cpyStore _ x | .cpytLoad _ x | .cpytStore _ x | .cpyfLoad _ x | .cpyfStore _ x => CopyArgs.uses x
  | .cpym _ x _ => CopyArgs.uses x
  | .cpycan _ d h => { reads := [⟨h, 1⟩], writes := [⟨d, 1⟩] }
  | .tctl _ _ _ a _ => { reads := [⟨a, 1⟩] }
  | .tld _ x | .tst _ x => { reads := [⟨x.a, 1⟩] }
  | .mma _ _ | .mdist _ _ | .azero _ _ _ | .acvt _ _ _ _ _ => {}
  | .ard _ d e _ _ _ _ => { reads := [⟨e, 1⟩], writes := [⟨d, 1⟩] }
  | .atopk _ _ _ a _ _ _ => { reads := [⟨a, 1⟩] }
  | .asave _ x | .arest _ x => { reads := [⟨x.a, 1⟩] }
  | .trap _ _ | .rtt _ | .brk _ => {}
  | .ctlrd _ d n => { writes := [⟨d, cregWords n⟩] }
  | .ctlwr _ n a => { reads := [⟨a, cregWords n⟩] }
  | .clockTick _ d | .clockCyc _ d => { writes := [⟨d, 2⟩] }
  | .mark _ a sr _ => { reads := if sr then [⟨a, 1⟩] else [] }
  | _ => {}

/-- With the guard's predicate (R41). -/
def usesOf (i : Instr) : Uses :=
  let u := operandsOf i
  { u with preads := i.ctl.guard.p.toNat :: u.preads }

/-! ## The issuing context -/

/-- A row popped for a queue name: words, valid mask, poisoned lanes (R203). -/
structure Popped where
  name : Nat
  queue : Nat
  words : Row
  valid : Mask
  bad : Mask
  deriving DecidableEq, Repr

/-- The issue attempt of one instruction: the state, the warp and what belongs to it, the active lanes and the rows
that its queue sources supply. -/
structure Cx where
  s : State
  ref : WarpRef
  l : Launch
  c : Crew
  w : Warp
  act : Mask
  i : Instr
  pops : List Popped

namespace Cx

def sp (x : Cx) : Split := x.w.split
def triple (x : Cx) : Bool := x.l.triple
def core (x : Cx) : Nat := x.c.coreNo
def die (x : Cx) : Nat := dieOfCore x.core
def agent (x : Cx) : Agent := ⟨x.l.ctx, some x.core, some x.ref.crew⟩
/-- The state with the issuing warp replaced. -/
def put (x : Cx) (w : Warp) : State := x.s.modWarp x.ref fun _ => w

/-- The stack row a lane specifier names in a lane (R169). -/
def rowOf (x : Cx) (sp : Spec) (lane : Nat) : Nat :=
  match sp with
  | .v n => x.sp.base + n.val
  | .vx k => x.sp.base + (x.w.index k.val lane).toNat
  | _ => 0

/-- The words a lane source supplies, lane 0 first (R54, R55, R22). -/
def src (x : Cx) (sp : Spec) : Row :=
  match sp with
  | .v n => let row := x.w.rowAt (x.sp.base + n.val); laneList.map fun l => wordAt row l
  | .s n => laneList.map fun _ => x.w.scalar n.val
  | .q n => ((x.pops.find? (·.name == n.val)).map (·.words)).getD (laneList.map fun _ => 0)
  | .vx k => laneList.map fun l => x.w.laneWord (x.rowOf (.vx k) l) l
  | .zero => laneList.map fun _ => 0
  | .laneid => laneList.map fun l => BitVec.ofNat 32 l
  | .sib => laneList.map fun l => BitVec.ofNat 32 (siblingOf x.triple l)
  | .tid => laneList.map fun l => BitVec.ofNat 32 (threadOf x.triple l)

/-- Register `k` of a wide lane source (R56). -/
def srcWide (x : Cx) (sp : Spec) (k : Nat) : Row :=
  match sp with
  | .v n => let row := x.w.rowAt (x.sp.base + n.val + k); laneList.map fun l => wordAt row l
  | .s n => laneList.map fun _ => x.w.scalar (n.val + k)
  | sp => if k == 0 then x.src sp else laneList.map fun _ => 0

/-- SRCB, or IMM12 sign-extended under IB (R81). -/
def src2 (x : Cx) (b : Src2) : Row :=
  match b with
  | .reg r => x.src r
  | .imm i => laneList.map fun _ => i.signExtend 32

/-- The word a scalar source holds (R55). -/
def scal (x : Cx) (sp : Spec) : Word :=
  match sp with
  | .s n => x.w.scalar n.val
  | _ => 0

def scal64 (x : Cx) (sp : Spec) : DWord :=
  match sp with
  | .s n => x.w.scalarPair n.val
  | _ => 0

def scal2 (x : Cx) (b : Src2) : Word :=
  match b with
  | .reg r => x.scal r
  | .imm i => i.signExtend 32

def scal64₂ (x : Cx) (b : Src2) : DWord :=
  match b with
  | .reg r => x.scal64 r
  | .imm i => i.signExtend 64

/-- A predicate source in each lane (R83). -/
def predMask (x : Cx) (p : Pred) : Mask := if p.neg then ~~~(x.w.pred p.p) else x.w.pred p.p

/-- Which lanes of a source hold a poisoned word (R37, R80). -/
def srcBad (x : Cx) (o : Opnd) : Mask :=
  match o.spec with
  | .v n => maskOf fun l => (List.range o.words).any fun k => x.w.poisoned (x.sp.base + n.val + k) l
  | .vx k => maskOf fun l => x.w.poisoned (x.rowOf (.vx k) l) l
  | .q n => ((x.pops.find? (·.name == n.val)).map (·.bad)).getD 0
  | .s n => if (List.range o.words).any fun k => x.w.scalarPoison.contains (n.val + k) then BitVec.allOnes 48 else 0
  | _ => 0

/-- Write a lane destination in the lanes of `m`; a queue destination writes no register (R55, R79). -/
def write (x : Cx) (w : Warp) (dst : Spec) (m : Mask) (row : Row) (bad : Mask) : Warp :=
  match dst with
  | .v n => w.writeRow (x.sp.base + n.val) m row bad
  | .vx k => (maskLanes m).foldl (fun w l =>
      w.writeRow (x.sp.base + (x.w.index k.val l).toNat) (1#48 <<< l) row bad) w
  | _ => w

/-- Register `k` of a wide lane destination (R56). -/
def writeWide (x : Cx) (w : Warp) (dst : Spec) (k : Nat) (m : Mask) (row : Row) (bad : Mask) : Warp :=
  match dst with
  | .v n => w.writeRow (x.sp.base + n.val + k) m row bad
  | dst => if k == 0 then x.write w dst m row bad else w

/-- Write a scalar destination; `zero` discards (R55). -/
def writeScal (_ : Cx) (w : Warp) (dst : Spec) (v : Word) : Warp :=
  match dst with
  | .s n => w.setScalar n.val v
  | _ => w

def writeScal64 (_ : Cx) (w : Warp) (dst : Spec) (v : DWord) : Warp :=
  match dst with
  | .s n => w.setScalarPair n.val v
  | _ => w

/-- Write a predicate in the lanes of `m`, the others keeping theirs (R83). -/
def writePred (_ : Cx) (w : Warp) (p : BitVec 3) (m v : Mask) : Warp :=
  w.setPred p ((w.pred p &&& ~~~m) ||| (v &&& m))

end Cx

/-! ## Registers an attempt touches -/

/-- The lane of thread `j` that stands at a lane's own sibling position (R97, R100). -/
def Cx.laneOfThread (x : Cx) (j l : Nat) : Nat := if x.triple then 3 * j + l % 3 else j

/-- R100: the source lane of a lane; its own when the partner is out of range. -/
def Cx.shflLane (x : Cx) (sm : Shuf) (b : Word) (l : Nat) : Nat :=
  let i := threadOf x.triple l
  let v := b.toNat
  let j : Int :=
    match sm with
    | .idx => v
    | .up => (i : Int) - v
    | .down => i + v
    | .xor => i.xor v
  if j < 0 || (threads x.triple : Int) ≤ j then l else x.laneOfThread j.toNat l

/-- The source lanes that a cross-lane instruction reads, active or not (R96 to R98, R100). -/
def Cx.crossLanes (x : Cx) : Mask :=
  match x.i with
  | .bcast _ _ _ k =>
    let n := (x.scal2 k).toNat
    maskOf fun l => n < threads x.triple && (maskLanes x.act).any fun t => x.laneOfThread n t == l
  | .rdlane _ _ _ k => if (x.scal2 k).toNat < 48 then 1#48 <<< (x.scal2 k).toNat else 0
  | .shfl _ sm _ _ b =>
    let bs := x.src2 b
    maskOf fun l => (maskLanes x.act).any fun t => x.shflLane sm (wordAt bs t) t == l
  | _ => 0

/-- The lanes in which the other operands of an instruction are read or written: `qpush.whole` reads every lane (R215), and
`refill` fills lanes that are vacant or stand in its split (R208). -/
def Cx.ownLanes (x : Cx) : Mask :=
  match x.i with
  | .qpush _ _ _ true => BitVec.allOnes 48
  | .refill _ _ _ _ _ => x.w.vacant ||| x.sp.mask
  | _ => x.act

/-- The registers of an operand in the lanes of `m`, for the interlock (R45): stack rows, scalars, index registers. -/
def regsOf (x : Cx) (m : Mask) (o : Opnd) : List Reg :=
  match o.spec with
  | .v n => (List.range o.words).map fun k => .row (x.sp.base + n.val + k)
  | .vx k => .index k.val :: ((maskLanes m).map fun l => x.rowOf (.vx k) l).eraseDups.map .row
  | .s n => (List.range o.words).map fun k => .scalar (n.val + k)
  | _ => []

/-- The row that a call writes its link to (R158). -/
def Cx.linkRow (x : Cx) : List Reg :=
  match x.i with
  | .call _ _ shift | .callx _ _ _ shift => [.row (x.sp.base + 8 * shift.toNat)]
  | _ => []

/-- Every register an instruction reads or writes (R45). -/
def touched (x : Cx) : List Reg :=
  let u := usesOf x.i
  (u.reads ++ u.writes).flatMap (regsOf x x.ownLanes) ++ u.cross.flatMap (regsOf x x.crossLanes) ++
    (u.preads ++ u.pwrites).map .pred ++ (u.index.map Reg.index).toList ++ x.linkRow

/-- The registers an instruction writes, pending until they land (R45). -/
def written (x : Cx) : List Reg :=
  let u := usesOf x.i
  (u.writes.flatMap (regsOf x x.ownLanes)).filter (fun r => match r with
      | .index _ => false
      | _ => true) ++ u.pwrites.map .pred ++ (u.index.map Reg.index).toList

end Sys2Proof.Machine
end

