-- ==== Sys2Proof/Machine/Splits.lean ====
section
/-! DEFINITION. Splits and parked paths (06 R148 to R152, R163, R166): place, merge_check, the end of a split, waiting
splits and the change of the issuing split. -/

namespace Sys2Proof.Machine

/-- The slots that are free. -/
def Warp.freeSlots (w : Warp) : Nat := (w.splits.filter (·.isNone)).length

/-- R150: whether S has room for `k` more places. -/
def Warp.room (w : Warp) (k : Nat) : Bool := k ≤ w.freeSlots + (4 - w.split.layby.length)

/-- R151: splits `n` and `q.1` become one. The lower slot survives and takes the higher one's entries above its own. Which
count of issued instructions it keeps is the model's choice (log 21): that of the issuing one, else that of the lower slot. -/
def Warp.mergeSplits (w : Warp) (n : Nat) (s : Split) (q : Nat × Split) : Warp × Nat :=
  let lo := min n q.1
  let hi := max n q.1
  let low := if n < q.1 then s else q.2
  let high := if n < q.1 then q.2 else s
  let count := if w.cur == hi then high.issued else low.issued
  let one : Split :=
    { low with mask := low.mask ||| high.mask, layby := high.layby ++ low.layby, joinWait := false, issued := count }
  let u := (w.setSplit lo (some one)).setSplit hi none
  (if w.cur == hi then { u with cur := lo } else u, lo)

/-- R151: split `n` takes the path at the top of its lay-by, if that stands at its PC and base. -/
def Warp.takeTop (w : Warp) (n : Nat) : Warp :=
  match w.splitAt n with
  | some s =>
    match s.layby with
    | e :: l =>
      if e.pc == s.pc && e.base == s.base then w.setSplit n (some { s with mask := s.mask ||| e.mask, layby := l }) else w
    | [] => w
  | none => w

/-- R151: split `n` merges with split `m` if they stand together and their entries fit in one lay-by. -/
def Warp.mergeWith (w : Warp) (n m : Nat) : Warp × Nat :=
  match w.splitAt n, w.splitAt m with
  | some s, some u =>
    if m != n && u.pc == s.pc && u.base == s.base && s.layby.length + u.layby.length ≤ 4 then w.mergeSplits n s (m, u)
    else (w, n)
  | _, _ => (w, n)

/-- One round of merge_check (R151) on split `n`: at most one entry, then every split of `slots` in turn, in ascending slot
(log 21). -/
def Warp.mergeRound (w : Warp) (slots : List Nat) (n : Nat) : Warp × Nat :=
  slots.foldl (fun p m => p.1.mergeWith p.2 m) (w.takeTop n, n)

/-- How many splits and parked paths the warp has. -/
def Warp.paths (w : Warp) : Nat :=
  (w.splits.map fun s => match s with
    | some s => s.layby.length + 1
    | none => 0).sum

def Warp.mergeFrom (slots : List Nat) : Nat → Warp → Nat → Warp
  | 0, w, _ => w
  | fuel + 1, w, n =>
    let p := w.mergeRound slots n
    if p.1.paths == w.paths then p.1 else Warp.mergeFrom slots fuel p.1 p.2

/-- R151. Twenty rounds reach the end: each but the last takes an entry or a split away. -/
def Warp.mergeCheck (w : Warp) (n : Nat) : Warp := Warp.mergeFrom [0, 1, 2, 3] 20 w n

/-- R150; the new split may merge with the splits of `slots`. -/
def Warp.placeAmong (w : Warp) (slots : List Nat) (lanes : Mask) (pc : Word) (base : Nat) : Warp :=
  match w.splits.findIdx? (·.isNone) with
  | some n => Warp.mergeFrom slots 20 (w.setSplit n (some ⟨pc, lanes, base, [], false, 0⟩)) n
  | none => w.modSplit w.cur fun s => { s with layby := ⟨pc, lanes, base⟩ :: s.layby }

/-- R150. -/
def Warp.place (w : Warp) (lanes : Mask) (pc : Word) (base : Nat) : Warp := w.placeAmong [0, 1, 2, 3] lanes pc base

/-- R150 in a pass of an instruction that goes on (R156): the issuing split does not stand at a PC until its last pass, so no
group merges into it before (log 21). -/
def Warp.placeApart (w : Warp) (lanes : Mask) (pc : Word) (base : Nat) : Warp :=
  w.placeAmong ([0, 1, 2, 3].filter (· != w.cur)) lanes pc base

/-- R152: split `n`, whose mask is empty, resumes its lay-by top or gives its slot back. -/
def Warp.endSplit (w : Warp) (n : Nat) : Warp :=
  match w.splitAt n with
  | none => w
  | some s =>
    match s.layby with
    | e :: l =>
      (w.setSplit n (some { s with pc := e.pc, mask := e.mask, base := e.base, layby := l, joinWait := false })).mergeCheck n
    | [] => w.setSplit n none

/-- R163, R228: lanes of the issuing split become vacant; the split ends when none remain (R152). -/
def Warp.dropLanes (w : Warp) (lanes : Mask) : Warp :=
  let w := { w with vacant := w.vacant ||| (w.split.mask &&& lanes) }
  let w := w.modSplit w.cur fun s => { s with mask := s.mask &&& ~~~lanes }
  if w.split.mask == 0 then w.endSplit w.cur else w

/-- R208: the vacant ones of some lanes join the issuing split. -/
def Warp.joinVacant (w : Warp) (lanes : Mask) : Warp :=
  if (w.splitAt w.cur).isNone then w
  else { w.modSplit w.cur (fun s => { s with mask := s.mask ||| (lanes &&& w.vacant) }) with vacant := w.vacant &&& ~~~lanes }

/-- The base of the entry that resumes when these lanes leave the issuing split (R173). -/
def Warp.resumesAt (w : Warp) (lanes : Mask) : Option Nat :=
  if w.split.mask &&& ~~~lanes == 0 then w.split.layby.head?.map (·.base) else none

/-- R163: a waiting split is cleared when no other split of its base remains that is not itself waiting. Slots are
looked at in ascending order, each as those before it leave the table. -/
def Warp.unwait (w : Warp) : Warp :=
  [0, 1, 2, 3].foldl (fun w n =>
    match w.splitAt n with
    | some s =>
      let held := [0, 1, 2, 3].any fun m => m != n && (w.splitAt m).any fun u => u.base == s.base && !u.joinWait
      if s.joinWait && !held then w.setSplit n (some { s with joinWait := false }) else w
    | none => w) w

/-- Whether a split other than the issuing one has join-wait 0 (R166). -/
def Warp.nextSplit (w : Warp) : Option Nat :=
  ([1, 2, 3].map fun d => (w.cur + d) % 4).find? fun n => (w.splitAt n).any fun s => !s.joinWait

/-- Cycles for which a change of split, a fetch redirect or an issue keeps the warp ineligible; each count starts in
the cycle of the issue (R43, R164). -/
def switchCycles : Nat := 13
def redirectCycles : Nat := 7

/-- R166: the next split in slot order issues. -/
def Warp.switchSplit (w : Warp) : Warp :=
  match w.nextSplit with
  | some n => { w.modSplit n (fun s => { s with issued := 0 }) with cur := n, switch := switchCycles }
  | none => w

/-- `TRAPBASE.IN`. -/
def Warp.inTrap (w : Warp) : Bool := w.trapBase.getLsbD 30
/-- `TRAPBASE.EN`. -/
def Warp.trapOn (w : Warp) : Bool := w.trapBase.getLsbD 31

/-- Every split and parked path has ended (R148). -/
def Warp.finished (w : Warp) : Bool := w.splits.all (·.isNone)

/-! ## Windows: what the splits ask of the band (R171 to R173) -/

def Warp.bases (w : Warp) : List Nat := w.splits.filterMap fun s => s.map (·.base)
def lowest (l : List Nat) : Nat := l.foldl min (l.headD 0)
def highest (l : List Nat) : Nat := l.foldl max 0
def Warp.lo (w : Warp) : Nat := lowest w.bases
def Warp.hi (w : Warp) : Nat := highest w.bases

/-- R172: where cover moves the band for these bases, if it moves it. -/
def coverTo (bot ring reach lo hi : Nat) : Option Nat :=
  let top := hi + 8 * reach
  if lo < bot then some lo else if bot + ring < top then some (top - ring) else none

/-- R171. -/
def spanOk (ring reach lo hi : Nat) : Bool := hi + 8 * reach - lo ≤ ring
def limitOk (lim reach hi : Nat) : Bool := hi + 8 * reach ≤ lim

end Sys2Proof.Machine
end

