-- ==== Sys2Proof/Machine/Window.lean ====
section
/-! DEFINITION. The spill engine's work: granules leaving and entering the band (07 R172, R174 to R179), writes of the
spill buffer, and whole moves. -/

namespace Sys2Proof.Machine

def zeroRow : Row := laneList.map fun _ => 0

/-- A fault of the spill engine of a core, under the warp whose granule it moves (R178, R450). A warp whose crew has ended has no PC
(log 75). -/
def State.spillFault (s : State) (core : Nat) (r : WarpRef) (k : Acc4) (v : VFault) : MemFault :=
  let entry := (s.launch? r.crew.launch).bind fun l => l.tmpl.warps[r.warp]?
  { va := v.va, code := v.code, fatal := v.fatal, mask := 0, acc := k, agent := 2, core
    quarter := (entry.map (·.quarter)).getD 0, warp := r.warp, pc := ((s.warp? r).map (·.split.pc)).getD 0, crew := r.crew.crew,
    handle := 0 }

/-- A fatal fault: its record, then the end of the launch (R240). A walk that met a poisoned entry consumed an error (R428). -/
def State.fatal (s : State) (id : Nat) (f : MemFault) : State :=
  match s.launch? id with
  | none => s
  | some l =>
    if 16 ≤ f.code then s.consumedError id (some (f.code - 16)) .walk f.core f.warp
    else (s.fatalRecord l f).endLaunch id 16

/-- Where granules wait to be written: the buffer of a core, or the image of a crew that is swapped out (R179). -/
inductive SpillPlace where
  | buffer (core : Nat)
  | image (crew : CrewRef)
  deriving DecidableEq, Repr

def State.modSpills (s : State) (p : SpillPlace) (f : List Granule → List Granule) : State :=
  match p with
  | .buffer core => s.modCore core fun k => { k with spillBuf := f k.spillBuf }
  | .image r => s.modCrew r fun c => { c with savedSpills := f c.savedSpills }

/-- The core whose spill engine writes a granule. That of an image is open: the die's lowest stands in the record (log 75). -/
def State.spillCore (s : State) (p : SpillPlace) (x : CtxRef) : Nat :=
  match p with
  | .buffer core => core
  | .image _ => 48 * (s.diesOf x).headD 0

/-- What became of a granule's write (R179). -/
inductive Spilled where
  | done (s : State)
  | suspended (s : State)
  | ended (s : State)

def Spilled.state : Spilled → State
  | .done s | .suspended s | .ended s => s

/-- R179: write one granule to memory. -/
def State.spillOut (s : State) (p : SpillPlace) (g : Granule) : Spilled :=
  match s.writeGranule g with
  | .ok s => .done (s.modSpills p (·.erase g))
  | .error v =>
    let f := s.spillFault (s.spillCore p g.ctx) g.warp .spillWrite v
    match s.launch? g.warp.crew.launch with
    | none => .done (s.modSpills p (·.erase g))
    | some l =>
      if v.fatal then .ended ((s.modSpills p (·.erase g)).fatal l.id f)
      else
        let (s, num) := s.replayable l f
        .suspended (s.modSpills p (·.map fun x => if x == g then { x with suspended := some num, faulted := true } else x))

/-- Granule `h` stands for the same record as `g` and is older: a crew that has taken the spill slot of one that ended writes after
it (R408; log 75). -/
def Granule.before (h g : Granule) : Bool :=
  h.ctx == g.ctx && h.base == g.base && h.index == g.index && h.warp.crew.launch == g.warp.crew.launch &&
    h.warp.crew.crew < g.warp.crew.crew

/-- Whether a granule, with these before it in its buffer, must wait with its write: for its record (R178), or for an older copy. -/
def State.spillHeld (s : State) (seen : List Granule) (g : Granule) : Bool :=
  g.suspended.isSome || seen.any (fun h => h.warp == g.warp && h.index == g.index) ||
    s.cores.any fun k => k.spillBuf.any (·.before g)

/-- The oldest granule of a buffer that may be written (R179). -/
def State.oldestFree (s : State) : List Granule → List Granule → Option Granule
  | _, [] => none
  | seen, g :: gs => if s.spillHeld seen g then s.oldestFree (g :: seen) gs else some g

/-- R179: a spilled granule enters the buffer of 32; a full one writes its oldest granules that may be written. False when the
granule finds no room; the faults of those writes stand. -/
def State.bufferGranule (core : Nat) (g : Granule) : Nat → State → State × Bool
  | 0, s => (s, false)
  | fuel + 1, s =>
    let buf := (s.coreAt core).spillBuf
    if buf.length < 32 then (s.modCore core fun k => { k with spillBuf := k.spillBuf ++ [g] }, true)
    else
      match s.oldestFree [] buf with
      | none => (s, false)
      | some o => State.bufferGranule core g fuel (s.spillOut (.buffer core) o).state

/-- Whether a spill finds room in the buffer of a core, or can make some. -/
def State.spillRoom (s : State) (core : Nat) : Bool :=
  let buf := (s.coreAt core).spillBuf
  buf.length < 32 || (s.oldestFree [] buf).isSome

/-- The granule of the band that starts at row `r`. -/
def Warp.granule (w : Warp) (ref : WarpRef) (x : CtxRef) (g : Nat) : Granule where
  warp := ref
  ctx := x
  index := g
  rows := (List.range 8).map fun i => w.rowAt (8 * g + i)
  poison := w.poison.filter fun p => p.1 / 8 == g
  base := w.spillBase.toNat
  suspended := none
  faulted := false

/-- R179: granules of a warp's band enter the buffer of its core in turn, those that entered it in an earlier attempt left out; with
no room for one, the warp keeps which have. -/
def State.spillGranules (ref : WarpRef) (x : CtxRef) (core : Nat) (w : Warp) : List Nat → State → State × Bool
  | [], s => (s, true)
  | g :: gs, s =>
    if w.taken.contains g then s.spillGranules ref x core w gs
    else
      match State.bufferGranule core (w.granule ref x g) 64 s with
      | (s, true) => s.spillGranules ref x core { w with taken := g :: w.taken } gs
      | (s, false) => (s.modWarp ref fun m => { m with taken := w.taken }, false)

/-- What became of a move. -/
inductive Moved where
  | ok (s : State)
  /-- The buffer has no room, or a granule that is needed is still to be written after a fault (R179). -/
  | wait (s : State)
  /-- A refill waits on the replayable record of this number. -/
  | suspended (s : State) (num : Nat)
  /-- The launch ended. -/
  | ended (s : State)

/-- R172, R178, R179: bring granules in, from the buffer or from memory. A granule whose write has faulted is served only once the
write has completed. -/
def State.fillGranules (ref : WarpRef) (l : Launch) (core : Nat) (w : Warp) :
    List Nat → State → List (Nat × List Row) → List (Nat × Nat) → Except Moved (State × List (Nat × List Row) × List (Nat × Nat))
  | [], s, rows, bad => .ok (s, rows, bad)
  | g :: gs, s, rows, bad =>
    match (s.coreAt core).buffered ref g with
    | some b =>
      match b.suspended with
      | some num => .error (.suspended s num)
      | none =>
        if b.faulted then .error (.wait s)
        else State.fillGranules ref l core w gs s ((g, b.rows) :: rows) (b.poison ++ bad)
    | none =>
      match s.readGranule l.ctx w.spillBase.toNat g with
      | .ok (rs, ps) => State.fillGranules ref l core w gs s ((g, rs) :: rows) (ps ++ bad)
      | .error v =>
        let f := s.spillFault core ref .refill v
        if v.fatal then .error (.ended (s.fatal l.id f))
        else
          let (s, num) := s.replayable l f
          .error (.suspended s num)

/-- R172: move(b), with the band's new size (R190). -/
def State.moveBand (s : State) (ref : WarpRef) (b ring : Nat) : Moved :=
  match s.crew? ref.crew, s.warp? ref, s.launch? ref.crew.launch with
  | some c, some w, some l =>
    let core := c.coreNo
    let old := (List.range (w.ring / 8)).map (· + w.bot / 8)
    let new := (List.range (ring / 8)).map (· + b / 8)
    let top := min w.high w.spillLim
    let outs := old.filter fun g => !new.contains g && 8 * g < w.spillLim
    let ins := new.filter fun g => !old.contains g && 8 * g < top
    match State.fillGranules ref l core w ins s [] [] with
    | .error m => m
    | .ok (s, filled, bad) =>
      match State.spillGranules ref l.ctx core w outs s with
      | (s, false) => .wait s
      | (s, true) =>
        if (s.warp? ref).isNone then .ended s
        else
          let row (r : Nat) : Row :=
            if old.contains (r / 8) then w.rowAt r
            else match filled.find? (·.1 == r / 8) with
              | some x => x.2.getD (r % 8) zeroRow
              | none => zeroRow
          .ok (s.modWarp ref fun w =>
            { w with
              rows := (List.range ring).map fun k => row (b + k)
              poison := w.poison.filter (fun p => old.contains (p.1 / 8) && new.contains (p.1 / 8)) ++ bad
              bot := b
              ring
              taken := []
              high := max w.high (b + ring) })
  | _, _, _ => .ended s

end Sys2Proof.Machine
end

