-- ==== Sys2Proof/Machine/Ops.lean ====
section
/-! DEFINITION. The issue attempt that every encoded instruction goes through (02 R43 to R45, R65; 05 R136; 06 R151, R164,
R166; 07 R173, R174, R188; 08 R201), taking a trap (15 R357, R358), faults (09 R239, R240) and retirement (06 R148). -/

namespace Sys2Proof.Machine

/-! ## What an instruction answers -/

/-- A row pushed at issue: queue name, words, valid lanes, poisoned words (R203). -/
structure Push where
  name : Nat
  words : Row
  valid : Mask
  bad : Mask

/-- How an instruction that issues leaves its split, its queues and its completion. -/
structure Done where
  /-- The instruction has set every PC it changes and run merge_check. -/
  setPc : Bool := false
  /-- A wait at a `join`: no fetch redirect (R164). -/
  stay : Bool := false
  /-- A further pass of the same instruction follows (R156): it counts once for R166, with its last pass, and the issuing split
  does not change in between (log 21). -/
  again : Bool := false
  /-- `yield` (R166). -/
  yielded : Bool := false
  /-- Lanes that become vacant (R163, R228). -/
  off : Mask := 0
  push : Option Push := none
  /-- Queues popped by an instruction that tests its queue itself. -/
  pops : List Nat := []
  /-- What its completion waits for; none when it completes at issue. -/
  flight : Option FlightKind := some .timed
  /-- Registers pending until their write lands (R45); none stands for those its operands name. -/
  regs : Option (List Reg) := none
  /-- `FPCTL` flags that its completion sets (R110, R123). -/
  raise : Option Word := none
  /-- The warp waits at its compare point once the instruction has issued (R424). -/
  point : Bool := false

/-- What an issue attempt comes to. -/
inductive Attempt where
  | done (s : State) (d : Done)
  /-- A precise trap; of the instruction's work only this warp's records remain (R135, R356). -/
  | trap (w : Warp) (code arg : Nat)
  /-- A trap after the instruction has acted (codes 13 and 14). -/
  | trapAfter (code arg : Nat)
  /-- The warp blocks, unissued (R31). -/
  | block (s : State) (b : Block)
  | fault (f : MemFault)
  /-- Its unit does not accept it this cycle (R167). -/
  | hold
  /-- The launch ended or replays. -/
  | ends (s : State)

/-! ## Debugger stops (15 R377 to R379) -/

/-- A stop record. Reasons: 0 breakpoint, 1 `brk`, 2 debugger, 3 step. -/
def State.stopRecord (s : State) (r : WarpRef) (reason : Nat) : State :=
  match s.launch? r.crew.launch, s.crew? r.crew, s.warp? r with
  | some l, some c, some w => s.launchEvent l 10 0 (Config.debugStopBody c.coreNo r.crew.crew r.warp w.cur w.split.pc reason)
  | _, _, _ => s

/-- R377: a stop halts the warps of the debugger's scope. -/
def State.debugHalt (s : State) (r : WarpRef) (reason : Nat) : State :=
  match s.launch? r.crew.launch with
  | none => s
  | some l =>
    let scope := ((s.context? l.ctx).bind (·.debugger)).getD .warp
    let inScope (c : Crew) (w : Warp) : Bool :=
      match scope with
      | .warp => c.ref == r.crew && w.num == r.warp
      | .crew => c.ref == r.crew
      | .context => ((s.launch? c.ref.launch).map (·.ctx)) == some l.ctx
    let s : State := { s with crews := s.crews.map fun (c : Crew) =>
      { c with warps := c.warps.map fun w =>
          if inScope c w && !w.retired then { w with stopped := true, stepping := false } else w } }
    s.stopRecord r reason

/-- R379: a stepping warp stops again after its one instruction. -/
def State.endStep (s : State) (r : WarpRef) : State :=
  match s.warp? r with
  | some w => if w.stepping then (s.modWarp r fun w => { w with stopped := true, stepping := false }).stopRecord r 3 else s
  | none => s

/-! ## Leaving queues -/

/-- The warp gives up its places and reservations in every waiter list (R202). -/
def Crew.leaveQueue (c : Crew) (warp n : Nat) : Crew :=
  match c.queues[n]? with
  | none => c
  | some q =>
    if q.poppers.any (·.warp == warp) || q.pushers.any (·.warp == warp) then
      (c.modQueue n fun q =>
        { q with
          poppers := q.poppers.filter (·.warp != warp), pushers := q.pushers.filter (·.warp != warp)
          offered := q.offered.filter fun k => q.holder k != some warp }).settleQueue n
    else c

def Crew.leaveQueues (c : Crew) (warp : Nat) : Crew :=
  (List.range c.queues.length).foldl (fun c n => c.leaveQueue warp n) c

/-- What a warp keeps while an instruction is unissued goes when it issues or traps. -/
def Warp.clearAttempt (w : Warp) : Warp :=
  { w with
    block := none, moved := none, graceWait := none, graceSent := false, deadline := none, compare := none
    passed := false, given := none, waitHit := none, stopPc := none, owed := none, serving := false, awaits := [],
    taken := [] }

/-! ## Taking a trap -/

/-- `TRAPCAUSE` (R360). -/
def causeWord (code arg slot : Nat) : Word := BitVec.ofNat 32 (code + arg % 256 * 256 + slot * 65536)

/-- R357: entry into the handler. Mask, base and lay-by of the split are unchanged. -/
def Warp.enterTrap (w : Warp) (code arg : Nat) (pc : Word) : Warp :=
  { (w.modSplit w.cur fun s => { s with pc := (w.trapBase.extractLsb' 0 27).setWidth 32 }) with
    trapCause := causeWord code arg w.cur
    trapPc := pc
    trapBase := w.trapBase ||| 0x4000_0000
    redirect := 20 }

/-- R363: the body of an unhandled-trap record. -/
def trapRecord (w : Warp) (core crew code arg : Nat) (pc : Word) : List Byte :=
  leBytes 4 (causeWord code arg w.cur).toNat ++ leBytes 4 pc.toNat ++ leBytes 1 (if w.inTrap then 1 else 0) ++
    leBytes 1 0 ++ leBytes 2 core ++ leBytes 2 (4 * core + w.quarter) ++ leBytes 1 w.num ++ leBytes 1 0 ++
    leBytes 4 crew ++ leBytes 6 w.split.mask.toNat

/-- R357, R358: a warp, as the instruction leaves it, takes a trap whose `TRAPPC` is `pc`. A launch that an unhandled trap ends
keeps the warp as the trap left it (R135; log 68). -/
def State.takeTrap (s : State) (r : WarpRef) (w : Warp) (code arg : Nat) (pc : Word) : State :=
  let s : State := { s with turn := none }
  if w.trapOn && !w.inTrap then
    ((s.modCrew r.crew (·.leaveQueues r.warp)).modWarp r fun _ => (w.enterTrap code arg pc).clearAttempt).endStep r
  else
    match s.launch? r.crew.launch, s.crew? r.crew with
    | some l, some c =>
      ((s.launchEvent l 5 0 (trapRecord w c.coreNo r.crew.crew code arg pc)).modLaunch l.id fun l =>
        { l with fallen := some w }).endLaunch l.id 17
    | _, _ => s

/-! ## Faults and blocking -/

/-- R31: the warp blocks; a queue block enters the waiter lists elsewhere. The attempt has not issued. -/
def State.blockWarp (s : State) (r : WarpRef) (b : Block) : State :=
  s.modWarp r fun w => w.blockOn b s.clock.tick

/-- R239, R240: a replayable fault blocks the warp on its record; a fatal one ends the launch. -/
def State.faultWarp (s : State) (r : WarpRef) (f : MemFault) : State :=
  match s.launch? r.crew.launch with
  | none => { s with turn := none }
  | some l =>
    if f.fatal then { s.fatal l.id f with turn := none }
    else
      let (s, num) := s.replayable l f
      s.blockWarp r (.fault num)

/-! ## Rows and index registers before issue -/

/-- What a check before issue comes to. -/
inductive Check where
  | ok
  | trap (w : Warp) (code arg : Nat)
  | move (b : Nat)

/-- R188: the index registers of an operand in the lanes of `m`. -/
def Cx.indexOk (x : Cx) (o : Opnd) (m : Mask) : Bool :=
  match o.spec with
  | .vx k => (maskLanes m).all fun l => x.w.index k.val l ≤ x.w.limit k.val
  | _ => true

/-- The highest stack row an operand names in the lanes of `m`, plus one; 0 when it names none. -/
def Cx.topRow (x : Cx) (o : Opnd) (m : Mask) : Nat :=
  match o.spec with
  | .v n => x.sp.base + n.val + o.words
  | .vx k => (maskLanes m).foldl (fun t l => max t (x.rowOf (.vx k) l + 1)) 0
  | _ => 0

/-- R188, then R174 on the highest row named. Of several index registers that are out of range, the trap names that of the first
operand in field order, sources before the destination (log 20). -/
def Cx.rowCheck (x : Cx) (os : List Opnd) (m : Mask) : Check :=
  match os.find? fun o => !x.indexOk o m with
  | some o => .trap x.w 6 (match o.spec with
      | .vx k => k.val
      | _ => 0)
  | none =>
    let top := os.foldl (fun t o => max t (x.topRow o m)) 0
    if top == 0 then .ok
    else if x.w.spillLim < top then .trap { x.w with woc := 1 } 7 0
    else if top ≤ x.w.bot + x.w.ring then .ok
    else
      let b := (top - 1 + 8 - x.w.ring) / 8 * 8
      if b ≤ x.w.lo then .move b else .trap { x.w with woc := 4 } 7 0

/-! ## Queue transfers (08 R201) -/

/-- One transfer of an instruction: queue name, direction, and whether it never blocks on an empty closed queue. -/
structure Transfer where
  name : Nat
  push : Bool
  status : Bool
  deriving DecidableEq, Repr

def specQueue : Spec → List Nat
  | .q n => [n.val]
  | _ => []

/-- The transfers of an instruction in field order. `qtry`, `qpop.st` and `refill` test their queue themselves. -/
def transfersOf (i : Instr) : List Transfer :=
  match i with
  | .qpush _ q a _ => ⟨q.toNat, true, false⟩ :: (specQueue a).map fun n => ⟨n, false, false⟩
  | .qpop _ _ q st _ => if st then [] else [⟨q.toNat, false, false⟩]
  | .qtryPush _ _ _ _ => []
  | i =>
    let u := operandsOf i
    ((u.reads.flatMap fun o => specQueue o.spec).map fun n => ⟨n, false, false⟩) ++
      ((u.writes.flatMap fun o => specQueue o.spec).map fun n => ⟨n, true, false⟩)

/-- The binding of a name of the issuing warp, with its queue. -/
def Cx.bound (x : Cx) (name : Nat) : Option (Binding × Queue) :=
  (x.w.bindings[name]?).join.bind fun b => (x.c.queues[b.queue]?).map fun q => (b, q)

def Cx.rightOk (x : Cx) (t : Transfer) : Bool :=
  match x.bound t.name with
  | some (b, _) => if t.push then b.push else b.pop
  | none => false

/-- R201 step 5 for one transfer: whether its queue has a ready row, or a free slot, for the warp. A queue that the instruction
also pops needs no free slot. -/
def Cx.serves (x : Cx) (ts : List Transfer) (t : Transfer) : Bool :=
  match x.bound t.name with
  | none => false
  | some (b, q) =>
    if t.push then
      q.freeFor x.ref.warp || ts.any fun u => !u.push && (x.bound u.name).any fun y => y.1.queue == b.queue
    else q.readyFor x.ref.warp

/-- Whether nothing holds a transfer back: its row or slot is there, and a head that is popped is staged (R218). -/
def Cx.ready (x : Cx) (ts : List Transfer) (t : Transfer) : Bool :=
  x.serves ts t && (t.push || (x.bound t.name).any (·.2.staged))

/-- The outcome of R201's steps over the names of an instruction. -/
inductive QTest where
  | go
  | trap (code arg : Nat)
  | wait (name : Nat)

def Cx.queueTest (x : Cx) (ts : List Transfer) : QTest :=
  let state (t : Transfer) : BitVec 2 := ((x.bound t.name).map (·.2.state)).getD 0
  let closed (t : Transfer) : Bool := (x.bound t.name).any fun y => y.2.state == 1 || y.1.closed
  let empty (t : Transfer) : Bool := (x.bound t.name).any fun y => y.2.state == 1 && y.2.count == 0
  match ts.find? fun t => !x.rightOk t with
  | some _ => .trap 1 1
  | none =>
  match ts.find? fun t => state t == 2 with
  | some t => .trap 10 t.name
  | none =>
  match ts.find? fun t => t.push && closed t with
  | some t => .trap 9 t.name
  | none =>
  match ts.find? fun t => !t.push && !t.status && empty t with
  | some t => .trap 9 t.name
  | none =>
  match ts.find? fun t => !x.ready ts t with
  | some t => .wait t.name
  | none => .go

/-- The rows that the pops of a list supply. -/
def Cx.popped (x : Cx) (ts : List Transfer) : List Popped :=
  (ts.filter fun t => !t.push).filterMap fun t =>
    (x.bound t.name).map fun y =>
      let (row, valid, bad) := x.c.headRow y.1.queue
      ⟨t.name, y.1.queue, row, valid, bad⟩

def addPopper (l : List Popper) (w : Nat) : List Popper := if l.any (·.warp == w) then l else l ++ [⟨w, none⟩]
def addWaiter (l : List Waiter) (w : Nat) : List Waiter := if l.any (·.warp == w) then l else l ++ [⟨w, false⟩]

/-- The queues of the instruction's transfers, each with its direction (R202). -/
def Cx.awaits (x : Cx) (ts : List Transfer) : List (Nat × Bool) :=
  ts.filterMap fun t => (x.bound t.name).map fun y => (y.1.queue, t.push)

/-- The crew, with the queues noted whose close or break ends the warp's wait (R202). -/
def Cx.awaiting (x : Cx) (ts : List Transfer) : Crew := x.c.modWarp x.ref.warp fun w => { w with awaits := x.awaits ts }

/-- R202: a blocked warp stands in the list of every queue of the instruction that does not serve it. -/
def Cx.queueBlock (x : Cx) (ts : List Transfer) (name : Nat) : Attempt :=
  let c := (ts.filter fun t => !x.ready ts t).foldl (fun (c : Crew) t =>
    match x.bound t.name with
    | none => c
    | some (b, _) =>
      (c.modQueue b.queue fun q =>
        if t.push then { q with pushers := addWaiter q.pushers x.ref.warp }
        else { q with poppers := addPopper q.poppers x.ref.warp }).settleQueue b.queue) (x.awaiting ts)
  let q := ((x.bound name).map (·.1.queue)).getD 0
  let group := ((x.c.queues[q]?).map (·.group)).getD 0
  .block (x.s.modCrew x.ref.crew fun _ => c) (.queue q (x.w.groups.findIdx (· == group)))

/-! ## Retirement -/

/-- R148, R184, R200, R282: a warp whose splits have all ended. -/
def State.retireWarp (s : State) (r : WarpRef) : State :=
  match s.warp? r, s.launch? r.crew.launch with
  | some w, some l =>
    let s := s.modCrew r.crew fun c =>
      let c := w.bindings.foldl (fun c b => match b with
        | some b => if b.push && !b.closed then c.closeQueue b.queue else c
        | none => c) c
      { c with reserve := c.reserve.modify w.quarter (· + w.ring) }
    let after := ((s.crew? r.crew).map fun c => s.storing c.coreNo r).getD []
    let s := if w.depth == 0 then s
      else s.modContext l.ctx fun c =>
        { c with grace := { c.grace with depths := c.grace.depths ++ [.depth r none after w.stores] } }
    s.modWarp r fun w =>
      { w with retired := true, ring := 0, rows := [], poison := [], bindings := w.bindings.map fun _ => none, depth := 0,
               compare := if l.paired then some w.stores else none }
  | _, _ => s

/-! ## Issuing -/

/-- Registers of a completing instruction, its flag and the `FPCTL` flags it will set (R44, R45, R110). -/
def Warp.launchFlight (w : Warp) (i : Instr) (k : Option FlightKind) (regs : List Reg) (raise : Option Word) : Warp :=
  match k with
  | none => w
  | some k =>
    let n := i.ctl.setf.toNat
    if n == 0 && regs.isEmpty && k == .timed && raise.isNone then w
    else
      { w.modFlag n (· + 1) with
        flights := w.flights ++ [⟨w.nextFlight, regs, n, raise, k⟩], nextFlight := w.nextFlight + 1 }

/-- The flight that an issue added to the warp `w`, if it went into flight (R44). -/
def Warp.newFlight (w v : Warp) : Option Nat := if v.nextFlight == w.nextFlight then none else some (v.nextFlight - 1)

/-- The PC of the issuing split after an instruction that does not set it (R151). -/
def Warp.advancePc (w : Warp) (pc : Word) (d : Done) : Warp :=
  if d.setPc then w else w.modSplit w.cur fun s => { s with pc := pc + 1 }

/-- R151, R163: lanes that become vacant leave, and merge_check runs on the issuing split. -/
def Warp.settleSplits (w : Warp) (d : Done) : Warp :=
  if d.off == 0 then (if d.setPc then w else w.mergeCheck w.cur)
  else if ((w.dropLanes d.off).splitAt (w.dropLanes d.off).cur).isSome then
    (w.dropLanes d.off).mergeCheck (w.dropLanes d.off).cur
  else w.dropLanes d.off

/-- R43, R164: the counts that an issue starts; R156: whether further passes of it come. -/
def Warp.startCounts (w : Warp) (stall : Nat) (pc : Word) (d : Done) : Warp :=
  if !d.stay && !d.again && (w.splitAt w.cur).any fun s => s.pc != pc + 1 then { w with stall := stall + 1, redirect := redirectCycles }
  else { w with stall := stall + 1, serving := d.again }

/-- R149, R166: the issuing split counts its instruction, and changes where it must. A further pass is no instruction of its own
(log 21). -/
def Warp.countIssue (w : Warp) (d : Done) : Warp :=
  if d.again then w
  else
    let u := w.modSplit w.cur fun s => { s with issued := min 64 (s.issued + 1) }
    let stands := (w.splitAt w.cur).any fun s => !s.joinWait
    if !stands || ((d.yielded || 64 ≤ u.split.issued) && !u.inTrap && u.nextSplit.isSome) then u.switchSplit else u

/-- R151, R163 to R166: what the issue of an instruction at `pc` leaves of the splits. -/
def Warp.afterIssue (w : Warp) (stall : Nat) (pc : Word) (d : Done) : Warp :=
  ((((w.advancePc pc d).settleSplits d).unwait.clearAttempt).startCounts stall pc d).countIssue d

/-- The queue side of an issue: pops, then the push (R203), which may take the slot that a pop frees (R201); then the queues
settle, and the warp gives up the places it held. The data lands with the instruction, where it is in flight (R44). -/
def Crew.transfer (c : Crew) (warp : Nat) (pops : List Nat) (push : Option (Nat × Push)) (flight : Option Nat) : Crew :=
  let c := pops.eraseDups.foldl (fun c q => c.takeRow q warp) c
  let c := match push with
    | some (q, p) => c.putRow q warp p.words p.valid p.bad (flight.map fun k => (warp, k))
    | none => c
  ((pops ++ (push.map (·.1)).toList).foldl (fun c q => c.settleQueue q) c).leaveQueues warp

/-- The issuing warp, which the effect left as `w`, once its instruction has issued in `s`. -/
def Cx.issued (x : Cx) (s : State) (w : Warp) (d : Done) : Warp :=
  let w := (w.afterIssue x.i.ctl.stall.toNat x.sp.pc d).launchFlight x.i d.flight (d.regs.getD (written x)) d.raise
  let w := { w with issuedAt := some s.clock.cycle }
  if d.point then { w.blockOn .fence s.clock.tick with compare := some w.stores, passed := true } else w

/-- A pop of a row that the grace unit delivered is an acquire of the reclamation (R209, R264, R288). -/
def Cx.popAcquires (x : Cx) (s : State) (queues : List Nat) : State :=
  if queues.any x.c.headFresh then s.invalidate x.core else s

/-- The instruction issues: its effect is in `s`; queues, splits, flags and counts follow. -/
def Cx.commit (x : Cx) (s : State) (d : Done) : State :=
  let s : State := { s with turn := none }
  match s.warp? x.ref with
  | none => s
  | some w =>
    let flight := w.newFlight (x.issued s w d)
    let w := x.issued s w d
    let push := d.push.bind fun p => (x.bound p.name).map fun y => (y.1.queue, p)
    let pops := x.pops.map (·.queue) ++ d.pops
    let s := x.popAcquires ((s.modWarp x.ref fun _ => w).modCrew x.ref.crew (·.transfer x.ref.warp pops push flight)) pops
    let s := if d.again then s else s.endStep x.ref
    if w.finished then s.retireWarp x.ref else s

/-- R173: lanes that leave S empty resume an entry: the span holds with its base, and the band covers it. -/
def Cx.dropCheck (x : Cx) (off : Mask) : Check :=
  match x.w.resumesAt off with
  | none => .ok
  | some b =>
    let others := (List.range 4).filterMap fun n => if n == x.w.cur then none else (x.w.splitAt n).map (·.base)
    let lo := lowest (b :: others)
    let hi := highest (b :: others)
    if !spanOk x.w.ring x.w.reach lo hi then .trap { x.w with woc := 2 } 7 0
    else match coverTo x.w.bot x.w.ring x.w.reach lo hi with
      | some m => .move m
      | none => .ok

/-- A move that an issuing instruction needs: the warp blocks for it (R175), and the band changes as the instruction
issues. -/
def Cx.withMove (x : Cx) (b ring : Nat) (go : State → Attempt) : Attempt :=
  if x.w.moved != some b then .block x.s (.move b false)
  else
    match x.s.moveBand x.ref b ring with
    | .ok s => go s
    | .wait s => .block s (.move b false)
    | .suspended s num => .block s (.fault num)
    | .ended s => .ends s

/-- Finish an attempt: what the body answers becomes a state. -/
def Cx.finish (x : Cx) (a : Attempt) : State :=
  match a with
  | .done s d => x.commit s d
  | .trap w code arg => x.s.takeTrap x.ref w code arg x.sp.pc
  | .trapAfter code arg =>
    let w := x.w.modSplit x.w.cur fun s => { s with issued := min 64 (s.issued + 1) }
    x.s.takeTrap x.ref { w with stall := x.i.ctl.stall.toNat + 1, issuedAt := some x.s.clock.cycle } code arg (x.sp.pc + 1)
  | .block s b => s.blockWarp x.ref b
  | .fault f => x.s.faultWarp x.ref f
  | .hold => x.s
  | .ends s => { s with turn := none }

/-- R173: before lanes leave a split that then resumes an entry, its window is made resident. The band moves under the state `s` of the
effect as it does under the state before it, which differs in nothing that a move regards. Where the span check traps, the record of a masked ADDRDIS of the instruction is dropped with its effect, and
that of its guard stands (log 20). -/
def Cx.guardDrop (x : Cx) (body : Cx → Attempt) : Attempt :=
  match body x with
  | .done s d =>
    if d.off == 0 then .done s d
    else match x.dropCheck d.off with
      | .ok => .done s d
      | .trap w code arg => .trap w code arg
      | .move b => x.withMove b x.w.ring fun _ =>
          match s.moveBand x.ref b x.w.ring with
          | .ok s => .done s d
          | _ => .ends s
  | a => a

/-- R80, R428: a poisoned word among the sources that active lanes consume. -/
def Cx.poisonedSource (x : Cx) : Bool := (operandsOf x.i).reads.any fun o => x.srcBad o &&& x.act != 0

/-- The rows an instruction names, as far as its specifiers fix them before issue. -/
def Cx.named (x : Cx) : List Opnd :=
  let u := operandsOf x.i
  u.reads ++ u.writes ++ u.cross.filter fun o => match o.spec with
    | .vx _ => false
    | _ => true

/-- The instruction is a release of the warp's earlier accesses, besides fences, arrivals and `rdexit`, which issue at once (R207, R254, R288). -/
def releases (i : Instr) : Bool :=
  match i with
  | .st _ a | .sts _ a | .atom _ a | .atoms _ a | .red _ a => a.sem == 2 || a.sem == 3
  | .gstart _ _ | .gsync _ _ | .dfree _ _ _ _ | .qtryPush _ _ _ _ => true
  | i => (transfersOf i).any (·.push)

/-- The instruction reads or writes words of the scratchpad for the threads of its warp. -/
def touchesScratch (i : Instr) : Bool :=
  match i with
  | .lds _ _ | .sts _ _ | .atoms _ _ => true
  | .wait _ x => [x.c0, x.c1, x.c2, x.c3].any fun c => match c with
    | .word _ _ _ sp => sp
    | _ => false
  | _ => false

/-- R342: the stores of the warp's earlier `tst` and `asave` complete later: a release waits for them, and so does a later access of the
scratchpad, which they precede in program order (R248, R252, R256). -/
def Cx.storesFirst (x : Cx) : Bool := (releases x.i || touchesScratch x.i) && !(x.s.storing x.core x.ref).isEmpty

/-- The attempt with the rows that its queue operands supply: none without an active lane (R65, R201). -/
def Cx.taking (x : Cx) : Cx := if x.act == 0 then x else { x with pops := x.popped (transfersOf x.i) }

/-- What an issue attempt comes to after its guard has been resolved: the rows it names, the queue tests when a lane is active,
then its body over the rows it pops. R65: without an active lane it issues and does nothing further. An instruction that names
both an empty slot and a queue that blocks it waits first: the body traps (R15) once the queue serves it (log 70). -/
def Cx.answer (x : Cx) (body : Cx → Attempt) : Attempt :=
  match x.rowCheck x.named x.act with
  | .trap w code arg => .trap w code arg
  | .move b => .block x.s (.move b true)
  | .ok =>
    if x.act == 0 then .done (x.put x.w) { flight := none, regs := some [] }
    else
      let ts := transfersOf x.i
      match x.queueTest ts with
      | .trap code arg => .trap x.w code arg
      | .wait name => x.queueBlock ts name
      | .go =>
        let x := x.taking
        if x.poisonedSource then .ends (x.s.consumedError x.ref.crew.launch none .warp x.core x.ref.warp)
        else if x.storesFirst then .hold
        else x.guardDrop body

def Cx.run (x : Cx) (body : Cx → Attempt) : State := x.taking.finish (x.answer body)

/-! ## Results -/

/-- A lane result goes to a register, or is pushed as one row (R55, R79). -/
def Cx.laneDone (x : Cx) (w : Warp) (dst : Spec) (row : Row) (raise : Option Word := none) : Attempt :=
  match dst with
  | .q n => .done (x.put w) { push := some ⟨n.val, row, x.act, 0⟩, raise }
  | dst => .done (x.put (x.write w dst x.act row 0)) { raise }

/-- A wide lane result (R56). -/
def Cx.wideDone (x : Cx) (w : Warp) (dst : Spec) (rows : List Row) : Attempt :=
  .done (x.put ((List.range rows.length).foldl (fun w k => x.writeWide w dst k x.act (rows.getD k []) 0) w)) {}

def Cx.scalDone (x : Cx) (w : Warp) (dst : Spec) (v : Word) : Attempt := .done (x.put (x.writeScal w dst v)) {}
def Cx.pairDone (x : Cx) (w : Warp) (dst : Spec) (v : DWord) : Attempt := .done (x.put (x.writeScal64 w dst v)) {}
def Cx.predDone (x : Cx) (w : Warp) (p : BitVec 3) (v : Mask) (raise : Option Word := none) : Attempt :=
  .done (x.put (x.writePred w p x.act v)) { raise }

/-- A source whose lanes the instruction chooses: R188, R174 and R80 over those lanes, which a popped row may decide, so after
the queue tests (log 20). -/
def Cx.cross (x : Cx) (a : Spec) (go : Attempt) : Attempt :=
  let m := x.crossLanes
  match x.rowCheck [⟨a, 1⟩] m with
  | .trap w code arg => .trap w code arg
  | .move b => .block x.s (.move b true)
  | .ok =>
    if x.srcBad ⟨a, 1⟩ &&& m != 0 then .ends (x.s.consumedError x.ref.crew.launch none .warp x.core x.ref.warp) else go

/-- How the issue attempt of an instruction begins. -/
inductive Begin where
  /-- No warp is at its turn. -/
  | absent
  /-- The guard's CMPDIS cause traps (R136). -/
  | trap (r : WarpRef) (w : Warp)
  | go (x : Cx)

/-- The warp whose turn it is with its crew and launch, and the active lanes: R136, the guard is resolved first. -/
def State.begin (s : State) (i : Instr) : Begin :=
  match s.turn with
  | none => .absent
  | some r =>
    match s.crew? r.crew, s.warp? r, s.launch? r.crew.launch with
    | some c, some w, some l =>
      let m := w.split.mask
      let g := i.ctl.guard
      let v := if g.neg then ~~~(w.pred g.p) else w.pred g.p
      match w.resolve l.triple m v with
      | .error w => .trap r w
      | .ok (w, v) => .go { s, ref := r, l, c, w, act := v &&& m, i, pops := [] }
    | _, _, _ => .absent

/-- The issue attempt of instruction `i` by the warp whose turn it is. A warp that woke to take a trap takes it (R268). -/
def issue (i : Instr) (s : State) (body : Cx → Attempt) : Host.Outcome State Fault Refusal :=
  match s.begin i with
  | .absent => .fault .noIssuingWarp
  | .trap r w => .next (s.takeTrap r w 3 0 w.split.pc)
  | .go x =>
    match x.w.owed with
    | some (code, arg) => .next (x.finish (.trap x.w code arg))
    | none => .next (x.run body)

end Sys2Proof.Machine
end

