-- ==== Sys2Proof/Machine/Integer.lean ====
section
/-! DEFINITION. Class 0x0, the integer lane instructions (03 R76, R85 to R91). -/

namespace Sys2Proof.Machine

/-! ## Operations on words -/

/-- A word as the tag reads it: natural under `.n32`, else signed (R85). -/
def wordVal (ty : Ty) (a : Word) : Int := if ty == .n32 then a.toNat else a.toInt

/-- R85: sat. -/
def satWord (ty : Ty) (x : Int) : Word :=
  if ty == .n32 then BitVec.ofInt 32 (clampInt x 0 (2 ^ 32 - 1)) else BitVec.ofInt 32 (clampInt x (-2 ^ 31) (2 ^ 31 - 1))

/-- An exact result, wrapped or saturated. -/
def putWord (ty : Ty) (sat : Bool) (x : Int) : Word := if sat then satWord ty x else BitVec.ofInt 32 x

def minWord (ty : Ty) (a b : Word) : Word := if wordVal ty b < wordVal ty a then b else a
def maxWord (ty : Ty) (a b : Word) : Word := if wordVal ty a < wordVal ty b then b else a
def absWord (sat : Bool) (a : Word) : Word := putWord .i32 sat a.toInt.natAbs
def shlWord (a b : Word) : Word := if 32 ≤ b.toNat then 0 else a <<< b.toNat
def shrWord (a b : Word) : Word := if 32 ≤ b.toNat then 0 else a >>> b.toNat
def sarWord (a b : Word) : Word := a.sshiftRight (min b.toNat 31)
def rotWord (a b : Word) : Word := a.rotateLeft (b.toNat % 32)
def popcWord (a : Word) : Word := BitVec.ofNat 32 (popCount a.toNat 32)
def clzWord (a : Word) : Word := if a == 0 then 32 else BitVec.ofNat 32 (31 - a.toNat.log2)

/-- R86: the clipped width of a field. -/
def fieldWidth (pos : BitVec 5) (wid : BitVec 6) : Nat := min wid.toNat (32 - pos.toNat)

def bfxWord (ty : Ty) (pos : BitVec 5) (wid : BitVec 6) (a : Word) : Word :=
  let w := fieldWidth pos wid
  let x := (a.toNat >>> pos.toNat) % 2 ^ w
  if w == 0 then 0
  else if ty == .i32 && x.testBit (w - 1) then BitVec.ofInt 32 ((x : Int) - 2 ^ w) else BitVec.ofNat 32 x

def bfiWord (pos : BitVec 5) (wid : BitVec 6) (a b : Word) : Word := setField a pos.toNat (fieldWidth pos wid) b.toNat

/-- R82. -/
def ccHolds (cc : Cc) (a b : Int) : Bool :=
  match cc with
  | .eq => a == b
  | .ne => a != b
  | .lt => decide (a < b)
  | .le => decide (a ≤ b)
  | .gt => decide (b < a)
  | .ge => decide (b ≤ a)

/-- R90, R95: the extended, scaled index. -/
def leaSum (ty : Ty) (sc : Scale) (a : DWord) (b : Word) (imm : BitVec 12) : DWord :=
  let x : DWord := if ty == .n32 then b.setWidth 64 else b.signExtend 64
  a + (x <<< sc.toNat) + imm.signExtend 64

def sxtWord (ty : Ty) (a : Word) : Word :=
  match ty with
  | .i8 => (a.extractLsb' 0 8).signExtend 32
  | .i16 => (a.extractLsb' 0 16).signExtend 32
  | .n8 => (a.extractLsb' 0 8).setWidth 32
  | _ => (a.extractLsb' 0 16).setWidth 32

/-! ## Shared shapes -/

/-- R85: one operation on one source per lane. -/
def Cx.lane1 (x : Cx) (dst a : Spec) (f : Word → Word) : Attempt := x.laneDone x.w dst ((x.src a).map f)
/-- R85: two sources per lane, the second an immediate under IB. -/
def Cx.lane2 (x : Cx) (dst a : Spec) (b : Src2) (f : Word → Word → Word) : Attempt :=
  x.laneDone x.w dst (List.zipWith f (x.src a) (x.src2 b))
/-- R85: three sources per lane. -/
def Cx.lane3 (x : Cx) (dst a : Spec) (b : Src2) (c : Spec) (f : Word → Word → Word → Word) : Attempt :=
  x.laneDone x.w dst (List.zipWith (fun g c => g c) (List.zipWith f (x.src a) (x.src2 b)) (x.src c))

/-- A predicate computed per lane from a list. -/
def maskOfList (l : List Bool) : Mask := maskOf fun i => l.getD i false

/-- A comparison under the CMPDIS cause (R89, R134, R136). -/
def Cx.compare (x : Cx) (p : BitVec 3) (v : Mask) : Attempt :=
  match x.w.resolve x.triple x.act v with
  | .error w => .trap w Cause.cmpdis.trap 0
  | .ok (w, v) => x.predDone w p v

/-! ## The instructions -/

def execIadd (c : Ctl) (x : IntArgs) (s : State) := issue (.iadd c x) s fun k =>
  k.lane2 x.dst x.a x.b fun a b => putWord x.ty x.sat (wordVal x.ty a + wordVal x.ty b)

def execIsub (c : Ctl) (x : IntArgs) (s : State) := issue (.isub c x) s fun k =>
  k.lane2 x.dst x.a x.b fun a b => putWord x.ty x.sat (wordVal x.ty a - wordVal x.ty b)

def execImul (c : Ctl) (x : IntArgs) (s : State) := issue (.imul c x) s fun k =>
  k.lane2 x.dst x.a x.b fun a b => a * b

def execImulh (c : Ctl) (x : IntArgs) (s : State) := issue (.imulh c x) s fun k =>
  k.lane2 x.dst x.a x.b fun a b => BitVec.ofInt 32 (wordVal x.ty a * wordVal x.ty b / 2 ^ 32)

def execImad (c : Ctl) (x : IntArgs) (s : State) := issue (.imad c x) s fun k =>
  k.lane3 x.dst x.a x.b x.c fun a b d => putWord x.ty x.sat (wordVal x.ty a * wordVal x.ty b + wordVal x.ty d)

def execImin (c : Ctl) (x : IntArgs) (s : State) := issue (.imin c x) s fun k => k.lane2 x.dst x.a x.b (minWord x.ty)
def execImax (c : Ctl) (x : IntArgs) (s : State) := issue (.imax c x) s fun k => k.lane2 x.dst x.a x.b (maxWord x.ty)
def execIabs (c : Ctl) (x : IntArgs) (s : State) := issue (.iabs c x) s fun k => k.lane1 x.dst x.a (absWord x.sat)
def execAnd (c : Ctl) (x : IntArgs) (s : State) := issue (.and c x) s fun k => k.lane2 x.dst x.a x.b fun a b => a &&& b
def execOr (c : Ctl) (x : IntArgs) (s : State) := issue (.or c x) s fun k => k.lane2 x.dst x.a x.b fun a b => a ||| b
def execXor (c : Ctl) (x : IntArgs) (s : State) := issue (.xor c x) s fun k => k.lane2 x.dst x.a x.b fun a b => a ^^^ b
def execAndn (c : Ctl) (x : IntArgs) (s : State) := issue (.andn c x) s fun k =>
  k.lane2 x.dst x.a x.b fun a b => a &&& ~~~b
def execShl (c : Ctl) (x : IntArgs) (s : State) := issue (.shl c x) s fun k => k.lane2 x.dst x.a x.b shlWord
def execShr (c : Ctl) (x : IntArgs) (s : State) := issue (.shr c x) s fun k => k.lane2 x.dst x.a x.b shrWord
def execSar (c : Ctl) (x : IntArgs) (s : State) := issue (.sar c x) s fun k => k.lane2 x.dst x.a x.b sarWord
def execRot (c : Ctl) (x : IntArgs) (s : State) := issue (.rot c x) s fun k => k.lane2 x.dst x.a x.b rotWord
def execPopc (c : Ctl) (x : IntArgs) (s : State) := issue (.popc c x) s fun k => k.lane1 x.dst x.a popcWord
def execClz (c : Ctl) (x : IntArgs) (s : State) := issue (.clz c x) s fun k => k.lane1 x.dst x.a clzWord

def execBfx (c : Ctl) (x : FieldArgs) (s : State) := issue (.bfx c x) s fun k =>
  k.lane1 x.dst x.a (bfxWord x.ty x.pos x.wid)

def execBfi (c : Ctl) (x : FieldArgs) (s : State) := issue (.bfi c x) s fun k =>
  k.lane2 x.dst x.a (.reg x.b) (bfiWord x.pos x.wid)

/-- R87: each lane reads its own predicate bit, without majority. -/
def execSel (c : Ctl) (x : SelArgs) (s : State) := issue (.sel c x) s fun k =>
  let p := k.predMask x.p
  let a := k.src x.a
  let b := k.src2 x.b
  k.laneDone k.w x.dst (laneList.map fun l => if p.getLsbD l then wordAt a l else wordAt b l)

def execMov (c : Ctl) (dst a : Spec) (s : State) := issue (.mov c dst a) s fun k => k.lane1 dst a id

def execMovi (c : Ctl) (dst : Spec) (imm : Word) (s : State) := issue (.movi c dst imm) s fun k =>
  k.laneDone k.w dst (laneList.map fun _ => imm)

def execIcmp (c : Ctl) (x : CmpArgs) (s : State) := issue (.icmp c x) s fun k =>
  k.compare x.p (maskOfList (List.zipWith (fun a b => ccHolds x.cc (wordVal x.ty a) (wordVal x.ty b)) (k.src x.a) (k.src2 x.b)))

def execLea (c : Ctl) (x : LeaArgs) (s : State) := issue (.lea c x) s fun k =>
  let lo := k.srcWide x.a 0
  let hi := k.srcWide x.a 1
  let b := k.src x.b
  let r := laneList.map fun l => leaSum x.ty x.sc (wordAt hi l ++ wordAt lo l) (wordAt b l) x.imm
  k.wideDone k.w x.dst [r.map (·.extractLsb' 0 32), r.map (·.extractLsb' 32 32)]

def execSxt (c : Ctl) (x : UnArgs) (s : State) := issue (.sxt c x) s fun k => k.lane1 x.dst x.a (sxtWord x.ty)

end Sys2Proof.Machine
end

