-- ==== Sys2Proof/Machine/Control.lean ====
section
/-! DEFINITION. Class 0x4, control flow (06 R154 to R163). -/

namespace Sys2Proof.Machine

/-- The splits are set, merge_check has run, and the instruction completes at issue (R151, R165). -/
def Cx.flow (x : Cx) (w : Warp) (stay : Bool := false) : Attempt :=
  .done (x.put (w.mergeCheck w.cur)) { setPc := true, stay, flight := none }

/-- R155, R136: the active lanes in which a condition is true. -/
def Cx.taken (x : Cx) (p : Pred) (go : Warp → Mask → Attempt) : Attempt :=
  match x.w.resolve x.triple x.act (x.predMask p &&& x.act) with
  | .error w => .trap w Cause.cmpdis.trap 0
  | .ok (w, v) => go w (v &&& x.act)

/-- R154, R160: S keeps the side with the lower next PC, the other side is placed. -/
def execBra (c : Ctl) (p : Pred) (off : Word) (s : State) := issue (.bra c p off) s fun x =>
  x.taken p fun w t =>
    let pc := x.sp.pc
    let next := pc + 1
    let target := pc + off
    let n := x.sp.mask &&& ~~~t
    if t != 0 && n != 0 && target != next then
      (if !w.room 1 then .trap w 8 0
       else
         let low := decide (target.toNat < next.toNat)
         let (keep, kpc, other, opc) := if low then (t, target, n, next) else (n, next, t, target)
         let w := w.modSplit w.cur fun s => { s with mask := keep, pc := kpc }
         x.flow (w.place other opc x.sp.base))
    else x.flow (w.modSplit w.cur fun s => { s with pc := if n == 0 then target else next })

/-- R160: a uniform branch takes every lane of S, those whose guard is false included. -/
def execBru (c : Ctl) (p : Pred) (off : Word) (s : State) := issue (.bru c p off) s fun x =>
  x.taken p fun w t =>
    x.flow (w.modSplit w.cur fun s => { s with pc := if t == 0 then s.pc + 1 else s.pc + off })

/-! ## Several targets (R156) -/

/-- What a target word stands for: the PC and the base at which its lanes continue (R157, R158, R162). -/
abbrev TargetOf := Word → Word × Nat

/-- The elected target of the lanes of `m`: that of the lowest lane, or what two siblings of the lowest thread hold. -/
def electedTarget (triple : Bool) (m : Mask) (t : Row) : Word :=
  let l := (maskLanes m).headD 0
  if !triple then wordAt t l
  else
    let a := wordAt t l
    let b := wordAt t (l + 1)
    let c := wordAt t (l + 2)
    if a == b || a == c then a else if b == c then b else a

/-- The lanes of `m` whose target is `t`: the branch predicate of R156. -/
def meets (m : Mask) (targets : Row) (t : Word) : Mask := maskOf fun l => m.getLsbD l && wordAt targets l == t

/-- The lanes of `m` that a pass takes, once the test of each thread is resolved to `v`: those whose test is true, and the
lowest thread (R156). -/
def groupOf (triple : Bool) (m v : Mask) : Mask :=
  (v ||| maskOf fun l => threadOf triple l == threadOf triple ((maskLanes m).headD 0)) &&& m

/-- The groups of the lanes of `m` in the order of the passes, majorities taken (R135, R156). -/
def groupsOf (triple : Bool) (targets : Row) : Nat → Mask → List (Word × Mask)
  | 0, _ => []
  | fuel + 1, m =>
    if m == 0 then []
    else
      let t := electedTarget triple m targets
      let test := meets m targets t
      let g := groupOf triple m (if triple then majorityMask test else test)
      (t, g) :: groupsOf triple targets fuel (m &&& ~~~g)

/-- Where an instruction that reads a target per lane sends them: the targets, what a target stands for, whether lanes that do
not take part stay with S (`ret`, R154), the row and word of a link (R158), and whether its first pass is still to come. -/
structure Flow where
  targets : Row
  dest : TargetOf
  keeps : Bool
  link : Option (Nat × Word)
  first : Bool

/-- R154: the lanes outside `m` and the one target of the others continue at one place, so nothing is divided. -/
def Flow.undivided (f : Flow) (s : Split) (m : Mask) : Bool :=
  f.first && s.mask &&& ~~~m != 0 && ((maskLanes m).map (wordAt f.targets)).eraseDups.length == 1 &&
    f.dest (wordAt f.targets ((maskLanes m).headD 0)) == (s.pc + 1, s.base)

/-- R156: the places to count: those that the lanes of `m` need, before the first pass; in a later one those of its own group and of
lanes that take part no more, which are counted already unless threads go by majority or a debugger stepped in (log 21). -/
def Flow.places (f : Flow) (s : Split) (m g : Mask) : Nat :=
  let out := s.mask &&& ~~~m
  if !f.first then (if out == 0 || f.keeps then 0 else 1) + (if g == m && !(f.keeps && out != 0) then 0 else 1)
  else if f.undivided s m then 0
  else ((maskLanes m).map (wordAt f.targets)).eraseDups.length + (if out != 0 then 1 else 0) - 1

/-- R154, R156: the pass that takes group `g` of the lanes `m` to target `t`. -/
def Flow.pass (f : Flow) (m : Mask) (t : Word) (g : Mask) (w : Warp) : Warp :=
  let s := w.split
  let next := s.pc + 1
  let out := s.mask &&& ~~~m
  let stays := f.keeps && out != 0
  let last := g == m
  let (pc, base) := f.dest t
  if f.undivided s m then
    let w := w.modSplit w.cur fun s => { s with pc := next }
    w.mergeCheck w.cur
  else
    let w := if out == 0 || stays then w
      else (w.modSplit w.cur fun s => { s with mask := s.mask &&& m }).placeApart out next s.base
    if last && !stays then
      let w := w.modSplit w.cur fun s => { s with mask := g, pc, base }
      w.mergeCheck w.cur
    else
      let w := (w.modSplit w.cur fun s => { s with mask := s.mask &&& ~~~g }).placeApart g pc base
      if last then
        let w := w.modSplit w.cur fun s => { s with pc := next }
        w.mergeCheck w.cur
      else w

/-- The warp after each of the passes that the groups of a list take, the lanes `m` being left to serve. -/
def Flow.after : List (Word × Mask) → Flow → Mask → Warp → List Warp
  | [], _, _, _ => []
  | (t, g) :: l, f, m, w =>
    let v := f.pass m t g w
    v :: Flow.after l { f with first := false } (m &&& ~~~g) v

/-- The window bases of the splits of a warp lie within its ring (R171). -/
def Warp.spans (w : Warp) (extra : List Nat) : Bool :=
  spanOk w.ring w.reach (lowest (w.bases ++ extra)) (highest (w.bases ++ extra))

/-- Makes the window of these bases resident, then goes on with the warp as the move leaves it (R173, R34). -/
def Cx.cover (x : Cx) (w : Warp) (bases : List Nat) (go : Cx → Warp → Attempt) : Attempt :=
  match coverTo w.bot w.ring w.reach (lowest bases) (highest bases) with
  | none => go x w
  | some b => x.withMove b w.ring fun s =>
      match s.crew? x.ref.crew, s.warp? x.ref with
      | some c, some m => go { x with s := s, c := c, w := m } { m with numstat := w.numstat }
      | _, _ => .ends s

/-- R158, R165: the link goes to row 0 of the callee's window in the lanes of a group. -/
def Warp.writeLink (w : Warp) (g : Mask) : Option (Nat × Word) → Warp
  | some (row, word) =>
    let w := w.writeRow row g (laneList.map fun _ => word) 0
    { w with flights := w.flights ++ [⟨w.nextFlight, [.row row], 0, none, .timed⟩], nextFlight := w.nextFlight + 1 }
  | none => w

/-- One pass of an instruction that reads a target per lane (R156). Places are counted before the first pass, then the group of the
pass is resolved; the limit and the span are checked for every group that is still to be served before any lane moves (R161, R173).
A further pass issues the same instruction again; threads that go by majority can need more passes than there are targets, and one
that finds no room for its group traps (log 21). -/
def Cx.pass (x : Cx) (f : Flow) : Attempt :=
  let m := x.act
  let t := electedTarget x.triple m f.targets
  if f.first && !x.w.room (f.places x.sp m 0) then .trap x.w 8 0
  else match x.w.resolve x.triple m (meets m f.targets t) with
  | .error w => .trap w Cause.cmpdis.trap 0
  | .ok (w, v) =>
    let g := groupOf x.triple m v
    let links := (f.link.map (·.1)).toList
    let left := (t, g) :: groupsOf x.triple f.targets 48 (m &&& ~~~g)
    if !f.first && !x.w.room (f.places x.sp m g) then .trap w 8 0
    else if links.any fun b => !limitOk w.spillLim w.reach b then .trap { w with woc := 1 } 7 0
    else if (Flow.after left f m w).any fun v => !v.spans links then .trap { w with woc := 2 } 7 0
    else
      x.cover w ((f.pass m t g w).bases ++ links) fun (x : Cx) (w : Warp) =>
        .done (x.put (f.pass m t g (w.writeLink g f.link))) { setPc := true, again := g != m, flight := none }

def execBrx (c : Ctl) (a : Spec) (off : Word) (s : State) := issue (.brx c a off) s fun x =>
  x.pass ⟨(x.src a).map (· + off), fun t => (t, x.sp.base), false, none, !x.w.serving⟩

/-- R158: the link word. -/
def linkWord (pc : Word) (shift : BitVec 5) : Word := ((pc + 1) <<< 5) ||| shift.setWidth 32

/-- R161: the callee's base and what the call writes there. -/
def Cx.callPass (x : Cx) (targets : Row) (shift : BitVec 5) : Attempt :=
  let base := x.sp.base + 8 * shift.toNat
  x.pass ⟨targets, fun t => (t, base), false, some (base, linkWord x.sp.pc shift), !x.w.serving⟩

def execCall (c : Ctl) (off : Word) (shift : BitVec 5) (s : State) := issue (.call c off shift) s fun x =>
  x.callPass (laneList.map fun _ => x.sp.pc + off) shift

def execCallx (c : Ctl) (a : Spec) (off : Word) (shift : BitVec 5) (s : State) := issue (.callx c a off shift) s fun x =>
  x.callPass ((x.src a).map (· + off)) shift

/-- R162: the base check covers every group before the first pass. -/
def execRet (c : Ctl) (s : State) := issue (.ret c) s fun x =>
  let links := x.src (.v 0)
  let drop (l : Word) : Nat := 8 * (l.extractLsb' 0 5).toNat
  if (maskLanes x.act).any fun l => x.sp.base < drop (wordAt links l) then .trap { x.w with woc := 3 } 7 0
  else x.pass ⟨links, fun l => ((l.extractLsb' 5 27).setWidth 32, x.sp.base - drop l), true, none, !x.w.serving⟩

/-! ## Exit, join, yield, nop (R163) -/

def execExit (c : Ctl) (s : State) := issue (.exit c) s fun x => .done (x.put x.w) { off := x.act, flight := none }

/-- The lay-by top of S when it was parked at S's base. -/
def Warp.parked (w : Warp) : Option (LayEntry × List LayEntry) :=
  match w.split.layby with
  | e :: l => if e.base == w.split.base then some (e, l) else none
  | [] => none

/-- Swap S with the parked path, which leaves S at `pc` on the lay-by. -/
def Warp.swapParked (w : Warp) (pc : Word) (e : LayEntry) (l : List LayEntry) : Warp :=
  w.modSplit w.cur fun s => { s with pc := e.pc, mask := e.mask, layby := ⟨pc, s.mask, s.base⟩ :: l }

def execJoin (c : Ctl) (s : State) := issue (.join c) s fun x =>
  match x.w.parked with
  | some (e, l) => x.flow (x.w.swapParked x.sp.pc e l)
  | none =>
    let awaits := (List.range 4).any fun n =>
      n != x.w.cur && (x.w.splitAt n).any fun u => u.base == x.sp.base && !u.joinWait
    if awaits then x.flow (x.w.modSplit x.w.cur fun s => { s with joinWait := true }) true
    else x.flow (x.w.modSplit x.w.cur fun s => { s with pc := s.pc + 1 })

def execYield (c : Ctl) (s : State) := issue (.yield c) s fun x =>
  let w := match x.w.parked with
    | some (e, l) => x.w.swapParked (x.sp.pc + 1) e l
    | none => x.w.modSplit x.w.cur fun s => { s with pc := s.pc + 1 }
  .done (x.put (w.mergeCheck w.cur)) { setPc := true, yielded := true, flight := none }

def execNop (c : Ctl) (s : State) := issue (.nop c) s fun x => .done (x.put x.w) { flight := none }

end Sys2Proof.Machine
end

