-- ==== Sys2Proof/Machine/Diag.lean ====
section
/-! DEFINITION. What the diagnostic area tells of blocked warps (15 R369 to R371, R446), and the deadlock and watchdog
reports (07 R187; 08 R210; 15 R368; 18 R440). -/

namespace Sys2Proof.Machine

/-- R381: the stall code of a blocking reason. -/
def Block.reason : Block → Nat
  | .fault _ => 2
  | .queue _ _ => 3
  | .claim _ => 4
  | .barrier _ _ => 5
  | .wait _ _ => 6
  | .grace _ => 7
  | .move _ _ => 8
  | .flush => 8
  | .fence => 9

/-- R371. -/
def Crew.blockObject (c : Crew) : Block → Nat
  | .barrier b ph => barByte b ph
  | .wait used all => used + (if all then 16 else 0)
  | .grace n => n.toNat % 2 ^ 32
  | .queue q slot => ((c.queues[q]?).map (·.off)).getD 0 + slot % 4 * 2 ^ 24
  | .claim n => n
  | _ => 0

def Crew.objectOf (c : Crew) (w : Warp) : Nat := (w.block.map c.blockObject).getD 0
def Warp.reason (w : Warp) : Nat := (w.block.map Block.reason).getD 0

/-- R265: the 128-bit image. -/
def Barrier.image (b : Barrier) : List Byte :=
  leBytes 8 b.arrived.toNat ++
    leBytes 8 (b.expect.toNat + (if b.ph then 128 else 0) + (if b.inv then 256 else 0) + b.pend.toNat * 65536)

def splitEntry : Option Split → List Byte
  | none => leBytes 24 0
  | some s =>
    leBytes 4 s.pc.toNat ++ leBytes 6 s.mask.toNat ++ leBytes 2 0 ++ leBytes 4 s.base ++ leBytes 1 s.layby.length ++
      leBytes 1 (if s.joinWait then 1 else 0) ++ leBytes 2 0 ++ leBytes 4 ((s.layby.head?.map (·.pc.toNat)).getD 0)

/-- R370. -/
def Crew.warpEntry (c : Crew) (w : Warp) : List Byte :=
  if w.retired then leBytes 1 w.num ++ leBytes 1 w.quarter ++ leBytes 1 0xFF ++ leBytes 125 0
  else
    leBytes 1 w.num ++ leBytes 1 w.quarter ++ leBytes 1 w.reason ++
      leBytes 1 (w.bases.length + w.cur * 16 + (if w.inTrap then 128 else 0)) ++ leBytes 4 (c.objectOf w) ++
      leBytes 6 w.vacant.toNat ++ leBytes 1 w.depth ++ leBytes 1 0 ++
      leBytes 8 (if w.block.isSome then w.since.toNat else 0) ++ leBytes 8 0 ++ (w.splits.take 4).flatMap splitEntry

/-- R446: the header of a deadlock detail. -/
def detailHeader (kind core : Nat) (seq : BitVec 32) (tick : DWord) (crew entries reserve budget quarter : Nat) : List Byte :=
  leBytes 1 kind ++ leBytes 1 0 ++ leBytes 2 core ++ leBytes 4 seq.toNat ++ leBytes 8 tick.toNat ++ leBytes 4 crew ++
    leBytes 1 0xFF ++ leBytes 1 entries ++ leBytes 2 0 ++ leBytes 4 reserve ++ leBytes 2 budget ++ leBytes 1 quarter ++
    leBytes 33 0

/-- R418 kind 6. -/
def deadlockBody (addr crew quarter : Nat) : List Byte := leBytes 8 addr ++ leBytes 4 crew ++ leBytes 1 quarter

/-- R187: an entry of a claim-deadlock detail. -/
def claimEntry (w : Warp) (rows : Nat) : List Byte :=
  leBytes 1 w.num ++ leBytes 1 (if w.retired then 0xFF else if 0 < rows then 4 else w.reason) ++ leBytes 2 0 ++
    leBytes 4 w.ring ++ leBytes 4 rows ++ leBytes 4 0

/-- R187: the report and the end of the launch; `beyond` is the claim that would pass the budget. -/
def State.claimDeadlock (s : State) (r : CrewRef) (quarter : Nat) (beyond : Option (Nat × Nat)) : State :=
  match s.crew? r, s.launch? r.launch with
  | some c, some l =>
    let claims := ((c.claims.getD quarter []).filter fun k => !k.served).map fun k => (k.warp, k.rows)
    let first := claims ++ beyond.toList
    let rest := (c.warps.filter fun w => w.quarter == quarter && !first.any (·.1 == w.num)).map fun w => (w.num, 0)
    let entries := (first ++ rest).filterMap fun e => (c.warps[e.1]?).map fun w => claimEntry w e.2
    let detail := detailHeader 3 c.coreNo l.seq s.clock.tick r.crew entries.length (c.reserve.getD quarter 0)
      (c.budget.getD quarter 0) quarter ++ entries.flatten
    let (s, addr) := s.diagWrite l.ctx detail
    (s.launchEvent l 6 2 (deadlockBody addr r.crew quarter)).endLaunch l.id 19
  | _, _ => s

/-- R210: the report and the end of the launch. -/
def State.crewDeadlock (s : State) (r : CrewRef) : State :=
  match s.crew? r, s.launch? r.launch with
  | some c, some l =>
    let detail := detailHeader 2 c.coreNo l.seq s.clock.tick r.crew c.warps.length 0 0 0 ++ c.warps.flatMap c.warpEntry
    let (s, addr) := s.diagWrite l.ctx detail
    (s.launchEvent l 6 1 (deadlockBody addr r.crew 0)).endLaunch l.id 18
  | _, _ => s

/-- R369, R370: the watchdog's diagnostic record for a warp of a crew. -/
def State.watchRecord (s : State) (c : Crew) (l : Launch) (w : Warp) (limit : Nat) : List Byte :=
  let image := match w.block with
    | some (.barrier b _) => ((c.barrierOf w b).map fun x => x.2.image).getD (leBytes 16 0)
    | _ => leBytes 16 0
  leBytes 1 1 ++ leBytes 1 w.reason ++ leBytes 2 c.coreNo ++ leBytes 4 l.seq.toNat ++ leBytes 8 s.clock.tick.toNat ++
    leBytes 4 c.ref.crew ++ leBytes 1 w.num ++ leBytes 1 c.warps.length ++ leBytes 2 0 ++ leBytes 4 limit ++
    leBytes 4 (c.objectOf w) ++ image ++ leBytes 8 w.since.toNat ++ leBytes 8 0 ++ c.warps.flatMap c.warpEntry

end Sys2Proof.Machine
end

