-- ==== Sys2Proof/Machine/FloatOps.lean ====
section
/-! DEFINITION. Class 0x2, floating-point and conversion (04 R103 to R122), with the numerical causes that it tests (05
R134 to R136). -/

namespace Sys2Proof.Machine

/-! ## One operation on one lane -/

/-- A code and the flags it raises. -/
abbrev FRes := Nat × FFlags

/-- An operation on values as read: what is rounded, and the flags of its special cases. -/
abbrev FOp := Rm → List FVal → Exact × FFlags

def anySnan (l : List FVal) : Bool := l.any (·.isSnan)

/-- A special case that raises NV (R110). -/
def nvIf (b : Bool) : FFlags := { nv := b }

def opAdd : FOp := fun m l =>
  match l with
  | [a, b] => (exactAdd m a b, nvIf (anySnan l || addInvalid a b))
  | _ => (.nan, {})

def opSub : FOp := fun m l =>
  match l with
  | [a, b] => (exactAdd m a (b.negIf true), nvIf (anySnan l || addInvalid a (b.negIf true)))
  | _ => (.nan, {})

def opMul : FOp := fun _ l =>
  match l with
  | [a, b] => ((exactMul a b).exact, nvIf (anySnan l || mulInvalid a b))
  | _ => (.nan, {})

/-- R114: an invalid product raises NV whatever the addend. -/
def opFma : FOp := fun m l =>
  match l with
  | [a, b, c] =>
    let p := exactMul a b
    (exactAdd m p c, nvIf (anySnan l || mulInvalid a b || addInvalid p c))
  | _ => (.nan, {})

/-- R118. -/
def opDiv : FOp := fun _ l =>
  match l with
  | [a, b] =>
    let neg := a.sign != b.sign
    let nv := nvIf (anySnan l)
    match a, b with
    | .nan _, _ | _, .nan _ => (.nan, nv)
    | .inf _, .inf _ => (.nan, { nv := true })
    | .inf _, _ => (.inf neg, nv)
    | _, .inf _ => (.zero neg, nv)
    | .fin _ m e, .fin _ n d =>
      if n == 0 then (if m == 0 then (.nan, { nv := true }) else (.inf neg, { dz := true }))
      else if m == 0 then (.zero neg, nv)
      else (.real neg (.ratio m n (e - d)), nv)
  | _ => (.nan, {})

def opSqrt : FOp := fun _ l =>
  match l with
  | [.nan s] => (.nan, nvIf s)
  | [.inf neg] => if neg then (.nan, { nv := true }) else (.inf false, {})
  | [.fin neg m e] =>
    if m == 0 then (.zero neg, {}) else if neg then (.nan, { nv := true }) else (.real false (.sqrt m e), {})
  | _ => (.nan, {})

def opRcp : FOp := fun _ l =>
  match l with
  | [.nan s] => (.nan, nvIf s)
  | [.inf neg] => (.zero neg, {})
  | [.fin neg m e] => if m == 0 then (.inf neg, { dz := true }) else (.real neg (.ratio 1 m (-e)), {})
  | _ => (.nan, {})

def opRsq : FOp := fun _ l =>
  match l with
  | [.nan s] => (.nan, nvIf s)
  | [.inf neg] => if neg then (.nan, { nv := true }) else (.zero false, {})
  | [.fin neg m e] =>
    if m == 0 then (.inf neg, { dz := true }) else if neg then (.nan, { nv := true }) else (.real false (.rsqrt m e), {})
  | _ => (.nan, {})

def opExp2 : FOp := fun _ l =>
  match l with
  | [.nan s] => (.nan, nvIf s)
  | [.inf neg] => (if neg then .zero false else .inf false, {})
  | [.fin neg m e] =>
    if m == 0 then (.real false (.dyadic 1 0), {}) else (.real false (.exp2 (FVal.dy (.fin neg m e))), {})
  | _ => (.nan, {})

/-- R118: the logarithm of a power of two is exact, that of 1 is +0. -/
def opLog2 : FOp := fun _ l =>
  match l with
  | [.nan s] => (.nan, nvIf s)
  | [.inf neg] => if neg then (.nan, { nv := true }) else (.inf false, {})
  | [.fin neg m e] =>
    if m == 0 then (.inf true, { dz := true })
    else if neg then (.nan, { nv := true })
    else if m == 2 ^ m.log2 then (Exact.ofDy ⟨(m.log2 : Int) + e, 0⟩ false, {})
    else let (n, v) := log2Fixed m e; (.real n (.fixed160 v), {})
  | _ => (.nan, {})

/-! ## Lanes -/

/-- Operands as read (R105, R112, R120): `sh` is the bit at which the half starts. -/
def operandVal (f : Fmt) (neg : Bool) (sh : Nat) (w : Word) : FVal :=
  (f.decode ((w.toNat >>> sh) % 2 ^ f.width)).negIf neg

/-- The rows of the operands with their negate bits. -/
def Cx.fsrcs (x : Cx) (a : FArgs) (n : Nat) : List (Bool × Row) :=
  ([(a.na, a.a), (a.nb, a.b), (a.nc, a.c)].take n).map fun p => (p.1, x.src p.2)

/-- The generator word of a lane's rounding: `k` counts the draws of the instruction (R106, R120). -/
def Cx.gen (x : Cx) (l k : Nat) : DWord :=
  genWord x.l.rndkey x.ref.crew.crew x.ref.warp x.triple false 0 l (((x.w.opcount.getD l 0).toNat + k) % 2 ^ 48)

/-- The draw of a lane under a mode; modes that do not draw need none. -/
def Cx.drawFor (x : Cx) (m : Rm) (l k : Nat) : DWord := if drawing m then x.gen l k else 0

/-- One lane of a rounding operation. -/
def Cx.fLane (x : Cx) (f : Fmt) (m : Rm) (op : FOp) (srcs : List (Bool × Row)) (sh k l : Nat) : FRes :=
  let (e, fl) := op m (srcs.map fun p => operandVal f p.1 sh (wordAt p.2 l))
  let (c, g) := roundTo f m (x.drawFor m l k) e
  (c, fl.or g)

/-- The active lanes of a result, 0 and no flags elsewhere. -/
def Cx.perLane (x : Cx) (g : Nat → FRes) : List FRes :=
  laneList.map fun l => if x.act.getLsbD l then g l else (0, {})

def flagsOf (l : List FRes) : FFlags := l.foldl (fun f r => f.or r.2) {}
def codesOf (l : List FRes) : Row := l.map fun r => BitVec.ofNat 32 r.1

/-- The active threads that satisfy a test, as a set (R134). -/
def Cx.threadSet (x : Cx) (p : Nat → Bool) : Nat :=
  (List.range 16).foldl (fun n t => if x.act.getLsbD (3 * t) && p t then n + 2 ^ t else n) 0

/-- The digits of a thread in one operand (R129). -/
def threadDigits (f : Fmt) (v : Nat → FVal) (t : Nat) : Nat := digits3 f (v (3 * t)) (v (3 * t + 1)) (v (3 * t + 2))

/-- R134: threads in which CANCEL arises. -/
def Cx.cancelSet (x : Cx) (f : Fmt) (srcs : List (Bool × Row)) (sh : Nat) (res : List FRes) : Nat :=
  if !x.triple then 0
  else
    let out (l : Nat) : FVal := f.decode (res.getD l (0, {})).1
    let ins : List (Nat → FVal) := srcs.map fun p l => operandVal f p.1 sh (wordAt p.2 l)
    x.threadSet fun t =>
      let finite := [3 * t, 3 * t + 1, 3 * t + 2].all fun l => (out l).finite && ins.all fun v => (v l).finite
      let od := ins.foldl (fun d v => min d (threadDigits f v t)) f.p
      finite && (x.w.numctl.extractLsb' 0 5).toNat < od - threadDigits f out t

/-- R135: an event of some threads; the error is the warp that traps. -/
def Warp.event (w : Warp) (c : Cause) (set : Nat) : Except Warp Warp :=
  if set == 0 then .ok w
  else
    let w := w.record c set
    if w.enabled c then .error w else .ok w

/-- The draws of a rounding instruction (R107). -/
def Cx.settleDraws (x : Cx) (w : Warp) (m : Rm) (draws : Nat) : Warp := if drawing m then w.advance x.act draws else w

/-- A floating result: its flags are set as the instruction completes (R110, R123). -/
def Cx.floatDone (x : Cx) (w : Warp) (dst : Spec) (row : Row) (fl : FFlags) : Attempt := x.laneDone w dst row (some fl.toWord)

/-- R114, R118: an operation that rounds once. `cancel`, `divisor`: the causes it tests (R134). -/
def Cx.float (x : Cx) (a : FArgs) (n : Nat) (op : FOp) (cancel : Bool) (divisor : Option Nat) : Attempt :=
  let f := fmtOf a.ty
  let m := x.w.resolveRm a.rm
  let srcs := x.fsrcs a n
  let res := x.perLane (x.fLane f m op srcs 0 0)
  let dz : Nat := match divisor with
    | some k => if !x.triple then 0 else x.threadSet fun t =>
        threadDigits f (fun l => operandVal f false 0 (wordAt (srcs.getD k (false, [])).2 l)) t == 0
    | none => 0
  match x.w.event .divz dz with
  | .error w => .trap w Cause.divz.trap 0
  | .ok w =>
    match w.event .cancel (if cancel then x.cancelSet f srcs 0 res else 0) with
    | .error w => .trap w Cause.cancel.trap 0
    | .ok w => x.floatDone (x.settleDraws w m 1) a.dst (codesOf res) (flagsOf res)

/-- R120: both halves, low first. CANCEL is tested of each half in this order, as an event of its own (log 69). -/
def Cx.packed (x : Cx) (a : FArgs) (n : Nat) (op : FOp) (cancel : Bool) : Attempt :=
  let f := if a.ty == .bf16 then Fmt.bf16 else Fmt.fp16
  let m := x.w.resolveRm a.rm
  let srcs := x.fsrcs a n
  let lo := x.perLane (x.fLane f m op srcs 0 0)
  let hi := x.perLane (x.fLane f m op srcs 16 1)
  let set (sh : Nat) (r : List FRes) := if cancel then x.cancelSet f srcs sh r else 0
  match x.w.event .cancel (set 0 lo) with
  | .error w => .trap w Cause.cancel.trap 0
  | .ok w =>
    match w.event .cancel (set 16 hi) with
    | .error w => .trap w Cause.cancel.trap 0
    | .ok w =>
      x.floatDone (x.settleDraws w m 2) a.dst
        (List.zipWith (fun (h l : FRes) => BitVec.ofNat 32 (h.1 * 65536 + l.1)) hi lo) ((flagsOf lo).or (flagsOf hi))

/-! ## Minimum, maximum, comparison, class -/

/-- An operand as `fmin` and `fmax` return it: flushed, a NaN as the default NaN (R115). -/
def returned (f : Fmt) (c : Nat) : Nat :=
  match f.decode c with
  | .nan _ => f.nanCode
  | .fin neg m _ => if m == 0 then f.signBit neg else c
  | .inf _ => c

/-- R115: −0 is less than +0. -/
def belowZeroAware (a b : FVal) : Bool := a.ltNum b || (a.isZero && b.isZero && a.sign && !b.sign)

def minMax (f : Fmt) (max : Bool) (a b : Nat) : FRes :=
  let va := f.decode a
  let vb := f.decode b
  let nv := nvIf (va.isSnan || vb.isSnan)
  if va.isNan then (returned f b, nv)
  else if vb.isNan then (returned f a, nv)
  else if (if max then belowZeroAware va vb else belowZeroAware vb va) then (returned f b, nv) else (returned f a, nv)

def Cx.fminmax (x : Cx) (a : FArgs) (max : Bool) : Attempt :=
  let f := fmtOf a.ty
  let ra := x.src a.a
  let rb := x.src a.b
  let c (r : Row) (l : Nat) : Nat := (wordAt r l).toNat % 2 ^ f.width
  let res := x.perLane fun l => minMax f max (c ra l) (c rb l)
  x.floatDone x.w a.dst (codesOf res) (flagsOf res)

/-- R116. -/
def fccHolds (cc : Fcc) (a b : FVal) : Bool :=
  let un := a.isNan || b.isNan
  match cc with
  | .eq => !un && a.eqNum b
  | .ne => un || !a.eqNum b
  | .lt => !un && a.ltNum b
  | .le => !un && !b.ltNum a
  | .gt => !un && b.ltNum a
  | .ge => !un && !a.ltNum b
  | .un => un
  | .ord => !un

def fccInvalid (cc : Fcc) (a b : FVal) : Bool :=
  match cc with
  | .lt | .le | .gt | .ge => a.isNan || b.isNan
  | _ => a.isSnan || b.isSnan

/-- R117. -/
def classMask (f : Fmt) (c : Nat) : Nat :=
  match f.decodeRaw c with
  | .nan s => if s then 1 else 2
  | .inf neg => if neg then 4 else 512
  | .fin neg m _ =>
    if m == 0 then (if neg then 32 else 64)
    else if m < 2 ^ (f.p - 1) then (if neg then 16 else 128)
    else if neg then 8 else 256

/-! ## Rounding to integral, conversion -/

/-- R119. -/
def rndLane (f : Fmt) (m : Rm) (w : DWord) (v : FVal) : FRes :=
  match v with
  | .nan s => (f.nanCode, nvIf s)
  | .inf neg => (f.infCode neg, {})
  | .fin neg k e =>
    if k == 0 then (f.signBit neg, {})
    else
      let (n, _) := roundInt m w neg k e
      (f.pack neg n 0, {})

def intTy : Ty → Bool
  | .i8 | .i16 | .i32 | .n8 | .n16 | .n32 => true
  | _ => false

def tyBits : Ty → Nat
  | .i8 | .n8 | .e4m3 | .e5m2 => 8
  | .i16 | .n16 | .f16 | .bf16 => 16
  | .e2m1 => 4
  | _ => 32

def tySigned : Ty → Bool
  | .i8 | .i16 | .i32 => true
  | _ => false

/-- R122: the value of the source element. -/
def cvtSource (sty : Ty) (elem : Nat) (w : Word) : FVal :=
  let n := tyBits sty
  let c := (w.toNat >>> (n * elem)) % 2 ^ n
  if intTy sty then
    (if tySigned sty && c.testBit (n - 1) then .fin true (2 ^ n - c) 0 else .fin false c 0)
  else (fmtOf sty).decode c

/-- An integer destination (R122): the nearest end clamps and raises NV. -/
def cvtInt (dty : Ty) (m : Rm) (w : DWord) (v : FVal) : FRes :=
  let n := tyBits dty
  let lo : Int := if tySigned dty then -2 ^ (n - 1) else 0
  let hi : Int := if tySigned dty then 2 ^ (n - 1) - 1 else 2 ^ n - 1
  let code (i : Int) : Nat := (BitVec.ofInt 32 i).toNat
  match v with
  | .nan _ => (0, { nv := true })
  | .inf neg => (code (if neg then lo else hi), { nv := true })
  | .fin neg k e =>
    if k == 0 then (0, {})
    else
      let (r, ex) := roundInt m w neg k e
      let i : Int := if neg then -(r : Int) else r
      if i < lo then (code lo, { nv := true })
      else if hi < i then (code hi, { nv := true })
      else (code i, { nx := !ex })

/-- R121, R122: one lane. A value of E5M2F beyond the range of FP16 overflows as the rounding mode has it (log 71). -/
def cvtLane (dty sty : Ty) (elem : Nat) (m : Rm) (w : DWord) (src : Word) : FRes :=
  let v := cvtSource sty elem src
  if intTy dty then cvtInt dty m w v
  else
    let f := fmtOf dty
    match v with
    | .nan s => if f.special then (f.nanCode, nvIf s) else (0, { nv := true })
    | .inf neg => if f.special then (f.infCode neg, {}) else (f.signBit neg + f.maxCode, { ov := true, nx := true })
    | v => roundTo f m w v.exact

/-! ## The instructions -/

def execFadd (c : Ctl) (x : FArgs) (s : State) := issue (.fadd c x) s fun k => k.float x 2 opAdd true none
def execFsub (c : Ctl) (x : FArgs) (s : State) := issue (.fsub c x) s fun k => k.float x 2 opSub true none
def execFmul (c : Ctl) (x : FArgs) (s : State) := issue (.fmul c x) s fun k => k.float x 2 opMul false none
def execFfma (c : Ctl) (x : FArgs) (s : State) := issue (.ffma c x) s fun k => k.float x 3 opFma true none
def execFmin (c : Ctl) (x : FArgs) (s : State) := issue (.fmin c x) s fun k => k.fminmax x false
def execFmax (c : Ctl) (x : FArgs) (s : State) := issue (.fmax c x) s fun k => k.fminmax x true

/-- R116: the comparison is under the CMPDIS cause as `icmp` is. -/
def execFcmp (c : Ctl) (x : FcmpArgs) (s : State) := issue (.fcmp c x) s fun k =>
  let f := fmtOf x.ty
  let ra := k.src x.a
  let rb := k.src x.b
  let v (r : Row) (l : Nat) : FVal := operandVal f false 0 (wordAt r l)
  let res := maskOf fun l => k.act.getLsbD l && fccHolds x.cc (v ra l) (v rb l)
  let nv := laneList.any fun l => k.act.getLsbD l && fccInvalid x.cc (v ra l) (v rb l)
  match k.w.resolve k.triple k.act res with
  | .error w => .trap w Cause.cmpdis.trap 0
  | .ok (w, res) => k.predDone w x.p res (some (nvIf nv).toWord)

def execFdiv (c : Ctl) (x : FArgs) (s : State) := issue (.fdiv c x) s fun k => k.float x 2 opDiv false (some 1)
def execFsqrt (c : Ctl) (x : FArgs) (s : State) := issue (.fsqrt c x) s fun k => k.float x 1 opSqrt false none
def execFrcp (c : Ctl) (x : FArgs) (s : State) := issue (.frcp c x) s fun k => k.float x 1 opRcp false (some 0)
def execFrsq (c : Ctl) (x : FArgs) (s : State) := issue (.frsq c x) s fun k => k.float x 1 opRsq false (some 0)
def execFexp2 (c : Ctl) (x : FArgs) (s : State) := issue (.fexp2 c x) s fun k => k.float x 1 opExp2 false none
def execFlog2 (c : Ctl) (x : FArgs) (s : State) := issue (.flog2 c x) s fun k => k.float x 1 opLog2 false none

def execFclass (c : Ctl) (x : FArgs) (s : State) := issue (.fclass c x) s fun k =>
  let f := fmtOf x.ty
  k.laneDone k.w x.dst ((k.src x.a).map fun w => BitVec.ofNat 32 (classMask f (w.toNat % 2 ^ f.width))) (some 0)

/-- R119: the only flag is NV; it draws as any rounding does. -/
def execFrnd (c : Ctl) (x : FArgs) (s : State) := issue (.frnd c x) s fun k =>
  let f := fmtOf x.ty
  let m := k.w.resolveRm x.rm
  let ra := k.src x.a
  let res := k.perLane fun l => rndLane f m (k.drawFor m l 0) (operandVal f x.na 0 (wordAt ra l))
  k.floatDone (k.settleDraws k.w m 1) x.dst (codesOf res) (flagsOf res)

def execHadd2 (c : Ctl) (x : FArgs) (s : State) := issue (.hadd2 c x) s fun k => k.packed x 2 opAdd true
def execHmul2 (c : Ctl) (x : FArgs) (s : State) := issue (.hmul2 c x) s fun k => k.packed x 2 opMul false
def execHfma2 (c : Ctl) (x : FArgs) (s : State) := issue (.hfma2 c x) s fun k => k.packed x 3 opFma true

def execCvt (c : Ctl) (x : CvtArgs) (s : State) := issue (.cvt c x) s fun k =>
  let m := k.w.resolveRm x.rm
  let ra := k.src x.a
  let res := k.perLane fun l => cvtLane x.dty x.sty x.elem.toNat m (k.drawFor m l 0) (wordAt ra l)
  k.floatDone (k.settleDraws k.w m 1) x.dst (codesOf res) (flagsOf res)

end Sys2Proof.Machine
end

