-- ==== Sys2Proof/Machine/Addresses.lean ====
section
/-! DEFINITION. What class 0x7 shares: lane addresses (02 R48; 09 R219, R226, R227), their checks (R238), what a datum is
and how loaded bytes become words (R242, R243), atomic operations (R242), store signatures (16 R423). -/

namespace Sys2Proof.Machine

/-! ## Fields -/

def MemArgs.offset (x : MemArgs) : Int :=
  match x.tail with
  | .wide o => o.toInt
  | .narrow o _ _ => o.toInt

def MemArgs.scope (x : MemArgs) : Scope :=
  match x.tail with
  | .wide _ => .warp
  | .narrow _ _ sc => sc

def MemArgs.size (x : MemArgs) : Nat := 2 ^ x.sz.toNat
/-- Registers of a datum or result (R56). -/
def MemArgs.words (x : MemArgs) : Nat := max 1 (MemArgs.size x / 4)
def MemArgs.acquires (x : MemArgs) : Bool := x.sem == 1 || x.sem == 3
def MemArgs.releases (x : MemArgs) : Bool := x.sem == 2 || x.sem == 3

/-! ## Addresses -/

def addrSpace : Nat := 2 ^ 49

/-- R48, R219: the lane addresses of a global form. -/
def Cx.globalAddrs (y : Cx) (x : MemArgs) : List Int :=
  let base := match x.base with
    | .glob r => y.scal64 r
    | .slot _ => 0
  let index := y.src x.index
  laneList.map fun l =>
    ((base.toNat : Int) + ((wordAt index l).toNat * 2 ^ x.scl.toNat : Nat) + MemArgs.offset x) % (addrSpace : Int)

/-- R227: the window offsets of a scratchpad form. -/
def Cx.windowOffsets (y : Cx) (x : MemArgs) : List Int :=
  let index := y.src x.index
  laneList.map fun l => (((wordAt index l).toNat * 2 ^ x.scl.toNat : Nat) : Int) + MemArgs.offset x

/-- R133: the address two siblings hold, or the middle one. -/
def middle (a b c : Int) : Int :=
  let m (v : Int) : Int := v % (addrSpace : Int)
  if a == b || a == c then a
  else if b == c then b
  else if (m b ≤ m a && m a ≤ m c) || (m c ≤ m a && m a ≤ m b) then a
  else if (m a ≤ m b && m b ≤ m c) || (m c ≤ m b && m b ≤ m a) then b
  else c

/-- R226, R134: ADDRDIS. The error is the warp that traps. -/
def Cx.agree (y : Cx) (addrs : List Int) : Except Warp (Warp × List Int) :=
  if !y.triple then .ok (y.w, addrs)
  else
    let at_ (l : Nat) : Int := addrs.getD l 0
    let set := y.threadSet fun t => !(at_ (3 * t) == at_ (3 * t + 1) && at_ (3 * t + 1) == at_ (3 * t + 2))
    (y.w.event .addrdis set).map fun w =>
      (w, laneList.map fun l => let t := l / 3; middle (at_ (3 * t)) (at_ (3 * t + 1)) (at_ (3 * t + 2)))

/-! ## Faults -/

/-- The leaves of one access: two for the halves of 128 bits (R243). The error is the lane's address, the first kind in
R238's order that the access meets, and whether that is fatal. -/
def State.checkLane (s : State) (x : CtxRef) (k : Acc4) (va n : Nat) (replay : Bool) : Except (Nat × Nat × Bool) (List Leaf) :=
  if n ≤ 8 then
    match s.checkAccess x k va n replay none with
    | .error (code, f) => .error (va, code, f)
    | .ok l => .ok [l]
  else
    match s.checkAccess x k va n replay none, s.checkPart x k va ((va + 8) % addrSpace) n replay none with
    | .ok l, .ok h => .ok [l, h]
    | .error (code, f), .ok _ | .ok _, .error (code, f) => .error (va, code, f)
    | .error a, .error b => .error (if b.1 < a.1 then (va, b) else (va, a))

/-- A fault of the issuing warp's access (R239). -/
def Cx.memFault (y : Cx) (k : Acc4) (va code : Nat) (fatal : Bool) (mask : Mask) : MemFault :=
  { va, code, fatal, mask, acc := k, agent := 0, core := y.core, quarter := y.w.quarter, warp := y.ref.warp,
    pc := y.sp.pc, crew := y.ref.crew.crew, handle := 0 }

/-- R238: the first fatal lane decides, else the first lane that faults; the mask holds every faulting lane. -/
def Cx.chooseFault (y : Cx) (k : Acc4) (bad : List (Nat × Nat × Nat × Bool)) : Option MemFault :=
  match (bad.find? (·.2.2.2)).or bad.head? with
  | none => none
  | some (_, va, code, f) => some (y.memFault k va code f (maskOf fun l => bad.any (·.1 == l)))

/-- The accesses of the active lanes: lane, address and leaves, or the fault of R238. -/
def Cx.checkLanes (y : Cx) (k : Acc4) (addrs : List Int) (n : Nat) : Except MemFault (List (Nat × Nat × List Leaf)) :=
  let tests := (maskLanes y.act).map fun l =>
    let va := (addrs.getD l 0).toNat
    (l, va, y.s.checkLane y.l.ctx k va n y.l.replay)
  let bad := tests.filterMap fun t => match t.2.2 with
    | .error e => some (t.1, e)
    | .ok _ => none
  match y.chooseFault k bad with
  | some f => .error f
  | none => .ok (tests.filterMap fun t => match t.2.2 with
      | .ok ls => some (t.1, t.2.1, ls)
      | .error _ => none)

/-! ## Bytes and words -/

/-- An access in parts that lie in one leaf and one word each: leaf, address, bytes. -/
def accessParts (va n : Nat) (leaves : List Leaf) : List (Leaf × Nat × Nat) :=
  let step := min n 4
  (List.range (n / step)).filterMap fun k =>
    (leaves[k * step / 8]?).map fun l => (l, (va + k * step) % addrSpace, step)

/-- The words of loaded bytes (R243). -/
def loadedWords (n : Nat) (sx : Bool) (bs : List Byte) : List Word :=
  if n < 4 then
    let v := leNat bs
    [if sx && v.testBit (8 * n - 1) then BitVec.ofInt 32 ((v : Int) - 2 ^ (8 * n)) else BitVec.ofNat 32 v]
  else (List.range (n / 4)).map fun k => BitVec.ofNat 32 (leNat ((bs.drop (4 * k)).take 4))

/-- What one lane loads: its words and whether each is poisoned. -/
def wordsOfParts (n : Nat) (sx : Bool) (parts : List (List Byte × Bool)) : List (Word × Bool) :=
  let ws := loadedWords n sx (parts.flatMap (·.1))
  List.zip ws (parts.map (·.2) ++ List.replicate ws.length false)

/-- Rows of words and poison from what each lane loads. -/
def rowsOfLanes (words : Nat) (lane : Nat → Option (List (Word × Bool))) : List (Row × Mask) :=
  let got := laneList.map lane
  (List.range words).map fun k =>
    let cell (l : Nat) : Word × Bool := (((got.getD l none).getD []).getD k (0, false))
    (laneList.map fun l => (cell l).1, maskOf fun l => (cell l).2)

/-- The bytes of the datum of a lane (R241). -/
def Cx.datum (y : Cx) (x : MemArgs) (words : Nat) : Nat → List Byte :=
  let rows := (List.range words).map fun k => y.srcWide x.data k
  fun l => rows.flatMap fun r => leBytes 4 (wordAt r l).toNat

/-- A result goes to lane registers, or is pushed (R79, R203); `m` are the lanes that completed. -/
def Cx.resultDone (y : Cx) (s : State) (w : Warp) (dst : Spec) (m : Mask) (rows : List (Row × Mask)) (off : Mask) : Attempt :=
  match dst with
  | .q n =>
    .done (s.modWarp y.ref fun _ => w)
      { push := some ⟨n.val, (rows.getD 0 ([], 0)).1, m, (rows.getD 0 ([], 0)).2⟩, off }
  | dst =>
    let w := (List.range rows.length).foldl (fun w k =>
      let r := rows.getD k ([], 0)
      y.writeWide w dst k m r.1 r.2) w
    .done (s.modWarp y.ref fun _ => w) { off }

/-! ## Caches (R233, R235) -/

/-- The physical addresses at which an access touches lines. -/
def Leaf.linesOf (l : Leaf) (sib : Option Nat) (o : Nat) : List Nat :=
  match l.layout, sib with
  | .triple, some k => [l.phys (l.frameNo k) o]
  | .triple, none => [l.phys l.frame o, l.phys l.frame1 o, l.phys l.frame2 o]
  | .meanDigits, _ => [l.phys l.frame o, l.digitByte o]
  | .plain, _ => [l.phys l.frame o]

/-- An access leaves its translations and its lines in the caches: a leaf for each 8 bytes (R243). -/
def Cx.touch (y : Cx) (s : State) (l1 : Bool) (sib : Option Nat) (va : Nat) (leaves : List Leaf) : State :=
  leaves.zipIdx.foldl (fun s l =>
    (l.1.linesOf sib ((va + 8 * l.2) % addrSpace - l.1.va)).foldl (fun s pa => s.touchLine l1 y.core pa)
      (s.noteLeaf y.l.ctx l.1)) s

/-- R235, R258: what an acquire does to the caches. -/
def Cx.acquire (y : Cx) (s : State) (on : Bool) (sc : Scope) : State :=
  if on && scopeWide sc then s.invalidate y.core else s

/-! ## Atomic operations (R242) -/

/-- The new value at the location; `d` and `cmp` are the datum's parts. -/
def atomNew (aop : BitVec 4) (n old d cmp : Nat) : Nat :=
  let m := 2 ^ (8 * n)
  let signed (v : Nat) : Int := if 2 ^ 31 ≤ v then (v : Int) - 2 ^ 32 else v
  match aop.toNat with
  | 1 => (old + d) % m
  | 2 => if signed d < signed old then d else old
  | 3 => if signed old < signed d then d else old
  | 4 => min old d
  | 5 => max old d
  | 6 => old &&& d
  | 7 => old ||| d
  | 8 => old ^^^ d
  | 9 => d
  | 10 => if old == cmp then d else old
  | 11 => roundNear .fp32 (exactAdd .rne (Fmt.fp32.decode old) (Fmt.fp32.decode d))
  | _ => old

/-- Datum and comparand from the datum's bytes: `.cas` holds cmp first (R242). -/
def atomParts (aop : BitVec 4) (n : Nat) (bs : List Byte) : Nat × Nat :=
  if aop == 10 then (leNat ((bs.drop n).take n), leNat (bs.take n)) else (leNat (bs.take n), 0)

/-! ## Signatures (16 R423) -/

def crcBit (c : DWord) (b : Bool) : DWord :=
  let top := c.getLsbD 63 ^^ b
  let c := c <<< 1
  if top then c ^^^ 0x42F0_E1EB_A9EA_3693 else c

/-- CRC-64/ECMA-182 over bytes. -/
def crc64 (c : DWord) (bs : List Byte) : DWord :=
  bs.foldl (fun c b => [7, 6, 5, 4, 3, 2, 1, 0].foldl (fun c k => crcBit c (b.getLsbD k)) c) c

/-- One write in the signature of its warp. -/
def signWrite (c : DWord) (p : PWrite) : DWord := crc64 c (leBytes 8 p.pa ++ leBytes 1 p.data.length ++ p.data)

end Sys2Proof.Machine
end

