-- ==== Sys2Proof/Machine/Memory.lean ====
section
/-! DEFINITION. Class 0x7, memory access (09 R225 to R244; 15 R383, R384; 16 R419, R422 to R424). -/

namespace Sys2Proof.Machine

/-- R226, then R238 over the active lanes. -/
def Cx.access (y : Cx) (k : Acc4) (x : MemArgs) (go : Warp → List (Nat × Nat × List Leaf) → Attempt) : Attempt :=
  match y.agree (y.globalAddrs x) with
  | .error w => .trap w Cause.addrdis.trap 0
  | .ok (w, addrs) =>
    match y.checkLanes k addrs (MemArgs.size x) with
    | .error f => .fault f
    | .ok lanes => go w lanes

/-- The sibling number under which a lane accesses a page. -/
def Cx.sibOf (y : Cx) (l : Nat) : Option Nat := if y.triple then some (l % 3) else none

/-- The bytes of one part of a load, by mode and layout (R225). -/
def State.readPart (s : State) (ag : Agent) (sib : Option Nat) (p : Leaf × Nat × Nat) : List Byte × Bool :=
  match sib with
  | some k => s.readTriple ag p.1 (p.2.1 - p.1.va) p.2.2 k
  | none => s.readSingle ag p.1 (p.2.1 - p.1.va) p.2.2

/-! ## Loads -/

def execLd (c : Ctl) (x : MemArgs) (s : State) := issue (.ld c x) s fun y =>
  y.access .load x fun w lanes =>
    let n := MemArgs.size x
    let lane (l : Nat) : Option (List (Word × Bool)) := (lanes.find? (·.1 == l)).map fun a =>
      wordsOfParts n x.sx ((accessParts a.2.1 n a.2.2).map (y.s.readPart y.agent (y.sibOf l)))
    let s := lanes.foldl (fun s a => y.touch s true (y.sibOf a.1) a.2.1 a.2.2) y.s
    y.resultDone (y.acquire s (MemArgs.acquires x) (MemArgs.scope x)) w x.dst y.act (rowsOfLanes (MemArgs.words x) lane) 0

/-- The address of a uniform load. -/
def Cx.uniformAddr (y : Cx) (x : MemArgs) : Nat :=
  let base := match x.base with
    | .glob r => y.scal64 r
    | .slot _ => 0
  (((base.toNat : Int) + (((y.scal x.index).toNat * 2 ^ x.scl.toNat : Nat) : Int) + MemArgs.offset x) % (addrSpace : Int)).toNat

/-- R243: once for the warp, as a single-mode load. -/
def execLdu (c : Ctl) (x : MemArgs) (s : State) := issue (.ldu c x) s fun y =>
  let n := MemArgs.size x
  let va := y.uniformAddr x
  match y.s.checkLane y.l.ctx .load va n false with
  | .error (a, code, f) => .fault (y.memFault .load a code f y.act)
  | .ok leaves =>
    let ws := wordsOfParts n x.sx ((accessParts va n leaves).map (y.s.readPart y.agent none))
    let s := y.acquire (y.touch y.s true none va leaves) (MemArgs.acquires x) (MemArgs.scope x)
    let w := match x.dst with
      | .s k => (List.zip (List.range ws.length) ws).foldl (fun (w : Warp) e =>
          let w := w.setScalar (k.val + e.1) e.2.1
          if e.2.2 then { w with scalarPoison := (k.val + e.1) :: w.scalarPoison } else w) y.w
      | _ => y.w
    .done (s.modWarp y.ref fun _ => w) {}

/-! ## Stores -/

/-- The writes of a store in ascending lane order: leaf, address and write (R225, R226). -/
def Cx.storeWrites (y : Cx) (n : Nat) (datum : Nat → List Byte) (lanes : List (Nat × Nat × List Leaf)) :
    List (Leaf × Nat × PWrite) :=
  lanes.flatMap fun a =>
    let l := a.1
    let part (bs : List Byte) (k size : Nat) : List Byte := (bs.drop k).take size
    let step := min n 8
    (List.range (n / step)).flatMap fun k =>
      match a.2.2[k]? with
      | none => []
      | some leaf =>
        let o := (a.2.1 + k * step) % addrSpace - leaf.va
        let d (l : Nat) : List Byte := part (datum l) (k * step) step
        let ws :=
          if !y.triple then leaf.writeSingle o (d l) false
          else if l % 3 == 0 then leaf.writeTriple o (d l) (d (l + 1)) (d (l + 2))
          else []
        ws.map fun p => (leaf, a.2.1, p)

/-- The other copy of a warp of a paired launch (R422). -/
def twinOf (r : WarpRef) : WarpRef := { r with crew := { r.crew with shadow := !r.crew.shadow } }

/-- R424: what one crew may add to the hold: the leading copy waits when the hold is full, the lagging one has a reserve
of 1 MB. -/
inductive HoldRoom where
  | room | full | overflow

def Cx.holdRoom (y : Cx) (n : Nat) : HoldRoom :=
  let used := y.s.holdUsed y.die
  let twin := ((y.s.warp? (twinOf y.ref)).map (·.stores)).getD y.w.stores
  let own := y.l.hold.any fun h => h.crew == y.ref.crew && h.warp == y.ref.warp && h.store != 0
  if used + n ≤ holdSize then .room
  else if twin < y.w.stores || (twin == y.w.stores && own) then .full
  else if used + n ≤ holdSize + 0x10_0000 then .room
  else .overflow

/-- A warp waits at its compare point before it goes on (R424); `passed` is still false. -/
def Cx.comparePoint (y : Cx) : Attempt :=
  .block (y.s.modWarp y.ref fun w => { w with compare := some w.stores, passed := false }) .fence

/-- R424: the warp waits for room; it compares at the count of the lagging copy. -/
def Cx.fullHold (y : Cx) : Attempt :=
  .block (y.s.modWarp y.ref fun w => { w with compare := none, passed := false }) .fence

def wideRelease (sc : Scope) : Bool := sc == .dev || sc == .sys

/-- The writes of a store instruction reach memory or a hold, under its signature and store count (R423). -/
def Cx.performStore (y : Cx) (w : Warp) (ws : List (Leaf × Nat × PWrite)) : State × Warp :=
  let w := if y.l.paired then
      { w with sig := ws.foldl (fun c p => signWrite c p.2.2) w.sig, stores := w.stores + 1 } else w
  let s := ws.foldl (fun s p => s.launchWrite y.agent y.l.id p.1 ⟨y.ref, w.stores, w.sig⟩ p.2.2) y.s
  (s, w)

def execSt (c : Ctl) (x : MemArgs) (s : State) := issue (.st c x) s fun y =>
  y.access .store x fun w lanes =>
    let n := MemArgs.size x
    let ws := y.storeWrites n (y.datum x (MemArgs.words x)) lanes
    let bytes := (ws.map (·.2.2.data.length)).sum
    let put : Attempt :=
      let (s, w) := y.performStore w ws
      let s := if y.l.paired then s
        else lanes.foldl (fun s a => y.touch s true (y.sibOf a.1) a.2.1 a.2.2) s
      .done (s.modWarp y.ref fun _ => w)
        { point := y.l.paired && MemArgs.releases x && wideRelease (MemArgs.scope x) }
    if !y.l.paired then put
    else match y.holdRoom bytes with
      | .room => put
      | .full => y.fullHold
      | .overflow => .ends (y.s.endLaunch y.l.id 25)

/-! ## Global atomics -/

/-- One operation of an atomic: the lanes that receive the old value, and the leaf, page offset and frame it acts on. -/
structure AtomOp where
  recv : Mask
  leaf : Leaf
  off : Nat
  frame : Nat
  lane : Nat

/-- The operations of an atomic in ascending lane order (R225, R226). -/
def Cx.atomOps (y : Cx) (lanes : List (Nat × Nat × List Leaf)) : List AtomOp :=
  lanes.flatMap fun a =>
    let l := a.1
    let one : Mask := 1#48 <<< l
    match a.2.2 with
    | [] => []
    | leaf :: _ =>
      let op (recv : Mask) (k : Nat) : AtomOp := ⟨recv, leaf, a.2.1 - leaf.va, k, l⟩
      if !y.triple then
        (if leaf.layout == .triple then [op one 0, op 0 1, op 0 2] else [op one 0])
      else if leaf.layout == .triple then [op one (l % 3)]
      else if l % 3 == 0 then [op (7#48 <<< l) 0]
      else []

/-- Where an atomic's write goes: at a compare point of a paired launch past the pairing hold, and into the lines that the shadow's core
and die hold, else as a store does (R233, R234, R419, R424). -/
def Cx.atomWrite (y : Cx) (s : State) (l : Leaf) (p : PWrite) : State :=
  if y.l.paired then
    let s := if isDram p.pa then s.snapshot y.l.id l else s
    let s := s.openWrite y.agent y.l.id ⟨y.ref.crew, y.ref.warp, p.pa, p.data, p.bad, 0, 0⟩
    match (s.crew? (twinOf y.ref).crew).bind (·.core) with
    | some k => if isDram p.pa then s.setLines k p.pa p.data p.bad else s
    | none => s
  else s.launchWrite y.agent y.l.id l ⟨y.ref, y.w.stores, y.w.sig⟩ p

/-- The atomic at its home: the state after it and what each lane receives (R226, R234, R242). The location keeps its
poison under an operation that uses the old value. -/
def Cx.performAtom (y : Cx) (x : MemArgs) (lanes : List (Nat × Nat × List Leaf)) : State × List (Nat × List (Word × Bool)) :=
  let n := MemArgs.size x
  let aop := x.aop
  let datum := y.datum x (if aop == 10 then 2 * MemArgs.words x else MemArgs.words x)
  (y.atomOps lanes).foldl (fun (r : State × List (Nat × List (Word × Bool))) op =>
    let (s, got) := r
    let pa := op.leaf.phys (op.leaf.frameNo op.frame) op.off
    let parts := (List.range (n / 4)).map fun k => s.physRead { y.agent with core := none } (pa + 4 * k) 4
    let old := leNat (parts.flatMap (·.1))
    let bad := parts.any (·.2)
    let (d, cmp) := atomParts aop n (datum op.lane)
    let s := y.atomWrite s op.leaf ⟨pa, leBytes n (atomNew aop n old d cmp), bad && aop != 9⟩
    (s.noteLeaf y.l.ctx op.leaf, got ++ (maskLanes op.recv).map fun l => (l, wordsOfParts n false parts))) (y.s, [])

/-- A paired launch performs an atomic once, at a compare point of both copies: the primary leaves the old values with
the shadow, which waits for them, and for a `red` too (R424). -/
def Cx.pairedAtom (y : Cx) (x : MemArgs) (w : Warp) (lanes : List (Nat × Nat × List Leaf))
    (finish : State → Warp → List (Row × Mask) → Attempt) : Attempt :=
  if !y.w.passed then y.comparePoint
  else if y.ref.crew.shadow then
    match y.w.given with
    | none => .hold
    | some rows => finish y.s w (rows.map fun r => (r, 0))
  else
    let (s, got) := y.performAtom x lanes
    let rows := rowsOfLanes (MemArgs.words x) fun l => (got.find? (·.1 == l)).map (·.2)
    finish (s.modWarp (twinOf y.ref) fun t => { t with given := some (rows.map (·.1)) }) w rows

def Cx.atomic (y : Cx) (x : MemArgs) (k : Acc4) (reads : Bool) : Attempt :=
  y.access k x fun w lanes =>
    let finish (s : State) (w : Warp) (rows : List (Row × Mask)) : Attempt :=
      let s := y.acquire s (MemArgs.acquires x) (MemArgs.scope x)
      if reads then y.resultDone s w x.dst y.act rows 0 else .done (s.modWarp y.ref fun _ => w) {}
    if y.l.paired then y.pairedAtom x w lanes finish
    else
      let (s, got) := y.performAtom x lanes
      finish s w (rowsOfLanes (MemArgs.words x) fun l => (got.find? (·.1 == l)).map (·.2))

def execAtom (c : Ctl) (x : MemArgs) (s : State) := issue (.atom c x) s fun y => y.atomic x .atomic true

def execRed (c : Ctl) (x : MemArgs) (s : State) := issue (.red c x) s fun y => y.atomic x .reduce false

/-! ## Scratchpad -/

/-- R198: an access whose bytes touch a live descriptor. -/
def Crew.onDescriptor (c : Crew) (o n : Nat) : Bool :=
  c.queues.any fun q => o < c.queueBase q + 64 && c.queueBase q < o + n

/-- R228, R230: why a lane is switched off; 0 when it is not. -/
def laneCause (c : Crew) (g : Group) (off : Int) (n : Nat) (stores : Bool) : Nat :=
  if off < 0 || (g.size : Int) < off + n then 1
  else if off % (min n 8 : Nat) != 0 then 2
  else if stores && c.onDescriptor (g.base + off.toNat) n then 3
  else 0

/-- The lanes that complete, with their crew offsets, the lanes switched off, and the warp that records them. -/
def Cx.scratch (y : Cx) (x : MemArgs) (stores : Bool) (go : Warp → List (Nat × Nat) → Mask → Attempt) : Attempt :=
  let slot := match x.base with
    | .slot g => g.toNat
    | .glob _ => 0
  match y.c.slotGroup y.w slot with
  | none => .trap y.w 1 1
  | some (_, g) =>
    match y.agree (y.windowOffsets x) with
    | .error w => .trap w Cause.addrdis.trap 0
    | .ok (w, offs) =>
      let n := MemArgs.size x
      let tests := (maskLanes y.act).map fun l => (l, offs.getD l 0, laneCause y.c g (offs.getD l 0) n stores)
      let good := (tests.filter (·.2.2 == 0)).map fun t => (t.1, g.base + t.2.1.toNat)
      let off := maskOf fun l => tests.any fun t => t.1 == l && t.2.2 != 0
      let cause := tests.foldl (fun c t => if t.2.2 != 0 then t.2.2 else c) 0
      go (w.recordLaneFault off (BitVec.ofNat 3 cause)) good off

/-- R384: the race check of the words a warp accesses, in the order of its lanes; a conflict writes one record, for its lowest
lane. -/
def Cx.raceWords (y : Cx) (s : State) (store : Bool) (words : List Nat) : State :=
  if !y.l.race then s
  else
    let me := y.ref.warp
    let clash := words.findSome? fun k => y.c.races.find? fun r => r.word == k && r.writer != me && r.stamp == y.c.gen
    let s := if store then s.modCrew y.ref.crew fun c =>
        { c with races := (words.eraseDups.map fun k => RaceWord.mk k c.gen me) ++ c.races.filter fun r => !words.contains r.word }
      else s
    match clash with
    | none => s
    | some r =>
      let rec_ := sampleBytes s.clock.tick y.l.seq y.sp.pc (4 * y.core + y.w.quarter) y.w.slot
        (r.writer + (if store then 128 else 0)) y.ref.crew.crew 2 me r.word
      (s.sample y.l.ctx rec_).modLaunch y.l.id fun l => { l with races := l.races + 1 }

/-- The race check of `n` bytes of each lane. -/
def Cx.raceCheck (y : Cx) (s : State) (store : Bool) (lanes : List (Nat × Nat)) (n : Nat) : State :=
  y.raceWords s store (lanes.flatMap fun a => wordsOf a.2 n)

def goodMask (good : List (Nat × Nat)) : Mask := maskOf fun l => good.any (·.1 == l)

def execLds (c : Ctl) (x : MemArgs) (s : State) := issue (.lds c x) s fun y =>
  y.scratch x false fun w good off =>
    let n := MemArgs.size x
    let step := min n 4
    let lane (l : Nat) : Option (List (Word × Bool)) := (good.find? (·.1 == l)).map fun a =>
      wordsOfParts n x.sx ((List.range (n / step)).map fun k => y.c.scratchRead (a.2 + k * step) step)
    y.resultDone (y.raceCheck y.s false good n) w x.dst (goodMask good) (rowsOfLanes (MemArgs.words x) lane) off

/-- In triple mode a thread acts once, with sibling 0's operands (R229). -/
def Cx.leaders (y : Cx) (good : List (Nat × Nat)) : List (Nat × Nat) :=
  if y.triple then good.filter (·.1 % 3 == 0) else good

def execSts (c : Ctl) (x : MemArgs) (s : State) := issue (.sts c x) s fun y =>
  y.scratch x true fun w good off =>
    let n := MemArgs.size x
    let datum := y.datum x (MemArgs.words x)
    let lanes := y.leaders good
    let s := y.raceCheck y.s true lanes n
    let s := s.modCrew y.ref.crew fun c => lanes.foldl (fun c a => c.scratchWrite a.2 ((datum a.1).take n) false) c
    .done (s.modWarp y.ref fun _ => w) { off }

def execAtoms (c : Ctl) (x : MemArgs) (s : State) := issue (.atoms c x) s fun y =>
  y.scratch x true fun w good off =>
    let n := MemArgs.size x
    let aop := x.aop
    let datum := y.datum x (if aop == 10 then 2 * MemArgs.words x else MemArgs.words x)
    let (crew, got) := (y.leaders good).foldl (fun (r : Crew × List (Nat × List (Word × Bool))) a =>
      let (c, got) := r
      let parts := (List.range (n / 4)).map fun k => c.scratchRead (a.2 + 4 * k) 4
      let old := leNat (parts.flatMap (·.1))
      let (d, cmp) := atomParts aop n (datum a.1)
      let c := (c.scratchWrite a.2 (leBytes n (atomNew aop n old d cmp)) (parts.any (·.2) && aop != 9)).clearShadow a.2 n
      let recv := if y.triple then [a.1, a.1 + 1, a.1 + 2] else [a.1]
      (c, got ++ recv.map fun l => (l, wordsOfParts n false parts))) (y.c, [])
    let s := y.s.modCrew y.ref.crew fun _ => crew
    y.resultDone s w x.dst (goodMask good)
      (rowsOfLanes (MemArgs.words x) fun l => (got.find? (·.1 == l)).map (·.2)) off

/-! ## Cache hints (R244) -/

/-- The active lanes of a hint that would not fault, with address and leaf. -/
def Cx.hintLanes (y : Cx) (x : MemArgs) (go : Warp → List (Nat × Leaf) → Attempt) : Attempt :=
  match y.agree (y.globalAddrs x) with
  | .error w => .trap w Cause.addrdis.trap 0
  | .ok (w, addrs) =>
    go w ((maskLanes y.act).filterMap fun l =>
      let va := (addrs.getD l 0).toNat
      match y.s.translate y.l.ctx va with
      | .ok leaf => if leaf.spill then none else some (va, leaf)
      | .fault _ => none)

def execPref (c : Ctl) (x : MemArgs) (s : State) := issue (.pref c x) s fun y =>
  y.hintLanes x fun w lanes =>
    let s := lanes.foldl (fun s a => y.touch s (x.aop == 1) none a.1 [a.2]) y.s
    .done (s.modWarp y.ref fun _ => w) { flight := none }

/-- Drop the lines of these addresses. -/
def dropLines (pas : List Nat) (ls : List Line) : List Line := ls.filter fun l => !pas.any fun pa => pa / 128 == l.addr

def execCctl (c : Ctl) (x : MemArgs) (s : State) := issue (.cctl c x) s fun y =>
  y.hintLanes x fun w lanes =>
    let pas := lanes.flatMap fun a => a.2.linesOf none (a.1 - a.2.va)
    let s := y.s.modCore y.core fun k => { k with l1 := dropLines pas k.l1 }
    let s := if MemArgs.scope x == .die then s.modDie y.die fun d => { d with rdc := dropLines pas d.rdc } else s
    .done (s.modWarp y.ref fun _ => w) {}

end Sys2Proof.Machine
end

