-- ==== Sys2Proof/Decode.lean ====
section
/-! DEFINITION. From a 96-bit word to an instruction and back (02 R38 to R65). `parse` reads the fields of a word by
its opcode, `encode` writes a word's fields, and `decode` accepts a word when the term it parses to is legal and
encodes to exactly that word: so every field an instruction leaves unused must be zero (R63). -/

namespace Sys2Proof

/-- Why a word is no instruction (R63). Every one of them is the illegal-instruction trap with ARG 0. -/
inductive Reject where
  | opcode        -- CLASS 0xD to 0xF, or an unassigned OP
  | specifier     -- a specifier 0xF0 to 0xFF
  | tag           -- TY 0xF or a type tag with no meaning in this field
  | scope         -- scope code 0b111
  | condition     -- a condition code or a wait slot with no meaning
  | operand       -- an operand kind, a wide operand, a range or SETF that the instruction does not accept
  | unusedField   -- a nonzero value in a field that the instruction leaves unused
  | mode          -- legal in the other launch mode only (R64)
  deriving DecidableEq, Repr

/-! Codes of the field values -/

def Spec.code : Spec → BitVec 8
  | .v n => BitVec.ofNat 8 n.val
  | .s n => BitVec.ofNat 8 (0xC0 + n.val)
  | .q n => BitVec.ofNat 8 (0xE0 + n.val)
  | .vx k => BitVec.ofNat 8 (0xE8 + k.val)
  | .zero => 0xEC
  | .laneid => 0xED
  | .sib => 0xEE
  | .tid => 0xEF

/-- R54. -/
def Spec.ofCode (b : BitVec 8) : Except Reject Spec :=
  let n := b.toNat
  if h : n < 192 then .ok (.v ⟨n, h⟩)
  else if h : n - 192 < 32 then .ok (.s ⟨n - 192, h⟩)
  else if h : n - 224 < 8 then .ok (.q ⟨n - 224, h⟩)
  else if h : n - 232 < 4 then .ok (.vx ⟨n - 232, h⟩)
  else if n = 0xEC then .ok .zero
  else if n = 0xED then .ok .laneid
  else if n = 0xEE then .ok .sib
  else if n = 0xEF then .ok .tid
  else .error .specifier

def Ty.code : Ty → BitVec 4
  | .none => 0 | .i8 => 1 | .i16 => 2 | .i32 => 3 | .n8 => 4 | .n16 => 5 | .n32 => 6 | .f32 => 7
  | .f16 => 8 | .bf16 => 9 | .e4m3 => 10 | .e5m2 => 11 | .e2m1 => 12 | .i4 => 13 | .i3 => 14

/-- R57. -/
def Ty.ofCode (b : BitVec 4) : Except Reject Ty :=
  match b.toNat with
  | 0 => .ok .none | 1 => .ok .i8 | 2 => .ok .i16 | 3 => .ok .i32 | 4 => .ok .n8 | 5 => .ok .n16 | 6 => .ok .n32
  | 7 => .ok .f32 | 8 => .ok .f16 | 9 => .ok .bf16 | 10 => .ok .e4m3 | 11 => .ok .e5m2 | 12 => .ok .e2m1
  | 13 => .ok .i4 | 14 => .ok .i3 | _ => .error .tag

def Rm.code : Rm → BitVec 3
  | .none => 0 | .rne => 1 | .rz => 2 | .ru => 3 | .rd => 4 | .rna => 5 | .rsib => 6 | .rsto => 7

/-- R58. -/
def Rm.ofCode (b : BitVec 3) : Rm :=
  match b.toNat with
  | 0 => .none | 1 => .rne | 2 => .rz | 3 => .ru | 4 => .rd | 5 => .rna | 6 => .rsib | _ => .rsto

def Scope.code : Scope → BitVec 3
  | .warp => 0 | .group => 1 | .crew => 2 | .core => 3 | .die => 4 | .dev => 5 | .sys => 6

/-- R59. -/
def Scope.ofCode (b : BitVec 3) : Except Reject Scope :=
  match b.toNat with
  | 0 => .ok .warp | 1 => .ok .group | 2 => .ok .crew | 3 => .ok .core | 4 => .ok .die | 5 => .ok .dev
  | 6 => .ok .sys | _ => .error .scope

def Cc.code : Cc → BitVec 4
  | .eq => 0 | .ne => 1 | .lt => 2 | .le => 3 | .gt => 4 | .ge => 5

/-- R82. -/
def Cc.ofCode (b : BitVec 4) : Except Reject Cc :=
  match b.toNat with
  | 0 => .ok .eq | 1 => .ok .ne | 2 => .ok .lt | 3 => .ok .le | 4 => .ok .gt | 5 => .ok .ge | _ => .error .condition

def Fcc.code : Fcc → BitVec 4
  | .eq => 0 | .ne => 1 | .lt => 2 | .le => 3 | .gt => 4 | .ge => 5 | .un => 6 | .ord => 7

/-- R116. -/
def Fcc.ofCode (b : BitVec 4) : Except Reject Fcc :=
  match b.toNat with
  | 0 => .ok .eq | 1 => .ok .ne | 2 => .ok .lt | 3 => .ok .le | 4 => .ok .gt | 5 => .ok .ge | 6 => .ok .un
  | 7 => .ok .ord | _ => .error .condition

def Shuf.code : Shuf → BitVec 2
  | .idx => 0 | .up => 1 | .down => 2 | .xor => 3

/-- R81, SM. -/
def Shuf.ofCode (b : BitVec 2) : Shuf :=
  match b.toNat with
  | 0 => .idx | 1 => .up | 2 => .down | _ => .xor

/-- A one-bit field. -/
def bit1 (b : Bool) : BitVec 1 := BitVec.ofBool b

def Pred.code (p : Pred) : BitVec 4 := bit1 p.neg ++ p.p

def Pred.ofCode (b : BitVec 4) : Pred := ⟨b.getLsbD 3, b.extractLsb' 0 3⟩

/-- A predicate source in a specifier field: the upper four bits are zero (R83). -/
def Pred.code8 (p : Pred) : BitVec 8 := (0 : BitVec 4) ++ p.code

def Src2.regCode : Src2 → BitVec 8
  | .reg r => r.code
  | .imm _ => 0

def Src2.immCode : Src2 → BitVec 12
  | .reg _ => 0
  | .imm i => i

def Src2.isImm : Src2 → Bool
  | .reg _ => false
  | .imm _ => true

/-- The barrier byte BAR of R270, with its phase bit. -/
def BarName.code (b : BarName) (ph : Bool) : BitVec 8 := b.slot ++ b.bar ++ bit1 ph ++ (0 : BitVec 1)

def MemBase.code : MemBase → BitVec 8
  | .glob r => r.code
  | .slot g => (0 : BitVec 6) ++ g

def MemTail.code : MemTail → BitVec 20
  | .wide off => off
  | .narrow off aop sc => sc.code ++ aop ++ off

/-- R53: argument and kind of a condition slot. -/
def Cond.code : Cond → BitVec 11
  | .none => 0
  | .flag k => (0 : BitVec 4) ++ k ++ (1 : BitVec 3)
  | .phase b ph => b.code ph ++ (2 : BitVec 3)
  | .word cmp quad slot sp => cmp ++ quad ++ slot ++ bit1 sp ++ (3 : BitVec 3)
  | .queue q push => (0 : BitVec 4) ++ bit1 push ++ q ++ (4 : BitVec 3)
  | .grace k => (0 : BitVec 3) ++ k ++ (5 : BitVec 3)
  | .tick n => (0 : BitVec 4) ++ n ++ (6 : BitVec 3)

def Cond.ofCode (b : BitVec 11) : Except Reject Cond :=
  match (b.extractLsb' 0 3).toNat with
  | 0 => .ok .none
  | 1 => .ok (.flag (b.extractLsb' 3 4))
  | 2 => .ok (.phase ⟨b.extractLsb' 9 2, b.extractLsb' 5 4⟩ (b.getLsbD 4))
  | 3 => .ok (.word (b.extractLsb' 9 2) (b.extractLsb' 6 3) (b.extractLsb' 4 2) (b.getLsbD 3))
  | 4 => .ok (.queue (b.extractLsb' 3 3) (b.getLsbD 6))
  | 5 => .ok (.grace (b.extractLsb' 3 5))
  | 6 => .ok (.tick (b.extractLsb' 3 4))
  | _ => .error .condition

/-! The formats of R46 to R52 as words -/

/-- STALL, WAIT and SETF, bits 95:76 (R41). -/
def Ctl.high (c : Ctl) : BitVec 20 := c.setf ++ c.wait ++ c.stall

/-- Format L (R46). -/
def wordL (op : BitVec 12) (c : Ctl) (dst a b r : BitVec 8) (ty : BitVec 4) (rm : BitVec 3) (ops : BitVec 9)
    (imm : BitVec 12) : BitVec 96 :=
  c.high ++ imm ++ ops ++ rm ++ ty ++ r ++ b ++ a ++ c.guard.code ++ dst ++ op

/-- Format I (R47). -/
def wordI (op : BitVec 12) (c : Ctl) (dst a : BitVec 8) (imm : BitVec 32) (ty : BitVec 4) (scrm : BitVec 3)
    (ops : BitVec 5) : BitVec 96 :=
  c.high ++ ops ++ scrm ++ ty ++ imm ++ a ++ c.guard.code ++ dst ++ op

/-- Format M (R48, R49). -/
def wordM (op : BitVec 12) (c : Ctl) (dst base data index : BitVec 8) (sz : BitVec 3) (sx : Bool) (scl sem : BitVec 2)
    (tail : BitVec 20) : BitVec 96 :=
  c.high ++ tail ++ sem ++ scl ++ bit1 sx ++ sz ++ index ++ data ++ base ++ c.guard.code ++ dst ++ op

/-- Format B (R50); DST and OPS are zero throughout (R157). -/
def wordB (op : BitVec 12) (c : Ctl) (ct : BitVec 8) (off : BitVec 32) (shift : BitVec 5) : BitVec 96 :=
  c.high ++ (0 : BitVec 7) ++ shift ++ off ++ ct ++ c.guard.code ++ (0 : BitVec 8) ++ op

/-- Format T (R51). -/
def wordT (op : BitVec 12) (c : Ctl) (dst areg : BitVec 8) (ta tb : BitVec 3) (ac gs : BitVec 2) (mod : BitVec 14)
    (off : BitVec 20) : BitVec 96 :=
  c.high ++ off ++ mod ++ gs ++ ac ++ tb ++ ta ++ areg ++ c.guard.code ++ dst ++ op

/-- Format S (R52). -/
def wordS (op : BitVec 12) (c : Ctl) (dst : BitVec 8) (c0 c1 c2 c3 : BitVec 11) (all : Bool) (ts : BitVec 4)
    (tp : BitVec 3) : BitVec 96 :=
  c.high ++ tp ++ ts ++ bit1 all ++ c3 ++ c2 ++ c1 ++ c0 ++ c.guard.code ++ dst ++ op

/-! Encoding -/

/-- A second operand's IB bit below the other OPS bits of classes 0x0 and 0x1 (R81). -/
def opsIb (b : Src2) (rest : BitVec 8) : BitVec 9 := rest ++ bit1 b.isImm

def IntArgs.word (op : BitVec 12) (c : Ctl) (x : IntArgs) : BitVec 96 :=
  wordL op c x.dst.code x.a.code x.b.regCode x.c.code x.ty.code 0 (opsIb x.b ((0 : BitVec 7) ++ bit1 x.sat)) x.b.immCode

def FieldArgs.word (op : BitVec 12) (c : Ctl) (x : FieldArgs) : BitVec 96 :=
  wordL op c x.dst.code x.a.code x.b.code 0 x.ty.code 0 0 ((0 : BitVec 1) ++ x.wid ++ x.pos)

def SelArgs.word (op : BitVec 12) (c : Ctl) (x : SelArgs) : BitVec 96 :=
  wordL op c x.dst.code x.a.code x.b.regCode x.p.code8 0 0 (opsIb x.b 0) x.b.immCode

def UnArgs.word (op : BitVec 12) (c : Ctl) (x : UnArgs) : BitVec 96 :=
  wordL op c x.dst.code x.a.code 0 0 x.ty.code 0 0 0

/-- A predicate destination in DST (R83). -/
def predDst (p : BitVec 3) : BitVec 8 := (0 : BitVec 5) ++ p

def CmpArgs.word (op : BitVec 12) (c : Ctl) (x : CmpArgs) : BitVec 96 :=
  wordL op c (predDst x.p) x.a.code x.b.regCode 0 x.ty.code 0
    (opsIb x.b ((0 : BitVec 3) ++ x.cc.code ++ bit1 x.w64)) x.b.immCode

def LeaArgs.word (op : BitVec 12) (c : Ctl) (x : LeaArgs) : BitVec 96 :=
  wordL op c x.dst.code x.a.code x.b.code 0 x.ty.code 0 ((0 : BitVec 7) ++ x.sc) x.imm

def ScalArgs.word (op : BitVec 12) (c : Ctl) (x : ScalArgs) : BitVec 96 :=
  wordL op c x.dst.code x.a.code x.b.regCode 0 x.ty.code 0 (opsIb x.b ((0 : BitVec 7) ++ bit1 x.w64)) x.b.immCode

def FArgs.word (op : BitVec 12) (c : Ctl) (x : FArgs) : BitVec 96 :=
  wordL op c x.dst.code x.a.code x.b.code x.c.code x.ty.code x.rm.code
    ((0 : BitVec 6) ++ bit1 x.nc ++ bit1 x.nb ++ bit1 x.na) 0

def FcmpArgs.word (op : BitVec 12) (c : Ctl) (x : FcmpArgs) : BitVec 96 :=
  wordL op c (predDst x.p) x.a.code x.b.code 0 x.ty.code 0 ((0 : BitVec 5) ++ x.cc.code) 0

def CvtArgs.word (op : BitVec 12) (c : Ctl) (x : CvtArgs) : BitVec 96 :=
  wordL op c x.dst.code x.a.code 0 0 x.dty.code x.rm.code ((0 : BitVec 5) ++ x.sty.code) ((0 : BitVec 9) ++ x.elem)

def MemArgs.word (op : BitVec 12) (c : Ctl) (x : MemArgs) : BitVec 96 :=
  wordM op c x.dst.code x.base.code x.data.code x.index.code x.sz x.sx x.scl x.sem x.tail.code

def WaitArgs.word (op : BitVec 12) (c : Ctl) (x : WaitArgs) : BitVec 96 :=
  wordS op c x.dst.code x.c0.code x.c1.code x.c2.code x.c3.code x.all x.ts x.tp

/-- R300: DIR, PM and SP. -/
def CopyArgs.word (op : BitVec 12) (c : Ctl) (x : CopyArgs) (dir sp : Bool) : BitVec 96 :=
  wordL op c x.dst.code x.oct.code 0 0 0 0 ((0 : BitVec 6) ++ bit1 sp ++ bit1 x.pm ++ bit1 dir)
    ((0 : BitVec 4) ++ x.bar.code false)

def TileMemArgs.word (op : BitVec 12) (c : Ctl) (x : TileMemArgs) : BitVec 96 :=
  wordT op c 0 x.a.code x.tile 0 0 x.slot ((0 : BitVec 12) ++ x.src) x.off

def MmaArgs.word (op : BitVec 12) (c : Ctl) (x : MmaArgs) : BitVec 96 :=
  wordT op c 0 0 x.ta x.tb x.acc x.slot 0 0

def AccMemArgs.word (op : BitVec 12) (c : Ctl) (x : AccMemArgs) : BitVec 96 :=
  wordT op c 0 x.a.code 0 0 x.acc x.slot ((0 : BitVec 13) ++ bit1 x.all) x.off

/-- A fence: KIND in bits 73:71, the scope in SCRM (R270). -/
def fenceWord (c : Ctl) (kind : BitVec 3) (scrm : BitVec 3) : BitVec 96 :=
  wordI 0x800 c 0 0 0 0 scrm ((0 : BitVec 2) ++ kind)

/-- A word with no operand. -/
def bareL (op : BitVec 12) (c : Ctl) : BitVec 96 := wordL op c 0 0 0 0 0 0 0 0

/-- A queue name in a specifier field (R213). -/
def qCode (q : BitVec 3) : BitVec 8 := (0x1C : BitVec 5) ++ q

/-- The word of an instruction; an event has none and gives 0, which is no instruction's word by itself. -/
def encode : Instr → BitVec 96
  | .iadd c x => x.word 0x000 c
  | .isub c x => x.word 0x001 c
  | .imul c x => x.word 0x002 c
  | .imulh c x => x.word 0x003 c
  | .imad c x => x.word 0x004 c
  | .imin c x => x.word 0x005 c
  | .imax c x => x.word 0x006 c
  | .iabs c x => x.word 0x007 c
  | .and c x => x.word 0x008 c
  | .or c x => x.word 0x009 c
  | .xor c x => x.word 0x00A c
  | .andn c x => x.word 0x00B c
  | .shl c x => x.word 0x00C c
  | .shr c x => x.word 0x00D c
  | .sar c x => x.word 0x00E c
  | .rot c x => x.word 0x00F c
  | .popc c x => x.word 0x010 c
  | .clz c x => x.word 0x011 c
  | .bfx c x => x.word 0x012 c
  | .bfi c x => x.word 0x013 c
  | .sel c x => x.word 0x014 c
  | .mov c dst a => wordL 0x015 c dst.code a.code 0 0 0 0 0 0
  | .movi c dst imm => wordI 0x016 c dst.code 0 imm 0 0 0
  | .icmp c x => x.word 0x017 c
  | .lea c x => x.word 0x018 c
  | .sxt c x => x.word 0x019 c
  | .sadd c x => x.word 0x100 c
  | .ssub c x => x.word 0x101 c
  | .smul c x => x.word 0x102 c
  | .sand c x => x.word 0x103 c
  | .sor c x => x.word 0x104 c
  | .sxor c x => x.word 0x105 c
  | .sshl c x => x.word 0x106 c
  | .sshr c x => x.word 0x107 c
  | .smov c x => x.word 0x108 c
  | .smovi c dst imm => wordI 0x109 c dst.code 0 imm 0 0 0
  | .scmp c x => x.word 0x10A c
  | .slea c x => x.word 0x10B c
  | .bcast c dst a k => wordL 0x10C c dst.code a.code k.regCode 0 0 0 (opsIb k 0) k.immCode
  | .rdlane c dst a k => wordL 0x10D c dst.code a.code k.regCode 0 0 0 (opsIb k 0) k.immCode
  | .voteAny c p q => wordL 0x10E c (predDst p) q.code8 0 0 0 0 0 0
  | .voteAll c p q => wordL 0x10E c (predDst p) q.code8 0 0 0 0 1 0
  | .voteBallot c dst q => wordL 0x10E c dst.code q.code8 0 0 0 0 2 0
  | .shfl c sm dst a b => wordL 0x10F c dst.code a.code b.regCode 0 0 0 (opsIb b ((0 : BitVec 6) ++ sm.code)) b.immCode
  | .elect c dst ep => wordL 0x110 c dst.code 0 0 0 0 0 ((0 : BitVec 6) ++ ep) 0
  | .fadd c x => x.word 0x200 c
  | .fsub c x => x.word 0x201 c
  | .fmul c x => x.word 0x202 c
  | .ffma c x => x.word 0x203 c
  | .fmin c x => x.word 0x204 c
  | .fmax c x => x.word 0x205 c
  | .fcmp c x => x.word 0x206 c
  | .fdiv c x => x.word 0x207 c
  | .fsqrt c x => x.word 0x208 c
  | .frcp c x => x.word 0x209 c
  | .frsq c x => x.word 0x20A c
  | .fexp2 c x => x.word 0x20B c
  | .flog2 c x => x.word 0x20C c
  | .fclass c x => x.word 0x20D c
  | .frnd c x => x.word 0x20E c
  | .hadd2 c x => x.word 0x20F c
  | .hmul2 c x => x.word 0x210 c
  | .hfma2 c x => x.word 0x211 c
  | .cvt c x => x.word 0x212 c
  | .sibmodeNear c => wordL 0x300 c 0 0 0 0 0 0 1 0
  | .sibmodeRand c => bareL 0x300 c
  | .digits c x => x.word 0x301 c
  | .smean c x => x.word 0x302 c
  | .mdpack c x => x.word 0x307 c
  | .mdunpack c x => x.word 0x308 c
  | .sibget c dst a k => wordL 0x303 c dst.code a.code 0 0 0 0 0 ((0 : BitVec 10) ++ k)
  | .sibagree c ty p a => wordL 0x304 c (predDst p) a.code 0 0 ty.code 0 0 0
  | .nchk c ty p a n => wordL 0x305 c (predDst p) a.code n.regCode 0 ty.code 0 (opsIb n 0) n.immCode
  | .rand c ty same w64 dst => wordL 0x306 c dst.code 0 0 0 ty.code 0 ((0 : BitVec 7) ++ bit1 w64 ++ bit1 same) 0
  | .bra c p off => wordB 0x400 c p.code8 off 0
  | .bru c p off => wordB 0x401 c p.code8 off 0
  | .brx c a off => wordB 0x402 c a.code off 0
  | .call c off shift => wordB 0x403 c 0 off shift
  | .callx c a off shift => wordB 0x404 c a.code off shift
  | .ret c => wordB 0x405 c 0 0 0
  | .exit c => wordB 0x406 c 0 0 0
  | .join c => wordB 0x407 c 0 0 0
  | .yield c => wordB 0x408 c 0 0 0
  | .nop c => wordB 0x409 c 0 0 0
  | .rclaim c n => wordI 0x500 c 0 0 n 0 0 0
  | .rrelease c n => wordI 0x501 c 0 0 n 0 0 0
  | .rpool c dst k => wordI 0x502 c dst.code 0 k 0 0 0
  | .wdepth c dst k => wordI 0x504 c dst.code 0 k 0 0 0
  | .wflush c => wordI 0x503 c 0 0 0 0 0 0
  | .xset c k a lim => wordI 0x505 c 0 a.code lim 0 0 ((0 : BitVec 3) ++ k)
  | .xadd c k a ib imm => wordI 0x506 c 0 a.code imm 0 0 ((0 : BitVec 2) ++ bit1 ib ++ k)
  | .qmap c q g r off => wordM 0x600 c (qCode q) ((0 : BitVec 6) ++ g) 0 0xEC 0 false r 0 off
  | .qunmap c q => wordL 0x601 c 0 (qCode q) 0 0 0 0 0 0
  | .qpush c q a wh => wordL 0x602 c 0 (qCode q) a.code 0 0 0 ((0 : BitVec 3) ++ bit1 wh ++ (0 : BitVec 5)) 0
  | .qpop c dst q s p => wordL 0x603 c dst.code (qCode q) 0 0 0 0 ((0 : BitVec 5) ++ bit1 s ++ p) 0
  | .qtryPop c p dst q => wordL 0x604 c dst.code (qCode q) 0 0 0 0 ((0 : BitVec 6) ++ p) 0
  | .qtryPush c p q a => wordL 0x604 c 0 (qCode q) a.code 0 0 0 ((0 : BitVec 4) ++ (2 : BitVec 2) ++ p) 0
  | .qclose c q => wordL 0x605 c 0 (qCode q) 0 0 0 0 0 0
  | .qstat c dst q k => wordL 0x606 c dst.code (qCode q) 0 0 0 0 0 k
  | .refill c dst q p wt => wordL 0x607 c dst.code (qCode q) 0 0 0 0 ((0 : BitVec 2) ++ bit1 wt ++ (0 : BitVec 3) ++ p) 0
  | .ld c x => x.word 0x700 c
  | .st c x => x.word 0x701 c
  | .lds c x => x.word 0x702 c
  | .sts c x => x.word 0x703 c
  | .ldu c x => x.word 0x704 c
  | .atom c x => x.word 0x705 c
  | .atoms c x => x.word 0x706 c
  | .red c x => x.word 0x707 c
  | .pref c x => x.word 0x708 c
  | .cctl c x => x.word 0x709 c
  | .fenceAcq c sc => fenceWord c 0 sc.code
  | .fenceRel c sc => fenceWord c 1 sc.code
  | .fenceAcqrel c sc => fenceWord c 2 sc.code
  | .fenceSc c sc => fenceWord c 3 sc.code
  | .fenceAsync c => fenceWord c 4 0
  | .barinit c b n => wordI 0x801 c 0 0 ((0 : BitVec 17) ++ n ++ b.code false) 0 0 0
  | .barinitInv c b => wordI 0x801 c 0 0 ((0 : BitVec 24) ++ b.code false) 0 0 1
  | .bararr c b => wordI 0x802 c 0 0 ((0 : BitVec 24) ++ b.code false) 0 0 0
  | .barwait c b ph => wordI 0x803 c 0 0 ((0 : BitVec 24) ++ b.code ph) 0 0 0
  | .bartx c b a ib imm => wordI 0x804 c 0 a.code (imm ++ b.code false) 0 0 ((0 : BitVec 4) ++ bit1 ib)
  | .wait c x => x.word 0x805 c
  | .rdenter c => bareL 0x900 c
  | .rdexit c => bareL 0x901 c
  | .gstart c dst => wordL 0x902 c dst.code 0 0 0 0 0 0 0
  | .gsync c dst => wordL 0x903 c dst.code 0 0 0 0 0 0 0
  | .dfree c a len q => wordL 0x904 c 0 a.code len.code (qCode q) 0 0 0 0
  | .gstat c dst k => wordL 0x905 c dst.code 0 0 0 0 0 0 k
  | .cpyLoad c x => x.word 0xA00 c false false
  | .cpyStore c x => x.word 0xA00 c true false
  | .cpytLoad c x => x.word 0xA01 c false false
  | .cpytStore c x => x.word 0xA01 c true false
  | .cpyfLoad c x => x.word 0xA03 c false false
  | .cpyfStore c x => x.word 0xA03 c true false
  | .cpym c x sp => x.word 0xA02 c false sp
  | .cpycan c dst h => wordL 0xA04 c dst.code h.code 0 0 0 0 0 0
  | .tctl c g t a imm => wordT 0xB00 c 0 a.code t 0 0 g 0 imm
  | .tld c x => x.word 0xB01 c
  | .tst c x => x.word 0xB02 c
  | .mma c x => x.word 0xB03 c
  | .mdist c x => x.word 0xB04 c
  | .azero c g a => wordT 0xB05 c 0 0 0 0 a g 0 0
  | .ard c dst e g a ps raw => wordT 0xB06 c dst.code e.code 0 0 a g ((0 : BitVec 11) ++ bit1 raw ++ ps) 0
  | .acvt c g t a ps => wordT 0xB07 c 0 0 t 0 a g ((0 : BitVec 12) ++ ps) 0
  | .atopk c g a r k ini mn => wordT 0xB08 c 0 r.code 0 0 a g ((0 : BitVec 7) ++ bit1 mn ++ bit1 ini ++ k) 0
  | .asave c x => x.word 0xB09 c
  | .arest c x => x.word 0xB0A c
  | .trap c n => wordI 0xC00 c 0 0 n 0 0 0
  | .rtt c => wordI 0xC01 c 0 0 0 0 0 0
  | .ctlrd c dst n => wordI 0xC02 c dst.code 0 n 0 0 0
  | .ctlwr c n a => wordI 0xC03 c 0 a.code n 0 0 0
  | .clockTick c dst => wordI 0xC04 c dst.code 0 0 0 0 0
  | .clockCyc c dst => wordI 0xC04 c dst.code 0 0 0 0 1
  | .brk c => wordI 0xC05 c 0 0 0 0 0 0
  | .mark c a sr imm => wordI 0xC06 c 0 a.code imm 0 0 ((0 : BitVec 4) ++ bit1 sr)
  | _ => 0

/-! Fields of a word -/

/-- `n` bits of a word from bit `lo`. -/
def fld (w : BitVec 96) (lo n : Nat) : BitVec n := w.extractLsb' lo n

def parseCtl (w : BitVec 96) : Ctl := ⟨Pred.ofCode (fld w 20 4), fld w 76 4, fld w 80 12, fld w 92 4⟩
def dst (w : BitVec 96) : Except Reject Spec := Spec.ofCode (fld w 12 8)
def srcA (w : BitVec 96) : Except Reject Spec := Spec.ofCode (fld w 24 8)
def srcB (w : BitVec 96) : Except Reject Spec := Spec.ofCode (fld w 32 8)
def srcC (w : BitVec 96) : Except Reject Spec := Spec.ofCode (fld w 40 8)
def imm12 (w : BitVec 96) : BitVec 12 := fld w 64 12
def imm32 (w : BitVec 96) : BitVec 32 := fld w 32 32
def tyL (w : BitVec 96) : Except Reject Ty := Ty.ofCode (fld w 48 4)
def predC (w : BitVec 96) : Pred := Pred.ofCode (fld w 40 4)
def barI (w : BitVec 96) : BarName := ⟨fld w 38 2, fld w 34 4⟩

/-- SRCB, or IMM12 under IB (R81). -/
def src2 (w : BitVec 96) : Except Reject Src2 :=
  if w.getLsbD 55 then .ok (.imm (imm12 w)) else (srcB w).map .reg

def parseInt (w : BitVec 96) : Except Reject IntArgs := do
  return ⟨← tyL w, w.getLsbD 56, ← dst w, ← srcA w, ← src2 w, ← srcC w⟩

def parseField (w : BitVec 96) : Except Reject FieldArgs := do
  return ⟨← tyL w, ← dst w, ← srcA w, ← srcB w, fld w 64 5, fld w 69 6⟩

def parseUn (w : BitVec 96) : Except Reject UnArgs := do
  return ⟨← tyL w, ← dst w, ← srcA w⟩

def parseCmp (w : BitVec 96) : Except Reject CmpArgs := do
  return ⟨← tyL w, w.getLsbD 56, ← Cc.ofCode (fld w 57 4), fld w 12 3, ← srcA w, ← src2 w⟩

def parseLea (w : BitVec 96) : Except Reject LeaArgs := do
  return ⟨← tyL w, fld w 55 2, ← dst w, ← srcA w, ← srcB w, imm12 w⟩

def parseScal (w : BitVec 96) : Except Reject ScalArgs := do
  return ⟨← tyL w, w.getLsbD 56, ← dst w, ← srcA w, ← src2 w⟩

def parseVote (c : Ctl) (w : BitVec 96) : Except Reject Instr :=
  let q := Pred.ofCode (fld w 24 4)
  match (fld w 55 2).toNat with
  | 0 => .ok (.voteAny c (fld w 12 3) q)
  | 1 => .ok (.voteAll c (fld w 12 3) q)
  | 2 => (dst w).map (.voteBallot c · q)
  | _ => .error .condition

def parseF (w : BitVec 96) : Except Reject FArgs := do
  return ⟨← tyL w, Rm.ofCode (fld w 52 3), ← dst w, ← srcA w, ← srcB w, ← srcC w,
    w.getLsbD 55, w.getLsbD 56, w.getLsbD 57⟩

def parseFcmp (w : BitVec 96) : Except Reject FcmpArgs := do
  return ⟨← tyL w, ← Fcc.ofCode (fld w 55 4), fld w 12 3, ← srcA w, ← srcB w⟩

def parseCvt (w : BitVec 96) : Except Reject CvtArgs := do
  return ⟨← tyL w, ← Ty.ofCode (fld w 55 4), Rm.ofCode (fld w 52 3), ← dst w, ← srcA w, fld w 64 3⟩

/-- R49: the tail is OFF20 in a relaxed plain access, else OFF13, AOP and SCOPE. -/
def parseTail (w : BitVec 96) (narrow : Bool) : Except Reject MemTail :=
  if narrow || fld w 54 2 != 0 then
    (Scope.ofCode (fld w 73 3)).map (.narrow (fld w 56 13) (fld w 69 4))
  else .ok (.wide (fld w 56 20))

def parseMem (w : BitVec 96) (scratch narrow : Bool) : Except Reject MemArgs := do
  let base ← if scratch then pure (MemBase.slot (fld w 24 2)) else (srcA w).map .glob
  return ⟨← dst w, base, ← srcB w, ← srcC w, fld w 48 3, w.getLsbD 51, fld w 52 2, fld w 54 2, ← parseTail w narrow⟩

def parseFence (c : Ctl) (w : BitVec 96) : Except Reject Instr :=
  match (fld w 71 3).toNat with
  | 0 => (Scope.ofCode (fld w 68 3)).map (.fenceAcq c)
  | 1 => (Scope.ofCode (fld w 68 3)).map (.fenceRel c)
  | 2 => (Scope.ofCode (fld w 68 3)).map (.fenceAcqrel c)
  | 3 => (Scope.ofCode (fld w 68 3)).map (.fenceSc c)
  | 4 => .ok (.fenceAsync c)
  | _ => .error .condition

def parseWait (w : BitVec 96) : Except Reject WaitArgs := do
  return ⟨← dst w, ← Cond.ofCode (fld w 24 11), ← Cond.ofCode (fld w 35 11), ← Cond.ofCode (fld w 46 11),
    ← Cond.ofCode (fld w 57 11), w.getLsbD 68, fld w 69 4, fld w 73 3⟩

def parseCopy (w : BitVec 96) : Except Reject CopyArgs := do
  return ⟨← dst w, ← srcA w, ⟨fld w 70 2, fld w 66 4⟩, w.getLsbD 56⟩

def parseTile (w : BitVec 96) : Except Reject TileMemArgs := do
  return ⟨fld w 32 3, fld w 40 2, ← srcA w, fld w 56 20, fld w 42 2⟩

/-- The term a word's opcode and fields give (R62); legality is `decode`'s. -/
def parse (w : BitVec 96) : Except Reject Instr := do
  let c := parseCtl w
  match (fld w 0 12).toNat with
  | 0x000 => return .iadd c (← parseInt w)
  | 0x001 => return .isub c (← parseInt w)
  | 0x002 => return .imul c (← parseInt w)
  | 0x003 => return .imulh c (← parseInt w)
  | 0x004 => return .imad c (← parseInt w)
  | 0x005 => return .imin c (← parseInt w)
  | 0x006 => return .imax c (← parseInt w)
  | 0x007 => return .iabs c (← parseInt w)
  | 0x008 => return .and c (← parseInt w)
  | 0x009 => return .or c (← parseInt w)
  | 0x00A => return .xor c (← parseInt w)
  | 0x00B => return .andn c (← parseInt w)
  | 0x00C => return .shl c (← parseInt w)
  | 0x00D => return .shr c (← parseInt w)
  | 0x00E => return .sar c (← parseInt w)
  | 0x00F => return .rot c (← parseInt w)
  | 0x010 => return .popc c (← parseInt w)
  | 0x011 => return .clz c (← parseInt w)
  | 0x012 => return .bfx c (← parseField w)
  | 0x013 => return .bfi c (← parseField w)
  | 0x014 => return .sel c ⟨← dst w, ← srcA w, ← src2 w, predC w⟩
  | 0x015 => return .mov c (← dst w) (← srcA w)
  | 0x016 => return .movi c (← dst w) (imm32 w)
  | 0x017 => return .icmp c (← parseCmp w)
  | 0x018 => return .lea c (← parseLea w)
  | 0x019 => return .sxt c (← parseUn w)
  | 0x100 => return .sadd c (← parseScal w)
  | 0x101 => return .ssub c (← parseScal w)
  | 0x102 => return .smul c (← parseScal w)
  | 0x103 => return .sand c (← parseScal w)
  | 0x104 => return .sor c (← parseScal w)
  | 0x105 => return .sxor c (← parseScal w)
  | 0x106 => return .sshl c (← parseScal w)
  | 0x107 => return .sshr c (← parseScal w)
  | 0x108 => return .smov c (← parseScal w)
  | 0x109 => return .smovi c (← dst w) (imm32 w)
  | 0x10A => return .scmp c (← parseCmp w)
  | 0x10B => return .slea c (← parseLea w)
  | 0x10C => return .bcast c (← dst w) (← srcA w) (← src2 w)
  | 0x10D => return .rdlane c (← dst w) (← srcA w) (← src2 w)
  | 0x10E => parseVote c w
  | 0x10F => return .shfl c (Shuf.ofCode (fld w 56 2)) (← dst w) (← srcA w) (← src2 w)
  | 0x110 => return .elect c (← dst w) (fld w 55 3)
  | 0x200 => return .fadd c (← parseF w)
  | 0x201 => return .fsub c (← parseF w)
  | 0x202 => return .fmul c (← parseF w)
  | 0x203 => return .ffma c (← parseF w)
  | 0x204 => return .fmin c (← parseF w)
  | 0x205 => return .fmax c (← parseF w)
  | 0x206 => return .fcmp c (← parseFcmp w)
  | 0x207 => return .fdiv c (← parseF w)
  | 0x208 => return .fsqrt c (← parseF w)
  | 0x209 => return .frcp c (← parseF w)
  | 0x20A => return .frsq c (← parseF w)
  | 0x20B => return .fexp2 c (← parseF w)
  | 0x20C => return .flog2 c (← parseF w)
  | 0x20D => return .fclass c (← parseF w)
  | 0x20E => return .frnd c (← parseF w)
  | 0x20F => return .hadd2 c (← parseF w)
  | 0x210 => return .hmul2 c (← parseF w)
  | 0x211 => return .hfma2 c (← parseF w)
  | 0x212 => return .cvt c (← parseCvt w)
  | 0x300 => return (if w.getLsbD 55 then .sibmodeNear c else .sibmodeRand c)
  | 0x301 => return .digits c (← parseUn w)
  | 0x302 => return .smean c (← parseUn w)
  | 0x307 => return .mdpack c (← parseUn w)
  | 0x308 => return .mdunpack c (← parseUn w)
  | 0x303 => return .sibget c (← dst w) (← srcA w) (fld w 64 2)
  | 0x304 => return .sibagree c (← tyL w) (fld w 12 3) (← srcA w)
  | 0x305 => return .nchk c (← tyL w) (fld w 12 3) (← srcA w) (← src2 w)
  | 0x306 => return .rand c (← tyL w) (w.getLsbD 55) (w.getLsbD 56) (← dst w)
  | 0x400 => return .bra c (Pred.ofCode (fld w 24 4)) (imm32 w)
  | 0x401 => return .bru c (Pred.ofCode (fld w 24 4)) (imm32 w)
  | 0x402 => return .brx c (← srcA w) (imm32 w)
  | 0x403 => return .call c (imm32 w) (fld w 64 5)
  | 0x404 => return .callx c (← srcA w) (imm32 w) (fld w 64 5)
  | 0x405 => return .ret c
  | 0x406 => return .exit c
  | 0x407 => return .join c
  | 0x408 => return .yield c
  | 0x409 => return .nop c
  | 0x500 => return .rclaim c (imm32 w)
  | 0x501 => return .rrelease c (imm32 w)
  | 0x502 => return .rpool c (← dst w) (imm32 w)
  | 0x504 => return .wdepth c (← dst w) (imm32 w)
  | 0x503 => return .wflush c
  | 0x505 => return .xset c (fld w 71 2) (← srcA w) (imm32 w)
  | 0x506 => return .xadd c (fld w 71 2) (← srcA w) (w.getLsbD 73) (imm32 w)
  | 0x600 => return .qmap c (fld w 12 3) (fld w 24 2) (fld w 52 2) (fld w 56 20)
  | 0x601 => return .qunmap c (fld w 24 3)
  | 0x602 => return .qpush c (fld w 24 3) (← srcB w) (w.getLsbD 60)
  | 0x603 => return .qpop c (← dst w) (fld w 24 3) (w.getLsbD 58) (fld w 55 3)
  | 0x604 => if w.getLsbD 59 then return .qtryPush c (fld w 55 3) (fld w 24 3) (← srcB w) else return .qtryPop c (fld w 55 3) (← dst w) (fld w 24 3)
  | 0x605 => return .qclose c (fld w 24 3)
  | 0x606 => return .qstat c (← dst w) (fld w 24 3) (fld w 64 12)
  | 0x607 => return .refill c (← dst w) (fld w 24 3) (fld w 55 3) (w.getLsbD 61)
  | 0x700 => return .ld c (← parseMem w false false)
  | 0x701 => return .st c (← parseMem w false false)
  | 0x702 => return .lds c (← parseMem w true false)
  | 0x703 => return .sts c (← parseMem w true false)
  | 0x704 => return .ldu c (← parseMem w false false)
  | 0x705 => return .atom c (← parseMem w false true)
  | 0x706 => return .atoms c (← parseMem w true true)
  | 0x707 => return .red c (← parseMem w false true)
  | 0x708 => return .pref c (← parseMem w false true)
  | 0x709 => return .cctl c (← parseMem w false true)
  | 0x800 => parseFence c w
  | 0x801 => return (if w.getLsbD 71 then .barinitInv c (barI w) else .barinit c (barI w) (fld w 40 7))
  | 0x802 => return .bararr c (barI w)
  | 0x803 => return .barwait c (barI w) (w.getLsbD 33)
  | 0x804 => return .bartx c (barI w) (← srcA w) (w.getLsbD 71) (fld w 40 24)
  | 0x805 => return .wait c (← parseWait w)
  | 0x900 => return .rdenter c
  | 0x901 => return .rdexit c
  | 0x902 => return .gstart c (← dst w)
  | 0x903 => return .gsync c (← dst w)
  | 0x904 => return .dfree c (← srcA w) (← srcB w) (fld w 40 3)
  | 0x905 => return .gstat c (← dst w) (fld w 64 12)
  | 0xA00 => do let x ← parseCopy w; return if w.getLsbD 55 then .cpyStore c x else .cpyLoad c x
  | 0xA01 => do let x ← parseCopy w; return if w.getLsbD 55 then .cpytStore c x else .cpytLoad c x
  | 0xA03 => do let x ← parseCopy w; return if w.getLsbD 55 then .cpyfStore c x else .cpyfLoad c x
  | 0xA02 => return .cpym c (← parseCopy w) (w.getLsbD 57)
  | 0xA04 => return .cpycan c (← dst w) (← srcA w)
  | 0xB00 => return .tctl c (fld w 40 2) (fld w 32 3) (← srcA w) (fld w 56 20)
  | 0xB01 => return .tld c (← parseTile w)
  | 0xB02 => return .tst c (← parseTile w)
  | 0xB03 => return .mma c ⟨fld w 40 2, fld w 38 2, fld w 32 3, fld w 35 3⟩
  | 0xB04 => return .mdist c ⟨fld w 40 2, fld w 38 2, fld w 32 3, fld w 35 3⟩
  | 0xB05 => return .azero c (fld w 40 2) (fld w 38 2)
  | 0xB06 => return .ard c (← dst w) (← srcA w) (fld w 40 2) (fld w 38 2) (fld w 42 2) (w.getLsbD 44)
  | 0xB07 => return .acvt c (fld w 40 2) (fld w 32 3) (fld w 38 2) (fld w 42 2)
  | 0xB08 => return .atopk c (fld w 40 2) (fld w 38 2) (← srcA w) (fld w 42 5) (w.getLsbD 47) (w.getLsbD 48)
  | 0xB09 => return .asave c ⟨fld w 40 2, fld w 38 2, ← srcA w, fld w 56 20, w.getLsbD 42⟩
  | 0xB0A => return .arest c ⟨fld w 40 2, fld w 38 2, ← srcA w, fld w 56 20, w.getLsbD 42⟩
  | 0xC00 => return .trap c (imm32 w)
  | 0xC01 => return .rtt c
  | 0xC02 => return .ctlrd c (← dst w) (imm32 w)
  | 0xC03 => return .ctlwr c (imm32 w) (← srcA w)
  | 0xC04 => do let d ← dst w; return if w.getLsbD 71 then .clockCyc c d else .clockTick c d
  | 0xC05 => return .brk c
  | 0xC06 => return .mark c (← srcA w) (w.getLsbD 71) (imm32 w)
  | _ => .error .opcode

/-- R63: a word is an instruction when its fields give a legal term that encodes to exactly this word. -/
def decode (w : BitVec 96) : Except Reject Instr :=
  match parse w with
  | .error e => .error e
  | .ok i =>
    if !i.wf then .error .operand
    else if encode i != w then .error .unusedField
    else .ok i

/-- R64: decoding in a launch of a given mode. -/
def decodeIn (triple : Bool) (w : BitVec 96) : Except Reject Instr :=
  match decode w with
  | .error e => .error e
  | .ok i => if i.modeOk triple then .ok i else .error .mode

/-- R38: twelve bytes at rising addresses, little-endian words with the lowest first, are one 96-bit word. -/
def wordOfBytes (bs : List Byte) : BitVec 96 :=
  BitVec.ofNat 96 (bs.foldr (fun b n => n * 256 + b.toNat) 0)

/-- The twelve bytes of a word, lowest address first. -/
def bytesOfWord (w : BitVec 96) : List Byte :=
  (List.range 12).map fun k => w.extractLsb' (8 * k) 8

/-- Decoding any bytes: the first twelve are the instruction. -/
def decodeBytes (triple : Bool) (bs : List Byte) : Except Reject Instr :=
  if bs.length < 12 then .error .opcode else decodeIn triple (wordOfBytes (bs.take 12))

/-- The word spec/opcode_table.json numbers: bit 0 is the least significant bit of word 0 (R38), and bits above
`nbits` are 0. The launch mode is taken as the one that accepts the word. -/
def decodeTableWord (nbits w : Nat) : Option Instr :=
  match decodeBytes false (bytesOfWord (BitVec.ofNat 96 (w % 2 ^ nbits))) with
  | .ok i => some i
  | .error .mode =>
    match decodeBytes true (bytesOfWord (BitVec.ofNat 96 (w % 2 ^ nbits))) with
    | .ok i => some i
    | .error _ => none
  | .error _ => none

end Sys2Proof
end

