-- ==== Sys2Proof/Machine/Fetch.lean ====
section
/-! DEFINITION. Fetching an instruction of a launch (02 R38 to R40). -/

namespace Sys2Proof.Machine

/-- What a fetch answers. -/
inductive Fetched where
  | ok (i : Instr)
  /-- The illegal-instruction trap, with its argument (R356). -/
  | trap (arg : Nat)
  /-- A fatal memory fault (R40). -/
  | fault (va code : Nat)
  /-- A word of the instruction was poisoned: its physical address (R428). -/
  | bad (pa : Nat)
  deriving DecidableEq, Repr

/-- The twelve bytes of instruction `pc` as the launch found them. -/
def Launch.codeBytes (l : Launch) (pc : Nat) : List Byte := Memory.readN l.image (12 * pc) 12

/-- R40: the bytes of the block of `pc` that belong to the code: of the last block, what lies past the code size is not fetched, and does
not fault (log 52). -/
def Launch.blockBytes (l : Launch) (pc : Nat) : Nat × Nat :=
  let n := pc / 4
  (l.tmpl.codeBase + 48 * n, min 48 (12 * l.tmpl.codeSize - 48 * n))

/-- R39, R40, R63. A word whose page had no translation when the launch read its code reads zero here if the page has one by now
(log 52). -/
def State.fetch (s : State) (l : Launch) (pc : Word) : Fetched :=
  if l.tmpl.codeSize ≤ pc.toNat then .trap 2
  else
    let (va, n) := l.blockBytes pc.toNat
    match s.checkRange l.ctx .fetch 4 va n false none with
    | .error v => .fault v.va v.code
    | .ok _ => match l.badCode.find? fun b => 3 * pc.toNat ≤ b.1 && b.1 < 3 * pc.toNat + 3 with
      | some b => .bad b.2
      | none => match decodeBytes l.triple (l.codeBytes pc.toNat) with
      | .ok i => .ok i
      | .error _ => .trap 0

end Sys2Proof.Machine
end

