-- ==== Sys2Proof/Machine/Waits.lean ====
section
/-! DEFINITION. The conditions of `wait` (02 R53; 10 R276 to R278). -/

namespace Sys2Proof.Machine

/-- The four slots of a `wait` with their numbers. -/
def WaitArgs.slots (x : WaitArgs) : List (Nat × Cond) := [(0, x.c0), (1, x.c1), (2, x.c2), (3, x.c3)]

def slotMask (l : List Nat) : Nat := l.foldl (fun n k => n + 2 ^ k) 0

def WaitArgs.used (x : WaitArgs) : Nat :=
  slotMask (((WaitArgs.slots x).filter (·.2 != .none)).map (·.1))

/-- The pair a condition slot reads: an address or a number (R53). -/
def Warp.quadAddr (w : Warp) (quad : BitVec 3) : Nat := (w.scalarPair (4 * quad.toNat)).toNat % addrSpace

/-- R227: where a scratchpad word of a condition lies; none outside its window or misaligned. -/
def Crew.wordOff (c : Crew) (w : Warp) (quad : BitVec 3) (slot : BitVec 2) : Option Nat :=
  (c.slotGroup w slot.toNat).bind fun g =>
    let o := (w.scalar (4 * quad.toNat)).toNat
    if o + 4 ≤ g.2.size && o % 4 == 0 then some (g.2.base + o) else none

def compareWord (cmp : BitVec 2) (a b : Nat) : Bool :=
  match cmp.toNat with
  | 0 => a == b
  | 1 => a != b
  | _ => decide (b ≤ a)

def Warp.binding (w : Warp) (q : BitVec 3) : Option Binding := (w.bindings[q.toNat]?).join

/-- Everything that an evaluation looks at. -/
structure Watch where
  s : State
  ctx : CtxRef
  c : Crew
  w : Warp
  ref : WarpRef

/-- The core's copy of DONE (R283). -/
def Watch.done (k : Watch) : Nat :=
  match k.s.context? k.ctx with
  | some x => (x.grace.copy k.c.coreNo).done.toNat
  | none => 0

/-- Whether a condition holds (R277). An evaluation whose read would fault reads nothing (R278). -/
def Watch.holds (k : Watch) : Cond → Bool
  | .none => false
  | .flag f => k.w.flag f.toNat == 0
  | .phase b ph => (k.c.barrierOf k.w b).any fun x => x.2.ph == ph
  | .word cmp quad slot sp =>
    let v := (k.w.scalar (4 * quad.toNat + 2)).toNat
    if sp then
      match k.c.wordOff k.w quad slot with
      | none => false
      | some o => compareWord cmp (leNat (k.c.scratchRead o 4).1) v
    else
      let va := k.w.quadAddr quad
      match k.s.checkAccess k.ctx .waitRead va 4 false none with
      | .error _ => false
      | .ok l => compareWord cmp (leNat (k.s.readSingle ⟨k.ctx, none, some k.ref.crew⟩ l (va - l.va) 4).1) v
  | .queue q push =>
    match (k.w.binding q).bind fun b => k.c.queues[b.queue]? with
    | none => false
    | some x =>
      x.state == 2 ||
        (if push then x.state == 1 || 0 < x.openSlots
          else (x.state == 1 && x.count == 0) || 0 < x.openRows)
  | .grace n => decide ((k.w.scalarPair n.toNat).toNat ≤ k.done)
  | .tick n => decide ((k.w.scalarPair (2 * n.toNat)).toNat ≤ k.s.clock.tick.toNat)

/-- R268: the trap argument of a phase condition on an invalidated barrier. -/
def Watch.stale (k : Watch) : Cond → Option Nat
  | .phase b ph => if (k.c.barrierOf k.w b).any (·.2.inv) then some (barByte b ph) else none
  | _ => none

/-- One evaluation: h, and whether the wait ends, by its conditions (false) or by its deadline (true) (R277). -/
def Watch.evaluate (k : Watch) (x : WaitArgs) (deadline : Option DWord) : Option (Nat × Bool) :=
  let h := slotMask (((WaitArgs.slots x).filter fun c => k.holds c.2).map (·.1))
  let used := WaitArgs.used x
  let met := if used == 0 then deadline.isNone else if x.all then h == used else h != 0
  if met then some (h, false)
  else if deadline.any fun d => d.toNat ≤ k.s.clock.tick.toNat then some (h, true)
  else none

/-- R277: the deadline that the first issue attempt sets. -/
def Watch.deadline (k : Watch) (x : WaitArgs) : Option DWord :=
  let t := (k.w.scalarPair (2 * x.ts.toNat)).toNat
  if x.tp == 7 || t == 0 then none else some (BitVec.ofNat 64 (min (k.s.clock.tick.toNat + t) (2 ^ 64 - 1)))

def State.watch (s : State) (r : WarpRef) : Option Watch :=
  match s.launch? r.crew.launch, s.crew? r.crew, s.warp? r with
  | some l, some c, some w => some ⟨s, l.ctx, c, w, r⟩
  | _, _, _ => none

/-- The `wait` a blocked warp stands at. -/
def State.waitAt (s : State) (r : WarpRef) (w : Warp) : Option WaitArgs :=
  match s.launch? r.crew.launch, w.block with
  | some l, some (.wait _ _) =>
    match s.fetch l w.split.pc with
    | .ok (.wait _ x) => some x
    | _ => none
  | _, _ => none

/-- R277: an evaluation of a blocked warp that succeeds makes it eligible 2 cycles later. A warp that waits for a phase of an
invalidated barrier wakes for its trap (R268). -/
def State.evaluateWait (s : State) (r : WarpRef) : State :=
  match s.watch r with
  | none => s
  | some k =>
    match s.waitAt r k.w with
    | none => s
    | some x =>
      match (WaitArgs.slots x).findSome? fun c => k.stale c.2 with
      | some arg => s.modWarp r (·.wakeToTrap 12 arg)
      | none => match k.evaluate x k.w.deadline.join with
        | none => s
        | some hit => s.modWarp r fun w => { w.wakeUp with waitHit := some hit }

/-- The warps that a `wait` holds. -/
def State.waiting (s : State) : List WarpRef :=
  s.crews.flatMap fun (c : Crew) =>
    (c.warps.filter fun w => match w.block with
      | some (.wait _ _) => c.core.isSome
      | _ => false).map fun w => ⟨c.ref, w.num⟩

/-- R277: conditions are evaluated after every change that they name, so after every step. -/
def State.settleWaits (s : State) : State := s.waiting.foldl State.evaluateWait s

end Sys2Proof.Machine
end

