-- ==== Sys2Proof/Machine/Sync.lean ====
section
/-! DEFINITION. Class 0x8, ordering and synchronisation (10 R259 to R278). Accesses are performed as they issue (log 9), but for
the stores of `tst` and `asave`, which fences and arrivals wait for (R342). -/

namespace Sys2Proof.Machine

/-! ## Fences (R271) -/

/-- A fence: it waits for the warp's earlier stores (R271, R342); its acquire half invalidates (R235), its release half is a
compare point of a paired launch (R424). -/
def Cx.fence (y : Cx) (acq rel : Bool) (sc : Scope) : Attempt :=
  if !(y.s.storing y.core y.ref).isEmpty then .hold
  else if rel && y.l.paired && wideRelease sc && !y.w.passed then y.comparePoint
  else .done ((y.acquire y.s acq sc).modWarp y.ref fun _ => y.w) {}

def execFenceAcq (c : Ctl) (sc : Scope) (s : State) := issue (.fenceAcq c sc) s fun y => y.fence true false sc
def execFenceRel (c : Ctl) (sc : Scope) (s : State) := issue (.fenceRel c sc) s fun y => y.fence false true sc
def execFenceAcqrel (c : Ctl) (sc : Scope) (s : State) := issue (.fenceAcqrel c sc) s fun y => y.fence true true sc
def execFenceSc (c : Ctl) (sc : Scope) (s : State) := issue (.fenceSc c sc) s fun y => y.fence true true sc
def execFenceAsync (c : Ctl) (s : State) := issue (.fenceAsync c) s fun y => y.fence false false .warp

/-! ## Barriers (R268, R270, R272 to R275) -/

/-- The run-time checks of a barrier operand. -/
def Cx.barrier (y : Cx) (b : BarName) (ph valid : Bool) (go : Nat → Barrier → Attempt) : Attempt :=
  match y.c.barrierOf y.w b with
  | none => .trap y.w 1 1
  | some (g, x) => if valid && x.inv then .trap y.w 12 (barByte b ph) else go g x

/-- A change of the crew, on top of the issuing warp's own. -/
def Cx.crewDone (y : Cx) (f : Crew → Crew) (flight : Option FlightKind) : Attempt :=
  .done ((y.put y.w).modCrew y.ref.crew f) { flight }

def execBarinit (c : Ctl) (b : BarName) (n : BitVec 7) (s : State) := issue (.barinit c b n) s fun y =>
  y.barrier b false false fun g x =>
    if x.arrived != 0 || x.pend != 0 then .trap y.w 12 (barByte b false)
    else y.crewDone (fun c =>
      (c.modBarrier g b.bar.toNat fun x => { x with expect := n, inv := false }).settleBarrier g b.bar.toNat) none

def execBarinitInv (c : Ctl) (b : BarName) (s : State) := issue (.barinitInv c b) s fun y =>
  y.barrier b false false fun g _ =>
    let bar := b.bar.toNat
    y.crewDone (fun c =>
      let c := c.modBarrier g bar fun x => { x with inv := true, arrived := 0, pend := 0 }
      { c with arrivals := c.arrivals.filter fun a => !(a.group == g && a.bar == bar) }.wakeOnBarrier g bar) none

/-- R273: the arrival is applied later, once the warp's earlier stores are performed. -/
def execBararr (c : Ctl) (b : BarName) (s : State) := issue (.bararr c b) s fun y =>
  y.barrier b false true fun g _ =>
    y.crewDone (fun c => { c with arrivals := c.arrivals ++ [⟨g, b.bar.toNat, y.ref.warp, y.s.storing y.core y.ref⟩] }) none

def execBarwait (c : Ctl) (b : BarName) (ph : Bool) (s : State) := issue (.barwait c b ph) s fun y =>
  y.barrier b ph true fun _ x => if x.ph == ph then .done (y.put y.w) {} else .block y.s (.barrier b ph)

def execBartx (c : Ctl) (b : BarName) (a : Spec) (ib : Bool) (imm : BitVec 24) (s : State) :=
  issue (.bartx c b a ib imm) s fun y =>
    y.barrier b false true fun g _ =>
      let n : Nat := if ib then imm.toNat else (y.scal a).toNat
      y.crewDone (·.addPend g b.bar.toNat (BitVec.ofNat 48 n)) none

/-! ## wait (R276 to R278) -/

/-- R268, R270: the check of a phase slot, which a warp that was blocked in its `wait` makes again. -/
def Cx.checkPhase (y : Cx) : Cond → Option Attempt
  | .phase b ph =>
    match y.c.barrierOf y.w b with
    | none => some (.trap y.w 1 1)
    | some (_, x) => if x.inv then some (.trap y.w 12 (barByte b ph)) else none
  | _ => none

/-- What the check of one slot at the first issue attempt comes to (R278, R293). -/
def Cx.checkCond (y : Cx) : Cond → Option Attempt
  | .phase b ph => y.checkPhase (.phase b ph)
  | .word _ quad slot sp =>
    if sp then (if (y.c.wordOff y.w quad slot).isNone then some (.trap y.w 1 1) else none)
    else
      let va := y.w.quadAddr quad
      match y.s.checkAccess y.l.ctx .waitRead va 4 false none with
      | .error (code, f) => some (.fault (y.memFault .waitRead va code f 0))
      | .ok _ => none
  | .queue q _ => if (y.w.binding q).isNone then some (.trap y.w 1 1) else none
  | .grace k =>
    if y.w.depth != 0 && decide (y.w.tag.toNat < (y.w.scalarPair k.toNat).toNat) then some (.trap y.w 1 1) else none
  | _ => none

/-- Whether a condition that held acquires at a scope that invalidates (R278). -/
def condAcquires : Cond → Bool
  | .word _ _ _ sp => !sp
  | .grace _ => true
  | _ => false

/-- The wait issues. -/
def Cx.waitDone (y : Cx) (x : WaitArgs) (h : Nat) (late : Bool) : Attempt :=
  let acq := (WaitArgs.slots x).any fun c => h.testBit c.1 && condAcquires c.2
  let w := y.writeScal y.w x.dst (BitVec.ofNat 32 h)
  let w := if x.tp == 7 then w else y.writePred w x.tp y.act (if late then BitVec.allOnes 48 else 0)
  .done ((y.acquire y.s acq .sys).modWarp y.ref fun _ => w) {}

def execWait (c : Ctl) (x : WaitArgs) (s : State) := issue (.wait c x) s fun y =>
  let k : Watch := ⟨y.s, y.l.ctx, y.c, y.w, y.ref⟩
  let tryIt (d : Option DWord) : Attempt :=
    match k.evaluate x d with
    | some (h, late) => y.waitDone x h late
    | none => .block (y.s.modWarp y.ref fun w => { w with deadline := some d }) (.wait (WaitArgs.used x) x.all)
  match y.w.waitHit, y.w.deadline with
  | some (h, late), _ => y.waitDone x h late
  | none, some d =>
    match (WaitArgs.slots x).findSome? fun c => y.checkPhase c.2 with
    | some a => a
    | none => tryIt d
  | none, none =>
    match (WaitArgs.slots x).findSome? fun c => y.checkCond c.2 with
    | some a => a
    | none => tryIt (k.deadline x)

end Sys2Proof.Machine
end

