-- ==== Sys2Proof/Machine/Copies.lean ====
section
/-! DEFINITION. Class 0xA, copy instructions (12 R297 to R301, R311), and what a copy counts on its barriers (R304, R305,
R308, R310, R313). -/

namespace Sys2Proof.Machine

/-! ## Dropped updates (R313) -/

/-- Kinds 1 and 2: the entry, its record, and the end of the launch. Die and core are those of the engine that issued the copy
(log 37). -/
def State.dropUpdate (s : State) (core : Nat) (c : Copy) (kind : Nat) (crew : CrewRef) (bytes : Nat) : State :=
  match s.launch? c.crew.launch with
  | none => s
  | some l =>
    let die := dieOfCore core
    let e := deadEntry kind die core l.seq crew.crew c.group c.bar c.handle.toNat bytes s.clock.tick
    let (s, index) := s.deadWrite die e
    (s.launchEvent l 11 0 (e ++ leBytes 4 index.toNat ++ leBytes 4 0)).endLaunch l.id 22

/-- The barrier of a copy in one of its crews. -/
def Copy.barrierIn (c : Copy) (cr : Crew) : Option Barrier := (cr.groups[c.group]?).bind fun g => g.bars[c.bar]?

/-- One subtraction from the barrier of a crew (R304), or its drop (R310). The answer says whether the launch goes on. -/
def State.subtract (s : State) (core : Nat) (c : Copy) (crew : CrewRef) (n : Nat) : State × Bool :=
  match (s.crew? crew).bind c.barrierIn with
  | none => (s.dropUpdate core c 2 crew n, false)
  | some b =>
    if b.inv then (s.dropUpdate core c 1 crew n, false)
    else (s.modCrew crew fun k => k.addPend c.group c.bar (0 - BitVec.ofNat 48 n), true)

/-! ## Issue (R297 to R299) -/

/-- What the four kinds of copy have in common at issue. -/
inductive CopyForm where
  | linear (load : Bool)
  | rect (load : Bool)
  | multicast (fromsp : Bool)
  | fabric (load : Bool)
  deriving DecidableEq, Repr

def CopyForm.store : CopyForm → Bool
  | .linear l | .rect l | .fabric l => !l
  | .multicast _ => false

def CopyForm.isRect : CopyForm → Bool
  | .rect _ => true
  | _ => false

def CopyForm.multi : CopyForm → Bool
  | .multicast _ => true
  | _ => false

def CopyForm.fromsp : CopyForm → Bool
  | .multicast b => b
  | _ => false

/-- The octet as numbers. -/
structure Octet where
  g : Nat
  s : Nat
  w3 : Word
  w4 : Word
  w5 : Word
  po : Nat
  pv : Word
  deriving DecidableEq, Repr

def Cx.octet (y : Cx) (o : Spec) : Octet :=
  let k := match o with
    | .s n => n.val
    | _ => 0
  let w (i : Nat) : Word := y.w.scalar (k + i)
  { g := (w 1 ++ w 0).toNat, s := (w 2).toNat, w3 := w 3, w4 := w 4, w5 := w 5, po := (w 6).toNat, pv := w 7 }

/-- R306: the layout record. -/
def rectLegal (w3 w4 : Word) (store : Bool) : Bool :=
  let r := rectInfo w3 w4
  1 ≤ r.rows && 1 ≤ r.br && r.br ≤ 64 && r.bw ≤ 512 && 16 ≤ r.width && bitsOf w4.toNat 28 4 == 0 &&
    r.rows % r.br == 0 && r.width % r.bw == 0 && (!store || r.width ≤ r.pitch) &&
    (bitsOf w4.toNat 26 2 == 0 || r.rows * r.width % 512 == 0)

/-- The payload size T (R298). -/
def Octet.total (o : Octet) (f : CopyForm) : Nat :=
  if f.isRect then (rectInfo o.w3 o.w4).rows * (rectInfo o.w3 o.w4).width else o.w3.toNat

/-- R298. -/
def Octet.legal (o : Octet) (f : CopyForm) (pm : Bool) (c : Crew) (g : Group) (crews : Nat) : Bool :=
  let t := o.total f
  let inWindow (at_ n : Nat) : Bool := at_ + n ≤ g.size
  let onDesc (at_ n : Nat) : Bool := c.onDescriptor (g.base + at_) n
  let multi := f.multi
  o.g % 16 == 0 && o.s % 16 == 0 &&
    (if f.isRect then rectLegal o.w3 o.w4 f.store else 16 ≤ t && t % 16 == 0 && t ≤ 524288) &&
    (if f.fromsp then o.g < 2 ^ 32 && inWindow o.g t && !onDesc o.g t else o.g + t ≤ 2 ^ 49) &&
    inWindow o.s t && !onDesc o.s t &&
    (if pm then o.po % 4 == 0 && inWindow o.po 4 && !onDesc o.po 4 else o.po == 0 && o.pv == 0) &&
    (if multi then
      o.w5.toNat < 65536 && o.w5 != 0 && (List.range 16).all fun i => !o.w5.getLsbD i || o.w4.toNat + i < crews
    else (f.isRect || o.w4 == 0) && o.w5 == 0)

def CopyForm.kind (f : CopyForm) (o : Octet) : CopyKind :=
  match f with
  | .linear load => .linear load false
  | .fabric load => .linear load true
  | .rect load => .rect load o.w3 o.w4
  | .multicast sp => .multicast sp o.w4.toNat

/-- R308: the receivers; a copy without multicast has its own crew. -/
def copyReceivers (f : CopyForm) (o : Octet) (own : CrewRef) : List Receiver :=
  if f.multi then
    ((List.range 16).filter o.w5.getLsbD).map fun i => ⟨{ own with crew := o.w4.toNat + i }, [], false⟩
  else [⟨own, [], false⟩]

/-- Put an item among others in ascending order of its address. -/
def insertAt {α : Type} (p : Nat × α) : List (Nat × α) → List (Nat × α)
  | [] => [p]
  | q :: l => if p.1 < q.1 then p :: q :: l else q :: insertAt p l

/-- A unit of a store copy as its signature takes it in: the pieces in ascending order, under the lowest address (log 83), and whether a
word of it is poisoned. -/
def State.signUnit (s : State) (c : Copy) (u : Nat) : Nat × List Byte × Bool :=
  let ps := ((List.zip (c.pieces u) (s.copyData c [] u)).map fun p => (p.1.1, p.2)).foldr insertAt []
  ((ps.head?.map (·.1)).getD 0, ps.flatMap fun p => p.2.flatMap (·.1), ps.any fun p => p.2.any (·.2))

/-- R423: the units of a store copy enter its warp's signature at the issue, in ascending address order. A poisoned word makes the
signature one that no mismatch rests on (R335). -/
def State.copySign (s : State) (c : Copy) (w : Warp) : Warp :=
  let us := ((List.range c.units).map (s.signUnit c)).foldr insertAt []
  { w with
    sig := us.foldl (fun sig p => crc64 sig (leBytes 8 p.1 ++ leBytes 1 p.2.1.length ++ p.2.1)) w.sig
    spoiled := w.spoiled || us.any (·.2.2) }

def copyLimit : Nat := 64

/-- R299, R301: the checks in order, then the copy is handed over. -/
def Cx.copy (y : Cx) (x : CopyArgs) (f : CopyForm) : Attempt :=
  match y.c.barrierOf y.w x.bar, y.c.slotGroup y.w x.bar.slot.toNat with
  | some (gi, b), some (_, g) =>
    let o := y.octet x.oct
    if g.producer != some y.ref.warp then .trap y.w 11 0
    else if b.inv then .trap y.w 12 (barByte x.bar false)
    else if f.multi && !y.l.confirmed then .trap y.w 11 1
    else if !o.legal f x.pm y.c g y.l.count then .trap y.w 1 1
    else if copyLimit ≤ (y.s.coreAt y.core).copies.length then .hold
    else
      let handle : Word := BitVec.ofNat 32 (gi + g.serial.toNat * 256)
      let c : Copy :=
        { crew := y.ref.crew, warp := y.ref.warp, ctx := y.l.ctx, group := gi, bar := x.bar.bar.toNat, handle
          kind := f.kind o, glob := o.g, win := o.s, len := o.total f
          mark := if x.pm then some (o.po, o.pv) else none
          receivers := copyReceivers f o y.ref.crew, suspended := none, aperture := none, store := none }
      let signs := y.l.paired && f.store
      let w := if signs then { y.s.copySign c y.w with stores := y.w.stores + 1 } else y.w
      let c := if signs then { c with store := some (w.stores, w.sig) } else c
      let s := y.s.modCore y.core fun k => { k with copies := k.copies ++ [c] }
      let s := s.modWarp y.ref fun _ => y.writeScal w x.dst handle
      .done (s.modCrew y.ref.crew fun k => k.modGroup gi fun g => { g with serial := g.serial + 1 }) {}
  | _, _ => .trap y.w 1 1

def execCpyLoad (c : Ctl) (x : CopyArgs) (s : State) := issue (.cpyLoad c x) s fun y => y.copy x (.linear true)
def execCpyStore (c : Ctl) (x : CopyArgs) (s : State) := issue (.cpyStore c x) s fun y => y.copy x (.linear false)
def execCpytLoad (c : Ctl) (x : CopyArgs) (s : State) := issue (.cpytLoad c x) s fun y => y.copy x (.rect true)
def execCpytStore (c : Ctl) (x : CopyArgs) (s : State) := issue (.cpytStore c x) s fun y => y.copy x (.rect false)
def execCpym (c : Ctl) (x : CopyArgs) (fromsp : Bool) (s : State) :=
  issue (.cpym c x fromsp) s fun y => y.copy x (.multicast fromsp)
def execCpyfLoad (c : Ctl) (x : CopyArgs) (s : State) := issue (.cpyfLoad c x) s fun y => y.copy x (.fabric true)
def execCpyfStore (c : Ctl) (x : CopyArgs) (s : State) := issue (.cpyfStore c x) s fun y => y.copy x (.fabric false)

/-! ## Cancellation (R311) -/

/-- The payload bytes that a receiver has not had counted. -/
def Copy.uncounted (c : Copy) (r : Receiver) : Nat :=
  (((List.range c.units).filter fun u => !r.counted.contains u).map c.unitBytes).sum

def Copy.multicasts (c : Copy) : Bool :=
  match c.kind with
  | .multicast _ _ => true
  | _ => false

/-- The copy is off its core, and its uncounted bytes are settled. -/
def State.stopCopy (s : State) (core : Nat) (c : Copy) : State :=
  (s.abandonUnits c).modCore core fun k =>
    { k with copies := k.copies.filter fun x => !(x.crew == c.crew && x.handle == c.handle) }

/-- One subtraction of a cancellation, while the launch goes on; one whose crew is gone is dropped as any other (log 40). -/
def State.takeOff (s : State) (core : Nat) (c : Copy) (crew : CrewRef) (n : Nat) : State :=
  if (s.launch? c.crew.launch).all (·.done.isSome) || n == 0 then s else (s.subtract core c crew n).1

/-- R311: the copy stops; each barrier it counts on loses the bytes not counted, and then the sender's barrier one for each receiver
that has not been acknowledged. -/
def State.cancelCopy (s : State) (core : Nat) (c : Copy) : State :=
  let open_ := c.receivers.filter fun r => !r.finished
  let s := open_.foldl (fun s r => s.takeOff core c r.crew (c.uncounted r)) (s.stopCopy core c)
  if c.multicasts then open_.foldl (fun s _ => s.takeOff core c c.crew 1) s else s

def execCpycan (c : Ctl) (dst h : Spec) (s : State) := issue (.cpycan c dst h) s fun y =>
  let handle := y.scal h
  match y.c.groups[(handle.extractLsb' 0 8).toNat]? with
  | none => .trap y.w 1 1
  | some g =>
    if g.producer != some y.ref.warp then .trap y.w 11 0
    else
      match (y.s.coreAt y.core).copies.find? fun k => k.crew == y.ref.crew && k.handle == handle with
      | none => y.scalDone y.w dst 0
      | some k =>
        let s := (y.put (y.writeScal y.w dst 1)).cancelCopy y.core k
        if (s.warp? y.ref).isNone then .ends s else .done s {}

end Sys2Proof.Machine
end

