-- ==== Sys2Proof/Machine/Tiles.lean ====
section
/-! DEFINITION. Tiles: shapes (13 R316, R317), elements and scales (R318 to R322), images in the scratchpad (14 R345),
and the load and store of a plane (R346, R347, R354). -/

namespace Sys2Proof.Machine

/-! ## Shapes -/

/-- The fields of a `TSHAPE` (R316). -/
structure Shape where
  fmt : Nat
  rows : Nat
  rb : Nat
  pl : Bool
  scl : Nat
  deriving DecidableEq, Repr

def shapeOf (w : Word) : Shape where
  fmt := bitsOf w.toNat 0 4
  rows := bitsOf w.toNat 4 7
  rb := 16 * (bitsOf w.toNat 11 5 + 1)
  pl := w.getLsbD 16
  scl := bitsOf w.toNat 17 2

/-- The width of an element in bits; 0 for a format code that is illegal at use. -/
def fmtBits : Nat → Nat
  | 1 | 4 | 10 | 11 => 8
  | 8 | 9 => 16
  | 12 => 4
  | _ => 0

/-- R316: every field legal at use. -/
def Shape.legal (s : Shape) : Bool := fmtBits s.fmt != 0 && 1 ≤ s.rows && s.rows ≤ 64 && s.scl != 3

/-- Elements per row E. -/
def Shape.elems (s : Shape) : Nat := s.rb * 8 / fmtBits s.fmt
def Shape.groups (s : Shape) : Nat := (s.elems + 31) / 32

/-- Formats that hold floating codes. -/
def floatFmt : Nat → Option Fmt
  | 8 => some .fp16
  | 9 => some .bf16
  | 10 => some .e4m3
  | 11 => some .e5m2
  | 12 => some .e2m1
  | _ => none

def intVal (v : Int) : FVal := .fin (decide (v < 0)) v.natAbs 0

/-- R320. -/
def elemVal (fmt code : Nat) : FVal :=
  match floatFmt fmt with
  | some f => f.decode code
  | none => if fmt == 1 then intVal (BitVec.ofNat 8 code).toInt else intVal code

def onVal : FVal := .fin false 1 0
def zeroVal : FVal := .fin false 0 0

/-! ## Storage -/

/-- The bytes in use of a tile row; the cells of the row are picked out first. -/
def Tile.rowBytes (t : Tile) (r n : Nat) : List Byte :=
  let cells := t.bytes.filter fun c => 512 * r ≤ c.1 && c.1 < 512 * r + n
  Memory.readN cells (512 * r) n

/-- Element `k` of bytes in a format (R318). -/
def elemCode (bits : Nat) (bs : List Byte) (k : Nat) : Nat :=
  match bits with
  | 4 => ((bs.getD (k / 2) 0).toNat >>> (4 * (k % 2))) % 16
  | 8 => (bs.getD k 0).toNat
  | _ => leNat ((bs.drop (2 * k)).take 2)

/-- The bytes that element codes make (R318). -/
def codeBytes (bits : Nat) (codes : List Nat) : List Byte :=
  match bits with
  | 4 => (List.range (codes.length / 2)).map fun k =>
      BitVec.ofNat 8 (codes.getD (2 * k) 0 % 16 + 16 * (codes.getD (2 * k + 1) 0 % 16))
  | 8 => codes.map fun c => BitVec.ofNat 8 c
  | _ => codes.flatMap fun c => leBytes 2 c

/-- A scale-store entry; entries that nothing lists are 0 (R315). -/
def Tile.scaleAt (t : Tile) (e : Nat) : BitVec 16 := ((t.scales.find? (·.1 == e)).map (·.2)).getD 0

def insertScale (e : Nat) (v : BitVec 16) : List (Nat × BitVec 16) → List (Nat × BitVec 16)
  | [] => if v == 0 then [] else [(e, v)]
  | (k, c) :: l =>
    if e < k then (if v == 0 then (k, c) :: l else (e, v) :: (k, c) :: l)
    else if e == k then (if v == 0 then l else (e, v) :: l)
    else (k, c) :: insertScale e v l

/-- Write an entry and whether it is poisoned. -/
def Tile.setScale (t : Tile) (e : Nat) (v : BitVec 16) (bad : Bool) : Tile :=
  { t with
    scales := insertScale e v t.scales
    scalePoison := if bad then setInsert e t.scalePoison else setErase e t.scalePoison }

/-- Write bytes into a row; `bad` says which 4-byte words become poisoned. -/
def Tile.setRow (t : Tile) (r : Nat) (bs : List Byte) (bad : Nat → Bool) : Tile :=
  { t with
    bytes := Memory.writeN t.bytes (512 * r) bs
    poison := poisonWrite t.poison (512 * r) bs.length bad }

/-- R319, R321: the value of a scale; none for a NaN scale. -/
def scaleVal (scl : Nat) (e : BitVec 16) : Option FVal :=
  match scl with
  | 0 => some onVal
  | 1 =>
    let c := e.toNat % 256
    if c == 255 then none else some (.fin false 1 ((c : Int) - 127))
  | _ =>
    match Fmt.bf16.decode e.toNat with
    | .fin n m x => some (.fin n m x)
    | _ => none

/-! ## Images (R345) -/

/-- Source formats of `tld` (R337): 0 the tile's own, 1 INT4, 2 INT3, 3 E2M1. -/
def srcRowBytes (s : Shape) (src : Nat) : Nat :=
  match src with
  | 0 => s.rb
  | 2 => s.elems / 32 * 12
  | _ => s.elems * 4 / 8

def roundUp (n k : Nat) : Nat := (n + k - 1) / k * k

/-- SP. -/
def rowPitch (s : Shape) (src : Nat) : Nat := roundUp (srcRowBytes s src) 16

/-- Where the scale entries of a plane image start. -/
def scaleBase (s : Shape) (src : Nat) : Nat := s.rows * rowPitch s src

/-- The bytes of a plane image that the layout names: the padding that rounds it up to P is not among them (R347). -/
def planeBytes (s : Shape) (src : Nat) : Nat := scaleBase s src + s.rows * s.groups * s.scl

/-- P: Z is 1 for E8M0 and 2 for BF16. -/
def planeImage (s : Shape) (src : Nat) : Nat := roundUp (planeBytes s src) 16

/-- R322: the pairings of the table. -/
def srcLegal (s : Shape) (src : Nat) : Bool :=
  match src with
  | 0 => true
  | 1 => s.fmt == 1 || s.fmt == 9
  | 2 => (s.fmt == 1 || s.fmt == 9) && s.elems % 32 == 0
  | _ => s.fmt == 12 || s.fmt == 10 || s.fmt == 9

/-- The source element `k` of an image row as a signed number of a narrow integer format. -/
def narrowInt (src : Nat) (bs : List Byte) (k : Nat) : Int :=
  if src == 2 then (BitVec.ofNat 3 (leNat ((bs.drop (12 * (k / 32))).take 12) >>> (3 * (k % 32)))).toInt
  else (BitVec.ofNat 4 (elemCode 4 bs k)).toInt

/-- R322: the tile's code of source element `k`. -/
def convertElem (s : Shape) (src : Nat) (bs : List Byte) (k : Nat) : Nat :=
  match src with
  | 0 => elemCode (fmtBits s.fmt) bs k
  | 3 =>
    let c := elemCode 4 bs k
    match s.fmt, floatFmt s.fmt with
    | 12, _ => c
    | _, some f => roundNear f (Fmt.e2m1.decode c).exact
    | _, none => c
  | _ =>
    let v := narrowInt src bs k
    if s.fmt == 1 then (BitVec.ofInt 8 v).toNat else roundNear .bf16 (intVal v).exact

/-- The source bytes that element `k` comes from, for poison (R354). -/
def sourceSpan (s : Shape) (src k : Nat) : Nat × Nat :=
  match src with
  | 0 => (k * fmtBits s.fmt / 8, (fmtBits s.fmt + 7) / 8)
  | 2 => (12 * (k / 32) + 3 * (k % 32) / 8, (3 * (k % 32) + 2) / 8 - 3 * (k % 32) / 8 + 1)
  | _ => (k / 2, 1)

/-- R346: one plane from its image at crew offset `o`. -/
def Tile.load (t : Tile) (c : Crew) (s : Shape) (src o : Nat) : Tile :=
  let bits := fmtBits s.fmt
  let t := (List.range s.rows).foldl (fun (t : Tile) r =>
    let base := o + r * rowPitch s src
    let bs := Memory.readN c.scratch base (srcRowBytes s src)
    let codes := (List.range s.elems).map (convertElem s src bs)
    let spoiled := anyPoison c.scratchPoison base (srcRowBytes s src)
    let bad (w : Nat) : Bool := spoiled && (List.range s.elems).any fun k =>
      (512 * r + k * bits / 8) / 4 == w &&
        (let p := sourceSpan s src k; anyPoison c.scratchPoison (base + p.1) p.2)
    t.setRow r (codeBytes bits codes) bad) t
  if s.scl == 0 then t
  else (List.range (s.rows * s.groups)).foldl (fun (t : Tile) n =>
    let r := n / s.groups
    let g := n % s.groups
    let at_ := o + scaleBase s src + n * s.scl
    t.setScale (32 * r + g) (BitVec.ofNat 16 (leNat (Memory.readN c.scratch at_ s.scl)))
      (anyPoison c.scratchPoison at_ s.scl)) t

/-- R347: one plane into its image at crew offset `o`; poison travels with the word (R354). -/
def Crew.storeTile (c : Crew) (t : Tile) (s : Shape) (o : Nat) : Crew :=
  let c := (List.range s.rows).foldl (fun (c : Crew) r =>
    let bs := t.rowBytes r s.rb
    (List.range (s.rb / 4)).foldl (fun (c : Crew) k =>
      c.scratchWrite (o + r * rowPitch s 0 + 4 * k) ((bs.drop (4 * k)).take 4) (t.poison.contains (128 * r + k))) c) c
  if s.scl == 0 then c
  else (List.range (s.rows * s.groups)).foldl (fun (c : Crew) n =>
    let e := 32 * (n / s.groups) + n % s.groups
    c.scratchWrite (o + scaleBase s 0 + n * s.scl) (leBytes s.scl (t.scaleAt e).toNat) (t.scalePoison.contains e)) c

end Sys2Proof.Machine
end

