-- ==== Sys2Proof/Machine/Matrix.lean ====
section
/-! DEFINITION. The matrix unit: runs, folds, readouts and their draws (13 R323 to R330), and what `acvt`, `atopk`, `asave`
and `arest` do to tiles, accumulators and the scratchpad (14 R351 to R353). -/

namespace Sys2Proof.Machine

/-! ## Sums of values -/

/-- An exact sum (R325): the sign of a zero is that of two negative zeros, else positive. -/
def addVal (a b : FVal) : FVal :=
  match a, b with
  | .nan _, _ | _, .nan _ => .nan false
  | .inf x, .inf y => if x == y then .inf x else .nan false
  | .inf x, _ => .inf x
  | _, .inf y => .inf y
  | .fin x _ _, .fin y _ _ =>
    if a.isZero && b.isZero then .fin (x && y) 0 0
    else
      let d := a.dy.add b.dy
      .fin (decide (d.n < 0)) d.n.natAbs d.e

def subVal (a b : FVal) : FVal := addVal a (b.negIf true)
def roundVal (a : FVal) : FVal := Fmt.fp32.decode (roundNear .fp32 a.exact)

/-! ## Operand classes (R323) -/

/-- 0 the 4-bit class, 1 the 8-bit class, 2 the 16-bit class. -/
def fmtClass (fmt : Nat) : Nat := if fmt == 12 then 0 else if fmt == 8 || fmt == 9 then 2 else 1
def classRuns : Nat → Nat
  | 0 => 32
  | 1 => 16
  | _ => 8

/-! ## Planes of operands -/

/-- A row of a plane as the unit reads it: element values, group scales (none for a NaN scale), whether any of them is
poisoned (R318, R319, R334). -/
structure PlaneRow where
  vals : List FVal
  scales : List (Option FVal)
  bad : Bool

def Tile.planeRow (t : Tile) (s : Shape) (r : Nat) : PlaneRow :=
  if s.rows ≤ r then ⟨[], [], false⟩
  else
    let bs := t.rowBytes r s.rb
    let gs := if s.scl == 0 then [] else List.range s.groups
    { vals := (List.range s.elems).map fun k => elemVal s.fmt (elemCode (fmtBits s.fmt) bs k)
      scales := gs.map fun g => scaleVal s.scl (t.scaleAt (32 * r + g))
      bad := anyPoison t.poison (512 * r) s.rb || gs.any fun g => t.scalePoison.contains (32 * r + g) }

def Tile.plane (t : Tile) (s : Shape) : List PlaneRow := (List.range 64).map (t.planeRow s)

def PlaneRow.val (p : PlaneRow) (k : Nat) : FVal := p.vals.getD k zeroVal
def PlaneRow.scale (p : PlaneRow) (g : Nat) : Option FVal := p.scales.getD g (some onVal)

/-- Whether the row can give a run other than +0 against a row that cannot. -/
def PlaneRow.live (p : PlaneRow) : Bool := p.vals.any (fun v => !v.isZero) || p.scales.any (·.isNone)

/-! ## Runs -/

/-- R325, R328: the value of run `g`. -/
def runVal (dist : Bool) (a b : PlaneRow) (g : Nat) : FVal :=
  match a.scale g, b.scale g with
  | some sa, some sb =>
    let ps := (List.range 32).map fun i =>
      let k := 32 * g + i
      if dist then
        let d := subVal (exactMul (a.val k) sa) (exactMul (b.val k) sb)
        exactMul d d
      else exactMul (a.val k) (b.val k)
    let scaled (v : FVal) : FVal := if dist then v else exactMul (exactMul v sa) sb
    if ps.any (·.isNan) || (ps.contains (.inf false) && ps.contains (.inf true)) then .nan false
    else if ps.contains (.inf false) then scaled (.inf false)
    else if ps.contains (.inf true) then scaled (.inf true)
    else
      match ps.filter fun p => !p.isZero with
      | [] => zeroVal
      | p :: ps =>
        let emax := ps.foldl (fun e p => max e p.dy.ilogb) p.dy.ilogb
        let u := emax - 47
        let term : FVal → Int
          | .fin neg m e => let n : Int := (shiftFlr m (e - u)).1; if neg then -n else n
          | _ => 0
        let t := (p :: ps).foldl (fun n p => n + term p) 0
        let x := scaled (.fin (decide (t < 0)) t.natAbs u)
        if x.isZero then zeroVal else x
  | _, _ => .nan false

/-! ## Accumulators (R324) -/

def accKey (plane i j : Nat) : Nat := 4096 * plane + 64 * i + j

def Acc.cell (a : Acc) (key : Nat) : Word × Word :=
  match a.cells.find? (·.at_ == key) with
  | some c => (c.sum, c.err)
  | none => (0, 0)

/-- An element's cell; the list holds none for +0, +0. -/
def accCell (key : Nat) (v : Word × Word) : List AccCell := if v.1 == 0 && v.2 == 0 then [] else [⟨key, v.1, v.2⟩]

/-- Every element in ascending key. -/
def Acc.mapCells (a : Acc) (f : Nat → Word × Word → Word × Word) : List AccCell :=
  (List.range (3 * 4096)).flatMap fun key => accCell key (f key (a.cell key))

def Acc.zero : Acc := ⟨[], [], 0⟩

/-- R325: fold a rounded run into an element. -/
def foldRun (c : Word × Word) (r : Nat) : Word × Word :=
  let s := Fmt.fp32.decode c.1.toNat
  let e := Fmt.fp32.decode c.2.toNat
  let rv := Fmt.fp32.decode r
  let s1c := roundNear .fp32 (addVal s rv).exact
  let s1 := Fmt.fp32.decode s1c
  let err : Word :=
    if s.finite && rv.finite && s1.finite then
      let z := roundVal (subVal s1 s)
      let inner := addVal (subVal s (subVal s1 z)) (subVal rv z)
      BitVec.ofNat 32 (roundNear .fp32 (addVal e inner).exact)
    else c.2
  (BitVec.ofNat 32 s1c, err)

/-- Who draws: the key, the crew index and the accumulator number (R329). -/
structure Drawer where
  key : DWord
  crew : Nat
  acc : Nat

/-- R329. -/
def Drawer.draw (d : Drawer) (plane i j : Nat) (x : Nat) (kind : Nat) : DWord :=
  drawWord d.key (BitVec.ofNat 64 (x % 2 ^ 36 + i * 2 ^ 36 + kind * 2 ^ 47 + 2 * 2 ^ 48 + plane * 2 ^ 52 + j * 2 ^ 54))
    (BitVec.ofNat 64 (d.crew % 2 ^ 32 + d.acc * 2 ^ 32))

/-- The rounding mode of the unit (R325, R326). -/
def unitMode (triple near : Bool) : Rm := if triple && !near then .rsib else .rne

/-- R326: the readout of an element, as an FP32 code. -/
def Acc.readout (a : Acc) (d : Drawer) (mode : Rm) (key : Nat) : Nat :=
  let c := a.cell key
  let x := addVal (Fmt.fp32.decode c.1.toNat) (Fmt.fp32.decode c.2.toNat)
  (roundTo .fp32 mode (d.draw (key / 4096) (key / 64 % 64) (key % 64) a.ridx.toNat 1) x.exact).1

/-- R325, R330, R334: `matrix_op`. `as` holds the planes of A: one, or one for each plane of the accumulator. -/
def Acc.matrixOp (acc : Acc) (d : Drawer) (dist triple near : Bool) (as : List (List PlaneRow)) (b : List PlaneRow)
    (n : Nat) : Acc :=
  let mode := unitMode triple near
  let planes := if triple then 3 else 1
  let empty : PlaneRow := ⟨[], [], false⟩
  let row (p : List PlaneRow) (r : Nat) : PlaneRow := p.getD r empty
  let aPlane (s : Nat) : List PlaneRow := if as.length == 3 then as.getD s [] else as.headD []
  let liveA := as.map fun p => p.map (·.live)
  let liveB := b.map (·.live)
  let live (s i j : Nat) : Bool :=
    ((if as.length == 3 then liveA.getD s [] else liveA.headD []).getD i false) || liveB.getD j false
  let element (s i j : Nat) (c : Word × Word) : Word × Word :=
    if !live s i j then foldRun c 0
    else
      let x := row (aPlane s) i
      let y := row b j
      (List.range n).foldl (fun c g =>
        foldRun c (roundTo .fp32 mode (d.draw s i j (acc.ridx.toNat + g) 0) (runVal dist x y g).exact).1) c
  let cells := acc.mapCells fun key c =>
    let s := key / 4096
    let i := key / 64 % 64
    let j := key % 64
    if planes ≤ s || (c == (0, 0) && !live s i j) then c else element s i j c
  let spoiled := (List.range (planes * 4096)).filter fun key =>
    (row (aPlane (key / 4096)) (key / 64 % 64)).bad || (row b (key % 64)).bad
  { cells, poison := spoiled.foldl (fun ps k => setInsert k ps) acc.poison, ridx := acc.ridx + BitVec.ofNat 36 n }

/-! ## Conversion to a tile (R351) -/

def emaxOf : Nat → Int
  | 10 => 8
  | 11 => 16
  | _ => 2

/-- The codes of a group and its scale code, if its format has scales. -/
def convertGroup (fmt : Nat) (xs : List FVal) : List Nat × Option Nat :=
  match floatFmt fmt with
  | none => (xs.map fun _ => 0, none)
  | some f =>
    if fmt == 8 || fmt == 9 then (xs.map fun x => roundNear f x.exact, none)
    else if xs.any fun x => !x.finite then (xs.map fun _ => 0, some 255)
    else
      let tops := (xs.filter fun x => !x.isZero).map fun x => x.dy.ilogb
      let e : Int := match tops with
        | [] => 0
        | t :: ts => clampInt (ts.foldl max t - emaxOf fmt) (-127) 127
      (xs.map fun x => roundNear f (match x with
        | .fin n m k => FVal.exact (.fin n m (k - e))
        | v => v.exact), some (e + 127).toNat)

/-- One plane of an accumulator into a tile. -/
def Tile.convert (t : Tile) (a : Acc) (d : Drawer) (mode : Rm) (fmt plane : Nat) : Tile :=
  let bits := fmtBits fmt
  (List.range 64).foldl (fun (t : Tile) i =>
    let group (g : Nat) : List Nat × Option Nat × Bool :=
      let keys := (List.range 32).map fun j => accKey plane i (32 * g + j)
      let (codes, scale) := convertGroup fmt (keys.map fun k => Fmt.fp32.decode (a.readout d mode k))
      (codes, scale, keys.any a.poison.contains)
    let g0 := group 0
    let g1 := group 1
    let half := 32 * bits / 8
    let t := t.setRow i (codeBytes bits (g0.1 ++ g1.1)) fun w =>
      if 4 * w < 512 * i + half then g0.2.2 else g1.2.2
    [(0, g0), (1, g1)].foldl (fun (t : Tile) x => match x.2.2.1 with
      | some v => t.setScale (32 * i + x.1) (BitVec.ofNat 16 v) x.2.2.2
      | none => t) t) t

/-! ## Top-k (R352) -/

/-- Whether entry a ranks strictly before entry b. -/
def ranksBefore (min : Bool) (a b : Nat × Nat) : Bool :=
  let x := Fmt.fp32.decode a.1
  let y := Fmt.fp32.decode b.1
  if x.isNan && y.isNan then decide (a.2 < b.2)
  else if x.isNan then false
  else if y.isNan then true
  else if x.eqNum y then decide (a.2 < b.2)
  else if min then x.ltNum y else y.ltNum x

/-- A stable insertion: after every entry that the new one does not rank before. -/
def rankInsert (min : Bool) (e : Nat × Nat) : List (Nat × Nat) → List (Nat × Nat)
  | [] => [e]
  | x :: l => if ranksBefore min e x then e :: x :: l else x :: rankInsert min e l

def rankSort (min : Bool) (l : List (Nat × Nat)) : List (Nat × Nat) := l.foldl (fun acc e => rankInsert min e acc) []

def Acc.topk (a : Acc) (d : Drawer) (k : Nat) (init min : Bool) (base : Word) : Acc :=
  let list (i : Nat) : List (Nat × Nat) :=
    let new := (List.range 64).map fun j => (a.readout d .rne (accKey 0 i j), (base.toNat + j) % 2 ^ 32)
    let old := if init then []
      else (List.range k).map fun j => ((a.cell (accKey 1 i j)).1.toNat, (a.cell (accKey 2 i j)).1.toNat)
    (rankSort min (old ++ new)).take k
  let lists := (List.range 64).map list
  let cells := a.mapCells fun key c =>
    let i := key / 64 % 64
    let j := key % 64
    if key < 4096 || k ≤ j then c
    else
      let e := (lists.getD i []).getD j (0, 0)
      (BitVec.ofNat 32 (if key < 8192 then e.1 else e.2), 0)
  let spoiled (i : Nat) : Bool :=
    a.poison.any fun p => p / 64 % 64 == i && (p < 4096 || (!init && p % 64 < k))
  let bads := ((List.range 64).filter spoiled).flatMap fun i =>
    (List.range k).flatMap fun j => [accKey 1 i j, accKey 2 i j]
  { a with cells, poison := bads.foldl (fun ps x => setInsert x ps) a.poison }

/-! ## Save and restore (R353) -/

def accImage (all : Bool) : Nat := 64 + 32768 * (if all then 3 else 1)

def Crew.saveAcc (c : Crew) (a : Acc) (all : Bool) (o : Nat) : Crew :=
  let c := c.scratchWrite o (leBytes 64 a.ridx.toNat) false
  (List.range (if all then 3 * 4096 else 4096)).foldl (fun (c : Crew) key =>
    let v := a.cell key
    c.scratchWrite (o + 64 + 8 * key) (leBytes 4 v.1.toNat ++ leBytes 4 v.2.toNat) (a.poison.contains key)) c

def Acc.restore (a : Acc) (c : Crew) (all : Bool) (o : Nat) : Acc :=
  let n := if all then 3 * 4096 else 4096
  let bad (key : Nat) : Bool := anyPoison c.scratchPoison (o + 64 + 8 * key) 8
  let cells := a.mapCells fun key v =>
    if n ≤ key then v
    else if bad key then (0, 0)
    else
      let word (at_ : Nat) : Word := BitVec.ofNat 32 (leNat (Memory.readN c.scratch at_ 4))
      (word (o + 64 + 8 * key), word (o + 68 + 8 * key))
  { cells
    poison := (List.range n).filter bad ++ a.poison.filter (n ≤ ·)
    ridx := BitVec.ofNat 36 (leNat (Memory.readN c.scratch o 8)) }

end Sys2Proof.Machine
end

