-- ==== Sys2Proof/Machine/TileOps.lean ====
section
/-! DEFINITION. Class 0xB, tile and matrix instructions (14 R336 to R353): the checks at issue, what is handed to the unit or
to the tile-load path, and the effect when the operation completes. -/

namespace Sys2Proof.Machine

/-! ## Checks (R336, R339) -/

/-- A refused operand: the illegal-instruction trap, as a run-time check. -/
def Cx.refused (y : Cx) : Attempt := .trap y.w 1 1

def Cx.group (y : Cx) (slot : BitVec 2) (go : Nat → Group → Attempt) : Attempt :=
  match y.c.slotGroup y.w slot.toNat with
  | none => y.refused
  | some (n, g) => go n g

/-- Whether the crew declares a tile and the group grants it (R20, R27). -/
def tileOk (c : Crew) (g : Group) (n : Nat) : Bool := n < c.tiles.length && n < 8 && g.tiles.getLsbD n
def accOk (c : Crew) (g : Group) (n : Nat) : Bool := n < c.accs.length && g.accs.getLsbD n

def Crew.tileShape (c : Crew) (n : Nat) : Word := ((c.tiles[n]?).map (·.shape)).getD 0

/-- The tiles a use names: three planes under PL (R317). -/
def planeTiles (s : Shape) (n : Nat) : List Nat := if s.pl then [n, n + 1, n + 2] else [n]

/-- R317: a legal use of a tile's shape. -/
def useOk (c : Crew) (g : Group) (s : Shape) (n : Nat) : Bool :=
  s.legal && (planeTiles s n).all (tileOk c g)

/-- R341: readiness of the tiles read and written. -/
def Crew.tilesReady (c : Crew) (reads writes : List Nat) : Bool :=
  (reads.all fun n => (c.tiles[n]?).all fun t => t.writers == 0) &&
    (writes.all fun n => (c.tiles[n]?).all fun t => t.readers == 0 && t.writers == 0)

def unitQueue : Nat := 16

/-- Tiles that an operation reads and writes, for the counts of R341. -/
def MatOp.uses (op : MatOp) : List Nat × List Nat :=
  match op.instr with
  | .mma _ _ | .mdist _ _ => (op.tiles, [])
  | .tst _ _ => (op.tiles, [])
  | .tld _ _ => (if 1 < op.tiles.length then op.tiles else [], op.tiles)
  | .acvt _ _ _ _ _ => ([], op.tiles)
  | _ => ([], [])

def Crew.countTiles (c : Crew) (op : MatOp) (d : Int) : Crew :=
  let (rs, ws) := op.uses
  let add (n : Nat) : Nat := ((n : Int) + d).toNat
  let c := rs.foldl (fun (c : Crew) n => c.modTile n fun t => { t with readers := add t.readers }) c
  ws.foldl (fun (c : Crew) n => c.modTile n fun t => { t with writers := add t.writers }) c

/-- An operation of the issuing warp that names nothing yet. -/
def Cx.matOp (y : Cx) : MatOp where
  id := (y.s.coreAt y.core).nextOp
  warp := y.ref
  near := y.w.near
  instr := y.i
  shapes := []
  lanes := y.act
  elems := []
  rows := []
  queue := none
  landSlot := 0
  off := 0
  base := 0
  acc := 0
  tiles := []

/-- Hand an operation to the unit's queue or to the tile-load path when it is ready (R339 step 5, R340). -/
def Cx.handOver (y : Cx) (op : MatOp) (path : Bool) (d : Done := {}) : Attempt :=
  let (rs, ws) := op.uses
  if !y.c.tilesReady rs ws || (!path && unitQueue ≤ (y.s.coreAt y.core).matQueue.length) then .hold
  else
    let s := y.s.modCore y.core fun k =>
      if path then { k with tilePath := k.tilePath ++ [op], nextOp := k.nextOp + 1 }
      else { k with matQueue := k.matQueue ++ [op], nextOp := k.nextOp + 1 }
    .done ((s.modWarp y.ref fun _ => y.w).modCrew y.ref.crew fun c => c.countTiles op 1)
      { d with flight := some (.engine op.id) }

/-! ## Tiles (R344 to R347) -/

def execTctl (c : Ctl) (slot : BitVec 2) (tile : BitVec 3) (a : Spec) (imm : BitVec 20) (s : State) :=
  issue (.tctl c slot tile a imm) s fun y => y.group slot fun _ g =>
    if !tileOk y.c g tile.toNat then y.refused
    else
      let v : Word := if a == .zero then imm.setWidth 32 else y.scal a
      .done ((y.put y.w).modCrew y.ref.crew fun c => c.modTile tile.toNat fun t => { t with shape := v &&& 0x7FFFF })
        { flight := none }

/-- R339 step 4: the crew offset of an image of `n` bytes. -/
def Cx.imageAt (y : Cx) (g : Group) (a : Spec) (off : BitVec 20) (align n : Nat) (go : Nat → Attempt) : Attempt :=
  let o : Int := ((y.scal a).toNat : Int) + off.toInt
  if o < 0 || o % (align : Int) != 0 || (g.size : Int) < o + n then y.refused else go (g.base + o.toNat)

def Cx.loadTile (y : Cx) (x : TileMemArgs) : Attempt := y.group x.slot fun _ g =>
  let n := x.tile.toNat
  let w := y.c.tileShape n
  let sh := shapeOf w
  let src := x.src.toNat
  if !tileOk y.c g n || !useOk y.c g sh n || !srcLegal sh src then y.refused
  else y.imageAt g x.a x.off 16 ((planeTiles sh n).length * planeImage sh src) fun off =>
    y.handOver { y.matOp with shapes := [w], tiles := planeTiles sh n, off } true

def execTld (c : Ctl) (x : TileMemArgs) (s : State) := issue (.tld c x) s fun y => y.loadTile x

/-- The scratchpad words that a `tst` writes, plane by plane (R347). -/
def imageWords (sh : Shape) (off planes : Nat) : List Nat :=
  (List.range planes).flatMap fun p => wordsOf (off + p * planeImage sh 0) (planeBytes sh 0)

def Cx.storeTile (y : Cx) (x : TileMemArgs) : Attempt := y.group x.slot fun _ g =>
  let n := x.tile.toNat
  let w := y.c.tileShape n
  let sh := shapeOf w
  let planes := planeTiles sh n
  if !tileOk y.c g n || !useOk y.c g sh n then y.refused
  else y.imageAt g x.a x.off 16 (planes.length * planeImage sh 0) fun off =>
    match y.handOver { y.matOp with shapes := [w], tiles := planes, off } true with
    | .done s d => .done (y.raceWords s true (imageWords sh off planes.length)) d
    | a => a

def execTst (c : Ctl) (x : TileMemArgs) (s : State) := issue (.tst c x) s fun y => y.storeTile x

/-! ## Matrix operations (R348) -/

def Cx.multiply (y : Cx) (x : MmaArgs) : Attempt := y.group x.slot fun _ g =>
  let acc := x.acc.toNat
  let wa := y.c.tileShape x.ta.toNat
  let wb := y.c.tileShape x.tb.toNat
  let sa := shapeOf wa
  let sb := shapeOf wb
  if !accOk y.c g acc || !tileOk y.c g x.ta.toNat || !tileOk y.c g x.tb.toNat then y.refused
  else if sa.pl && !y.triple then y.refused
  else if !useOk y.c g sa x.ta.toNat || !sb.legal || sb.pl || fmtClass sa.fmt != fmtClass sb.fmt then y.refused
  else y.handOver
    { y.matOp with shapes := [wa, wb], tiles := planeTiles sa x.ta.toNat ++ [x.tb.toNat], acc } false

def execMma (c : Ctl) (x : MmaArgs) (s : State) := issue (.mma c x) s fun y => y.multiply x
def execMdist (c : Ctl) (x : MmaArgs) (s : State) := issue (.mdist c x) s fun y => y.multiply x

/-! ## Accumulators (R349 to R353) -/

/-- An operation on one accumulator that is declared and granted. -/
def Cx.onAcc (y : Cx) (slot acc : BitVec 2) (go : Nat → Group → MatOp → Attempt) : Attempt := y.group slot fun _ g =>
  if !accOk y.c g acc.toNat then y.refused else go acc.toNat g { y.matOp with acc := acc.toNat }

def Cx.zeroAcc (y : Cx) (slot acc : BitVec 2) : Attempt := y.onAcc slot acc fun _ _ op => y.handOver op false

def execAzero (c : Ctl) (slot acc : BitVec 2) (s : State) := issue (.azero c slot acc) s fun y => y.zeroAcc slot acc

/-- R350: the destination rows, or the slot reserved by the push (R203), are fixed at issue. -/
def Cx.readOut (y : Cx) (dst e : Spec) (slot acc : BitVec 2) : Attempt := y.onAcc slot acc fun _ _ op =>
  let op := { op with elems := y.src e, rows := laneList.map (y.rowOf dst) }
  match dst with
  | .q n =>
    match y.bound n.val with
    | none => y.refused
    | some (b, q) =>
      y.handOver { op with queue := some b.queue, landSlot := q.tail } false { push := some ⟨n.val, [], y.act, 0⟩ }
  | _ => y.handOver op false

def execArd (c : Ctl) (dst e : Spec) (slot acc psel : BitVec 2) (raw : Bool) (s : State) :=
  issue (.ard c dst e slot acc psel raw) s fun y => y.readOut dst e slot acc

def Cx.convertAcc (y : Cx) (slot : BitVec 2) (tile : BitVec 3) (acc psel : BitVec 2) : Attempt :=
  y.onAcc slot acc fun _ g op =>
    let n := tile.toNat
    let w := y.c.tileShape n
    let sh := shapeOf w
    let target := ((sh.fmt == 10 || sh.fmt == 11 || sh.fmt == 12) && sh.scl == 1) || ((sh.fmt == 8 || sh.fmt == 9) && sh.scl == 0)
    if !tileOk y.c g n then y.refused
    else if sh.pl && (!y.triple || psel != 0) then y.refused
    else if !useOk y.c g sh n || !target || sh.rows != 64 || sh.elems < 64 then y.refused
    else y.handOver { op with shapes := [w], tiles := planeTiles sh n } false

def execAcvt (c : Ctl) (slot : BitVec 2) (tile : BitVec 3) (acc psel : BitVec 2) (s : State) :=
  issue (.acvt c slot tile acc psel) s fun y => y.convertAcc slot tile acc psel

def Cx.topAcc (y : Cx) (slot acc : BitVec 2) (a : Spec) : Attempt := y.onAcc slot acc fun _ _ op =>
  y.handOver { op with base := y.scal a } false

def execAtopk (c : Ctl) (slot acc : BitVec 2) (a : Spec) (k : BitVec 5) (init min : Bool) (s : State) :=
  issue (.atopk c slot acc a k init min) s fun y => y.topAcc slot acc a

def Cx.saveAcc (y : Cx) (x : AccMemArgs) : Attempt := y.onAcc x.slot x.acc fun _ g op =>
  y.imageAt g x.a x.off 64 (accImage x.all) fun off =>
    match y.handOver { op with off } false with
    | .done s d => .done (y.raceCheck s true [((maskLanes y.act).headD 0, off)] (accImage x.all)) d
    | a => a

def execAsave (c : Ctl) (x : AccMemArgs) (s : State) := issue (.asave c x) s fun y => y.saveAcc x

def Cx.restoreAcc (y : Cx) (x : AccMemArgs) : Attempt := y.onAcc x.slot x.acc fun _ g op =>
  y.imageAt g x.a x.off 64 (accImage x.all) fun off => y.handOver { op with off } false

def execArest (c : Ctl) (x : AccMemArgs) (s : State) := issue (.arest c x) s fun y => y.restoreAcc x

/-! ## Completion -/

/-- The crew's side of a completing operation of the launch with this key and mode. -/
def Crew.perform (c : Crew) (l : Launch) (op : MatOp) : Crew :=
  let acc := c.accs.getD op.acc Acc.zero
  let drawer : Drawer := ⟨l.rndkey, c.ref.crew, op.acc⟩
  let mode := unitMode l.triple op.near
  let shape (k : Nat) : Shape := shapeOf (op.shapes.getD k 0)
  let tile (n : Nat) : Tile := c.tiles.getD n ⟨[], [], 0, [], [], 0, 0⟩
  let planes := List.zip (List.range op.tiles.length) op.tiles
  let multiply (dist : Bool) : Crew :=
    let as := (op.tiles.take (op.tiles.length - 1)).map fun n => (tile n).plane (shape 0)
    let b := (tile (op.tiles.getLastD 0)).plane (shape 1)
    c.modAcc op.acc fun a => a.matrixOp drawer dist l.triple op.near as b (classRuns (fmtClass (shape 0).fmt))
  match op.instr with
  | .tld _ x =>
    planes.foldl (fun (k : Crew) p =>
      k.modTile p.2 fun t => t.load c (shape 0) x.src.toNat (op.off + p.1 * planeImage (shape 0) x.src.toNat)) c
  | .tst _ _ =>
    planes.foldl (fun (k : Crew) p => k.storeTile (tile p.2) (shape 0) (op.off + p.1 * planeImage (shape 0) 0)) c
  | .mma _ _ => multiply false
  | .mdist _ _ => multiply true
  | .azero _ _ _ => c.modAcc op.acc fun _ => Acc.zero
  | .acvt _ _ _ _ psel =>
    planes.foldl (fun (k : Crew) p =>
      k.modTile p.2 fun t =>
        t.convert acc drawer mode (shape 0).fmt (if 1 < op.tiles.length then p.1 else psel.toNat)) c
  | .atopk _ _ _ _ k init min => c.modAcc op.acc fun a => a.topk drawer k.toNat init min op.base
  | .asave _ x => c.saveAcc acc x.all op.off
  | .arest _ x => c.modAcc op.acc fun a => a.restore c x.all op.off
  | _ => c

/-- R350: what `ard` delivers: the words and which of them are poisoned. -/
def Crew.readAcc (c : Crew) (l : Launch) (op : MatOp) (psel : BitVec 2) (raw : Bool) : Row × Mask :=
  let acc := c.accs.getD op.acc Acc.zero
  let drawer : Drawer := ⟨l.rndkey, c.ref.crew, op.acc⟩
  let key (lane : Nat) : Nat :=
    4096 * (if l.triple then lane % 3 else psel.toNat) + (wordAt op.elems lane).toNat
  let inside (lane : Nat) : Bool := op.lanes.getLsbD lane && decide ((wordAt op.elems lane).toNat < 4096)
  (laneList.map fun lane =>
      if !inside lane then 0
      else if raw then (acc.cell (key lane)).1
      else BitVec.ofNat 32 (acc.readout drawer (unitMode l.triple op.near) (key lane)),
    maskOf fun lane => inside lane && acc.poison.contains (key lane))

/-- The results of an `ard` reach their registers or the row they were pushed as. -/
def Crew.deliver (c : Crew) (op : MatOp) (dst : Spec) (row : Row) (bad : Mask) : Crew :=
  match op.queue with
  | some q => c.modQueue q fun k =>
      { k with landing := k.landing.map fun x => if x.slot == op.landSlot then { x with words := row, poison := bad } else x }
  | none =>
    match dst with
    | .v _ | .vx _ =>
      c.modWarp op.warp.warp fun w => (maskLanes op.lanes).foldl (fun (w : Warp) l =>
        w.writeRow (op.rows.getD l 0) (1#48 <<< l) row bad) w
    | _ => c

end Sys2Proof.Machine
end

