-- ==== Sys2Proof/Machine/Time.lean ====
section
/-! DEFINITION. Passing cycles (01 R12; 16 R431), and when a warp may issue (02 R43 to R45; 06 R167). -/

namespace Sys2Proof.Machine

/-! ## Time -/

/-- Ticks of 1 ns and the rest of one, in parts of 1 / (kHz * 10^6), that `n` cycles add (R12, R431). -/
def Clock.ticksIn (c : Clock) (n : Nat) : Nat × Nat :=
  let total := c.phase + n * (1000000 * (1000000 + c.slewPpm).toNat)
  let unit := c.khz * 1000000
  (total / unit, total % unit)

/-- R431: a holdover lasts 10 s at most. -/
def Clock.holdoverOver (c : Clock) : Bool := c.holdover.any fun t => 10000000000 < (c.tick - t).toNat

/-- A holdover ends without a master: the device is unlocked. -/
def Clock.unlock (c : Clock) : Clock := { c with holdover := none, locked := false, slewPpm := 0 }

/-- R431: a hold lets the tick stand still for its length. -/
def Clock.pass (c : Clock) (n : Nat) : Clock :=
  let (t, phase) := c.ticksIn n
  let c := { c with cycle := c.cycle + n, phase, hold := c.hold - t, tick := c.tick + BitVec.ofNat 64 (t - c.hold) }
  if c.holdoverOver then c.unlock else c

def Warp.pass (w : Warp) (n : Nat) : Warp :=
  { w with stall := w.stall - n, redirect := w.redirect - n, switch := w.switch - n, wake := w.wake - n
           landed := w.landed - n }

/-- Whether a debugger holds a warp of the context stopped (R367). -/
def State.anyStopped (s : State) (x : CtxRef) : Bool :=
  s.crews.any fun c => ((s.launch? c.ref.launch).any fun l => l.ctx == x) && c.warps.any (·.stopped)

/-- `n` cycles pass: every count of a resident warp runs down, and the watchdog leaves out ticks in which a warp of the
context is stopped. Without power nothing passes (R392). -/
def State.elapse (s : State) (n : Nat) : State :=
  if n == 0 || !s.device.powered then s
  else
    let clock := s.clock.pass n
    let ticks := (clock.tick - s.clock.tick).toNat
    let held := (s.contexts.map (·.ref)).filter s.anyStopped
    let paused (c : Crew) : Bool := (s.launch? c.ref.launch).any fun l => held.contains l.ctx
    { s with
      clock
      crews := s.crews.map fun (c : Crew) =>
        if c.core.isNone then c
        else
          let more := if paused c then ticks else 0
          { c with warps := c.warps.map fun w =>
              if w.retired then w else { w.pass n with paused := w.paused + (if w.block.isSome then more else 0) } } }

/-! ## Eligibility -/

/-- The issue attempt that a warp's next instruction would make, as far as its registers, its lanes and the rows that it pops go. -/
def State.nextAttempt (s : State) (r : WarpRef) : Option (Cx ⊕ Fetched) :=
  match s.crew? r.crew, s.warp? r, s.launch? r.crew.launch with
  | some c, some w, some l =>
    match s.fetch l w.split.pc with
    | .ok i =>
      let g := i.ctl.guard
      let v := if g.neg then ~~~(w.pred g.p) else w.pred g.p
      let m := w.split.mask
      let act := match w.resolve l.triple m v with
        | .ok (_, v) => v &&& m
        | .error _ => v &&& m
      some (.inl (Cx.taking { s, ref := r, l, c, w, act, i, pops := [] }))
    | f => some (.inr f)
  | _, _, _ => none

/-- R45: a register of the next instruction with a write that has not landed. -/
def Cx.interlocked (x : Cx) : Bool :=
  (touched x).any fun r => x.w.flights.any fun f => f.regs.contains r

/-- R44: the flags that WAIT selects are zero, and SETF has room. -/
def Warp.flagsFree (w : Warp) (i : Instr) : Bool :=
  ((List.range 12).all fun k => !(i.ctl.wait.getLsbD k) || w.flag (k + 1) == 0) &&
    (i.ctl.setf == 0 || decide (w.flag i.ctl.setf.toNat < 63))

/-- R378: a breakpoint stands at the PC and the warp has not just been resumed from it. -/
def State.atBreakpoint (s : State) (r : WarpRef) (w : Warp) : Bool :=
  w.stopPc != some w.split.pc &&
    ((s.launch? r.crew.launch).bind fun l => s.context? l.ctx).any fun c =>
      c.debugger.isSome && c.breakpoints.any (·.2 == w.split.pc)

/-- A warp that stands on a core, with nothing that holds it but its next instruction. -/
def Warp.standing (w : Warp) : Bool :=
  !w.retired && !w.stopped && w.block.isNone && w.stall == 0 && w.redirect == 0 && w.switch == 0 &&
    w.wake == 0 && w.landed == 0

/-! ## Completion -/

/-- The instruction in flight completes: its flag drops and its `FPCTL` flags are set (R44, R110, R123). -/
def Warp.complete (w : Warp) (f : Flight) : Warp :=
  { (w.modFlag f.setf (· - 1)).raise (f.raise.getD 0) with flights := w.flights.filter fun x => x.id != f.id }

/-- The completion of a flight of a warp, with which its register writes and the rows it pushed land: a warp that the writes held
becomes eligible 2 cycles later (R45, R123). -/
def State.completeFlight (s : State) (r : WarpRef) (f : Flight) : State :=
  let held := match s.nextAttempt r with
    | some (.inl x) => (touched x).any f.regs.contains
    | _ => false
  (s.modWarp r fun w => { w.complete f with landed := if held then 2 else w.landed }).modCrew r.crew
    (·.landFlight r.warp f.id)

end Sys2Proof.Machine
end

