-- ==== Sys2Proof/Machine/Windows.lean ====
section
/-! DEFINITION. Class 0x5, window and register-pool instructions (07 R184 to R193). -/

namespace Sys2Proof.Machine

def Crew.quarterClaims (c : Crew) (q : Nat) : List Claim := c.claims.getD q []
def Crew.modClaims (c : Crew) (q : Nat) (f : List Claim → List Claim) : Crew := { c with claims := c.claims.modify q f }

/-- R190: the band grows by `n` rows: refilled or zero (R172, R186). -/
def Cx.grow (x : Cx) (n : Nat) (s : State) : Attempt :=
  let x := { x with s := s }
  let finish (s : State) : Attempt :=
    .done (s.modCrew x.ref.crew fun c => c.modClaims x.w.quarter fun l => l.filter (·.warp != x.ref.warp)) {}
  if x.w.bot + x.w.ring < min x.w.high x.w.spillLim then x.withMove x.w.bot (x.w.ring + n) finish
  else
    match s.moveBand x.ref x.w.bot (x.w.ring + n) with
    | .ok s => finish s
    | .wait s => .ends s
    | .suspended s _ => .ends s
    | .ended s => .ends s

/-- R185, R187, R190. -/
def execRclaim (c : Ctl) (n : Word) (s : State) := issue (.rclaim c n) s fun x =>
  let q := x.w.quarter
  let rows := n.toNat
  let claims := x.c.quarterClaims q
  let s := x.put x.w
  match claims.find? fun k => k.warp == x.ref.warp with
  | some k => if k.served then x.grow rows s else .block x.s (.claim rows)
  | none =>
    let set (served : Bool) : State := s.modCrew x.ref.crew fun c =>
      let c := c.modClaims q fun l => l ++ [⟨x.ref.warp, rows, served⟩]
      if served then { c with reserve := c.reserve.modify q (· - rows) } else c
    if x.c.budget.getD q 0 < x.w.ring + rows then .ends (x.s.claimDeadlock x.ref.crew q (some (x.ref.warp, rows)))
    else if claims.all (·.served) && rows ≤ x.c.reserve.getD q 0 then x.grow rows (set true)
    else .block (set false) (.claim rows)

/-- R190: rows above the new band are dropped, rows below it spilled. -/
def execRrelease (c : Ctl) (n : Word) (s : State) := issue (.rrelease c n) s fun x =>
  let rows := n.toNat
  let w := x.w
  let top := w.hi + 8 * w.reach
  if w.ring < rows + 8 then .trap { w with woc := 5 } 7 0
  else if w.ring - rows < top - w.lo then .trap { w with woc := 2 } 7 0
  else
    let ring := w.ring - rows
    let b := max w.bot (top - ring)
    let finish (s : State) : Attempt :=
      .done ((s.modWarp x.ref fun m =>
          { m with
            ring, high := b + ring, rows := m.rows.take ring, poison := m.poison.filter fun p => p.1 < b + ring
            numstat := w.numstat }).modCrew x.ref.crew fun c =>
        { c with reserve := c.reserve.modify w.quarter (· + rows) }) {}
    if b == w.bot then finish (x.put w) else x.withMove b (w.bot + w.ring - b) finish

/-- R191. -/
def execRpool (c : Ctl) (dst : Spec) (sel : Word) (s : State) := issue (.rpool c dst sel) s fun x =>
  let q := x.w.quarter
  let waiting := (x.c.quarterClaims q).filter fun k => !k.served
  let v : Nat :=
    match sel.toNat with
    | 0 => x.c.reserve.getD q 0
    | 1 => x.w.ring
    | 2 => x.c.budget.getD q 0
    | 3 => (waiting.map (·.rows)).sum
    | _ => waiting.length
  x.scalDone x.w dst (BitVec.ofNat 32 v)

/-- R192: every band row below the limit goes to the spill engine; the instruction completes when all are in memory. -/
def execWflush (c : Ctl) (s : State) := issue (.wflush c) s fun x =>
  let gs := ((List.range (x.w.ring / 8)).map (· + x.w.bot / 8)).filter fun g => 8 * g < x.w.spillLim
  match State.spillGranules x.ref x.l.ctx x.core x.w gs (x.put x.w) with
  | (s, false) => .block s .flush
  | (s, true) => .done s { flight := some .flush }

/-- R191. -/
def execWdepth (c : Ctl) (dst : Spec) (sel : Word) (s : State) := issue (.wdepth c dst sel) s fun x =>
  let v : Nat :=
    match sel.toNat with
    | 0 => x.sp.base
    | 1 => x.w.bot
    | 2 => x.w.high
    | 3 => x.w.lo
    | _ => x.w.hi
  x.scalDone x.w dst (BitVec.ofNat 32 v)

/-- R193: index register `k` of each active lane. -/
def Cx.setIndex (x : Cx) (k : Nat) (f : Nat → Int) : Warp :=
  { x.w with xregs := x.w.xregs.modify k fun old => laneList.map fun l =>
      if x.act.getLsbD l then BitVec.ofNat 8 (clampInt (f l) 0 255).toNat else old.getD l 0 }

def execXset (c : Ctl) (k : BitVec 2) (a : Spec) (lim : Word) (s : State) := issue (.xset c k a lim) s fun x =>
  let r := x.src a
  let w := x.setIndex k.toNat fun l => (wordAt r l).toInt
  .done (x.put { w with xlim := w.xlim.set k.toNat (lim.extractLsb' 0 8) }) {}

def execXadd (c : Ctl) (k : BitVec 2) (a : Spec) (ib : Bool) (imm : Word) (s : State) :=
  issue (.xadd c k a ib imm) s fun x =>
    let r := x.src a
    .done (x.put (x.setIndex k.toNat fun l =>
      ((x.w.index k.toNat l).toNat : Int) + (if ib then imm.toInt else (wordAt r l).toInt))) {}

end Sys2Proof.Machine
end

