-- ==== Sys2Proof/Machine/CoreEvents.lean ====
section
/-! DEFINITION. Events of a core: counts that elapse, completions, window moves and the spill engine, claims and deadlocks,
queue rows, barrier arrivals, waits, the matrix unit and errors. An event whose condition does not hold leaves the machine
as it is (log 1). -/

namespace Sys2Proof.Machine

/-- The shape of every event's meaning: a next state. -/
abbrev Answer := Host.Outcome State Fault Refusal

/-- A warp that has not retired, with its crew on a core. -/
def State.resident (s : State) (r : WarpRef) : Option (Crew × Warp) :=
  match s.crew? r.crew, s.warp? r with
  | some c, some w => if c.core.isSome && !w.retired then some (c, w) else none
  | _, _ => none

def State.onWarp (s : State) (r : WarpRef) (f : Crew → Warp → State) : Answer :=
  match s.resident r with
  | some (c, w) => .next (f c w)
  | none => .next s

/-- A crew on a core. -/
def State.onCrew (s : State) (r : CrewRef) (f : Crew → State) : Answer :=
  match s.crew? r with
  | some c => if c.core.isSome then .next (f c) else .next s
  | none => .next s

/-! ## Breakpoints and counts (R378, R43, R164) -/

/-- R378: the warp stops before it issues at a breakpoint PC; resumed, it issues there. -/
def execBreakpointHit (w : WarpRef) (s : State) : Answer := s.onWarp w fun _ m =>
  if m.stopped || !s.atBreakpoint w m then s
  else (s.modWarp w fun m => { m with stopPc := some m.split.pc }).debugHalt w 0

def execStallCountExpiry (w : WarpRef) (s : State) : Answer := s.onWarp w fun _ m => s.elapse m.stall
def execFetchRedirectExpiry (w : WarpRef) (s : State) : Answer := s.onWarp w fun _ m => s.elapse m.redirect
def execSplitSwitchExpiry (w : WarpRef) (s : State) : Answer := s.onWarp w fun _ m => s.elapse m.switch

/-! ## Completion (R44, R45, R192) -/

/-- Whether nothing but time stands between a flight and its completion. -/
def State.flightDone (s : State) (c : Crew) (r : WarpRef) (f : Flight) : Bool :=
  match f.kind with
  | .timed => true
  | .flush => !(s.coreAt c.coreNo).spillBuf.any (·.warp == r)
  | _ => false

/-- R123: the register results of a flight land as it completes. -/
def State.flightLands (s : State) (w : WarpRef) (k : Nat) : Answer := s.onWarp w fun c m =>
  match m.flights[k]? with
  | none => s
  | some f => if s.flightDone c w f then s.completeFlight w f else s

def execInstructionCompletion (w : WarpRef) (k : Nat) (s : State) : Answer := s.flightLands w k

/-- R45: the write lands. -/
def execRegisterWriteLands (w : WarpRef) (k : Nat) (s : State) : Answer := s.flightLands w k

/-! ## Window moves and spills (R175, R179) -/

/-- An operation of an engine still writes rows of the warp. -/
def Warp.rowsDue (w : Warp) : Bool := w.flights.any fun f =>
  (match f.kind with
    | .engine _ => true
    | _ => false) && f.regs.any fun r => match r with
      | .row _ => true
      | _ => false

/-- R175: the band moves, or its move at issue is let go on; a `wflush` goes on once the buffer has room (R179). -/
def execWindowMoveDone (w : WarpRef) (s : State) : Answer := s.onWarp w fun c m =>
  match m.block with
  | some (.move b now) =>
    if m.rowsDue then s
    else if !now then s.modWarp w fun m => { m.wakeUp with moved := some b }
    else
      match s.moveBand w b m.ring with
      | .ok s => s.modWarp w Warp.wakeUp
      | .wait s => s
      | .suspended s num => s.modWarp w fun m => { m with block := some (.fault num) }
      | .ended s => s
  | some .flush => if s.spillRoom c.coreNo then s.modWarp w Warp.wakeUp else s
  | _ => s

/-- Warps that wait for room in the spill buffer of a core. -/
def State.wakeFlush (s : State) (core : Nat) : State :=
  { s with crews := s.crews.map fun (c : Crew) =>
      if c.core != some core then c
      else { c with warps := c.warps.map fun w => if w.block == some .flush then w.wakeUp else w } }

/-- R179: granules of one warp and place go out in order; a suspended one waits for its record. -/
def execSpillWrite (core k : Nat) (s : State) : Answer :=
  let buf := (s.coreAt core).spillBuf
  match buf[k]? with
  | none => .next s
  | some g =>
    if s.spillHeld (buf.take k) g then .next s
    else
      match s.spillOut (.buffer core) g with
      | .done s => .next (s.wakeFlush core)
      | .suspended s | .ended s => .next s

/-! ## Claims and deadlocks (R185, R187, R210) -/

/-- R185: the oldest claim is served once the reserve holds its count. -/
def execClaimServed (cr : CrewRef) (quarter : Nat) (s : State) : Answer := s.onCrew cr fun c =>
  match (c.quarterClaims quarter).find? fun k => !k.served with
  | none => s
  | some k =>
    if c.reserve.getD quarter 0 < k.rows then s
    else s.modCrew cr fun c =>
      let c := c.modClaims quarter fun l => updWhere (fun x => x.warp == k.warp) (fun x => { x with served := true }) l
      { c with reserve := c.reserve.modify quarter (· - k.rows) }.modWarp k.warp Warp.wakeUp

/-- R187. -/
def Crew.claimsStuck (c : Crew) (quarter : Nat) : Bool :=
  let live := c.warps.filter fun w => w.quarter == quarter && !w.retired
  !live.isEmpty &&
    (live.all fun w => !w.stopped && match w.block with
      | some (.claim _) => true
      | _ => false) &&
    (((c.quarterClaims quarter).find? fun k => !k.served).any fun k => c.reserve.getD quarter 0 < k.rows)

def execClaimDeadlock (cr : CrewRef) (quarter : Nat) (s : State) : Answer := s.onCrew cr fun c =>
  if c.claimsStuck quarter then s.claimDeadlock cr quarter none else s

/-- Work that could still wake a warp of the crew (R210): its copies, operations, deliveries, landings and arrivals. -/
def State.crewPending (s : State) (c : Crew) : Bool :=
  (s.cores.any fun k =>
    (k.copies.any fun x => x.crew == c.ref) || ((k.matQueue ++ k.matUnit.toList ++ k.tilePath).any fun o => o.warp.crew == c.ref)) ||
    !c.arrivals.isEmpty ||
    (c.queues.any fun q => !q.pending.isEmpty || !q.landing.isEmpty || (q.headReady && !q.staged)) ||
    (s.contexts.any fun x =>
      (x.grace.frees.any fun f => f.queue.crew == c.ref) ||
        x.grace.starts.any fun m => match m with
          | .start _ (some f) => f.2.2.crew == c.ref
          | _ => false)

def Crew.allStuck (c : Crew) : Bool :=
  let live := c.warps.filter fun w => !w.retired
  !live.isEmpty && live.all fun w => !w.stopped && match w.block with
    | some (.queue _ _) | some (.claim _) | some (.barrier _ _) => true
    | _ => false

/-- R210; R187 takes precedence. -/
def execCrewDeadlock (cr : CrewRef) (s : State) : Answer := s.onCrew cr fun c =>
  if c.allStuck && !s.crewPending c && !([0, 1, 2, 3].any c.claimsStuck) then s.crewDeadlock cr else s

/-! ## Queues (R203, R209, R212, R218) -/

/-- Whether a readout of the matrix unit still has to supply a pushed row. -/
def State.rowDue (s : State) (q : CrewQueueRef) (slot : Nat) : Bool :=
  s.cores.any fun k => (k.matQueue ++ k.matUnit.toList).any fun o =>
    o.warp.crew == q.crew && o.queue == some q.q && o.landSlot == slot

/-- R203: the data of a pushed row lands, and its instruction completes with it where it is in flight (R44, R123). -/
def execQueueRowLands (q : CrewQueueRef) (k : Nat) (s : State) : Answer := s.onCrew q.crew fun c =>
  match c.queues[q.q]? with
  | none => s
  | some x =>
    match x.landing[k]? with
    | none => s
    | some l =>
      if s.rowDue q l.slot then s
      else match l.flight.bind fun f => (c.warps[f.1]?).bind fun w => (w.flights.find? (·.id == f.2)).map fun g => (f.1, g) with
      | some (w, f) => s.completeFlight ⟨q.crew, w⟩ f
      | none => s.modCrew q.crew (·.landRow q.q l)

def execQueueHeadStaged (q : CrewQueueRef) (s : State) : Answer := s.onCrew q.crew fun c =>
  match c.queues[q.q]? with
  | none => s
  | some x =>
    if !x.headReady || x.staged then s
    else s.modCrew q.crew fun c => (c.modQueue q.q fun x => { x with staged := true }).settleQueue q.q

/-- R212: the queue breaks, and the error is reported; the launch goes on (log 38). -/
def execQueueStateError (q : CrewQueueRef) (s : State) : Answer := s.onCrew q.crew fun c =>
  if c.queues.length ≤ q.q then s
  else
    let s := (s.modCrew q.crew fun c => c.breakQueue q.q 0x7F).discardBroken q.crew
    match s.launch? q.crew.launch with
    | none => s
    | some l => s.launchEvent l 7 0 (s.errorBody none .queueUnit c.coreNo 0 0)

def execDeliveryPendingSlot (q : CrewQueueRef) (s : State) : Answer := s.onCrew q.crew fun _ =>
  s.modCrew q.crew (·.settleQueue q.q)

/-! ## Barriers and waits (R273, R277) -/

/-- R273: an arrival is applied once the stores before it are performed, those of `tst` and `asave` among them (R342). -/
def execArrivalApplied (cr : CrewRef) (group bar warp : Nat) (s : State) : Answer := s.onCrew cr fun c =>
  match c.arrivals.find? fun a => a.group == group && a.bar == bar && a.warp == warp with
  | none => s
  | some a =>
    if (s.storing c.coreNo ⟨cr, warp⟩).any a.after.contains then s
    else s.modCrew cr fun c =>
      let c := c.modBarrier group bar fun b => { b with arrived := b.arrived ||| (1#64 <<< warp) }
      { c with arrivals := c.arrivals.erase a }.settleBarrier group bar

def execWaitEvaluation (w : WarpRef) (s : State) : Answer := .next (s.evaluateWait w)

/-- R277: a deadline or a tick condition whose time has come. -/
def execWaitDeadline (w : WarpRef) (s : State) : Answer :=
  match s.watch w with
  | none => .next s
  | some k =>
    let due := (k.w.deadline.join).any fun d => d.toNat ≤ s.clock.tick.toNat
    let tick := (s.waitAt w k.w).any fun x => (WaitArgs.slots x).any fun c => match c.2 with
      | .tick _ => k.holds c.2
      | _ => false
    .next (if due || tick then s.evaluateWait w else s)

/-! ## The matrix unit and the tile-load path (R340, R346 to R348) -/

/-- R340: the unit takes the oldest instruction of its queue. -/
def execMatrixUnitTake (core : Nat) (s : State) : Answer :=
  .next <| s.modCore core fun k =>
    match k.matUnit, k.matQueue with
    | none, o :: l => { k with matUnit := some o, matQueue := l }
    | _, _ => k

/-- The effect of an operation that completes, the counts of its tiles, and its instruction. -/
def State.completeOp (s : State) (op : MatOp) : State :=
  match s.launch? op.warp.crew.launch, s.warp? op.warp with
  | some l, some w =>
    let s := s.modCrew op.warp.crew fun c =>
      let c := match op.instr with
        | .ard _ dst _ _ _ psel raw =>
          let (row, bad) := c.readAcc l op psel raw
          c.deliver op dst row bad
        | _ => c.perform l op
      c.countTiles op (-1)
    match w.flights.find? fun f => f.kind == .engine op.id with
    | some f => s.completeFlight op.warp f
    | none => s
  | _, _ => s

def execMatrixOpCompletion (core : Nat) (s : State) : Answer :=
  match (s.coreAt core).matUnit with
  | none => .next s
  | some o => .next ((s.modCore core fun k => { k with matUnit := none }).completeOp o)

def execTilePathCompletion (core : Nat) (s : State) : Answer :=
  match (s.coreAt core).tilePath with
  | [] => .next s
  | o :: l => .next ((s.modCore core fun k => { k with tilePath := l }).completeOp o)

/-! ## Errors and cache lines (R428, R257) -/

/-- The launches of a context that have not ended. -/
def State.openLaunches (s : State) (x : CtxRef) : List Nat :=
  (s.launches.filter fun l => l.ctx == x && l.done.isNone).map (·.id)

/-- Every launch of a context ends with a status, and its command queues stop (R368; log 39). -/
def State.endContext (s : State) (x : CtxRef) (status : Nat) : State :=
  let s := (s.openLaunches x).foldl (fun s id => s.endNow id status) s
  { s with queues := s.queues.map fun q =>
      if q.ref.part == x.part && q.ctx == some x.ctx then { q with stopped := true, waiting := none } else q }

/-- The two 4-byte words of the 64 bits that the check bits of offset `off` cover (R427, log 61). -/
def poisonPair (off : Nat) (ps : List Nat) : List Nat := setInsert (off / 8 * 2 + 1) (setInsert (off / 8 * 2) ps)

/-- The entries `4 k` to `4 k + 3` of a scale store, which one 64-bit word holds. -/
def poisonEntries (n : Nat) (ps : List Nat) : List Nat := (List.range 4).foldl (fun ps k => setInsert (n / 4 * 4 + k) ps) ps

def CacheRef.modLine (c : CacheRef) (k : Nat) (f : Line → Line) (s : State) : State :=
  match c with
  | .l1 core => s.modCore core fun x => { x with l1 := x.l1.modify k f }
  | .rdc die => s.modDie die fun x => { x with rdc := x.rdc.modify k f }

/-- The word of an error that nothing has consumed yet is poisoned, without a record; an error in a core's control
state ends every context on the core and takes the core out of service (R428). A corrected error is counted (R427). -/
def execUncorrectableError (e : ErrorSite) (s : State) : Answer :=
  match e with
  | .memory pa => .next { s with memPoison := poisonPair pa s.memPoison }
  | .register w row lane => s.onWarp w fun _ m =>
      if m.bot ≤ row && row < m.bot + m.ring && lane < 48 && !m.poisoned row lane then
        s.modWarp w fun m => { m with poison := m.poison ++ [(row, lane)] }
      else s
  | .scalar w n => s.onWarp w fun _ m =>
      if n < m.scalars.length && !m.scalarPoison.contains n then
        s.modWarp w fun m => { m with scalarPoison := n :: m.scalarPoison }
      else s
  | .cacheLine cache line off => .next (CacheRef.modLine cache line (fun l =>
      if off < 128 then { l with poison := poisonPair (l.addr * 128 + off) l.poison } else l) s)
  | .spillBuffer core granule row lane => .next (s.modCore core fun k =>
      { k with spillBuf := k.spillBuf.modify granule fun g =>
          let at_ := (8 * g.index + row, lane)
          if row < 8 && lane < 48 && !g.poison.contains at_ then { g with poison := at_ :: g.poison } else g })
  | .scratch cr off => s.onCrew cr fun c =>
      if off < c.scratchSize then s.modCrew cr fun c => { c with scratchPoison := poisonPair off c.scratchPoison } else s
  | .tile cr t off => s.onCrew cr fun _ => s.modCrew cr fun c => c.modTile t fun x =>
      if off < 32768 then { x with poison := poisonPair off x.poison } else x
  | .scale cr t entry => s.onCrew cr fun _ => s.modCrew cr fun c => c.modTile t fun x =>
      if entry < 2048 then { x with scalePoison := poisonEntries entry x.scalePoison } else x
  | .accumulator cr a plane i j => s.onCrew cr fun _ => s.modCrew cr fun c => c.modAcc a fun x =>
      if plane < 3 && i < 64 && j < 64 then { x with poison := setInsert (4096 * plane + 64 * i + j) x.poison } else x
  | .corrected => .next { s with device := { s.device with corrected := s.device.corrected + 1 } }
  | .coreControl core =>
    let ctxs := ((s.crews.filter fun c => c.core == some core).filterMap fun c => (s.launch? c.ref.launch).map (·.ctx)).eraseDups
    let s := ctxs.foldl (fun s x => s.endContext x 23) s
    .next { s with device := { s.device with
      outOfService := if s.device.outOfService.contains core then s.device.outOfService else core :: s.device.outOfService } }

/-- R257. -/
def dropExpired (now k : Nat) (ls : List Line) : List Line :=
  match ls[k]? with
  | some l => if l.valid now then ls else ls.eraseIdx k
  | none => ls

def execLineAgeExpiry (cache : CacheRef) (line : Nat) (s : State) : Answer :=
  let now := s.clock.cycle
  match cache with
  | .l1 core => .next (s.modCore core fun k => { k with l1 := dropExpired now line k.l1 })
  | .rdc die => .next (s.modDie die fun d => { d with rdc := dropExpired now line d.rdc })

end Sys2Proof.Machine
end

