-- ==== Sys2Proof/Machine/Office.lean ====
section
/-! DEFINITION. The sorting office's handling of command queues (16 R400 to R404, R413): kicks, reading a packet, stale and
bad packets, and how a packet ends. -/

namespace Sys2Proof.Machine

/-! ## Bytes of a packet -/

def byteAt (b : List Byte) (o : Nat) : Nat := (b.getD o 0).toNat
def fieldAt (b : List Byte) (o n : Nat) : Nat := leNat ((b.drop o).take n)

/-- The bytes from `o` on, `n` of them, are zero. -/
def zeroAt (b : List Byte) (o n : Nat) : Bool := ((b.drop o).take n).all (· == 0)

/-- Every byte from `o` to the end that no field of the list names is zero (R415; log 46 for the other kinds). -/
def restZero (b : List Byte) (o : Nat) (named : List (Nat × Nat)) : Bool :=
  (List.range (128 - o)).all fun k =>
    byteAt b (o + k) == 0 || named.any fun f => f.1 ≤ o + k && o + k < f.1 + f.2

def powerOfTwo (n lo hi : Nat) : Bool := lo ≤ n && n ≤ hi && n &&& (n - 1) == 0

/-! ## Records of a queue -/

/-- R402, R403: a record of kind 3 (status 1 stale, 2 bad packet, 3 bad kick), and the queue stops. A bad kick is no packet's:
its tag is 0. -/
def State.stopWith (s : State) (q : CmdQueue) (status : Nat) (index seq : BitVec 32) (tag : DWord) : State :=
  (s.queueEvent q (recordBytes 3 status q.ref.q seq s.clock.tick tag (leBytes 4 index.toNat ++ leBytes 4 seq.toNat))).modCmdQueue
    q.ref fun q => { q with stopped := true, rereads := 0, fetched := none }

/-- The physical address of the packet at the head (R400). -/
def CmdQueue.headAt (q : CmdQueue) : Nat := q.base + 128 * (q.head.toNat % q.size)

/-- The sequence number the packet at the head must carry. -/
def CmdQueue.expected (q : CmdQueue) : BitVec 32 := q.seqbase + q.head

/-- R428: the office consumes a poisoned word of the packet at the head. What it should do is unknown: the queue stops, after the
record of the error (log 18). -/
def State.poisonedPacket (s : State) (q : CmdQueue) : State :=
  (s.queueEvent q (recordBytes 7 0 q.ref.q q.expected s.clock.tick 0 (s.errorBody (some q.headAt) .office 0 0 0))).modCmdQueue
    q.ref fun q => { q with stopped := true, rereads := 0, fetched := none }

/-! ## Kicks (R402) -/

/-- A kick value checked against the queue as it stands. -/
def State.checkKick (s : State) (q : CmdQueue) (v : BitVec 32) : State :=
  if 2 ^ 31 ≤ (v - q.last).toNat || q.size < (v - q.head).toNat then s.stopWith q 3 v 0 0
  else s.modCmdQueue q.ref fun q => { q with last := v }

def execKick (q : QueueRef) (value : BitVec 32) (s : State) : Answer :=
  match s.cmdQueue? q with
  | none => .next (if s.device.powered then s.countError else s)
  | some c =>
    if c.stopped then .next (s.modCmdQueue q fun c => { c with remembered := some value })
    else .next (s.checkKick c value)

/-! ## Reading packets -/

/-- The 128 bytes of the packet at the head, and whether a word of them is poisoned. -/
def State.headRead (s : State) (q : CmdQueue) : List Byte × Bool :=
  s.physRead ⟨⟨q.ref.part, q.ctx.getD 0⟩, none, none⟩ q.headAt 128

def State.headBytes (s : State) (q : CmdQueue) : List Byte := (s.headRead q).1

def packetSeq (b : List Byte) : BitVec 32 := BitVec.ofNat 32 (fieldAt b 4 4)
def packetTag (b : List Byte) : DWord := BitVec.ofNat 64 (fieldAt b 8 8)

/-- R402, R403: the packet read at the head stops the queue; its record carries its sequence number and its Tag. -/
def State.refusePacket (s : State) (q : CmdQueue) (status : Nat) (b : List Byte) : State :=
  s.stopWith q status q.head (packetSeq b) (packetTag b)

/-- Whether the office may look at the packet at the head: it was announced, the queue runs, no wait-on-value holds it
back (R404), no packet awaits a re-read, and the control queue's ring has room (R401). -/
def State.mayRead (s : State) (q : CmdQueue) : Bool :=
  !q.stopped && q.head != q.last && q.waiting.isNone && q.rereads == 0 &&
    (q.ctx.isSome || (s.partition? q.ref.part).any fun p => p.ring.held.isEmpty && !p.ring.full)

/-- R403, R401: the header, and the kinds that a queue accepts. -/
def headerOk (q : CmdQueue) (b : List Byte) : Bool :=
  let kind := byteAt b 0
  1 ≤ kind && kind ≤ 6 && byteAt b 1 < 4 && zeroAt b 2 2 && (q.ctx.isSome || 5 ≤ kind)

/-- A packet as the office carries it. -/
def packetOf (q : CmdQueue) (b : List Byte) : Pending where
  index := q.head
  seq := packetSeq b
  tag := packetTag b
  compl := (byteAt b 1).testBit 0
  kind := byteAt b 0
  body := b

/-- What a look at the head of a queue comes to. -/
inductive Look where
  | nothing
  /-- The packet is stale: its first re-read is due 250 ns later. -/
  | stale
  | bad
  /-- A word of it is poisoned. -/
  | poisoned
  | held
  | packet (p : Pending)
  deriving DecidableEq, Repr

/-- R402 to R404, R413, R417: `legal` are the kind's own rules. A packet with FENCE, and a write-value, start when every
earlier one has completed. A launch waits while its context's event ring is full. -/
def State.lookAt (s : State) (q : CmdQueue) (kind : Nat) (legal : CmdQueue → List Byte → Bool) : Look :=
  if !s.mayRead q then .nothing
  else if q.fetched.isNone && (s.headRead q).2 then .poisoned
  else
    let b := q.fetched.getD (s.headBytes q)
    if packetSeq b != q.expected then .stale
    else if !headerOk q b then .bad
    else if byteAt b 0 != kind then .nothing
    else if !legal q b then .bad
    else if ((byteAt b 1).testBit 1 || kind == 3) && !q.pending.isEmpty then .held
    else if kind == 1 && (q.ctx.bind fun c => s.context? ⟨q.ref.part, c⟩).any (fun c => !c.ring.held.isEmpty || c.ring.full)
      then .held
    else .packet (packetOf q b)

/-- Accept the packet at the head: it is pending until it completes. -/
def State.accept (s : State) (q : QueueRef) (p : Pending) : State :=
  s.modCmdQueue q fun c => { c with head := c.head + 1, rereads := 0, fetched := none, pending := c.pending ++ [p] }

/-- R402: the office takes the packet at the head of a queue when it is of the kind that `body` handles. -/
def State.take (s : State) (r : QueueRef) (kind : Nat) (legal : CmdQueue → List Byte → Bool)
    (body : State → CmdQueue → Pending → State) : Answer :=
  match s.cmdQueue? r with
  | none => .next s
  | some q =>
    match s.lookAt q kind legal with
    | .nothing | .held => .next s
    | .stale => .next (s.modCmdQueue r fun c => { c with rereads := 1, readTick := s.clock.tick })
    | .poisoned => .next (s.poisonedPacket q)
    | .bad => .next (s.refusePacket q 2 (q.fetched.getD (s.headBytes q)))
    | .packet p => .next (body (s.accept r p) q p)

/-- R402: eight re-reads, 250 ns apart. -/
def execPacketReread (r : QueueRef) (s : State) : Answer :=
  match s.cmdQueue? r with
  | none => .next s
  | some q =>
    if q.stopped || q.rereads == 0 || s.clock.tick.toNat < q.readTick.toNat + 250 then .next s
    else
      let b := s.headBytes q
      if (s.headRead q).2 then .next (s.poisonedPacket q)
      else if packetSeq b == q.expected then .next (s.modCmdQueue r fun c => { c with rereads := 0, fetched := some b })
      else if q.rereads == 8 then .next (s.refusePacket q 1 b)
      else .next (s.modCmdQueue r fun c => { c with rereads := c.rereads + 1, readTick := s.clock.tick })

/-! ## How packets end -/

/-- R418: a record under a packet's queue, sequence number and tag. -/
def State.packetEvent (s : State) (q : CmdQueue) (p : Pending) (kind status : Nat) (body : List Byte) : State :=
  s.queueEvent q (recordBytes kind status q.ref.q p.seq s.clock.tick p.tag body)

/-- The packet completes with a status; statuses other than 0 are always reported (R414, R449). -/
def State.finishPacket (s : State) (q : CmdQueue) (p : Pending) (status : Nat) : State :=
  let s := if p.compl || status != 0 then s.packetEvent q p 1 status [] else s
  s.packetDone q.ref p.seq

/-- R413: a fault in a packet's own access: a memory-fault record of the sorting office, a completion record of status 27,
and the queue stops. An access that met a poisoned word, in its walk or as its data, leaves the record of that error in its place (R428). -/
def State.packetFault (s : State) (q : CmdQueue) (p : Pending) (k : Acc4) (v : VFault) (unit : ErrorUnit := .walk) : State :=
  let count := ((q.ctx.bind fun c => s.context? ⟨q.ref.part, c⟩).map (·.faultCount)).getD 0
  let f : MemFault :=
    { va := v.va, code := v.code, fatal := true, mask := 0, acc := k, agent := 3, core := 0, quarter := 0, warp := 0, pc := 0,
      crew := 0, handle := 0 }
  let s := if 16 ≤ v.code then s.packetEvent q p 7 0 (s.errorBody (some (v.code - 16)) unit 0 0 0)
    else s.packetEvent q p 2 1 (f.body (2 ^ 31 + count % 2 ^ 31))
  (s.finishPacket q p 27).modCmdQueue q.ref fun c => { c with stopped := true }

end Sys2Proof.Machine
end

