-- ==== Sys2Proof/Machine/CopyEvents.lean ====
section
/-! DEFINITION. The copy engine's events: a unit lands or faults (12 R303 to R305, R308 to R310; 16 R413). -/

namespace Sys2Proof.Machine

/-! ## Landing (R304, R305, R308) -/

def State.modCopy (s : State) (core k : Nat) (f : Copy → Copy) : State :=
  s.modCore core fun x => { x with copies := x.copies.modify k f }

/-- Stores of a leading paired crew wait for room in the hold, and those of a lagging one that pass the reserve end the
launch (R424). The answer is none when the unit waits. -/
def State.copyRoom (s : State) (core : Nat) (c : Copy) (u : Nat) : Option Bool :=
  match s.launch? c.crew.launch with
  | some l =>
    if !l.paired || !c.isStore then some true
    else
      let used := s.holdUsed (dieOfCore core) + c.unitBytes u
      let count (r : WarpRef) : Nat := ((s.warp? r).map (·.stores)).getD 0
      let own : WarpRef := ⟨c.crew, c.warp⟩
      if used ≤ holdSize then some true
      else if count (twinOf own) < count own then none
      else some (decide (used ≤ holdSize + 0x10_0000))
  | none => some true

/-- The aperture that a unit's global address translates into. -/
def Copy.apertureOf (c : Copy) (u : Nat) (rs ws : List Leaf) : Option Nat :=
  match (if c.isStore then ws else rs).head?, (c.pieces u).head? with
  | some l, some p => l.aperture p.1
  | _, _ => none

/-- R305: the postmark, before the last subtraction. -/
def State.postmark (s : State) (c : Copy) (r : CrewRef) : State :=
  match c.mark with
  | none => s
  | some (po, pv) => s.modCrew r fun k =>
      let o := k.windowBase c.group + po
      (k.scratchWrite o (leBytes 4 pv.toNat) false).clearShadow o 4

/-- The unit of a receiver is counted; the last one brings the postmark, the completion and the acknowledgement. A dropped subtraction
abandons what remains of the copy (R310). -/
def State.countUnit (s : State) (core k : Nat) (c : Copy) (n u : Nat) (r : Receiver) : State :=
  let last := (List.range c.units).all fun v => v == u || r.counted.contains v
  let valid := ((s.crew? r.crew).bind c.barrierIn).any fun b => !b.inv
  let s := s.modCopy core k fun x =>
    { x with receivers := x.receivers.modify n fun y => { y with counted := u :: y.counted, finished := last } }
  let s := if last && valid then s.postmark c r.crew else s
  match s.subtract core c r.crew (c.unitBytes u) with
  | (s, false) => s.stopCopy core c
  | (s, true) =>
    if last && c.multicasts then
      match s.subtract core c c.crew 1 with
      | (s, false) => s.stopCopy core c
      | (s, true) => s
    else s

/-- A copy whose receivers have all had everything is done. -/
def State.retireCopy (s : State) (core k : Nat) : State :=
  match (s.coreAt core).copies[k]? with
  | some c =>
    if c.receivers.all (·.finished) then s.modCore core fun x => { x with copies := x.copies.eraseIdx k } else s
  | none => s

/-- The unit of a copy packet is written; the last one completes the packet (R413). -/
def State.countPacket (s : State) (core k : Nat) (c : Copy) (u : Nat) (r : Receiver) (q : QueueRef) (index : BitVec 32) :
    State :=
  let last := (List.range c.units).all fun v => v == u || r.counted.contains v
  let s := s.modCopy core k fun x =>
    { x with receivers := x.receivers.map fun y => { y with counted := u :: y.counted, finished := last } }
  if !last then s
  else
    let s := s.retireCopy core k
    match s.cmdQueue? q with
    | none => s
    | some x => match x.pending.find? (·.index == index) with
      | some p => s.finishPacket x p 0
      | none => s

def State.unitReplay (s : State) (c : Copy) : Bool := ((s.launch? c.crew.launch).map (·.replay)).getD false

/-- Move a unit that nothing holds back, and count it. -/
def State.landUnit (s : State) (core k : Nat) (c : Copy) (n u : Nat) (r : Receiver) (rs ws : List Leaf) : State :=
  let data := s.copyData c rs u
  let s := (rs ++ ws).foldl (fun s l => s.noteLeaf c.ctx l) s
  let s := s.copyPut c r.crew ws u data fun _ => true
  let ap := c.apertureOf u rs ws
  let s := match c.kind with
    | .linear _ true => s.modCopy core k fun x => { x with aperture := x.aperture.or ap }
    | _ => s
  match c.kind with
  | .packet q index _ => s.countPacket core k c u r q index
  | _ => (s.countUnit core k c n u r).retireCopy core k

def execCopyUnitLanded (core k unit receiver : Nat) (s : State) : Answer :=
  match (s.coreAt core).copies[k]? with
  | none => .next s
  | some c =>
    match c.receivers[receiver]? with
    | none => .next s
    | some r =>
      if c.suspended.isSome || c.units ≤ unit || r.counted.contains unit || r.finished || s.unitHeld ((s.coreAt core).copies.take k) c r.crew unit then
        .next s
      else
        match s.copyCheck c (s.unitReplay c) unit with
        | .error _ => .next s
        | .ok (rs, ws) =>
          if c.multicasts && (s.crew? r.crew).isNone then .next ((s.dropUpdate core c 2 r.crew (c.uncounted r)).stopCopy core c)
          else match s.copyRoom core c unit with
            | none => .next s
            | some false => .next (s.endLaunch c.crew.launch 25)
            | some true => .next (s.landUnit core k c receiver unit r rs ws)

/-! ## Faults (R310, R413) -/

/-- A fault of the engine at a unit of a copy; a fatal one stops the copy. -/
def State.copyFault (s : State) (core : Nat) (c : Copy) (a : Acc4) (v : VFault) : MemFault :=
  { va := v.va, code := v.code, fatal := v.fatal, mask := 0, acc := a, agent := 1, core
    quarter := ((s.warp? ⟨c.crew, c.warp⟩).map (·.quarter)).getD 0, warp := c.warp, pc := 0, crew := c.crew.crew
    handle := c.handle }

def execCopyUnitFault (core k unit : Nat) (s : State) : Answer :=
  match (s.coreAt core).copies[k]? with
  | none => .next s
  | some c =>
    if c.suspended.isSome || c.units ≤ unit || !(c.receivers.any fun r => !r.finished && !r.counted.contains unit) then .next s
    else
      match s.copyCheck c (s.unitReplay c) unit with
      | .ok _ => .next s
      | .error (v, a) =>
        match c.kind with
        | .packet q index _ =>
          let s := s.modCore core fun x => { x with copies := x.copies.eraseIdx k }
          match s.cmdQueue? q with
          | none => .next s
          | some x => match x.pending.find? (·.index == index) with
            | some p => .next (s.packetFault x p a v)
            | none => .next s
        | _ =>
          let f := s.copyFault core c a v
          if v.fatal then .next ((s.stopCopy core c).fatal c.crew.launch f)
          else match s.launch? c.crew.launch with
            | none => .next s
            | some l =>
              let (s, num) := s.replayable l f
              .next (s.modCopy core k fun x => { x with suspended := some num })

/-- The global addresses of the units that a copy has not counted. -/
def Copy.addressesDue (c : Copy) : List Nat :=
  ((List.range c.units).filter fun u => c.receivers.any fun r => !r.counted.contains u).flatMap fun u => (c.pieces u).map (·.1)

/-- A fatal fault of a copy whose fabric link cannot recover, or whose peer reports a fault (R309, R396): kinds 12 and
11 of R238, at the address of a unit that has not been moved. -/
def State.fabricFault (s : State) (core : Nat) (c : Copy) (va code : Nat) : State :=
  (s.stopCopy core c).fatal c.crew.launch (s.copyFault core c (if c.isStore then .copyWrite else .copyRead) ⟨va, code, true⟩)

/-- The fabric copies of a crew, with their cores. -/
def State.fabricCopies (s : State) (r : CrewRef) : List (Nat × Copy) :=
  (List.range s.cores.length).flatMap fun n => ((s.coreAt n).copies.filter fun c => c.crew == r && match c.kind with
    | .linear _ true => true
    | _ => false).map fun c => (n, c)

end Sys2Proof.Machine
end

