-- ==== Sys2Proof/Machine/GraceOps.lean ====
section
/-! DEFINITION. Class 0x9, grace-period instructions (11 R280 to R295). What a core sends to the grace home waits in the
context's grace record until an event delivers it. -/

namespace Sys2Proof.Machine

def State.modGrace (s : State) (x : CtxRef) (f : Grace → Grace) : State :=
  s.modContext x fun c => { c with grace := f c.grace }

def Cx.grace (y : Cx) : Grace := ((y.s.context? y.l.ctx).map (·.grace)).getD (Grace.new [])
def Cx.graceCopy (y : Cx) : GraceCopy := y.grace.copy y.core

def Grace.sendStart (g : Grace) (r : WarpRef) (free : Option (DWord × Word × CrewQueueRef)) : Grace :=
  { g with starts := g.starts ++ [.start r free] }
def Grace.sendDepth (g : Grace) (r : WarpRef) (tag : Option DWord) (after : List Nat := []) (stores : Nat := 0) : Grace :=
  { g with depths := g.depths ++ [.depth r tag after stores] }

/-- R288: a release at `.dev` scope is a compare point of a paired launch (R424). -/
def Cx.released (y : Cx) (go : Attempt) : Attempt := if y.l.paired && !y.w.passed then y.comparePoint else go

/-- R280, R288, R296: the acquire is made when the core's copy of CUR has advanced since the last one. -/
def execRdenter (c : Ctl) (s : State) := issue (.rdenter c) s fun y =>
  let k := y.graceCopy
  if y.w.depth == 255 then .trap y.w 1 1
  else
    let s := if k.seen == k.cur then y.s
      else (y.s.invalidate y.core).modGrace y.l.ctx fun g => g.modCopy y.core fun k => { k with seen := k.cur }
    if y.w.depth == 0 then
      .done ((s.modGrace y.l.ctx (·.sendDepth y.ref (some k.cur))).modWarp y.ref fun _ =>
        { y.w with depth := 1, tag := k.cur }) {}
    else .done (s.modWarp y.ref fun _ => { y.w with depth := y.w.depth + 1 }) {}

/-- R292: it issues at once, and the depth change follows the stores that the warp has still to perform. -/
def execRdexit (c : Ctl) (s : State) := issue (.rdexit c) s fun y =>
  if y.w.depth == 0 then .trap y.w 1 1
  else y.released <|
    let s := if y.w.depth == 1 then y.s.modGrace y.l.ctx (·.sendDepth y.ref none (y.s.storing y.core y.ref) y.w.stores) else y.s
    .done (s.modWarp y.ref fun _ => { y.w with depth := y.w.depth - 1 }) { flight := none }

/-- R293: the number comes back later. -/
def execGstart (c : Ctl) (dst : Spec) (s : State) := issue (.gstart c dst) s fun y => y.released <|
  .done ((y.s.modGrace y.l.ctx (·.sendStart y.ref none)).modWarp y.ref fun _ => y.w) { flight := some (.grace none) }

/-- R293: the start goes out with the first attempt; the warp is blocked until its period is complete. -/
def execGsync (c : Ctl) (dst : Spec) (s : State) := issue (.gsync c dst) s fun y =>
  if y.w.depth != 0 then .trap y.w 1 1
  else if !y.w.graceSent then
    y.released (.block ((y.s.modGrace y.l.ctx (·.sendStart y.ref none)).modWarp y.ref fun w => { w with graceSent := true })
      (.grace 0))
  else
    match y.w.graceWait with
    | none => .block y.s (.grace 0)
    | some n =>
      if n.toNat ≤ y.graceCopy.done.toNat then
        .done ((y.acquire y.s true .dev).modWarp y.ref fun _ => y.writeScal64 y.w dst n) {}
      else .block y.s (.grace n)

/-- R289, R294. -/
def execDfree (c : Ctl) (a len : Spec) (q : BitVec 3) (s : State) := issue (.dfree c a len q) s fun y =>
  match y.w.binding q with
  | none => .trap y.w 1 1
  | some b =>
    if freeLimit ≤ y.grace.freeCount then
      .block y.s (.grace (((y.grace.frees.head?).map (·.entry.num)).getD 0))
    else y.released <|
      let free := (y.scal64 a, y.scal len, (⟨y.ref.crew, b.queue⟩ : CrewQueueRef))
      .done ((y.s.modGrace y.l.ctx (·.sendStart y.ref (some free))).modWarp y.ref fun _ => y.w)
        { flight := some (.grace none) }

/-- R295. -/
def execGstat (c : Ctl) (dst : Spec) (sel : BitVec 12) (s : State) := issue (.gstat c dst sel) s fun y =>
  match sel.toNat with
  | 0 => y.pairDone y.w dst y.graceCopy.cur
  | 1 => y.pairDone y.w dst y.graceCopy.done
  | 2 => y.scalDone y.w dst (BitVec.ofNat 32 y.w.depth)
  | 3 => y.pairDone y.w dst (if y.w.depth == 0 then 0 else y.w.tag)
  | _ => y.scalDone y.w dst (BitVec.ofNat 32 y.grace.frees.length)

end Sys2Proof.Machine
end

