-- ==== Sys2Proof/Machine/GraceEvents.lean ====
section
/-! DEFINITION. The grace unit's events (11 R283 to R285, R289, R296): messages that reach the home, numbers that come back,
what the cores' copies take, and deliveries of deferred frees. -/

namespace Sys2Proof.Machine

/-- The warps of a context whose crews stand on a core that `p` selects. -/
def State.modWarpsOf (s : State) (x : CtxRef) (p : Nat → Bool) (f : Warp → Warp) : State :=
  { s with crews := s.crews.map fun (c : Crew) =>
      if (c.core.any p) && (s.launch? c.ref.launch).any (fun l => l.ctx == x) then { c with warps := c.warps.map f } else c }

/-! ## The home -/

/-- The number of a start goes to the warp's oldest flight without one, else to its `gsync` (R293, R296). -/
def Warp.takeNumber (w : Warp) (n : DWord) : Warp :=
  match w.flights.find? (·.kind == .grace none) with
  | some f => { w with flights := w.flights.map fun g => if g.id == f.id then { g with kind := .grace (some n) } else g }
  | none => if w.graceSent then { w with graceWait := some n } else w

/-- R284: starts are served one at a time, in order of arrival. -/
def execGraceStartAtHome (x : CtxRef) (s : State) : Answer :=
  match (s.context? x).map fun (c : Context) => c.grace.starts with
  | some (GraceMsg.start w free :: rest) =>
    let s := s.modGrace x fun g =>
      let n := g.cur + 1
      { g with
        cur := n
        starts := rest
        frees := match free with
          | some (a, len, q) => g.frees ++ [Free.mk ⟨a, len, n⟩ q]
          | none => g.frees }.settle
    let n := ((s.context? x).map (·.grace.cur)).getD 0
    .next (s.modWarp w (·.takeNumber n))
  | _ => .next s

/-- Whether the stores that a depth change follows are performed: those of `tst` and `asave` (R288, R292, R342), and those that a paired
launch held until a compare point (R422). -/
def State.storesDone (s : State) (w : WarpRef) (after : List Nat) (stores : Nat) : Bool :=
  (((s.crew? w.crew).bind (·.core)).all fun k => !(s.storing k w).any after.contains) &&
    (s.launch? w.crew.launch).all fun l => !(l.paired && l.hold.any fun h =>
      h.crew == w.crew && h.warp == w.warp && h.store != 0 && h.store ≤ stores)

/-- The oldest depth change that may arrive: one follows the stores it is a release of, and those of one warp arrive in order (R285).
`late` are the warps whose changes wait. -/
def State.nextDepth (s : State) (late : List WarpRef) : List GraceMsg → Option GraceMsg
  | [] => none
  | .start _ _ :: l => s.nextDepth late l
  | .depth w tag after stores :: l =>
    if late.contains w || !s.storesDone w after stores then s.nextDepth (w :: late) l else some (.depth w tag after stores)

/-- R285: the oldest depth change that is on its way and may arrive. -/
def execDepthChangeAtHome (x : CtxRef) (s : State) : Answer :=
  match ((s.context? x).map fun (c : Context) => c.grace.depths).bind (s.nextDepth []) with
  | some (GraceMsg.depth w tag after stores) =>
    .next (s.modGrace x fun g =>
      let others := g.sections.filter (·.warp != w)
      { g with
        depths := g.depths.erase (.depth w tag after stores)
        sections := match tag with
          | some t => others ++ [Section.mk w t false]
          | none => others }.settle)
  | _ => .next s

/-- R283: the core's copy takes the next value of CUR. -/
def execCurReceived (x : CtxRef) (core : Nat) (s : State) : Answer :=
  .next (s.modGrace x fun g =>
    g.modCopy core fun k => if k.cur.toNat < g.cur.toNat then { k with cur := k.cur + 1 } else k)

/-- The depth changes of a core's warps that have not reached the home (R283). -/
def State.depthsFrom (s : State) (g : Grace) (core : Nat) : Bool :=
  g.depths.any fun m => match m with
    | .depth w _ _ _ => ((s.crew? w.crew).bind (·.core)) == some core
    | .start _ _ => false

/-- The lowest acknowledgement of the cores. -/
def Grace.lowestAck (g : Grace) : DWord :=
  match g.copies with
  | [] => g.ack
  | k :: ks => ks.foldl (fun a c => if c.acked.toNat < a.toNat then c.acked else a) k.acked

def execCurAcknowledged (x : CtxRef) (core : Nat) (s : State) : Answer :=
  match (s.context? x).map (·.grace) with
  | none => .next s
  | some g =>
    if s.depthsFrom g core then .next s
    else .next (s.modGrace x fun g =>
      let g := g.modCopy core fun k => { k with acked := k.cur }
      let a := g.lowestAck
      { g with ack := if g.ack.toNat < a.toNat then a else g.ack }.settle)

/-! ## What reaches the cores -/

/-- R285: the core's copy of DONE, and the warps that it wakes. -/
def execDoneReceived (x : CtxRef) (core : Nat) (s : State) : Answer :=
  match (s.context? x).map (·.grace.done) with
  | none => .next s
  | some d =>
    let s := s.modGrace x fun g => g.modCopy core fun k => if k.done.toNat < d.toNat then { k with done := d } else k
    .next (s.modWarpsOf x (· == core) fun w =>
      match w.block, w.graceWait with
      | some (.grace _), some n => if w.graceSent && decide (n.toNat ≤ d.toNat) then w.wakeUp else w
      | _, _ => w)

/-- The scalar pair that a start writes, low half first. -/
def Warp.putNumber (w : Warp) (regs : List Reg) (n : DWord) : Warp :=
  match regs with
  | [.scalar a, .scalar b] => (w.setScalar a (n.extractLsb' 0 32)).setScalar b (n.extractLsb' 32 32)
  | _ => w

/-- R296: the number is back: `gstart` and `dfree` complete; a `gsync` knows what it waits for. -/
def execGraceNumberReturned (w : WarpRef) (s : State) : Answer := s.onWarp w fun c m =>
  let due := m.flights.find? fun f => match f.kind with
    | .grace (some _) => true
    | _ => false
  match due with
  | some f =>
    let n := match f.kind with
      | .grace (some n) => n
      | _ => 0
    (s.modWarp w (·.putNumber f.regs n)).completeFlight w f
  | none =>
    match m.block, m.graceWait, s.launch? w.crew.launch with
    | some (.grace 0), some n, some l =>
      let d := ((s.context? l.ctx).map fun k => (k.grace.copy c.coreNo).done).getD 0
      s.modWarp w fun m => if n.toNat ≤ d.toNat then m.wakeUp else { m with block := some (.grace n) }
    | _, _, _ => s

/-! ## Deliveries (R209, R289, R313) -/

/-- R209: one delivery: it takes a slot, waits for one, or is dropped. The queue of a crew that is swapped out keeps it pending
(R211). -/
def State.deliver (s : State) (x : CtxRef) (f : Free) : State :=
  match (s.crew? f.queue.crew).bind fun c => c.queues[f.queue.q]? with
  | none => s.deadFree x f 4
  | some q =>
    if q.state == 2 then s.deadFree x f 3
    else s.modCrew f.queue.crew fun c =>
      let c := c.modQueue f.queue.q fun q => { q with pending := q.pending ++ [f.entry] }
      if c.core.isSome then c.settleQueue f.queue.q else c

/-- Room in the list wakes the warps that a full list holds (R289). -/
def State.wakeFrees (s : State) (x : CtxRef) : State :=
  s.modWarpsOf x (fun _ => true) fun w =>
    match w.block with
    | some (.grace _) => if w.graceSent then w else w.wakeUp
    | _ => w

/-- R289: the oldest entry whose number DONE has reached. -/
def execGraceDelivery (x : CtxRef) (s : State) : Answer :=
  match (s.context? x).map (·.grace) with
  | none => .next s
  | some g =>
    match g.frees.find? fun f => f.entry.num.toNat ≤ g.done.toNat with
    | none => .next s
    | some f =>
      let s := s.modGrace x fun g => { g with frees := g.frees.erase f }
      .next ((s.deliver x f).wakeFrees x)

end Sys2Proof.Machine
end

