-- ==== Sys2Proof/Machine/PairEvents.lean ====
section
/-! DEFINITION. Compare points of a paired launch (16 R422 to R426). -/

namespace Sys2Proof.Machine

/-- Store copies of a warp, up to a store count, that have not completed (R423). -/
def State.copiesDue (s : State) (r : WarpRef) (n : Nat) : Bool :=
  s.cores.any fun k => k.copies.any fun c => c.crew == r.crew && c.warp == r.warp && c.store.any fun x => x.1 ≤ n

/-- The entries of a warp that a match at count `n` covers. -/
def HoldEntry.upTo (h : HoldEntry) (r : WarpRef) (n : Nat) : Bool :=
  h.crew == r.crew && h.warp == r.warp && h.store != 0 && h.store ≤ n

/-- One entry of the primary drains: through the caches of its core (R233), and into the lines that the shadow's core holds, which
wrote the same (R234). -/
def State.drainEntry (s : State) (l : Launch) (p q : WarpRef) (h : HoldEntry) : State :=
  let coreOf (r : WarpRef) : Option Nat := (s.crew? r.crew).bind (·.core)
  let touch (s : State) : State := match coreOf p with
    | some c => s.touchLine true c h.pa
    | none => s
  let t := touch (s.openWrite ⟨l.ctx, coreOf p, none⟩ l.id h)
  match coreOf q with
  | some c => if isDram h.pa then t.setLines c h.pa h.data h.poison else t
  | none => t

/-- R424: the primary's entries up to the point drain, in order; the shadow's are discarded. -/
def State.drainMatched (s : State) (id : Nat) (p q : WarpRef) (n : Nat) : State :=
  match s.launch? id with
  | none => s
  | some l =>
    let due := l.hold.filter (·.upTo p n)
    let s := s.modLaunch id fun l => { l with hold := l.hold.filter fun h => !h.upTo p n && !h.upTo q n }
    due.foldl (fun s h => s.drainEntry l p q h) s

/-- A warp whose point has matched goes on: an instruction that had not issued may now; a warp that has ended is done. -/
def Warp.passPoint (w : Warp) : Warp :=
  match w.compare with
  | none => w
  | some _ =>
    if w.retired then { w with compare := none }
    else { w.wakeUp with compare := none, passed := !w.passed }

/-- R426. -/
def State.mismatch (s : State) (id : Nat) (r : WarpRef) (n : Nat) (a b : DWord) : State :=
  match s.launch? id with
  | none => s
  | some l =>
    let s := s.launchEvent l 9 0
      (leBytes 4 r.crew.crew ++ leBytes 1 r.warp ++ leBytes 4 n ++ leBytes 8 a.toNat ++ leBytes 8 b.toNat)
    if l.armed then s.replayLaunch id 2 else s.endLaunch id 24

/-- The signature a leading copy recorded at count `n`; none when no entry up to `n` is held. -/
def Launch.sigAt (l : Launch) (r : WarpRef) (n : Nat) : Option DWord :=
  ((l.hold.filter (·.upTo r n)).getLast?).map (·.sig)

/-- A warp that waits because the hold is full (R424). -/
def Warp.holdFull (w : Warp) : Bool := w.block == some .fence && w.compare.isNone

/-- R424: a leading copy that waits on a full hold compares at the count of the lagging one. -/
def State.compareFull (s : State) (id : Nat) (p q lead lag : WarpRef) : State :=
  match s.launch? id, s.warp? lag with
  | some l, some w =>
    let n := w.stores
    if s.copiesDue lead n || s.copiesDue lag n then s
    else
      match l.sigAt lead n with
      | none => s.modWarp lead Warp.wakeUp
      | some a =>
        if a == w.sig || w.spoiled || (s.warp? lead).any (·.spoiled) then ((s.drainMatched id p q n).modWarp lead Warp.wakeUp).modWarp lag Warp.passPoint
        else s.mismatch id p n a w.sig
  | _, _ => s

/-- The signatures of two copies of a warp agree, or one took in a poisoned word: that is no mismatch (R335). -/
def Warp.agrees (a b : Warp) : Bool := a.sig == b.sig || a.spoiled || b.spoiled

/-- R424: what both copies of a warp have come to decides. -/
def State.compareWarps (s : State) (id : Nat) (p q : WarpRef) (a b : Warp) : State :=
  match a.compare, b.compare with
  | some m, some n =>
    if s.copiesDue p m || s.copiesDue q n then s
    else if m == n && a.agrees b && a.retired == b.retired then
      ((s.drainMatched id p q m).modWarp p Warp.passPoint).modWarp q Warp.passPoint
    else s.mismatch id p m a.sig b.sig
  | some m, none =>
    if b.holdFull && m ≤ b.stores then s.compareFull id p q q p
    else if b.retired then s.mismatch id p m a.sig b.sig
    else s
  | none, some n =>
    if a.holdFull && n ≤ a.stores then s.compareFull id p q p q
    else if a.retired then s.mismatch id p n a.sig b.sig
    else s
  | none, none =>
    if a.holdFull && b.stores ≤ a.stores then s.compareFull id p q p q
    else if b.holdFull && a.stores ≤ b.stores then s.compareFull id p q q p
    else s

def execComparePoint (w : WarpRef) (s : State) : Answer :=
  let p : WarpRef := { w with crew := { w.crew with shadow := false } }
  let q : WarpRef := { w with crew := { w.crew with shadow := true } }
  match s.launch? w.crew.launch, s.crew? p.crew, s.crew? q.crew, s.warp? p, s.warp? q with
  | some l, some c, some d, some a, some b =>
    if l.paired && c.core.isSome && d.core.isSome then .next (s.compareWarps l.id p q a b) else .next s
  | _, _, _, _, _ => .next s

end Sys2Proof.Machine
end

