-- ==== Sys2Proof/Machine/Template.lean ====
section
/-! DEFINITION. The launch template (16 R406) and what makes it wrong (R407), each cause with its reason code. -/

namespace Sys2Proof.Machine

/-- A cause of a template error: reason code and offending entry, 0xFFFF for none. -/
structure Wrong where
  code : Nat
  entry : Nat
  deriving DecidableEq, Repr

def noEntry : Nat := 0xFFFF

/-! ## Reading the template -/

/-- The sizes that the 64-byte header gives: warps, groups, queues. -/
def templateCounts (h : List Byte) : Nat × Nat × Nat := (byteAt h 13, fieldAt h 14 2, fieldAt h 22 2)

def templateBytes (h : List Byte) : Nat :=
  let (w, g, q) := templateCounts h
  64 + 4 * w + 32 * g + 8 * q

/-- Whether the counts are such that the entries can be read. -/
def countsOk (h : List Byte) : Bool :=
  let (w, g, q) := templateCounts h
  1 ≤ w && w ≤ 64 && g ≤ 256 && q ≤ 64

def warpEntryAt (b : List Byte) (i : Nat) : WarpEntry :=
  let o := 64 + 4 * i
  ⟨byteAt b o, 8 * byteAt b (o + 1), byteAt b (o + 2)⟩

def groupEntryAt (b : List Byte) (warps i : Nat) : GroupEntry :=
  let o := 64 + 4 * warps + 32 * i
  let prod := byteAt b (o + 17)
  { members := BitVec.ofNat 64 (fieldAt b o 8), base := fieldAt b (o + 8) 4, size := fieldAt b (o + 12) 4
    bars := byteAt b (o + 16), producer := if prod == 0xFF then none else some prod
    tiles := BitVec.ofNat 8 (byteAt b (o + 18)), accs := BitVec.ofNat 4 (byteAt b (o + 19)) }

def queueEntryAt (b : List Byte) (warps groups i : Nat) : QueueEntry :=
  let o := 64 + 4 * warps + 32 * groups + 8 * i
  ⟨byteAt b o, byteAt b (o + 1), fieldAt b (o + 2) 2, fieldAt b (o + 4) 4⟩

def templateOf (b : List Byte) : Template :=
  let (w, g, q) := templateCounts b
  { codeBase := fieldAt b 0 8, codeSize := fieldAt b 8 4, triple := byteAt b 12 == 1, scratch := fieldAt b 16 4
    tiles := byteAt b 20, accs := byteAt b 21
    budget := (List.range 4).map fun i => fieldAt b (24 + 2 * i) 2
    warps := (List.range w).map (warpEntryAt b)
    groups := (List.range g).map (groupEntryAt b w)
    queues := (List.range q).map (queueEntryAt b w g) }

/-! ## Checks -/

/-- Entries of a list, with their numbers, that `p` refuses. -/
def wrongEntries (code : Nat) (l : List α) (p : Nat → α → Bool) : List Wrong :=
  (List.zip (List.range l.length) l).filterMap fun x => if p x.1 x.2 then some ⟨code, x.1⟩ else none

def wrongIf (code : Nat) (b : Bool) : List Wrong := if b then [⟨code, noEntry⟩] else []

/-- Rows that the rings of a quarter take. -/
def Template.rings (t : Template) (q : Nat) : Nat := ((t.warps.filter (·.quarter == q)).map (·.ring)).sum

/-- R17: rings and budgets are multiples of 8 rows, and a budget covers its quarter's rings. -/
def Template.rowsWrong (t : Template) : List Wrong :=
  wrongIf 1 ((List.range 4).any fun q => t.budget.getD q 0 % 8 != 0 || t.budget.getD q 0 < t.rings q)

/-- The reset REACH in rows (R181). -/
def resetReach (ring : Nat) : Nat := min ring 64

/-- Fields with a range of R406, which gives none to the scratchpad and the row budgets (log 81). The entries' reserved bytes are read
beside them. -/
def Template.rangeWrong (t : Template) (b : List Byte) : List Wrong :=
  let w := t.warps.length
  let g := t.groups.length
  wrongIf 6 (!countsOk b || 1 < byteAt b 12 || 8 < t.tiles || 4 < t.accs || !zeroAt b 40 24 || 2 ^ 49 ≤ t.codeBase) ++
    wrongEntries 6 t.warps (fun i e => 3 < e.quarter || e.ring == 0 || 1024 < e.ring || 3 < e.prio || byteAt b (64 + 4 * i + 3) != 0) ++
    wrongEntries 6 t.groups (fun i e =>
      16 < e.bars || 2 ^ w ≤ e.members.toNat || !zeroAt b (64 + 4 * w + 32 * i + 20) 12) ++
    wrongEntries 6 t.queues (fun _ e => g ≤ e.group || 64 < e.producers || e.cap < 2 || 1024 < e.cap)

/-- Where a queue lies in the crew's scratchpad; nowhere when it names no group of the template. -/
def Template.queueSpan (t : Template) (e : QueueEntry) : Option (Nat × Nat) :=
  (t.groups[e.group]?).map fun g => (g.base + e.off, g.base + e.off + 64 + 200 * e.cap)

/-- R195. -/
def Template.queueWrong (t : Template) : List Wrong :=
  wrongEntries 5 t.queues fun i e =>
    let meets (a b : Nat × Nat) : Bool := a.1 < b.2 && b.1 < a.2
    e.off % 64 != 0 || (t.groups[e.group]?).any (fun g => g.size < e.off + 64 + 200 * e.cap) ||
      (t.queueSpan e).any fun a => (t.queues.take i).any fun f => (t.queueSpan f).any (meets a)

/-- R407. The grant of accumulators is read whole, so that a bit beyond the fourth names one that is not declared. -/
def Template.groupWrong (t : Template) (b : List Byte) : List Wrong :=
  let grant (i : Nat) : Nat := byteAt b (64 + 4 * t.warps.length + 32 * i + 19)
  wrongEntries 7 t.groups (fun _ e => t.scratch < e.base + e.size) ++
    wrongEntries 8 t.warps (fun i _ => 4 < (t.groups.filter fun e => e.members.getLsbD i).length) ++
    wrongEntries 9 t.groups (fun _ e => e.producer.any fun p => 64 ≤ p || !e.members.getLsbD p) ++
    wrongEntries 10 t.groups (fun i e => 2 ^ t.tiles ≤ e.tiles.toNat || 2 ^ t.accs ≤ grant i)

/-- The scratchpad a crew counts against its core (R231, R383). -/
def Template.scratchUse (t : Template) (race : Bool) : Nat := ((if race then 2 else 1) * t.scratch + 511) / 512 * 512

/-- R18: a crew that no empty core can hold: its scratchpad and row budgets are among what may be too large (log 81). -/
def Template.tooBig (t : Template) (race : Bool) : Bool :=
  ((List.range 4).any fun q => 16 < (t.warps.filter (·.quarter == q)).length || 1024 < t.budget.getD q 0) ||
    524288 < t.scratchUse race || 8 < t.tiles || 4 < t.accs || 64 < (t.groups.map (·.bars)).sum || 64 < t.queues.length

/-- What the header alone tells of a template whose entries cannot be read. -/
def Template.headOnly (t : Template) : Template := { t with warps := [], groups := [], queues := [] }

/-- R407: every cause that holds in a template, for a launch with spill bytes `w` a warp, `z`
slots and spill base `base`. -/
def Template.wrongs (t : Template) (b : List Byte) (race : Bool) (base w z : Nat) (affOut : Bool) : List Wrong :=
  t.rowsWrong ++ wrongIf 2 (t.codeBase % 256 != 0) ++ wrongIf 3 (2 ^ 27 - 1 < t.codeSize) ++
    wrongEntries 4 t.warps (fun _ e => w / 1600 * 8 < resetReach e.ring / 8 * 8) ++ t.queueWrong ++ t.rangeWrong b ++
    t.groupWrong b ++ wrongIf 11 (1600 * (2 ^ 21 - 1) < w || 2 ^ 49 < base + 64 * z * w) ++ wrongIf 12 (t.tooBig race) ++
    wrongIf 13 affOut

/-- The report of several causes: the lowest code, and the first of its entries. -/
def lowestWrong : List Wrong → Option Wrong
  | [] => none
  | x :: xs => some (xs.foldl (fun a b => if b.code < a.code then b else a) x)

end Sys2Proof.Machine
end

