-- ==== Sys2Proof/Machine/Place.lean ====
section
/-! DEFINITION. Placing crews: resources of a core (01 R18), the state of a new crew (07 R170; 08 R195, R196; 09 R232; 10
R265; 16 R408), where a crew goes and which one is next (16 R409 to R411, R422), and how crews end (01 R18; 16 R412). -/

namespace Sys2Proof.Machine

/-! ## Resources -/

/-- What a crew of a template takes of its core. -/
structure Need where
  warps : List Nat
  rows : List Nat
  scratch : Nat
  tiles : Nat
  accs : Nat
  bars : Nat
  queues : Nat

def Template.need (t : Template) (race : Bool) : Need where
  warps := (List.range 4).map fun q => (t.warps.filter (·.quarter == q)).length
  rows := t.budget
  scratch := t.scratchUse race
  tiles := t.tiles
  accs := t.accs
  bars := (t.groups.map (·.bars)).sum
  queues := t.queues.length

def Need.add (a b : Need) : Need where
  warps := (List.range 4).map fun q => a.warps.getD q 0 + b.warps.getD q 0
  rows := (List.range 4).map fun q => a.rows.getD q 0 + b.rows.getD q 0
  scratch := a.scratch + b.scratch
  tiles := a.tiles + b.tiles
  accs := a.accs + b.accs
  bars := a.bars + b.bars
  queues := a.queues + b.queues

def Need.zero : Need := ⟨[], [], 0, 0, 0, 0, 0⟩

/-- Whether one core holds this (R12, R18). -/
def Need.fits (n : Need) : Bool :=
  ((List.range 4).all fun q => n.warps.getD q 0 ≤ 16 && n.rows.getD q 0 ≤ 1024) && n.scratch ≤ 524288 && n.tiles ≤ 8 &&
    n.accs ≤ 4 && n.bars ≤ 64 && n.queues ≤ 64

def State.usedOn (s : State) (core : Nat) : Need :=
  (s.crews.filter fun c => c.core == some core).foldl (fun n c => match s.launch? c.ref.launch with
    | some l => n.add (l.tmpl.need l.race)
    | none => n) .zero

def State.coreFits (s : State) (core : Nat) (n : Need) : Bool :=
  !s.device.outOfService.contains core && ((s.usedOn core).add n).fits

/-- The lowest-numbered core of a die that has room. -/
def State.coreOn (s : State) (die : Nat) (n : Need) : Option Nat :=
  ((List.range 48).map (· + 48 * die)).find? fun c => s.coreFits c n

/-! ## A new crew -/

/-- The lowest warp slot of a quarter that no crew of the core holds and that is not in `taken`. -/
def State.freeSlot (s : State) (core q : Nat) (taken : List Nat) : Nat :=
  let used := (s.crews.filter fun c => c.core == some core).flatMap fun c =>
    (c.warps.filter (·.quarter == q)).map (·.slot)
  (((List.range 16).find? fun k => !used.contains k && !taken.contains k)).getD 0

/-- Slots for warps on these quarters, in order. -/
def State.slotsFor (s : State) (core : Nat) (quarters : List Nat) : List Nat :=
  (quarters.foldl (fun (r : List (Nat × Nat)) q =>
    r ++ [(q, s.freeSlot core q ((r.filter (·.1 == q)).map (·.2)))]) []).map (·.2)

/-- R408: the scalars at warp launch. -/
def launchScalars (l : Launch) (crew warp : Nat) : List Word :=
  List.replicate 20 0 ++
    [BitVec.ofNat 32 crew, BitVec.ofNat 32 warp, BitVec.ofNat 32 l.count, 0] ++ (l.args ++ List.replicate 8 0).take 8

/-- R170, R408 and the reset columns of the control registers. -/
def newWarp (l : Launch) (crew z k slot : Nat) (e : WarpEntry) : Warp where
  num := k
  quarter := e.quarter
  slot := slot
  prio := e.prio
  splits := [some ⟨0, BitVec.allOnes 48, 0, [], false, 0⟩, none, none, none]
  cur := 0
  bot := 0
  ring := e.ring
  high := e.ring
  rows := List.replicate e.ring zeroRow
  poison := []
  scalars := launchScalars l crew k
  scalarPoison := []
  preds := List.replicate 7 0
  xregs := List.replicate 4 (List.replicate 48 0)
  xlim := List.replicate 4 0
  flags := List.replicate 12 0
  bindings := List.replicate 8 none
  groups := (List.range l.tmpl.groups.length).filter fun g => (l.tmpl.groups[g]?).any fun e => e.members.getLsbD k
  vacant := 0
  depth := 0
  tag := 0
  stall := 0
  redirect := 0
  switch := 0
  wake := 0
  landed := 0
  issuedAt := none
  block := none
  since := 0
  paused := 0
  moved := none
  numctl := 0
  numstat := 0
  fpctl := if l.triple then 6 else 1
  reach := resetReach e.ring / 8
  woc := 0
  rej := false
  spillBase := BitVec.ofNat 64 (l.spillBase + (z * 64 + k) * l.spillW)
  spillLim := 8 * (l.spillW / 1600)
  laneFault := 0
  trapBase := 0
  trapCause := 0
  trapPc := 0
  opcount := List.replicate 48 0
  flights := []
  nextFlight := 0
  graceWait := none
  graceSent := false
  deadline := none
  age := 0
  stopped := false
  stepping := false
  stopPc := none
  retired := false
  lfMask := 0
  lfCause := 0
  sig := 0
  stores := 0
  compare := none
  passed := false
  given := none
  waitHit := none
  owed := none
  serving := false
  awaits := []
  taken := []
  spoiled := false

def newGroup (e : GroupEntry) : Group where
  members := e.members
  base := e.base
  size := e.size
  producer := e.producer
  tiles := e.tiles
  accs := e.accs
  bars := List.replicate e.bars ⟨0, BitVec.ofNat 7 (popCount e.members.toNat 64), false, false, 0⟩
  serial := 0

def newQueue (e : QueueEntry) : Queue where
  group := e.group
  off := e.off
  cap := e.cap
  state := 0
  prod := e.producers
  head := 0
  tail := 0
  count := 0
  pushed := 0
  popped := 0
  faultw := 0
  landing := []
  poppers := []
  offered := []
  pushers := []
  staged := false
  pending := []
  fresh := []

/-- R316: `TSHAPE` at placement. -/
def newTile : Tile := ⟨[], [], 0xFC09, [], [], 0, 0⟩

/-- R28, R195, R232, R265, R315, R324: the crew as the dispatcher sets it up. -/
def newCrew (l : Launch) (r : CrewRef) (core z : Nat) (slots : List Nat) : Crew :=
  let t := l.tmpl
  let c : Crew :=
    { ref := r, core := some core, resuming := false, spillSlot := z
      warps := (List.range t.warps.length).map fun k =>
        newWarp l r.crew z k (slots.getD k 0) (t.warps.getD k ⟨0, 8, 0⟩)
      groups := t.groups.map newGroup
      queues := t.queues.map newQueue
      arrivals := [], scratch := [], scratchPoison := [], scratchSize := t.scratch
      budget := t.budget
      reserve := (List.range 4).map fun q => t.budget.getD q 0 - t.rings q
      claims := [[], [], [], []]
      tiles := List.replicate t.tiles newTile
      accs := List.replicate t.accs Acc.zero
      gen := 0, races := [], savedCopies := [], savedSpills := [] }
  (List.range t.queues.length).foldl (fun c n => c.syncQueue n) c

/-! ## Where a crew goes (R410, R422) -/

/-- The dies of a partition in the order that the rotation pointer gives. -/
def Partition.diesFrom (p : Partition) : List Nat :=
  let n := p.dies.length
  (List.range n).filterMap fun k => p.dies[(p.rotation + k) % n]?

/-- Whether a crew index lies in the launch's AFF range. -/
def Launch.affine (l : Launch) (crew : Nat) : Option Nat :=
  match l.aff with
  | some (die, lo, hi) => if lo ≤ crew && crew ≤ hi then some die else none
  | none => none

/-- The first of these dies with a core that has room. -/
def State.placeOn (s : State) (dies : List Nat) (n : Need) : Option Nat := dies.findSome? fun d => s.coreOn d n

/-- Put a crew on a core. -/
def State.setCrew (s : State) (l : Launch) (r : CrewRef) (core : Nat) : State :=
  let used := (s.crews.filter fun c => c.ref.launch == l.id).map (·.spillSlot)
  let z := (((List.range l.spillSlots).find? fun z => !used.contains z)).getD 0
  let slots := s.slotsFor core (l.tmpl.warps.map (·.quarter))
  { s with crews := s.crews ++ [newCrew l r core z slots] }

/-- Spill slots of the launch that are free (R408). -/
def State.slotsLeft (s : State) (l : Launch) : Nat :=
  l.spillSlots - (s.crews.filter fun c => c.ref.launch == l.id).length

/-- Where a shadow may stand beside its primary on `core`: another core, and another die where the partition has one
(R422). The dies are taken in the pointer's order (log 48). -/
def State.shadowCore (s : State) (p : Partition) (core : Nat) (n : Need) : Option Nat :=
  if 1 < p.dies.length then s.placeOn (p.diesFrom.filter (· != dieOfCore core)) n
  else (((List.range 48).map (· + 48 * dieOfCore core)).find? fun c => c != core && s.coreFits c n)

/-- Cores for a crew, and for its shadow when the launch is paired. -/
def State.coresFor (s : State) (p : Partition) (l : Launch) (crew : Nat) : Option (Nat × Option Nat) :=
  let need := l.tmpl.need l.race
  let dies := match l.affine crew with
    | some d => [d]
    | none => p.diesFrom
  (s.placeOn dies need).bind fun core =>
    if l.paired then (s.shadowCore p core need).map fun c => (core, some c) else some (core, none)

/-- The pointer moves to the die after the one a crew without affinity took (R410). -/
def State.movePointer (s : State) (part : Nat) (l : Launch) (crew core : Nat) : State :=
  if (l.affine crew).isSome then s
  else s.modPartition part fun p =>
    { p with rotation := (p.dies.findIdx (· == dieOfCore core) + 1) % max 1 p.dies.length }

/-- One new crew of a launch is placed, if it can be: its resources and a spill slot for each copy (R18, R408). -/
def State.placeCrew (s : State) (part : Nat) (l : Launch) (crew : Nat) : Option State :=
  match s.partition? part with
  | none => none
  | some p =>
    if s.slotsLeft l < (if l.paired then 2 else 1) then none
    else (s.coresFor p l crew).map fun c =>
      let s := s.setCrew l ⟨l.id, crew, false⟩ c.1
      let s := match c.2 with
        | some k => s.setCrew l ⟨l.id, crew, true⟩ k
        | none => s
      s.movePointer part l crew c.1

/-- Every crew of a co-resident launch is placed at once, or none (R411). -/
def State.placeAll (part : Nat) (l : Launch) : Nat → Nat → State → Option State
  | 0, _, s => some s
  | n + 1, crew, s => (s.placeCrew part l crew).bind (State.placeAll part l n (crew + 1))

/-- The most crews that any partition holds: 64 warps on each of 192 cores. -/
def crewLimit : Nat := 64 * 192

/-- R411: whether every crew fits at once on the partition when it is empty. -/
def State.fitsEmpty (s : State) (part : Nat) (l : Launch) : Bool :=
  l.count ≤ crewLimit &&
    (State.placeAll part l l.count 0 { s with crews := [] }).isSome

/-! ## Placing a swapped-out crew again (R372, R409, R410) -/

/-- A warp blocked on grace whose period completed while it was away, or for which the list of frees has room again, wakes
(R285, R289, R293). -/
def Warp.graceAgain (w : Warp) (done : DWord) (room : Bool) : Warp :=
  match w.block with
  | some (.grace _) =>
    if (w.graceSent && w.graceWait.any fun n => n.toNat ≤ done.toNat) || (!w.graceSent && room) then w.wakeUp else w
  | _ => w

/-- The crew comes back on a core, whose caches start empty (R373): its warps take slots, its copies and granules return to the
core's engines, the copies behind those that the core has (log 80), its sections count as resident, and its watchdog counts start
again (R312, R367, R375, R286). -/
def State.returnCrew (s : State) (r : CrewRef) (core : Nat) : State :=
  match s.crew? r, s.launch? r.launch with
  | some c, some l =>
    let slots := s.slotsFor core (c.warps.map (·.quarter))
    let grace := ((s.context? l.ctx).map (·.grace)).getD (Grace.new [])
    let s := (s.invalidate core).modCore core fun k =>
      { k with copies := k.copies ++ c.savedCopies, spillBuf := k.spillBuf ++ c.savedSpills }
    let s := s.modCrew r fun c =>
      let warps := (List.zip (List.range c.warps.length) c.warps).map fun x =>
        { x.2 with slot := slots.getD x.1 0, since := s.clock.tick, paused := 0 }.graceAgain (grace.copy core).done
          (grace.freeCount < freeLimit)
      let c := { c with core := some core, resuming := false, savedCopies := [], savedSpills := [], warps }
      (List.range c.queues.length).foldl (fun c n => c.settleQueue n) c
    s.modContext l.ctx fun x =>
      { x with tlb := [], grace := { x.grace with
          sections := x.grace.sections.map fun (g : Section) => if g.warp.crew == r then { g with held := false } else g }.settle }
  | _, _ => s

/-- One copy of a crew finds a core under the rule for a new one; a shadow stays off its primary's die. -/
def State.resumeOne (s : State) (part : Nat) (r : CrewRef) : Option State :=
  match s.partition? part, s.launch? r.launch with
  | some p, some l =>
    let need := l.tmpl.need l.race
    if r.shadow then
      let primary := ((s.crew? { r with shadow := false }).bind (·.core)).getD 0
      (s.shadowCore p primary need).map fun c => s.returnCrew r c
    else
      let dies := match l.affine r.crew with
        | some d => [d]
        | none => p.diesFrom
      (s.placeOn dies need).map fun c => (s.returnCrew r c).movePointer part l r.crew c
  | _, _ => none

def State.resumeAll (part : Nat) : List CrewRef → State → Option State
  | [], s => some s
  | r :: rs, s => (s.resumeOne part r).bind (State.resumeAll part rs)

/-- The crews that come back together with `r`: a co-resident launch as a whole, a paired crew with its shadow. -/
def State.together (s : State) (r : CrewRef) : List CrewRef :=
  match s.launch? r.launch with
  | some l =>
    let mine := (s.crews.filter fun c => c.ref.launch == l.id && c.core.isNone &&
      (l.coloc || c.ref.crew == r.crew)).map (·.ref)
    (mine.filter fun x => !x.shadow) ++ mine.filter (·.shadow)
  | none => [r]

/-- Crews leave the image slots they were in, and the list of those to resume. -/
def State.leaveSlots (s : State) (part : Nat) (rs : List CrewRef) : State :=
  s.modPartition part fun p =>
    { p with
      resumes := p.resumes.filter fun r => !rs.contains r
      slots := p.slots.map fun x => match x.2.2 with
        | .crews l =>
          let l := l.filter fun r => !rs.contains r
          (x.1, x.2.1, if l.isEmpty then .empty else .crews l)
        | _ => x }

/-- The first crew awaiting resume that can be placed. -/
def State.tryResumes (s : State) (part : Nat) : List CrewRef → Option State
  | [] => none
  | r :: rs =>
    let group := s.together r
    match State.resumeAll part group s with
    | some t => some (t.leaveSlots part group)
    | none => s.tryResumes part rs

/-! ## The next decision (R409) -/

/-- The priority of the queue a launch came from. -/
def State.levelOf (s : State) (l : Launch) : Nat := ((s.cmdQueue? l.queue).map (·.prio)).getD 0

/-- The launches of a partition with crews to place, oldest first. -/
def State.placeable (s : State) (part : Nat) : List Launch :=
  s.launches.filter fun l => l.ctx.part == part && l.done.isNone && l.ending.isNone && l.next < l.count

/-- One decision for a launch: its next crew, or all of a co-resident launch. -/
def State.tryLaunch (s : State) (part : Nat) (l : Launch) : Option State :=
  if l.coloc then
    (State.placeAll part l (l.count - l.next) l.next s).map fun s =>
      s.modLaunch l.id fun l => { l with next := l.count, confirmed := true }
  else (s.placeCrew part l l.next).map fun s => s.modLaunch l.id fun l => { l with next := l.next + 1 }

def State.tryLaunches (s : State) (part : Nat) : List Launch → Option (State × Launch)
  | [] => none
  | l :: ls => match s.tryLaunch part l with
    | some t => some (t, l)
    | none => s.tryLaunches part ls

/-- Levels below `top`, in turn after `last`, from the highest (R409). -/
def lowerLevels (top last : Nat) : List Nat :=
  let below := ((List.range top).reverse)
  below.filter (· < last) ++ below.filter fun k => last ≤ k

/-- The launches in the order in which a decision considers them: by level, and in each sixteenth decision a lower level
first. -/
def State.decisionOrder (s : State) (p : Partition) (ls : List Launch) : List Launch :=
  let top := ls.foldl (fun m l => max m (s.levelOf l)) 0
  let at_ (k : Nat) : List Launch := ls.filter fun l => s.levelOf l == k
  let down := (List.range (top + 1)).reverse.flatMap at_
  let lower := (lowerLevels top p.level).flatMap at_
  if 15 ≤ p.decisions && !lower.isEmpty then lower ++ at_ top else down

/-- R409, R410: one decision of the sorting office. A resume is one too, and counts among those not given to a lower level. -/
def execDispatchDecision (part : Nat) (s : State) : Answer :=
  match s.partition? part with
  | none => .next s
  | some p =>
    let ls := s.placeable part
    let top := ls.foldl (fun m l => max m (s.levelOf l)) 0
    let higher (p : Partition) : Partition :=
      { p with decisions := if ls.any fun l => s.levelOf l < top then p.decisions + 1 else 0 }
    match s.tryResumes part p.resumes with
    | some t => .next (t.modPartition part higher)
    | none => match s.tryLaunches part (s.decisionOrder p ls) with
      | none => .next s
      | some (t, l) =>
        let k := s.levelOf l
        .next (t.modPartition part fun p => if k < top then { p with decisions := 0, level := k } else higher p)

/-! ## How a crew ends (R18, R412, R424) -/

/-- R18: every warp has retired, and no copy or operation of the crew is left; a paired warp has matched at its end. -/
def State.crewOver (s : State) (c : Crew) : Bool :=
  c.warps.all (fun w => w.retired && w.compare.isNone) &&
    !(s.cores.any fun k =>
      (k.copies.any fun x => x.crew == c.ref) ||
        (k.matQueue ++ k.matUnit.toList ++ k.tilePath).any fun o => o.warp.crew == c.ref)

/-- The granules of these that need not wait go to memory, in order (R179). -/
def State.writeSpills (p : SpillPlace) : List Granule → List Granule → State → State
  | _, [], s => s
  | seen, g :: gs, s =>
    if s.spillHeld seen g then State.writeSpills p (g :: seen) gs s
    else match s.spillOut p g with
      | .suspended s => State.writeSpills p (g :: seen) gs s
      | .done s | .ended s => State.writeSpills p seen gs s

/-- The granules of a crew that wait for nothing go to memory (R180). -/
def State.flushCrew (s : State) (c : Crew) : State :=
  State.writeSpills (.buffer c.coreNo) [] ((s.coreAt c.coreNo).spillBuf.filter (·.warp.crew == c.ref)) s

/-- Where granules of a context lie that are not in memory, a place of each: the buffers, and the images of its crews. -/
def State.spills (s : State) (x : CtxRef) : List (SpillPlace × List Granule) :=
  let mine (p : SpillPlace) (gs : List Granule) : List (SpillPlace × List Granule) :=
    let gs := gs.filter (·.ctx == x)
    if gs.isEmpty then [] else [(p, gs)]
  (s.cores.zipIdx.flatMap fun k => mine (.buffer k.2) k.1.spillBuf) ++
    s.crews.flatMap fun c => mine (.image c.ref) c.savedSpills

/-- R180: the spill writes of a context that may take place do. -/
def State.drainSpills (s : State) (x : CtxRef) : State :=
  (s.spills x).foldl (fun s p => State.writeSpills p.1 [] p.2 s) s

/-- R412: the last crew has ended, and the spill writes of the context are in memory (R180): the hold drains (R419) and the launch
retires as a kernel boundary (R236). A spill write that waits on a fault holds the boundary (log 75). -/
def State.retireLaunch (s : State) (id : Nat) : State :=
  match s.launch? id with
  | none => s
  | some l =>
    if l.ending.isSome then s
    else
      let s := s.drainSpills l.ctx
      if !(s.spills l.ctx).isEmpty || (s.launch? id).any (·.ending.isSome) then s
      else
        let s := l.hold.foldl (fun s h =>
          if h.crew.shadow then s else s.physWrite ⟨l.ctx, none, none⟩ h.pa h.data h.poison) s
        s.dropCaches.completeLaunch id 0

/-- R424: at the end of a crew the signatures of both copies, over their warps, are equal. -/
def Launch.sigsAgree (l : Launch) (crew : Nat) : Bool :=
  match l.sigs.find? (fun x => x.1.crew == crew && !x.1.shadow), l.sigs.find? fun x => x.1.crew == crew && x.1.shadow with
  | some a, some b => a.2 == b.2
  | _, _ => true

/-- R412: the launch retires with its last crew. -/
def State.endIfLast (s : State) (id : Nat) : State :=
  match s.launch? id with
  | some l => if l.done.isNone && l.ended == l.count && (s.crewsOf id).isEmpty then s.retireLaunch id else s
  | none => s

/-- The end of a cycle: the launches that a cause has reached in it end (R449), and those retire whose last spill write has taken place
(R180). -/
def State.settleEnds (s : State) : State := s.launches.foldl (fun s l => (s.settleEnd l.id).endIfLast l.id) s

/-- R18: a crew ends at the moment at which nothing of it is left. Its granules go to memory later, but for the kernel boundary
(R180). -/
def execCrewEnd (cr : CrewRef) (s : State) : Answer := s.onCrew cr fun c =>
  if !s.crewOver c then s
  else
    let s := s.removeCrew cr
    let s := if cr.shadow then s else s.modLaunch cr.launch fun l => { l with ended := l.ended + 1 }
    match s.launch? cr.launch with
    | none => s
    | some l =>
      if l.sigsAgree cr.crew then s.endIfLast l.id
      else
        let sig (b : Bool) : DWord := ((l.sigs.find? fun x => x.1.crew == cr.crew && x.1.shadow == b).map (·.2)).getD 0
        s.mismatch l.id ⟨cr, 0⟩ 0 (sig false) (sig true)

end Sys2Proof.Machine
end

