-- ==== Sys2Proof/Machine/Preempt.lean ====
section
/-! DEFINITION. Pre-emption (15 R372 to R376; 16 R399): bringing crews to rest, crew images, and saving and restoring a
context. -/

namespace Sys2Proof.Machine

/-! ## Bringing crews to rest (R373) -/

/-- Every message on its way to a context's grace home arrives. -/
def State.settleGrace (s : State) (x : CtxRef) : State :=
  match s.context? x with
  | none => s
  | some c =>
    let run (f : State → Answer) (s : State) : State := match f s with
      | .next t => t
      | _ => s
    let s := (List.range c.grace.depths.length).foldl (fun s _ => run (execDepthChangeAtHome x) s) s
    (List.range c.grace.starts.length).foldl (fun s _ => run (execGraceStartAtHome x) s) s

/-- R340, R343: the operations of a crew that its core holds complete, in order. -/
def State.drainUnit (s : State) (c : Crew) : State :=
  let k := s.coreAt c.coreNo
  let mine (o : MatOp) : Bool := o.warp.crew == c.ref
  let ops := (k.matUnit.toList ++ k.matQueue).filter mine ++ k.tilePath.filter mine
  let s := s.modCore c.coreNo fun k =>
    { k with
      matUnit := k.matUnit.filter fun o => !mine o
      matQueue := k.matQueue.filter fun o => !mine o
      tilePath := k.tilePath.filter fun o => !mine o }
  ops.foldl State.completeOp s

/-- R211: pushed rows land. -/
def Crew.landRows (c : Crew) : Crew :=
  (List.range c.queues.length).foldl (fun (c : Crew) n =>
    match c.queues[n]? with
    | none => c
    | some q =>
      let c := q.landing.foldl (fun c l => c.writeSlot q l.slot l.words l.valid l.poison) c
      (c.modQueue n fun q => { q with landing := [] }).settleQueue n) c

/-- R273: arrivals are applied. -/
def Crew.applyArrivals (c : Crew) : Crew :=
  c.arrivals.foldl (fun (c : Crew) a =>
    (c.modBarrier a.group a.bar fun b => { b with arrived := b.arrived ||| (1#64 <<< a.warp) }).settleBarrier a.group a.bar)
    { c with arrivals := [] }

/-- R44: what is in flight completes; numbers that came back are written. -/
def Warp.land (w : Warp) : Warp :=
  w.flights.foldl (fun (w : Warp) f =>
    let w := match f.kind with
      | .grace (some n) => w.putNumber f.regs n
      | _ => w
    w.complete f) w

/-- R179: the granules of a crew are written; those that fault stay with its image. -/
def State.takeSpills (s : State) (c : Crew) : State :=
  let s := s.flushCrew c
  let left := (s.coreAt c.coreNo).spillBuf.filter fun g => g.warp.crew == c.ref
  let s := s.modCore c.coreNo fun k => { k with spillBuf := k.spillBuf.filter fun g => g.warp.crew != c.ref }
  s.modCrew c.ref fun c => { c with savedSpills := left }

/-- R312: copies stop at a unit boundary and go with the crew. -/
def State.takeCopies (s : State) (c : Crew) : State :=
  let mine := (s.coreAt c.coreNo).copies.filter (·.crew == c.ref)
  let s := s.modCore c.coreNo fun k => { k with copies := k.copies.filter (·.crew != c.ref) }
  s.modCrew c.ref fun c => { c with savedCopies := mine }

/-- The engine that runs copy packets: that of the lowest-numbered core of the partition's lowest die. -/
def State.officeCore (s : State) (x : CtxRef) : Nat :=
  let dies := s.diesOf x
  48 * dies.foldl min (dies.headD 0)

/-- The crew that stands in a copy packet's copy: of launch 0, which no crew belongs to. -/
def noCrew : CrewRef := ⟨0, 0, false⟩

/-- The copies of a context's copy packets, which no crew issued, stop at a unit boundary too (R312, R413). -/
def State.packetCopies (s : State) (x : CtxRef) : List Copy :=
  s.cores.flatMap fun k => k.copies.filter fun c => c.ctx == x && c.crew == noCrew

/-- The granules of a context that lie in a spill buffer: once its crews are at rest, those of crews that have ended. -/
def State.bufferedSpills (s : State) (x : CtxRef) : List Granule :=
  s.cores.flatMap fun k => k.spillBuf.filter (·.ctx == x)

/-- Nothing of a context is left with the engines of a core. -/
def CoreState.dropContext (k : CoreState) (x : CtxRef) : CoreState :=
  { k with copies := k.copies.filter (·.ctx != x), spillBuf := k.spillBuf.filter (·.ctx != x) }

/-- The units of crews drain, and then what the crews have sent to the grace home arrives (R373). -/
def State.drainCrews (s : State) (x : CtxRef) (rs : List CrewRef) : State :=
  (rs.foldl (fun s r => (s.crew? r).elim s s.drainUnit) s).settleGrace x

/-- One crew at rest, its unit drained: the steps of R373 up to the image. -/
def State.restCrew (s : State) (r : CrewRef) : State :=
  match s.crew? r with
  | none => s
  | some c =>
    let s := s.modCrew r fun c => (c.landRows).applyArrivals
    let s := s.modCrew r fun c => { c with warps := c.warps.map Warp.land }
    (s.takeSpills c).takeCopies c

/-- R286: the sections of a crew that leaves its core are held. -/
def State.holdSections (s : State) (x : CtxRef) (r : CrewRef) : State :=
  s.modContext x fun c =>
    { c with grace := { c.grace with sections := c.grace.sections.map fun (g : Section) =>
        if g.warp.crew == r then { g with held := true } else g }.settle }

/-- A crew leaves its core. -/
def State.unplace (s : State) (x : CtxRef) (r : CrewRef) : State :=
  ((s.restCrew r).holdSections x r).modCrew r fun c => { c with core := none }

/-! ## Image slots of the shadow regions (R399) -/

def Partition.slotAt (p : Partition) (die slot : Nat) : ImageSlot :=
  ((p.slots.find? fun x => x.1 == die && x.2.1 == slot).map (·.2.2)).getD .empty

def Partition.setSlot (p : Partition) (die slot : Nat) (i : ImageSlot) : Partition :=
  { p with slots := (die, slot, i) :: p.slots.filter fun x => !(x.1 == die && x.2.1 == slot) }

/-- Crew images that a slot can still take: 128, none where a context's image lies. -/
def ImageSlot.room : ImageSlot → Nat
  | .empty => 128
  | .context _ => 0
  | .crews l => 128 - l.length

/-- Put one crew image into a slot of a die. -/
def Partition.addImage (p : Partition) (die : Nat) (r : CrewRef) : Option Partition :=
  match [0, 1].find? fun n => (p.slotAt die n).room != 0 with
  | none => none
  | some n => some (p.setSlot die n (match p.slotAt die n with
      | .crews l => .crews (l ++ [r])
      | _ => .crews [r]))

def Partition.addImages (p : Partition) : List (Nat × CrewRef) → Option Partition
  | [] => some p
  | (die, r) :: l => (p.addImage die r).bind fun p => p.addImages l

/-! ## Crew swap-out and resume -/

/-- The launch a swap packet names, by the sequence number and the queue of its packet. -/
def State.swapLaunch (s : State) (x : CtxRef) (seq : BitVec 32) (q : Nat) : Option Launch :=
  s.launches.find? fun l => l.ctx == x && l.seq == seq && l.queue.q == q && l.done.isNone

/-- Crews of the range in a state in which the packet acts on them, in ascending index; a co-resident launch goes as a
whole or not at all (R411). -/
def State.swapCrews (s : State) (l : Launch) (out : Bool) (lo hi : Nat) : List Crew :=
  let acts (c : Crew) : Bool := if out then c.core.isSome else c.core.isNone && !c.resuming
  let all := s.crews.filter fun c => c.ref.launch == l.id
  let inRange (c : Crew) : Bool := lo ≤ c.ref.crew && c.ref.crew ≤ hi
  if l.coloc && !all.all inRange then []
  else
    (all.filter fun c => inRange c && acts c).foldl (fun (r : List Crew) c =>
      r.takeWhile (·.ref.crew ≤ c.ref.crew) ++ [c] ++ r.dropWhile (·.ref.crew ≤ c.ref.crew)) []

/-- Swap crews out: their images need room on the dies of their cores (R399); none when it is lacking. -/
def State.swapOut (s : State) (x : CtxRef) (cs : List Crew) : Option State :=
  match s.partition? x.part with
  | none => none
  | some p =>
    (p.addImages (cs.map fun c => (dieOfCore c.coreNo, c.ref))).map fun q =>
      let s := (s.drainCrews x (cs.map (·.ref))).modPartition x.part fun _ => q
      cs.foldl (fun s c => s.unplace x c.ref) s

/-- Queue crews for placement again (R409). -/
def State.queueResume (s : State) (part : Nat) (cs : List Crew) : State :=
  let rs := cs.map (·.ref)
  let s := s.modPartition part fun p => { p with resumes := p.resumes ++ rs.filter fun r => !r.shadow }
  rs.foldl (fun s r => s.modCrew r fun c => { c with resuming := true }) s

/-! ## Partition save and restore (R372, R373, R375, R376) -/

def Partition.slotFree (p : Partition) (slot : Nat) : Bool := p.dies.all fun d => p.slotAt d slot == .empty

/-- The home's record of a context that is saved: its numbers stand, and nothing is left that could act (R286). -/
def Grace.atRest (g : Grace) : Grace := { g with starts := [], depths := [], sections := [], frees := [] }

/-- A packet that orders a save. -/
def Pending.saves (p : Pending) : Bool := p.kind == 5 && byteAt p.body 16 == 6 && byteAt p.body 17 == 0

/-- The position in its partition of the die whose image slot holds a crew that is swapped out. -/
def Partition.holder (p : Partition) (r : CrewRef) : Nat :=
  p.dies.findIdx fun d => [0, 1].any fun n => match p.slotAt d n with
    | .crews l => l.contains r
    | _ => false

/-- The whole context comes to rest; its launches, crews, command queues and pending copies go into the image, and spilled granules that
memory did not take. The context keeps its number and its
event ring; its queues stand stopped until it is restored (log 50). -/
def State.saveContext (s : State) (x : CtxRef) (slot : Nat) : State :=
  let mine (c : Crew) : Bool := (s.launch? c.ref.launch).any fun l => l.ctx == x
  let refs := (s.crews.filter mine).map (·.ref)
  let placed := (s.crews.filter fun c => mine c && c.core.isSome).map (·.ref)
  let s := s.drainCrews x placed
  let s := (placed.foldl (fun s r => (s.restCrew r).holdSections x r) s).drainSpills x
  match s.context? x, s.partition? x.part with
  | some c, some p =>
    let owned (q : CmdQueue) : Bool := q.ref.part == x.part && q.ctx == some x.ctx
    let image : Saved :=
      { slot, context := c
        queues := (s.queues.filter owned).map fun q => { q with pending := q.pending.filter (!·.saves) }
        launches := s.launches.filter fun l => l.ctx == x
        crews := s.crews.filter fun k => refs.contains k.ref
        holders := (refs.filter (!placed.contains ·)).map fun r => (r, p.holder r)
        copies := s.packetCopies x
        spills := s.bufferedSpills x }
    let s : State :=
      { s with
        launches := s.launches.filter fun l => l.ctx != x
        crews := s.crews.filter fun k => !refs.contains k.ref
        cores := s.cores.map (·.dropContext x)
        queues := s.queues.map fun q => if owned q then
          { q with stopped := true, rereads := 0, fetched := none, waiting := none, pending := q.pending.filter (·.saves) } else q }
    ((s.leaveSlots x.part refs).modContext x fun c => { c with grace := c.grace.atRest }).modPartition x.part fun p =>
      let p := p.dies.foldl (fun p d => p.setSlot d slot (.context x)) p
      { p with saved := p.saved ++ [image] }
  | _, _ => s

/-- R375, R376, R286: the context goes on from an image, under a page-table root named now; every core of the partition
receives its CUR. -/
def Context.resume (c old : Context) (root : Nat) (cores : List Nat) : Context :=
  { c with
    root, tlb := []
    wdogctl := old.wdogctl
    poolUsed := old.poolUsed
    faultCount := old.faultCount
    outstanding := old.outstanding
    grace := { old.grace with copies := cores.map fun k => ⟨k, old.grace.cur, old.grace.ack, old.grace.done, old.grace.cur⟩ } }

/-- The command queues of an image go on as they were saved, in place of those that stood for them meanwhile; a kick that came then
is remembered (R30, R402). A queue of another context under the same number stays (log 50). -/
def State.restoreQueues (s : State) (x : CtxRef) (m : Saved) : State :=
  let free (q : CmdQueue) : Bool :=
    (s.cmdQueue? q.ref).all fun live => live.ctx == some x.ctx || live.ctx == some m.context.ref.ctx
  let back := m.queues.filter free
  let late := back.filterMap fun q => ((s.cmdQueue? q.ref).bind (·.remembered)).map fun v => (q.ref, v)
  let s : State :=
    { s with
      queues := (s.queues.filter fun q => !back.any (·.ref == q.ref)) ++ back.map fun q => { q with ctx := some x.ctx } }
  late.foldl (fun s k => match s.cmdQueue? k.1 with
    | none => s
    | some q => if q.stopped then s.modCmdQueue k.1 fun q => { q with remembered := some k.2 } else s.checkKick q k.2) s

/-- A crew image goes back to the die, by its position, that held it (R399). -/
def Partition.putBack (p : Partition) (h : CrewRef × Nat) : Partition :=
  (p.addImage ((p.dies[h.2]?).getD (p.dies.headD 0)) h.1).getD p

/-- The copies of packets and the granules of ended crews that an image holds go on, with the engines of the partition's lowest core
(R312, R179; log 75). -/
def State.resumeEngines (s : State) (x : CtxRef) (m : Saved) : State :=
  s.modCore (s.officeCore x) fun k =>
    { k with
      copies := k.copies ++ m.copies.map fun (c : Copy) => { c with ctx := x }
      spillBuf := k.spillBuf ++ m.spills.map fun (g : Granule) => { g with ctx := x } }

/-- The crews of an image come back: those that stood on a core, or waited for one, are placed by the decisions that
follow; those that were swapped out stay so, on the dies that held them. The caches of the partition start empty (R373). -/
def State.restoreContext (s : State) (x : CtxRef) (m : Saved) (root : Nat) : State :=
  let list := (s.diesOf x).flatMap fun d => (List.range 48).map (· + 48 * d)
  let s := s.modContext x fun c => c.resume m.context root list
  let waits (c : Crew) : Bool := c.core.isSome || c.resuming
  let back := m.crews.map fun (c : Crew) => 
    { c with
      core := none
      resuming := waits c
      savedCopies := c.savedCopies.map fun (k : Copy) => { k with ctx := x }
      savedSpills := c.savedSpills.map fun (g : Granule) => { g with ctx := x } }
  let again := (m.crews.filter fun c => waits c && !c.ref.shadow).map (·.ref)
  let out (h : CrewRef × Nat) : Bool := m.crews.any fun c => c.ref == h.1 && !waits c
  let s : State :=
    { s with
      launches := s.launches ++ m.launches.map fun (l : Launch) => { l with ctx := x }
      crews := s.crews ++ back }
  (((list.foldl State.invalidate s).restoreQueues x m).resumeEngines x m).modPartition x.part fun p =>
    let p := p.dies.foldl (fun p d => p.setSlot d m.slot .empty) p
    let p := (m.holders.filter out).foldl Partition.putBack p
    { p with saved := p.saved.filter (·.slot != m.slot), resumes := p.resumes ++ again }

end Sys2Proof.Machine
end

