-- ==== Sys2Proof/Machine/Packets.lean ====
section
/-! DEFINITION. The packets of command queues (16 R405 to R407, R411, R413 to R416): what each kind's body must be, and what the
sorting office does with it. -/

namespace Sys2Proof.Machine

/-- Packets of a context's queue: the context. -/
def CmdQueue.owner (q : CmdQueue) : CtxRef := ⟨q.ref.part, q.ctx.getD 0⟩

def officeAgent (x : CtxRef) : Agent := ⟨x, none, none⟩

/-! ## Launch (R405) -/

def launchLegal (_ : CmdQueue) (b : List Byte) : Bool :=
  fieldAt b 16 8 % 64 == 0 && fieldAt b 28 2 < 32 && byteAt b 30 < 8 && byteAt b 31 < 4 && fieldAt b 48 8 % 64 == 0 &&
    fieldAt b 56 4 % 1600 == 0 && 1 ≤ fieldAt b 60 4 && fieldAt b 60 4 ≤ 12288 && zeroAt b 96 32

/-- The launch that a packet describes, under a template and the code as it stands (R40, R128, R405). -/
def newLaunch (id : Nat) (q : CmdQueue) (p : Pending) (t : Template) (image : List Host.Cell) : Launch :=
  let b := p.body
  let flag (n : Nat) : Bool := (fieldAt b 28 2).testBit n
  { id, queue := q.ref, ctx := q.owner, seq := p.seq, tag := p.tag, compl := p.compl, tmpl := t, image
    badCode := []
    count := if fieldAt b 24 4 == 0 then 2 ^ 32 else fieldAt b 24 4
    next := 0, ended := 0, replay := flag 0, paired := flag 1, coloc := flag 2, race := flag 3
    aff := if flag 4 then some (byteAt b 31, fieldAt b 40 4, fieldAt b 44 4) else none
    replayLimit := byteAt b 30, replays := 0, unreplayable := false, confirmed := false
    rndkey := BitVec.ofNat 64 (fieldAt b 32 8)
    args := (List.range 8).map fun k => BitVec.ofNat 32 (fieldAt b (64 + 4 * k) 4)
    spillBase := fieldAt b 48 8, spillW := fieldAt b 56 4, spillSlots := fieldAt b 60 4
    hold := [], snapshots := [], laneFaults := [], races := 0, sigs := [], done := none, fallen := none, ending := none }

/-- R40: the code as it stands, by byte offset from the code base. A word whose page has no translation is left out: its
fetch faults (log 52). With it the words that are poisoned, and their physical addresses. -/
def State.codeImage (s : State) (x : CtxRef) (t : Template) : List Host.Cell × List (Nat × Nat) :=
  (List.range (3 * t.codeSize)).foldl (fun m k =>
    let va := t.codeBase + 4 * k
    match s.checkAccess x .fetch va 4 false none with
    | .error _ => m
    | .ok l =>
      let (bs, bad) := s.readSingle (officeAgent x) l (va - l.va) 4
      (Memory.writeN m.1 (4 * k) bs, if bad then m.2 ++ [(k, l.phys l.frame (va - l.va))] else m.2)) ([], [])

/-- R407: a template error ends the launch before any crew is placed, with its record. -/
def State.templateError (s : State) (l : Launch) (w : Wrong) : State :=
  (s.launchEvent l 4 0 (leBytes 1 w.code ++ leBytes 1 0 ++ leBytes 2 w.entry)).endLaunch l.id 21

/-- The launch starts with template `t` of bytes `b`, or ends at once by it. -/
def State.startLaunch (s : State) (q : CmdQueue) (p : Pending) (t : Template) (b : List Byte) : State :=
  let x := q.owner
  let l := newLaunch s.nextLaunch q p t []
  let affOut := l.aff.any fun a => !((s.diesOf x).contains a.1)
  let open_ (l : Launch) : State := { s with launches := s.launches ++ [l], nextLaunch := s.nextLaunch + 1 }
  match lowestWrong (t.wrongs b l.race l.spillBase l.spillW l.spillSlots affOut) with
  | some w => (open_ l).templateError l w
  | none =>
    let code := s.codeImage x t
    let l := { l with image := code.1, badCode := code.2 }
    if l.coloc && !s.fitsEmpty x.part l then (open_ l).templateError l ⟨14, noEntry⟩ else open_ l

/-- R428: the office reads a poisoned word in the template at `va`. Each replay starts from the packet, reads it again, and meets it
again (R420). -/
def State.poisonedLaunch (s : State) (q : CmdQueue) (p : Pending) (t : Template) (va : Nat) : State :=
  let l := newLaunch s.nextLaunch q p t []
  let pa := match s.checkAccess q.owner .packet va 64 false none with
    | .ok f => some (f.phys f.frame (va - f.va))
    | .error _ => none
  let s : State := { s with launches := s.launches ++ [l], nextLaunch := s.nextLaunch + 1 }
  (List.range (if l.replay then l.replayLimit + 1 else 1)).foldl (fun s _ => s.consumedError l.id pa .office 0 0) s

/-- R406, R407. A template whose counts are out of range is wrong whether or not its entries can be read. -/
def execLaunch (q : QueueRef) (s : State) : Answer := s.take q 1 launchLegal fun s q p =>
  let va := fieldAt p.body 16 8
  match s.vRead (officeAgent q.owner) .packet va 64 with
  | .error v => s.packetFault q p .packet v
  | .ok h =>
    match s.vRead (officeAgent q.owner) .packet va (templateBytes h.1) with
    | .ok b => if b.2 then s.poisonedLaunch q p (templateOf b.1) va else s.startLaunch q p (templateOf b.1) b.1
    | .error v =>
      if countsOk h.1 then s.packetFault q p .packet v else s.startLaunch q p (templateOf h.1).headOnly h.1

/-! ## Wait-on-value, write-value and copy (R413) -/

def waitLegal (_ : CmdQueue) (b : List Byte) : Bool :=
  (byteAt b 40 == 4 || byteAt b 40 == 8) && byteAt b 41 < 4 && restZero b 42 []

/-- Read the watched word; the packet ends when it compares true. A poisoned word is consumed (R428): the queue stops (log 18). -/
def State.pollValue (s : State) (q : CmdQueue) (p : Pending) : State :=
  let b := p.body
  let n := byteAt b 40
  let va := fieldAt b 16 8
  match s.checkAccess q.owner .packet va n false none with
  | .error (code, f) => (s.packetFault q p .packet ⟨va, code, f⟩).modCmdQueue q.ref fun c => { c with waiting := none }
  | .ok l =>
    let mask := fieldAt b 32 n
    let r := s.readSingle (officeAgent q.owner) l (va - l.va) n
    let word := leNat r.1 &&& mask
    let value := fieldAt b 24 n &&& mask
    let holds := match byteAt b 41 with
      | 0 => word == value
      | 1 => word != value
      | 2 => decide (value ≤ word)
      | _ => decide (word < value)
    if r.2 then
      (s.packetFault q p .packet ⟨va, consumedCode (l.phys l.frame (va - l.va)), true⟩ .office).modCmdQueue q.ref fun c =>
        { c with waiting := none }
    else if holds then (s.finishPacket q p 0).modCmdQueue q.ref fun c => { c with waiting := none }
    else s.modCmdQueue q.ref fun c => { c with waiting := some p }

def execWaitOnValue (q : QueueRef) (s : State) : Answer := s.take q 2 waitLegal State.pollValue

def execWaitOnValuePoll (q : QueueRef) (s : State) : Answer :=
  match s.cmdQueue? q with
  | none => .next s
  | some c => match c.waiting with
    | some p => if c.stopped then .next s else .next (s.pollValue c p)
    | none => .next s

def writeLegal (_ : CmdQueue) (b : List Byte) : Bool :=
  (byteAt b 32 == 4 || byteAt b 32 == 8) && restZero b 33 []

def execWriteValue (q : QueueRef) (s : State) : Answer := s.take q 3 writeLegal fun s q p =>
  let b := p.body
  let va := fieldAt b 16 8
  let n := byteAt b 32
  match s.checkAccess q.owner .packet va n false none with
  | .error (code, f) => s.packetFault q p .packet ⟨va, code, f⟩
  | .ok l =>
    if l.ro || l.spill || l.poison then
      s.packetFault q p .packet ⟨va, if l.spill then 4 else if l.ro then 8 else 9, true⟩
    else
      let ws := l.writeSingle (va - l.va) (leBytes n (fieldAt b 24 n)) false
      (ws.foldl (fun s w => s.physWrite (officeAgent q.owner) w.pa w.data w.bad) s).finishPacket q p 0

def copyLegal (_ : CmdQueue) (b : List Byte) : Bool := fieldAt b 32 8 % 16 == 0 && restZero b 40 []

def execCopy (q : QueueRef) (s : State) : Answer := s.take q 4 copyLegal fun s q p =>
  let b := p.body
  let len := fieldAt b 32 8
  if len == 0 then s.finishPacket q p 0
  else
    let c : Copy :=
      { crew := noCrew, warp := 0, ctx := q.owner, group := 0, bar := 0, handle := 0
        kind := .packet q.ref p.index (fieldAt b 24 8), glob := fieldAt b 16 8, win := 0, len, mark := none
        receivers := [⟨noCrew, [], false⟩], suspended := none, aperture := none, store := none }
    s.modCore (s.officeCore q.owner) fun k => { k with copies := k.copies ++ [c] }

/-! ## Fault acknowledgement (R239, R310, R179) -/

def ackLegal (q : CmdQueue) (b : List Byte) : Bool :=
  byteAt b 20 < 16 && q.ctx.all (· == byteAt b 20) && restZero b 21 []

def Warp.ackFault (num : Nat) (w : Warp) : Warp := if w.block == some (.fault num) then w.wakeUp else w

/-- Everything that waits on a record of a context goes on. -/
def State.ackFault (s : State) (x : CtxRef) (num : Nat) : State :=
  if !((s.context? x).any fun c => c.outstanding.any (·.num == num)) then s
  else
    let s := s.modContext x fun c => { c with outstanding := c.outstanding.filter (·.num != num) }
    let copy (c : Copy) : Copy := if c.ctx == x && c.suspended == some num then { c with suspended := none } else c
    let gran (g : Granule) : Granule := if g.ctx == x && g.suspended == some num then { g with suspended := none } else g
    { s with
      crews := s.crews.map fun (c : Crew) =>
        if (s.launch? c.ref.launch).any fun l => l.ctx == x then
          { c with
            warps := c.warps.map (·.ackFault num)
            savedCopies := c.savedCopies.map copy
            savedSpills := c.savedSpills.map gran }
        else c
      cores := s.cores.map fun (k : CoreState) => { k with copies := k.copies.map copy, spillBuf := k.spillBuf.map gran } }

def execFaultAcknowledgement (q : QueueRef) (s : State) : Answer := s.take q 6 ackLegal fun s q p =>
  (s.ackFault ⟨q.ref.part, byteAt p.body 20⟩ (fieldAt p.body 16 4)).finishPacket q p 0

/-! ## Partition control (R414, R415) -/

/-- The rules that every partition-control packet keeps: its subkind, its context's number, and zero elsewhere. -/
def controlFrame (sub : Nat) (named : List (Nat × Nat)) (q : CmdQueue) (b : List Byte) : Bool :=
  byteAt b 16 == sub && byteAt b 18 < 16 && restZero b 20 named &&
    (q.ctx.isNone || (sub != 1 && sub != 2 && q.ctx == some (byteAt b 18)))

/-- The office takes a partition-control packet of one subkind. A packet of another legal subkind waits for its own. -/
def State.control (s : State) (r : QueueRef) (sub : Nat) (op : Option Nat) (legal : CmdQueue → List Byte → Bool)
    (body : State → CmdQueue → Pending → CtxRef → State) : Answer :=
  let mine (b : List Byte) : Bool := byteAt b 16 == sub && op.all fun n => byteAt b 17 == n
  match s.cmdQueue? r with
  | none => .next s
  | some q =>
    let b := q.fetched.getD (s.headBytes q)
    let known := 1 ≤ byteAt b 16 && byteAt b 16 ≤ 9
    let others := known && !mine b && !((byteAt b 16 == 3 && 2 < byteAt b 17) || ((byteAt b 16 == 5 || byteAt b 16 == 6) && 1 < byteAt b 17))
    if byteAt b 0 == 5 && others then .next s
    else s.take r 5 (fun q b => mine b && legal q b) fun s q p => body s q p ⟨q.ref.part, byteAt p.body 18⟩

def createLegal (q : CmdQueue) (b : List Byte) : Bool :=
  controlFrame 1 [(20, 108)] q b && byteAt b 17 < 2 && byteAt b 19 == 0 && fieldAt b 24 8 % 16384 == 0 &&
    fieldAt b 32 8 % 64 == 0 && fieldAt b 40 8 % 64 == 0 && powerOfTwo (fieldAt b 48 4) 64 65536 &&
    (fieldAt b 52 4 == 0 || powerOfTwo (fieldAt b 52 4) 64 65536) && fieldAt b 56 8 % 32 == 0 && fieldAt b 64 8 % 65536 == 0 &&
    fieldAt b 72 8 % 65536 == 0 && fieldAt b 80 8 % 32 == 0 && zeroAt b 88 40

def newRing (base size : Nat) : Ring := ⟨base, size, 0, 0, [], [], 0⟩

/-- R398, R283: a new context of a partition with these cores. -/
def newContext (x : CtxRef) (b : List Byte) (cores : List Nat) : Context where
  ref := x
  root := fieldAt b 24 8
  replayOn := byteAt b 17 == 1
  wdogctl := BitVec.ofNat 32 (fieldAt b 20 4 % 2 ^ 24)
  diagBase := fieldAt b 32 8
  diagNext := 0
  diags := []
  ring := newRing (fieldAt b 40 8) (fieldAt b 48 4)
  sampleRing := if fieldAt b 52 4 == 0 then none else some (newRing (fieldAt b 56 8) (fieldAt b 52 4))
  pool := fieldAt b 64 8
  poolSize := fieldAt b 72 8
  poolUsed := 0
  apTable := fieldAt b 80 8
  apertures := []
  faultCount := 0
  outstanding := []
  sampling := none
  grace := Grace.new cores
  debugger := none
  breakpoints := []
  tlb := []

def State.coresOf (s : State) (x : CtxRef) : List Nat := (s.diesOf x).flatMap fun d => (List.range 48).map (· + 48 * d)

/-- R398. A partition that holds 16 contexts is busy; all numbers are in use then, and the lower status is reported (log 81). -/
def execCreateContext (q : QueueRef) (s : State) : Answer := s.control q 1 none createLegal fun s q p x =>
  if 16 ≤ (s.contexts.filter fun c => c.ref.part == x.part).length then s.finishPacket q p 1
  else if (s.context? x).isSome then s.finishPacket q p 2
  else
    let s : State := { s with contexts := s.contexts ++ [newContext x p.body (s.coresOf x)] }
    s.finishPacket q p 0

def destroyLegal (q : CmdQueue) (b : List Byte) : Bool := controlFrame 2 [] q b && byteAt b 17 == 0 && byteAt b 19 == 0

/-- The context's launches end, then it and its queues are gone. -/
def State.destroyContext (s : State) (x : CtxRef) : State :=
  let s := (s.openLaunches x).foldl (fun s id => s.endNow id 26) s
  let s := s.modPartition x.part fun p =>
    { p with
      saved := p.saved.filter fun m => m.context.ref != x
      slots := p.slots.filter fun y => y.2.2 != .context x }
  { s with
    contexts := s.contexts.filter fun c => c.ref != x
    queues := s.queues.filter fun c => !(c.ref.part == x.part && c.ctx == some x.ctx)
    launches := s.launches.filter fun l => l.ctx != x
    cores := s.cores.map fun (k : CoreState) =>
      { k with copies := k.copies.filter fun c => c.ctx != x, spillBuf := k.spillBuf.filter fun g => g.ctx != x } }

def execDestroyContext (q : QueueRef) (s : State) : Answer := s.control q 2 none destroyLegal fun s q p x =>
  if (s.context? x).isNone then s.finishPacket q p 2 else (s.destroyContext x).finishPacket q p 0

/-! ### Queues (subkind 3) -/

def queueFrame (op : Nat) (named : List (Nat × Nat)) (q : CmdQueue) (b : List Byte) : Bool :=
  controlFrame 3 named q b && byteAt b 17 == op && 1 ≤ byteAt b 19 && byteAt b 19 < 64

/-- R400: a base in host memory or device DRAM. -/
def queueBaseOk (pa : Nat) : Bool :=
  pa % 4096 == 0 && match region pa with
    | .dram _ _ | .host => true
    | _ => false

def queueCreateLegal (q : CmdQueue) (b : List Byte) : Bool :=
  queueFrame 0 [(20, 1), (24, 16)] q b && byteAt b 20 < 4 && queueBaseOk (fieldAt b 24 8) && powerOfTwo (fieldAt b 32 4) 16 65536

def newCmdQueue (r : QueueRef) (ctx : Option Nat) (base size prio : Nat) (seqbase : BitVec 32) : CmdQueue where
  ref := r
  base := base
  size := size
  prio := prio
  ctx := ctx
  seqbase := seqbase
  head := 0
  last := 0
  stopped := false
  remembered := none
  rereads := 0
  readTick := 0
  fetched := none
  waiting := none
  pending := []

/-- The queue a packet of subkind 3 names. -/
def namedQueue (q : CmdQueue) (p : Pending) : QueueRef := ⟨q.ref.part, byteAt p.body 19⟩

def execQueueCreate (q : QueueRef) (s : State) : Answer := s.control q 3 (some 0) queueCreateLegal fun s q p x =>
  let b := p.body
  if (s.context? x).isNone || (s.cmdQueue? (namedQueue q p)).isSome then s.finishPacket q p 2
  else
    let c := newCmdQueue (namedQueue q p) (some x.ctx) (fieldAt b 24 8) (fieldAt b 32 4) (byteAt b 20)
      (BitVec.ofNat 32 (fieldAt b 36 4))
    let s : State := { s with queues := s.queues ++ [c] }
    s.finishPacket q p 0

/-- Whether the named queue exists and belongs to the named context. -/
def State.ownsQueue (s : State) (x : CtxRef) (r : QueueRef) : Bool := (s.cmdQueue? r).any fun c => c.ctx == some x.ctx

def State.haltQueue (s : State) (r : QueueRef) : State :=
  s.modCmdQueue r fun c => { c with stopped := true, rereads := 0, fetched := none }

/-- R401, R414, R415: the management interface stops the control queue, a packet any other. -/
def execQueueStop (q : QueueRef) (managed : Bool) (s : State) : Answer :=
  if managed then .next (if q.q == 0 then s.haltQueue q else s)
  else s.control q 3 (some 1) (queueFrame 1 []) fun s q p x =>
    let r := namedQueue q p
    if !s.ownsQueue x r then s.finishPacket q p 2 else (s.haltQueue r).finishPacket q p 0

/-- R402: the queue goes on at a head index, and a kick value remembered meanwhile is checked as a kick made now. A
wait-on-value that the stop interrupted is over (log 51). -/
def State.restartQueue (s : State) (r : QueueRef) (head : BitVec 32) : State :=
  let late := (s.cmdQueue? r).bind (·.remembered)
  let s := s.modCmdQueue r fun c =>
    { c with
      stopped := false, head, last := head, remembered := none, rereads := 0, fetched := none, waiting := none
      pending := match c.waiting with
        | some w => c.pending.filter (·.index != w.index)
        | none => c.pending }
  match late, s.cmdQueue? r with
  | some v, some c => s.checkKick c v
  | _, _ => s

/-- R401, R402, R414: the management interface restarts the control queue, a packet any other. -/
def execQueueRestart (q : QueueRef) (managed : Option (BitVec 32)) (s : State) : Answer :=
  match managed with
  | some head => .next (if q.q == 0 && (s.cmdQueue? q).any (·.stopped) then s.restartQueue q head else s)
  | none => s.control q 3 (some 2) (queueFrame 2 [(40, 4)]) fun s q p x =>
    let r := namedQueue q p
    if !s.ownsQueue x r || !(s.cmdQueue? r).any (·.stopped) then s.finishPacket q p 2
    else (s.restartQueue r (BitVec.ofNat 32 (fieldAt p.body 40 4))).finishPacket q p 0

/-! ### Translation invalidation (subkind 4) -/

def invalLegal (q : CmdQueue) (b : List Byte) : Bool :=
  controlFrame 4 [(24, 16)] q b && byteAt b 17 == 0 && byteAt b 19 == 0 && fieldAt b 24 8 % 65536 == 0 &&
    fieldAt b 32 8 % 65536 == 0

/-- R416, R447: no leaf of the range remains, and held records are tried again. -/
def State.invalidateRange (s : State) (x : CtxRef) (va len : Nat) : State :=
  (s.modContext x fun c =>
    { c with tlb := if len == 0 then [] else c.tlb.filter fun l => l.va + l.size ≤ va || va + len ≤ l.va }).retryEvents x

def execTranslationInvalidation (q : QueueRef) (s : State) : Answer := s.control q 4 none invalLegal fun s q p x =>
  if (s.context? x).isNone then s.finishPacket q p 2
  else (s.invalidateRange x (fieldAt p.body 24 8) (fieldAt p.body 32 8)).finishPacket q p 0

/-! ### Swap, save and restore (subkinds 5 and 6) -/

def swapLegal (op : Nat) (q : CmdQueue) (b : List Byte) : Bool :=
  controlFrame 5 [(20, 5), (28, 8)] q b && byteAt b 17 == op && byteAt b 19 == 0

/-- The crews a swap packet acts on now, with the launch. -/
def State.swapTarget (s : State) (x : CtxRef) (p : Pending) (out : Bool) : List Crew :=
  let b := p.body
  match s.swapLaunch x (BitVec.ofNat 32 (fieldAt b 20 4)) (byteAt b 24) with
  | some l => s.swapCrews l out (fieldAt b 28 4) (fieldAt b 32 4)
  | none => []

/-- R372, R399: the packet completes with the event that reports it (R374). -/
def execSwapOut (q : QueueRef) (s : State) : Answer := s.control q 5 (some 0) (swapLegal 0) fun s q p x =>
  match s.swapTarget x p true with
  | [] => s.finishPacket q p 2
  | cs => match s.swapOut x cs with
    | none => s.finishPacket q p 1
    | some s => s

def execResume (q : QueueRef) (s : State) : Answer := s.control q 5 (some 1) (swapLegal 1) fun s q p x =>
  match s.swapTarget x p false with
  | [] => s.finishPacket q p 2
  | cs => s.queueResume x.part cs

def saveLegal (op : Nat) (q : CmdQueue) (b : List Byte) : Bool :=
  controlFrame 6 (if op == 1 then [(24, 8)] else []) q b && byteAt b 17 == op && byteAt b 19 < 2 &&
    (op == 0 || fieldAt b 24 8 % 16384 == 0)

def execPartitionSave (q : QueueRef) (s : State) : Answer := s.control q 6 (some 0) (saveLegal 0) fun s q p x =>
  let slot := byteAt p.body 19
  if (s.context? x).isNone then s.finishPacket q p 2
  else if !(s.partition? x.part).any (·.slotFree slot) then s.finishPacket q p 1
  else s.saveContext x slot

def execPartitionRestore (q : QueueRef) (s : State) : Answer := s.control q 6 (some 1) (saveLegal 1) fun s q p x =>
  let slot := byteAt p.body 19
  match (s.partition? x.part).bind fun k => k.saved.find? (·.slot == slot) with
  | some m =>
    if (s.context? x).isNone then s.finishPacket q p 2
    else s.restoreContext x m (fieldAt p.body 24 8)
  | none => s.finishPacket q p 2

/-- Whether a crew that a packet brings back still waits for a core. -/
def State.stillWaits (s : State) (x : CtxRef) (p : Pending) : Bool :=
  let b := p.body
  let waits (f : Crew → Bool) : Bool := s.crews.any fun c =>
    c.resuming && (s.launch? c.ref.launch).any (fun l => l.ctx == x) && f c
  if byteAt b 16 == 6 then byteAt b 17 == 1 && waits fun _ => true
  else byteAt b 17 == 1 && waits fun c =>
    fieldAt b 28 4 ≤ c.ref.crew && c.ref.crew ≤ fieldAt b 32 4 &&
      (s.launch? c.ref.launch).any fun l => l.seq == BitVec.ofNat 32 (fieldAt b 20 4) && l.queue.q == byteAt b 24

/-- R374: the oldest save, restore, swap-out or resume of the queue reports; a resume or restore once its crews stand on
cores again. -/
def execPreemptionComplete (r : QueueRef) (s : State) : Answer :=
  match s.cmdQueue? r with
  | none => .next s
  | some q =>
    let due (p : Pending) : Bool :=
      p.kind == 5 && (byteAt p.body 16 == 5 || byteAt p.body 16 == 6) && !s.stillWaits ⟨r.part, byteAt p.body 18⟩ p
    match q.pending.find? due with
    | some p => .next (s.finishPacket q p 0)
    | none => .next s

/-! ### Watchdog limit, apertures, sampling (subkinds 7 to 9) -/

def wdogLegal (q : CmdQueue) (b : List Byte) : Bool := controlFrame 7 [(20, 4)] q b && byteAt b 17 == 0 && byteAt b 19 == 0

/-- Bits 31:24 are reserved and stay 0 (R366). -/
def execSetWdogctl (q : QueueRef) (s : State) : Answer := s.control q 7 none wdogLegal fun s q p x =>
  if (s.context? x).isNone then s.finishPacket q p 2
  else (s.modContext x fun c => { c with wdogctl := BitVec.ofNat 32 (fieldAt p.body 20 4 % 2 ^ 24) }).finishPacket q p 0

def apertureLegal (q : CmdQueue) (b : List Byte) : Bool :=
  controlFrame 8 [(24, 32)] q b && byteAt b 17 == 0 && byteAt b 19 < 64 && byteAt b 26 < 16 && byteAt b 27 < 2 &&
    zeroAt b 28 4 && zeroAt b 40 16

def execSetApertureEntry (q : QueueRef) (s : State) : Answer := s.control q 8 none apertureLegal fun s q p x =>
  if (s.context? x).isNone then s.finishPacket q p 2
  else
    let b := p.body
    let n := byteAt b 19
    let e := if byteAt b 27 == 1 then some (Aperture.mk (fieldAt b 24 2) (byteAt b 26) (fieldAt b 32 8)) else none
    (s.modContext x fun c =>
      { c with apertures := (n, e) :: c.apertures.filter fun a => a.1 != n }).finishPacket q p 0

def samplingLegal (q : CmdQueue) (b : List Byte) : Bool :=
  controlFrame 9 [] q b && byteAt b 17 < 2 &&
    (if byteAt b 17 == 1 then 10 ≤ byteAt b 19 && byteAt b 19 ≤ 20 else byteAt b 19 == 0)

def execSampling (q : QueueRef) (s : State) : Answer := s.control q 9 none samplingLegal fun s q p x =>
  if (s.context? x).isNone then s.finishPacket q p 2
  else
    (s.modContext x fun c =>
      { c with sampling := if byteAt p.body 17 == 1 then some (byteAt p.body 19) else none }).finishPacket q p 0

end Sys2Proof.Machine
end

