-- ==== Sys2Proof/Machine/System.lean ====
section
/-! DEFINITION. Class 0xC, system instructions (15 R356 to R361, R364, R365, R378, R385 to R390). -/

namespace Sys2Proof.Machine

/-- R386: code 13, raised once the instruction has acted. -/
def execTrap (c : Ctl) (n : Word) (s : State) := issue (.trap c n) s fun _ => .trapAfter 13 (n.toNat % 256)

/-- R387: the whole of S returns, whatever the guard selects. -/
def execRtt (c : Ctl) (s : State) := issue (.rtt c) s fun x =>
  if !x.w.inTrap then .trap x.w 1 3
  else
    let w := { x.w with trapBase := x.w.trapBase &&& 0xBFFF_FFFF }
    x.flow (w.modSplit w.cur fun sp => { sp with pc := w.trapPc })

/-! ## Control registers (R364, R365) -/

/-- Whether the spill engine holds granules of a warp that are not written (R181). -/
def CoreState.holds (k : CoreState) (r : WarpRef) : Bool := k.spillBuf.any (·.warp == r)

/-- A 32-bit control register. -/
def Cx.creg32 (x : Cx) (n : Nat) : Word :=
  match n with
  | 0x00 => x.w.numctl
  | 0x01 => x.w.numstat
  | 0x02 => x.w.fpctl
  | 0x05 => x.w.winctl ((x.s.coreAt x.core).holds x.ref)
  | 0x07 => BitVec.ofNat 32 (x.w.spillLim % 2 ^ 24)
  | 0x09 => x.w.trapBase
  | 0x0A => x.w.trapCause
  | 0x0B => x.w.trapPc
  | 0x0C => ((x.s.context? x.l.ctx).map (·.wdogctl)).getD 0
  | n => ((x.c.tiles[n - 0x10]?).map (·.shape)).getD 0

/-- A 64-bit control register of the warp, its launch or its context. -/
def Cx.creg64 (x : Cx) (n : Nat) : DWord :=
  match n with
  | 0x03 => x.l.rndkey
  | 0x06 => x.w.spillBase
  | 0x08 => x.w.laneFault
  | _ => x.graceCopy.cur

/-- R365: a tile the crew does not declare. -/
def Cx.noTile (x : Cx) (n : Nat) : Bool := 0x10 ≤ n && x.c.tiles.length ≤ n - 0x10

/-- An earlier instruction of the warp that has not completed can still change the register: `FPCTL` by its flags (R110),
`WINCTL.BUSY` by a `wflush` (R192), `GRACENUM` by a start (R296). Every other register changes at issue. -/
def Warp.changing (w : Warp) (n : Nat) : Bool := w.flights.any fun f =>
  match n with
  | 0x02 => f.raise.isSome
  | 0x05 => f.kind == .flush
  | 0x0D => match f.kind with
    | .grace _ => true
    | _ => false
  | _ => false

/-- R365: `ctlrd` waits for what can still change its register. -/
def Cx.readControl (x : Cx) (dst : Spec) (creg : Word) : Attempt :=
  let n := creg.toNat
  if x.noTile n then .trap x.w 1 1
  else if x.w.changing n then .hold
  else
    match cregKind creg with
    | .lanePair =>
      let v (l : Nat) : DWord := (x.w.opcount.getD l 0).setWidth 64
      x.wideDone x.w dst [laneList.map fun l => (v l).extractLsb' 0 32, laneList.map fun l => (v l).extractLsb' 32 32]
    | .pair => x.pairDone x.w dst (x.creg64 n)
    | _ => x.scalDone x.w dst (x.creg32 n)

def execCtlrd (c : Ctl) (dst : Spec) (creg : Word) (s : State) := issue (.ctlrd c dst creg) s fun x => x.readControl dst creg

/-- R181: the clear of `REJ` applies first; an accepted `REACH` runs cover, so the band moves before the write. -/
def Cx.writeWinctl (x : Cx) (v : Word) (go : Warp → State → Attempt) : Attempt :=
  let w := if v.getLsbD 19 then { x.w with rej := false } else x.w
  let reach := (v.extractLsb' 0 5).toNat
  if reach == 0 || 24 < reach || !spanOk w.ring reach w.lo w.hi || !limitOk w.spillLim reach w.hi then
    go { w with rej := true } x.s
  else
    x.cover { w with reach } w.bases fun y m => go { m with reach, rej := w.rej } y.s

/-- R128: each active lane's count from that lane's pair. -/
def Cx.writeOpcount (x : Cx) (a : Spec) : Warp :=
  let lo := x.srcWide a 0
  let hi := x.srcWide a 1
  { x.w with opcount := laneList.map fun l =>
      if x.act.getLsbD l then (wordAt hi l ++ wordAt lo l).setWidth 48 else x.w.opcount.getD l 0 }

def execCtlwr (c : Ctl) (creg : Word) (a : Spec) (s : State) := issue (.ctlwr c creg a) s fun x =>
  let n := creg.toNat
  let v := x.scal a
  let done (w : Warp) : Attempt := .done (x.put w) { flight := none }
  if x.noTile n then .trap x.w 1 1
  else
    match n with
    | 0x00 => done (x.w.writeNumctl x.triple v)
    | 0x01 => done (x.w.writeNumstat v)
    | 0x02 => done (x.w.writeFpctl v)
    | 0x04 => done (x.writeOpcount a)
    | 0x05 => x.writeWinctl v fun w s => .done (s.modWarp x.ref fun _ => w) { flight := none }
    | 0x08 => done (x.w.writeLaneFault (x.scal64 a))
    | 0x09 => done { x.w with trapBase := (x.w.trapBase &&& 0x7800_0000) ||| (v &&& 0x87FF_FFFF) }
    | 0x0B => done { x.w with trapPc := v }
    | n =>
      if 0x10 ≤ n then
        .done ((x.put x.w).modCrew x.ref.crew fun k => k.modTile (n - 0x10) fun t => { t with shape := v &&& 0x7FFFF })
          { flight := none }
      else done x.w

/-! ## Clocks, breakpoint, mark -/

/-- R389. -/
def execClockTick (c : Ctl) (dst : Spec) (s : State) := issue (.clockTick c dst) s fun x =>
  x.pairDone x.w dst x.s.clock.tick
def execClockCyc (c : Ctl) (dst : Spec) (s : State) := issue (.clockCyc c dst) s fun x =>
  x.pairDone x.w dst (BitVec.ofNat 64 x.s.clock.cycle)

/-- R378: with a debugger the warp stops at PC + 1, otherwise code 14. -/
def execBrk (c : Ctl) (s : State) := issue (.brk c) s fun x =>
  if ((x.s.context? x.l.ctx).bind (·.debugger)).isNone then .trapAfter 14 0
  else
    let w := (x.w.modSplit x.w.cur fun sp => { sp with pc := sp.pc + 1 }).mergeCheck x.w.cur
    .done ((x.put w).debugHalt x.ref 1) { setPc := true, flight := none }

/-- R390. -/
def execMark (c : Ctl) (a : Spec) (sr : Bool) (imm : Word) (s : State) := issue (.mark c a sr imm) s fun x =>
  let s := x.put x.w
  let s := if ((x.s.context? x.l.ctx).bind (·.sampling)).isNone then s
    else s.sample x.l.ctx (sampleBytes s.clock.tick x.l.seq x.sp.pc (4 * x.core + x.w.quarter) x.w.slot 0 x.ref.crew.crew 1
      x.ref.warp (if sr then x.scal a else imm).toNat)
  .done s { flight := none }

end Sys2Proof.Machine
end

