-- ==== Sys2Proof/Machine/Select.lean ====
section
/-! DEFINITION. Which warps are eligible (06 R167; 12 R299; 14 R339), which one a quarter tries and what an issue leaves behind
(R167, R168; 02 R40). -/

namespace Sys2Proof.Machine

/-! ## Eligibility -/

/-- The body of an instruction that its unit, or a register that is still changing, may hold back. -/
def Cx.unitBody (x : Cx) : Attempt :=
  match x.i with
  | .cpyLoad _ a => x.copy a (.linear true)
  | .cpyStore _ a => x.copy a (.linear false)
  | .cpytLoad _ a => x.copy a (.rect true)
  | .cpytStore _ a => x.copy a (.rect false)
  | .cpym _ a fromsp => x.copy a (.multicast fromsp)
  | .cpyfLoad _ a => x.copy a (.fabric true)
  | .cpyfStore _ a => x.copy a (.fabric false)
  | .tld _ a => x.loadTile a
  | .tst _ a => x.storeTile a
  | .mma _ a | .mdist _ a => x.multiply a
  | .azero _ slot acc => x.zeroAcc slot acc
  | .ard _ dst e slot acc _ _ => x.readOut dst e slot acc
  | .acvt _ slot tile acc psel => x.convertAcc slot tile acc psel
  | .atopk _ slot acc a _ _ _ => x.topAcc slot acc a
  | .asave _ a => x.saveAcc a
  | .arest _ a => x.restoreAcc a
  | .ctlrd _ dst creg => x.readControl dst creg
  | .fenceAcq _ _ | .fenceRel _ _ | .fenceAcqrel _ _ | .fenceSc _ _ | .fenceAsync _ =>
    if (x.s.storing x.core x.ref).isEmpty then .done x.s {} else .hold
  | _ => .done x.s {}

/-- The instruction would not be accepted in this cycle: its tiles are not ready or its queue is full (R339, R341), its engine holds
all the copies it can (R299), or what it waits for has not completed (R271, R342, R365). -/
def Cx.heldBack (x : Cx) : Bool :=
  x.w.owed.isNone && match x.answer Cx.unitBody with
    | .hold => true
    | _ => false

/-- R167: what keeps the next instruction from issuing. The issue limits of the units are timing (log 60). -/
def State.issuable (s : State) (r : WarpRef) (w : Warp) : Bool :=
  match s.nextAttempt r with
  | some (.inl x) =>
    w.flagsFree x.i && !x.interlocked &&
      match { s with turn := some r }.begin x.i with
      | .go y => !y.heldBack
      | _ => true
  | some (.inr _) => true
  | none => false

/-- R167. -/
def State.eligible (s : State) (r : WarpRef) : Bool :=
  match s.crew? r.crew, s.warp? r with
  | some c, some w => c.core.isSome && w.standing && !s.atBreakpoint r w && s.issuable r w
  | _, _ => false

/-! ## Selection -/

/-- The resident warps of a quarter with their slots. -/
def State.quarterWarps (s : State) (core q : Nat) : List (WarpRef × Warp) :=
  (s.crews.filter fun c => c.core == some core).flatMap fun c =>
    (c.warps.filter fun w => w.quarter == q && !w.retired).map fun w => (⟨c.ref, w.num⟩, w)

/-- R167: the class of a warp among `n` resident ones. -/
def Warp.cls (w : Warp) (n : Nat) : Nat := if 2 * n ≤ w.age then 4 else w.prio

/-- The pointer of a quarter. -/
def State.pointer (s : State) (core q : Nat) : Nat := (s.coreAt core).pointers.getD q 0

/-- How far a slot lies from the pointer, upward and cyclically. -/
def slotDistance (pointer slot : Nat) : Nat := (slot + 16 - pointer % 16) % 16

/-- Of two candidates the one of the higher class, and then the one nearer to the pointer. -/
def better (n pointer : Nat) (a b : WarpRef × Warp) : WarpRef × Warp :=
  if a.2.cls n < b.2.cls n then b
  else if b.2.cls n < a.2.cls n then a
  else if slotDistance pointer b.2.slot < slotDistance pointer a.2.slot then b else a

/-- The eligible warps of a quarter, without those tried already in this cycle. -/
def State.candidates (s : State) (core q : Nat) (tried : List WarpRef) : List (WarpRef × Warp) :=
  (s.quarterWarps core q).filter fun x => !tried.contains x.1 && s.eligible x.1

/-- R167: the warp that the quarter selects. -/
def State.select (s : State) (core q : Nat) (tried : List WarpRef) : Option WarpRef :=
  let n := (s.quarterWarps core q).length
  match s.candidates core q tried with
  | [] => none
  | x :: xs => some (xs.foldl (better n (s.pointer core q)) x).1

/-- R167: ages and pointer after the warp in `slot` issued; `waited` were eligible with it. -/
def State.noteIssue (s : State) (core q : Nat) (r : WarpRef) (slot : Nat) (waited : List WarpRef) : State :=
  let s := s.modWarp r fun w => { w with age := 0 }
  let s := waited.foldl (fun s u => s.modWarp u fun w => { w with age := w.age + 1 }) s
  s.modCore core fun k => { k with pointers := k.pointers.set q ((slot + 1) % 16) }

/-- R39, R40, R64: an attempt that finds no instruction: the trap of R356, or the fatal fault of the fetch. -/
def State.fetchFails (s : State) (r : WarpRef) (f : Fetched) : State :=
  match s.warp? r, s.crew? r.crew with
  | some w, some c =>
    match f with
    | .trap arg => s.takeTrap r w 1 arg w.split.pc
    | .bad pa => { s.consumedError r.crew.launch (some pa) .fetch (((s.crew? r.crew).map (·.coreNo)).getD 0) r.warp with turn := none }
    | .fault va code =>
      s.faultWarp r { va, code, fatal := true, mask := 0, acc := .fetch, agent := 0, core := c.coreNo, quarter := w.quarter,
                      warp := r.warp, pc := w.split.pc, crew := r.crew.crew, handle := 0 }
    | .ok _ => s
  | _, _ => s

/-- One issue attempt of a warp: its next instruction under `exec`, with the turn given to the warp. -/
def State.attempt (exec : Instr → State → Host.Outcome State Fault Refusal) (s : State) (r : WarpRef) :
    Host.Outcome State Fault Refusal :=
  let s : State := { s with turn := some r }
  match s.launch? r.crew.launch, s.warp? r with
  | some l, some w =>
    match s.fetch l w.split.pc with
    | .ok i => exec i s
    | f => .next (s.fetchFails r f)
  | _, _ => .next { s with turn := none }

/-- R167: a cycle of a quarter. A warp whose attempt blocks or is held back has not issued, and the next one is tried. -/
def State.runQuarter (exec : Instr → State → Host.Outcome State Fault Refusal) (core q : Nat) :
    Nat → List WarpRef → State → Host.Outcome State Fault Refusal
  | 0, _, s => .next s
  | fuel + 1, tried, s =>
    match s.select core q tried with
    | none => .next s
    | some r =>
      let slot := ((s.warp? r).map (·.slot)).getD 0
      let waited := ((s.candidates core q (r :: tried)).map (·.1))
      match s.attempt exec r with
      | .next t =>
        if t.turn.isSome then State.runQuarter exec core q fuel (r :: tried) { t with turn := none }
        else .next (t.noteIssue core q r slot waited)
      | o => o

end Sys2Proof.Machine
end

