-- ==== Sys2Proof/Machine/HostEvents.lean ====
section
/-! DEFINITION. What the host, the peers and the fabric do (16 R394 to R396, R417, R430; 12 R309), and what BAR0 reads. -/

namespace Sys2Proof.Machine

/-! ## Registers of BAR0 (R395) -/

/-- R395, R417: the host advances the read index of an event ring, and held records are written as far as they go. -/
def execEventRingReadIndex (part : Nat) (ctx : Option Nat) (value : BitVec 32) (s : State) : Answer :=
  match ctx with
  | some c =>
    let x : CtxRef := ⟨part, c⟩
    .next ((s.modContext x fun k => { k with ring := { k.ring with read := value } }).retryEvents x)
  | none =>
    .next ((s.modPartition part fun p => { p with ring := { p.ring with read := value } }).retryPart part)

def execSamplingRingReadIndex (x : CtxRef) (value : BitVec 32) (s : State) : Answer :=
  .next (s.modContext x fun k => { k with sampleRing := k.sampleRing.map fun g => { g with read := value } })

def execDeadLetterTail (die : Nat) (value : BitVec 32) (s : State) : Answer :=
  .next (s.modDie die fun d => { d with deadTail := value })

/-- What the management controller answers to a request in the mailbox (R393). -/
def State.mailAnswer (s : State) (request : Nat) : State :=
  let d := s.device
  match request with
  | 1 => { s with fresh := s.fresh + 1 }.mail .telemetry [Config.watts s.fresh, Config.celsius s.fresh, if d.hot then 1 else 0, s.clock.khz]
  | 2 => s.mail .stage [d.stage, if d.failed then 1 else 0]
  | 3 => s.mail .counters [d.errorCount, d.corrected]
  | 4 => s.mail .links (d.settings.ports.filter fun p => !d.linkDown.contains p)
  | 5 => s.mail .limits [d.settings.lowerAt, d.settings.offAt]
  | _ => s

/-- R393, R395: the mailbox takes requests from stage 1 on; the other words of BAR0 are read only, or give the device nothing to
do. -/
def execRegisterWriteOther (off : Nat) (value : BitVec 32) (s : State) : Answer :=
  .next (if 0x1000 ≤ off && off < 0x2000 && s.device.powered && 1 ≤ s.device.stage then
    s.mailAnswer (Config.mailAsks (off - 0x1000) value) else s)

def Ring.bar0 (g : Ring) (third : Nat) : List Nat := [g.write.toNat, g.read.toNat, third, 0]

/-- The eight bytes of the device identity. -/
def deviceIdentity : Nat :=
  0x6208 + (if Config.isModule then 2 ^ 16 else 0) + Config.revision.toNat * 2 ^ 20 + 3 * 2 ^ 24 +
    Config.keyDigest.toNat * 2 ^ 32

/-- The bytes of the mailbox (R393). -/
def Device.mailBytes (d : Device) : List Byte := d.mailbox.flatMap fun m => Config.mailBytes m.kind.ctorIdx m.numbers

/-- The 4-byte word at an offset of BAR0: status block, dead-letter words, mailbox, ring words; 0 elsewhere. -/
def State.bar0Word (s : State) (off : Nat) : Nat :=
  let word (l : List Nat) : Nat := l.getD (off % 16 / 4) 0
  if off < 0x20 then
    [deviceIdentity % 2 ^ 32, deviceIdentity / 2 ^ 32, s.device.stage,
      (if s.clock.locked && !s.clock.removing then 1 else 0) + (if s.clock.removing then 2 else 0),
      s.clock.tick.toNat % 2 ^ 32, s.clock.tick.toNat / 2 ^ 32, 0, 0].getD (off / 4) 0
  else if off < 0x60 then
    let d := s.dieAt ((off - 0x20) / 16)
    word [d.deadHead.toNat, d.deadTail.toNat, d.deadLost.toNat, 0]
  else if 0x1000 ≤ off && off < 0x2000 then leNat ((s.device.mailBytes.drop ((off - 0x1000) / 4 * 4)).take 4)
  else if 0x2000 ≤ off && off < 0x2400 then
    ((s.context? ⟨(off - 0x2000) / 0x100, (off - 0x2000) % 0x100 / 16⟩).map fun c => word (c.ring.bar0 c.ring.held.length)).getD 0
  else if 0x3000 ≤ off && off < 0x3400 then
    ((s.context? ⟨(off - 0x3000) / 0x100, (off - 0x3000) % 0x100 / 16⟩).bind (·.sampleRing)).elim 0 fun g =>
      word (g.bar0 g.dropped.toNat)
  else if 0x4000 ≤ off && off < 0x4400 && (off - 0x4000) % 0x100 < 16 then
    ((s.partition? ((off - 0x4000) / 0x100)).map fun p => word (p.ring.bar0 p.ring.held.length)).getD 0
  else 0

/-! ## Accesses from outside -/

/-- What the device answers to the outside, and whether a word of it is poisoned (R427). -/
def State.reply (s : State) (bs : List Byte) (bad : Bool := false) : State :=
  { s with device := { s.device with answer := bs, answerBad := bad } }

/-- The bytes of an access of `2 ^ sz`, and the operand as the atomics take it (R242). -/
def sizeBytes (sz : BitVec 3) : Nat := 2 ^ (min sz.toNat 3)

/-- R432: a die and its DRAM are up: die 0 from stage 2 on, the others from stage 3 on. -/
def Device.dieUp (d : Device) (die : Nat) : Bool := d.powered && !d.failed && (if die == 0 then 2 else 3) ≤ d.stage

/-- R395: an access to device DRAM through BAR2, performed at the home of a die that is up. A location keeps its poison under an
operation that uses the old value; nothing arrives poisoned over the host link (R427). -/
def execHostBar2Access (off : Nat) (a : ExtAccess) (s : State) : Answer :=
  if !isDram off || !s.device.dieUp (off / dieSlot) then .next s
  else
    match a with
    | .read n => .next (s.reply (Memory.readN s.mem off n) (anyPoison s.memPoison off n))
    | .write data _ => .next (s.homeWrite none off data false)
    | .atomic aop sz d cmp =>
      let n := sizeBytes sz
      let old := Memory.readN s.mem off n
      let bad := anyPoison s.memPoison off n
      .next ((s.homeWrite none off (leBytes n (atomNew aop n (leNat old) d.toNat cmp.toNat)) (bad && aop != 9)).reply old bad)

/-- The device as the host and the peers see it: stores that a launch's hold keeps have not left it (R419). -/
def State.outside (s : State) : State := { s with launches := s.launches.map fun l => { l with hold := [] } }

/-- R396: a peer's access arrives, is translated in the context it names and performed at the home. One that faults
changes nothing, and the answer is empty. Poison travels with the words both ways (R427). None arrives while no port is up (R432, R434). -/
def execPeerAccess (x : CtxRef) (va : Nat) (a : ExtAccess) (s : State) : Answer :=
  let ag := officeAgent x
  if !s.device.fabricUp then .next (s.reply [])
  else match a with
  | .read n =>
    match s.checkAccess x .load va n false none with
    | .error _ => .next (s.reply [])
    | .ok l =>
      let r := s.outside.readSingle ag l (va - l.va) n
      .next (s.reply r.1 r.2)
  | .write data bad =>
    match s.checkAccess x .store va data.length false none with
    | .error _ => .next (s.reply [])
    | .ok l => .next ((l.writeSingle (va - l.va) data bad).foldl (fun s w => s.physWrite ag w.pa w.data w.bad) s)
  | .atomic aop sz d cmp =>
    let n := sizeBytes sz
    match s.checkAccess x .atomic va n false none with
    | .error _ => .next (s.reply [])
    | .ok l =>
      let frames := if l.layout == .triple then [0, 1, 2] else [0]
      let at_ (k : Nat) : Nat := l.phys (l.frameNo k) (va - l.va)
      let old := s.outside.physRead ag (at_ 0) n
      let one (s : State) (k : Nat) : State :=
        let o := s.outside.physRead ag (at_ k) n
        s.physWrite ag (at_ k) (leBytes n (atomNew aop n (leNat o.1) d.toNat cmp.toNat)) (o.2 && aop != 9)
      .next ((frames.foldl one s).reply old.1 old.2)

/-! ## The fabric (R430, R309, R396) -/

/-- R434: whether the configuration enables a fabric port. -/
def Device.portOn (d : Device) (port : Nat) : Bool := d.settings.ports.contains port

/-- R430: a flit that fails its CRC is sent again, and nothing else comes of it. -/
def execFlitRetry (_ : Nat) (s : State) : Answer := .next s

/-- An access over the fabric that a warp's next instruction would make (R396): its attempt, the kind of access, and what goes through an
aperture: the lane, none for the access of a `wait`, its address, and the address of the part. -/
structure FabricAccess where
  y : Cx
  acc : Acc4
  parts : List (Option Nat × Nat × Nat)

/-- The parts of a checked access that go through an aperture: 128 bits are accessed in two (R243). -/
def fabricParts (lane : Option Nat) (va : Nat) (leaves : List Leaf) : List (Option Nat × Nat × Nat) :=
  leaves.zipIdx.filterMap fun l =>
    let p := (va + 8 * l.2) % addrSpace
    if (l.1.aperture p).isSome then some (lane, va, p) else none

/-- The global words that the conditions of a `wait` read at its first attempt, none when the attempt ends before (R278). -/
def Cx.waitWords (y : Cx) (x : WaitArgs) : List Nat :=
  if y.w.deadline.isSome || y.w.waitHit.isSome || (WaitArgs.slots x).any (fun c => (y.checkCond c.2).isSome) then []
  else (WaitArgs.slots x).filterMap fun c => match c.2 with
    | .word _ quad _ false => some (y.w.quadAddr quad)
    | _ => none

/-- The parts through an aperture of the global access of an attempt, and its kind. An attempt that meets another fault first makes
none. -/
def Cx.fabricParts (y : Cx) : Acc4 × List (Option Nat × Nat × Nat) :=
  let of (k : Acc4) (a : MemArgs) : Acc4 × List (Option Nat × Nat × Nat) :=
    match y.agree (y.globalAddrs a) with
    | .error _ => (k, [])
    | .ok (_, addrs) => match y.checkLanes k addrs (MemArgs.size a) with
      | .error _ => (k, [])
      | .ok lanes => (k, lanes.flatMap fun t => Machine.fabricParts (some t.1) t.2.1 t.2.2)
  match y.i with
  | .ld _ a => of .load a
  | .st _ a => of .store a
  | .atom _ a => of .atomic a
  | .red _ a => of .reduce a
  | .ldu _ a =>
    let va := y.uniformAddr a
    match y.s.checkLane y.l.ctx .load va (MemArgs.size a) false with
    | .error _ => (.load, [])
    | .ok ls => (.load, (maskLanes y.act).flatMap fun l => Machine.fabricParts (some l) va ls)
  | .wait _ x =>
    (.waitRead, (y.waitWords x).flatMap fun va => match y.s.checkAccess y.l.ctx .waitRead va 4 false none with
      | .error _ => []
      | .ok l => Machine.fabricParts none va [l])
  | _ => (.load, [])

/-- The access over the fabric of an attempt, none when it makes none or does not come to it. -/
def Cx.fabricAccess (y : Cx) : Option FabricAccess :=
  match y.answer fun x => .done x.s {} with
  | .done _ _ =>
    let p := y.taking.fabricParts
    if p.2.isEmpty then none else some ⟨y.taking, p.1, p.2⟩
  | _ => none

/-- The access over the fabric that an eligible warp makes next. -/
def State.fabricAccess (s : State) (r : WarpRef) : Option FabricAccess :=
  if !s.eligible r then none
  else match s.nextAttempt r with
    | some (.inl x) => match { s with turn := some r }.begin x.i with
      | .go y => y.fabricAccess
      | _ => none
    | _ => none

/-- Whether a virtual address of a context lies in an aperture. -/
def State.viaAperture (s : State) (x : CtxRef) (va : Nat) : Bool :=
  match s.translate x va with
  | .ok l => (l.aperture va).isSome
  | .fault _ => false

/-- The words of the next fetch of a warp that go through an aperture (R40). -/
def State.fetchWords (s : State) (r : WarpRef) : List Nat :=
  match s.launch? r.crew.launch, s.warp? r with
  | some l, some w =>
    let b := l.blockBytes w.split.pc.toNat
    if !s.eligible r || l.tmpl.codeSize ≤ w.split.pc.toNat then [] else (pieces 4 b.1 b.2).filter (s.viaAperture l.ctx)
  | _, _ => []

/-- The parts of a granule's record, in the order in which the spill engine checks them (R176, R178). -/
def recordParts (base index : Nat) : List Nat := pieces 64 (base + 1600 * index) 1600

/-- The records that a blocked move of a warp may have to read (R172, R175). -/
def State.refillParts (s : State) (r : WarpRef) : List Nat :=
  match s.warp? r, s.crew? r.crew with
  | some w, some c =>
    let above := ((min w.high w.spillLim) + 7) / 8
    let out (g : Nat) : Bool := (8 * g < w.bot || w.bot + w.ring ≤ 8 * g) && ((s.coreAt c.coreNo).buffered r g).isNone
    match w.block with
    | some (.move _ _) => ((List.range above).filter out).flatMap (recordParts w.spillBase.toNat)
    | _ => []
  | _, _ => []

/-- The parts of the access that the sorting office makes next for a queue: a template, the watched word of a wait-on-value, or the word
of a write-value (R406, R413). -/
def State.packetParts (s : State) (q : CmdQueue) : List Nat :=
  match q.waiting with
  | some p => [fieldAt p.body 16 8]
  | none =>
    if !s.mayRead q then []
    else
      let b := q.fetched.getD (s.headBytes q)
      match byteAt b 0 with
      | 1 => pieces 4 (fieldAt b 16 8) (match s.vRead (officeAgent q.owner) .packet (fieldAt b 16 8) 64 with
          | .ok h => templateBytes h.1
          | .error _ => 64)
      | 2 | 3 => [fieldAt b 16 8]
      | _ => []

/-- The addresses over the fabric that a user of it accesses next. -/
def State.fabricAddrs (s : State) (u : FabricUser) : List Nat :=
  let via (x : Option CtxRef) (l : List Nat) : List Nat := (x.map fun x => l.filter (s.viaAperture x)).getD []
  match u with
  | .warp r => s.fetchWords r ++ ((s.fabricAccess r).map fun f => f.parts.map (·.2.2)).getD []
  | .copy r => ((s.fabricCopies r.crew).filter (·.2.warp == r.warp)).flatMap (·.2.addressesDue)
  | .spill core k => match (s.coreAt core).spillBuf[k]? with
    | some g => if s.spillHeld ((s.coreAt core).spillBuf.take k) g then [] else via (some g.ctx) (recordParts g.base g.index)
    | none => []
  | .refill r => via ((s.launch? r.crew.launch).map (·.ctx)) (s.refillParts r)
  | .packet q => match s.cmdQueue? q with
    | some c => via (some c.owner) (s.packetParts c)
    | none => []

/-- The access faults in these lanes, and its launch ends with the record of R239; nothing of the instruction is done (R240), nor in what
is left of the cycle. -/
def State.refuseAccess (s : State) (f : FabricAccess) (code : Nat) (bad : List (Option Nat × Nat × Nat)) : State :=
  match bad with
  | [] => s
  | a :: _ =>
    (s.fatal f.y.ref.crew.launch
      (f.y.memFault f.acc a.2.1 code true (maskOf fun l => bad.any (·.1 == some l)))).modWarp f.y.ref fun w =>
        { w with stall := w.stall + 1 }

/-- The sorting office's access for a queue faults (R413). -/
def State.refusePacketAccess (s : State) (c : CmdQueue) (v : VFault) : Answer :=
  match c.waiting with
  | some p => .next ((s.packetFault c p .packet v).modCmdQueue c.ref fun c => { c with waiting := none })
  | none =>
    let fails (s : State) (q : CmdQueue) (p : Pending) : State := s.packetFault q p .packet v
    match byteAt (c.fetched.getD (s.headBytes c)) 0 with
    | 1 => s.take c.ref 1 launchLegal fails
    | 2 => s.take c.ref 2 waitLegal fails
    | _ => s.take c.ref 3 writeLegal fails

/-- A user's access over the fabric faults at one of its addresses (R240, R413), and in the other lanes that `also` tells. -/
def State.fabricRefuse (s : State) (u : FabricUser) (addr code : Nat) (also : Nat → Bool) : Answer :=
  match u with
  | .warp r =>
    if (s.fetchWords r).contains addr then .next ((s.fetchFails r (.fault addr code)).modWarp r fun w => { w with stall := w.stall + 1 })
    else .next (((s.fabricAccess r).map fun f =>
      s.refuseAccess f code (f.parts.filter fun a => a.2.2 == addr || also a.2.2)).getD s)
  | .copy r => match (s.fabricCopies r.crew).find? fun c => c.2.warp == r.warp && c.2.addressesDue.contains addr with
    | some (n, c) => .next (s.fabricFault n c addr code)
    | none => .next s
  | .spill core k => match (s.coreAt core).spillBuf[k]? with
    | some g => .next ((s.modSpills (.buffer core) (·.erase g)).fatal g.warp.crew.launch
        (s.spillFault core g.warp .spillWrite ⟨addr, code, true⟩))
    | none => .next s
  | .refill r => .next (s.fatal r.crew.launch
      (s.spillFault (((s.crew? r.crew).map (·.coreNo)).getD 0) r .refill ⟨addr, code, true⟩))
  | .packet q => match s.cmdQueue? q with
    | some c => s.refusePacketAccess c ⟨addr, code, true⟩
    | none => .next s

/-- R309, R430: a link that does not recover: the access of a user that used it faults at its first address, in all its lanes. -/
def State.linkFault (s : State) (u : FabricUser) : State :=
  match (s.fabricAddrs u).head? with
  | none => s
  | some a => match s.fabricRefuse u a 12 fun _ => true with
    | .next t => t
    | _ => s

def execLinkFailure (port : Nat) (victims : List FabricUser) (s : State) : Answer :=
  if !s.device.portOn port then .next s
  else
    let s := victims.foldl State.linkFault s
    .next { s with device := { s.device with
      linkDown := if s.device.linkDown.contains port then s.device.linkDown else port :: s.device.linkDown } }

/-- R396: the peer reports a fault at `addr` of an access that a user makes next. Which other lanes of a warp's access fault at the peer
is free (log 79). -/
def execPeerFault (u : FabricUser) (addr : BitVec 64) (s : State) : Answer :=
  if !(s.fabricAddrs u).contains addr.toNat then .next s
  else match s.fabricRefuse u addr.toNat 11 (Config.peerRefuses s.fresh) with
    | .next t => .next { t with fresh := t.fresh + 1 }
    | o => o

end Sys2Proof.Machine
end

