-- ==== Sys2Proof/Machine/Debug.lean ====
section
/-! DEFINITION. The debugger (15 R377 to R379): stops and steps, and the state of a stopped warp that it reads and writes. -/

namespace Sys2Proof.Machine

/-! ## Stops and steps (R377 to R379) -/

def State.debugged (s : State) (r : WarpRef) : Option (Launch × StopScope) :=
  (s.launch? r.crew.launch).bind fun l => ((s.context? l.ctx).bind (·.debugger)).map fun d => (l, d)

def execDebuggerAttach (x : CtxRef) (scope : StopScope) (s : State) : Answer :=
  .next (s.modContext x fun c => { c with debugger := some scope })

def execDebugStop (w : WarpRef) (s : State) : Answer := s.onWarp w fun _ _ =>
  if (s.debugged w).isSome then s.debugHalt w 2 else s

/-- The warps of the debugger's scope go on. -/
def execDebugResume (w : WarpRef) (s : State) : Answer :=
  match s.debugged w with
  | none => .next s
  | some (l, scope) =>
    let inScope (c : Crew) (m : Warp) : Bool :=
      match scope with
      | .warp => c.ref == w.crew && m.num == w.warp
      | .crew => c.ref == w.crew
      | .context => (s.launch? c.ref.launch).any fun k => k.ctx == l.ctx
    .next { s with crews := s.crews.map fun (c : Crew) =>
      { c with warps := c.warps.map fun m => if inScope c m then { m with stopped := false } else m } }

/-- R379: one instruction of the issuing split, a breakpoint at its own PC left aside. -/
def execSingleStep (w : WarpRef) (s : State) : Answer := s.onWarp w fun _ m =>
  if (s.debugged w).isSome && m.stopped then
    s.modWarp w fun m => { m with stopped := false, stepping := true, stopPc := some m.split.pc }
  else s

def execSetBreakpoint (x : CtxRef) (k : Nat) (pc : Option Word) (s : State) : Answer :=
  .next (s.modContext x fun c =>
    if c.debugger.isNone || 8 ≤ k then c
    else
      let others := c.breakpoints.filter fun b => b.1 != k
      { c with breakpoints := match pc with
        | some a => (k, a) :: others
        | none => others })

/-- The warp as the debugger sees it, with the context that its control registers are read in. -/
def State.debugView (s : State) (r : WarpRef) : Option Cx :=
  match s.crew? r.crew, s.warp? r, s.launch? r.crew.launch with
  | some c, some w, some l =>
    some { s, ref := r, l, c, w, act := w.split.mask, i := .yield ⟨⟨false, 7⟩, 0, 0, 0⟩, pops := [] }
  | _, _, _ => none

/-! ## Where the lanes of a stopped warp stand (R148) -/

/-- The path of a split, or that of its lay-by entry `k`, 0 the top. -/
def Warp.pathAt (w : Warp) (n : Nat) (e : Option Nat) : Option LayEntry :=
  (w.splitAt n).bind fun s => match e with
    | none => some ⟨s.pc, s.mask, s.base⟩
    | some k => s.layby[k]?

def Warp.setPath (w : Warp) (n : Nat) (e : Option Nat) (p : LayEntry) : Warp :=
  w.modSplit n fun s => match e with
    | none => { s with pc := p.pc, mask := p.mask, base := p.base }
    | some k => { s with layby := s.layby.set k p }

/-- A path in a free slot, or under the entries of a split, where there is room. -/
def Warp.addPath (w : Warp) (n : Nat) (e : Option Nat) (p : LayEntry) : Option Warp :=
  match e, w.splitAt n with
  | none, none => if n < 4 then some (w.setSplit n (some ⟨p.pc, p.mask, p.base, [], false, 0⟩)) else none
  | some k, some s =>
    if k == s.layby.length && k < 4 then some (w.setSplit n (some { s with layby := s.layby ++ [p] })) else none
  | _, _ => none

/-- These lanes leave every place. -/
def Warp.withoutLanes (w : Warp) (m : Mask) : Warp :=
  { w with
    vacant := w.vacant &&& ~~~m
    splits := w.splits.map fun s => s.map fun (s : Split) =>
      { s with
        mask := s.mask &&& ~~~m
        layby := s.layby.map fun (e : LayEntry) => { e with mask := e.mask &&& ~~~m } } }

/-- R152: entries and splits without a lane end, and where the issuing split is gone or waits, the next one issues (R166). -/
def Warp.endEmpty (w : Warp) : Warp :=
  let held (s : Split) : Split := { s with layby := s.layby.filter (·.mask != 0) }
  let w : Warp := { w with splits := w.splits.map (·.map held) }
  let w : Warp := ([0, 1, 2, 3].foldl (fun w n => if (w.splitAt n).any (·.mask == 0) then w.endSplit n else w) w).unwait
  if (w.splitAt w.cur).any (!·.joinWait) then w
  else match w.nextSplit with
    | some n => { w with cur := n }
    | none => w

/-- Whether a table of splits may stand: a path remains (R148), and the window of every split has its room (R171). -/
def Warp.tableFits (w : Warp) : Bool :=
  !w.finished && spanOk w.ring w.reach w.lo w.hi && limitOk w.spillLim w.reach w.hi

/-- The warp as a debugger's write leaves it: as it was, where it may not stand so (log 56). -/
def Warp.take (w v : Warp) : Warp := if v.tableFits then v else w

/-- A mask of whole threads (R148). -/
def wholeThreads (triple : Bool) (m : Mask) : Bool :=
  (maskOf fun l => (maskLanes m).any fun k => threadOf triple k == threadOf triple l) == m

/-- The lanes of a path are set: those it gains leave their places, those it loses become vacant. -/
def Warp.setLanes (w : Warp) (triple : Bool) (n : Nat) (e : Option Nat) (m : Mask) : Warp :=
  let old := ((w.pathAt n e).map (·.mask)).getD 0
  let u := w.withoutLanes (m ||| old)
  let u := { u with vacant := u.vacant ||| (old &&& ~~~m) }
  let u := match w.pathAt n e with
    | some p => some (u.setPath n e { p with mask := m })
    | none => u.addPath n e ⟨w.split.pc, m, w.split.base⟩
  match u with
  | some u => if wholeThreads triple m then w.take u.endEmpty else w
  | none => w

/-- The vacant lanes are set: those that are vacant no longer join the issuing split. -/
def Warp.setVacant (w : Warp) (triple : Bool) (m : Mask) : Warp :=
  let u := (w.joinVacant (~~~m)).withoutLanes m
  if wholeThreads triple m then w.take { u with vacant := u.vacant ||| m }.endEmpty else w

/-- A PC, a mask or a window base is set. No merge_check runs for a PC that a debugger sets (log 56). -/
def Warp.setPlace (w : Warp) (triple : Bool) (n : Nat) (e : Option Nat) (f : PathField) (v : BitVec 64) : Warp :=
  match f, w.pathAt n e with
  | .pc, some p => w.setPath n e { p with pc := v.setWidth 32 }
  | .base, some p =>
    if v.toNat % 8 == 0 && limitOk w.spillLim w.reach v.toNat then w.take (w.setPath n e { p with base := v.toNat }) else w
  | .mask, _ => w.setLanes triple n e (v.setWidth 48)
  | _, none => w

/-! ## The state of a stopped warp (R377) -/

/-- Whether lane `l` of row `r` lies in the band; rows below it are in the spill area. -/
def Warp.inBand (w : Warp) (r l : Nat) : Bool := w.bot ≤ r && r < w.bot + w.ring && l < 48

def flagByte (b : Bool) : Byte := if b then 1 else 0

/-- The bytes of a piece of a warp's state, none of one that does not exist (R25, R377). -/
def Cx.debugRead (x : Cx) (p : DebugPlace) : List Byte :=
  let w := x.w
  let split (k n : Nat) (f : Split → Nat) : List Byte := ((w.splitAt k).map fun sp => leBytes n (f sp)).getD []
  match p with
  | .lane r l => if w.inBand r l then leBytes 4 (w.laneWord r l).toNat else []
  | .scalar n => leBytes 4 (w.scalar n).toNat
  | .pred n => leBytes 6 (w.pred (BitVec.ofNat 3 n)).toNat
  | .index k l => [w.index k l]
  | .limit k => [w.limit k]
  | .path n e f => ((w.pathAt n e).map fun p => match f with
      | .pc => leBytes 4 p.pc.toNat
      | .mask => leBytes 6 p.mask.toNat
      | .base => leBytes 4 p.base).getD []
  | .joinWait n => split n 1 fun s => s.joinWait.toNat
  | .issued n => split n 1 (·.issued)
  | .issuing => leBytes 1 w.cur
  | .control n => match cregKind (BitVec.ofNat 32 n) with
    | .pair => leBytes 8 (x.creg64 n).toNat
    | .scalar => if x.noTile n then [] else leBytes 4 (x.creg32 n).toNat
    | _ => []
  | .opcount l => leBytes 6 (w.opcount.getD l 0).toNat
  | .binding k => ((w.bindings.getD k none).map fun b =>
      [BitVec.ofNat 8 b.queue, flagByte b.pop, flagByte b.push, flagByte b.closed]).getD []
  | .flag k => [BitVec.ofNat 8 (w.flag k)]
  | .vacant => leBytes 6 w.vacant.toNat
  | .depth => leBytes 1 w.depth
  | .tag => leBytes 8 w.tag.toNat
  | .stall => leBytes 1 w.stall
  | .band => leBytes 4 w.bot
  | .high => leBytes 4 w.high
  | .reason => leBytes 1 w.reason
  | .priority => leBytes 1 w.prio
  | .group k => ((w.groups[k]?).map (leBytes 1)).getD []

/-- A control register of a warp as the debugger sets it: its own bits, as a program could have brought them about (log 56). -/
def Warp.debugControl (w : Warp) (triple : Bool) (n : Nat) (v : BitVec 64) : Warp :=
  let v32 := v.setWidth 32
  match n with
  | 0x00 => w.writeNumctl triple v32
  | 0x01 => { w with numstat := v32 &&& 0xFFFF_F71F }
  | 0x02 => { w.writeFpctl v32 with fpctl := ((w.writeFpctl v32).fpctl &&& ~~~0x1F0) ||| (v32 &&& 0x1F0) }
  | 0x05 =>
    let reach := (v32.extractLsb' 0 5).toNat
    let w := { w with woc := v32.extractLsb' 16 3, rej := v32.getLsbD 19 }
    if reach == 0 || 24 < reach || !({ w with reach }).tableFits then { w with rej := true } else { w with reach }
  | 0x06 => { w with spillBase := v &&& 0x0001_FFFF_FFFF_FFC0 }
  | 0x07 => w.take { w with spillLim := v.toNat % 2 ^ 24 / 8 * 8 }
  | 0x08 => { w with laneFault := v &&& 0x0007_FFFF_FFFF_FFFF }
  | 0x09 => { w with trapBase := v32 &&& 0xC7FF_FFFF }
  | 0x0A => { w with trapCause := v32 &&& 0x0003_FF1F }
  | 0x0B => { w with trapPc := v32 }
  | _ => w

/-- A queue name is bound to a queue of the crew, or to none (all ones). -/
def Cx.debugBinding (x : Cx) (k : Nat) (v : BitVec 64) : Warp :=
  let b : Binding := ⟨v.toNat % 256, v.getLsbD 8, v.getLsbD 16, v.getLsbD 24⟩
  if v == BitVec.allOnes 64 then { x.w with bindings := x.w.bindings.set k none }
  else if b.queue < x.c.queues.length then { x.w with bindings := x.w.bindings.set k (some b) }
  else x.w

/-- The depth and the tag of the warp's read section are set, and the home learns of it (R280, R284). -/
def Cx.setSection (x : Cx) (depth : Nat) (tag : DWord) : State :=
  let s := x.s.modWarp x.ref fun _ => { x.w with depth, tag }
  let counts (d : Nat) (t : DWord) : Option DWord := if d == 0 then none else some t
  if counts depth tag == counts x.w.depth x.w.tag then s else s.modGrace x.l.ctx (·.sendDepth x.ref (counts depth tag))

/-- The warp with a piece of its own state set, within what a program could bring about (log 56). -/
def Cx.debugWarp (x : Cx) (p : DebugPlace) (v : BitVec 64) : Warp :=
  let w := x.w
  let v32 := v.setWidth 32
  match p with
  | .lane r l =>
    if w.inBand r l then { w.writeRow r (1#48 <<< l) (laneList.map fun _ => v32) 0 with taken := [] } else w
  | .scalar n => w.setScalar n v32
  | .pred n => if n < 7 then w.setPred (BitVec.ofNat 3 n) (v.setWidth 48) else w
  | .index k l => { w with xregs := w.xregs.modify k fun x => x.set l (v.setWidth 8) }
  | .limit k => { w with xlim := w.xlim.set k (v.setWidth 8) }
  | .path n e f => w.setPlace x.triple n e f v
  | .joinWait n => w.take (w.modSplit n fun s => { s with joinWait := v != 0 }).endEmpty
  | .issued n => w.modSplit n fun s => { s with issued := min 64 v.toNat }
  | .issuing => if (w.splitAt v.toNat).any (!·.joinWait) then { w with cur := v.toNat } else w
  | .control n => w.debugControl x.triple n v
  | .opcount l => { w with opcount := w.opcount.set l (v.setWidth 48) }
  | .binding k => x.debugBinding k v
  | .flag k => w.modFlag k fun _ => v.toNat % 64
  | .vacant => w.setVacant x.triple (v.setWidth 48)
  | .stall => { w with stall := v.toNat % 16 }
  | .depth | .tag | .band | .high | .reason | .priority | .group _ => w

/-- R172: where a write has changed what the splits ask of the band, cover runs before the warp goes on. -/
def State.debugCover (s : State) (r : WarpRef) : State :=
  match s.warp? r with
  | none => s
  | some w => match coverTo w.bot w.ring w.reach w.lo w.hi with
    | some b => s.modWarp r (·.blockOn (.move b true) s.clock.tick)
    | none => s

/-- A piece of the state of a stopped warp is set. What the template fixes, what the crew's rows fix and the reason of a block stand
(log 56). -/
def Cx.debugWrite (x : Cx) (p : DebugPlace) (v : BitVec 64) : State :=
  match p with
  | .depth => x.setSection (v.toNat % 256) x.w.tag
  | .tag => if v.toNat ≤ x.graceCopy.cur.toNat then x.setSection x.w.depth v else x.s
  | p => (x.s.modWarp x.ref fun _ => x.debugWarp p v).debugCover x.ref

/-- R377: state of a stopped warp is read or written. -/
def execDebugStateAccess (w : WarpRef) (a : DebugAccess) (s : State) : Answer :=
  match s.debugView w with
  | none => .next s
  | some x =>
    if !(s.debugged w).isSome || !x.w.stopped then .next s
    else match a with
      | .read p => .next (s.reply (x.debugRead p))
      | .write p v => .next (x.debugWrite p v)

end Sys2Proof.Machine
end

