-- ==== Sys2Proof/Machine/Sha3.lean ====
section
/-! DEFINITION. SHA3-512, by which attestation measures what the device started with (16 R433): FIPS 202, which the spec names and
does not repeat (log 13). -/

namespace Sys2Proof.Machine

/-- The state of Keccak-f[1600]: 25 lanes of 64 bits, lane `x + 5 * y` the one in column `x` and row `y`. -/
abbrev Keccak := List (BitVec 64)

def Keccak.lane (a : Keccak) (x y : Nat) : BitVec 64 := a.getD (x % 5 + 5 * (y % 5)) 0

/-- A state from its lanes. -/
def keccakOf (f : Nat → Nat → BitVec 64) : Keccak := (List.range 25).map fun k => f (k % 5) (k / 5)

/-- θ: each lane takes the parities of two columns. -/
def Keccak.theta (a : Keccak) : Keccak :=
  let c := (List.range 5).map fun x => a.lane x 0 ^^^ a.lane x 1 ^^^ a.lane x 2 ^^^ a.lane x 3 ^^^ a.lane x 4
  let d := (List.range 5).map fun x => c.getD ((x + 4) % 5) 0 ^^^ (c.getD ((x + 1) % 5) 0).rotateLeft 1
  keccakOf fun x y => a.lane x y ^^^ d.getD x 0

/-- The distances by which ρ rotates the lanes. -/
def keccakTurns : List Nat :=
  [0, 1, 62, 28, 27, 36, 44, 6, 55, 20, 3, 10, 43, 25, 39, 41, 45, 15, 21, 8, 18, 2, 61, 56, 14]

/-- ρ and π: each lane is rotated and moves. -/
def Keccak.rhoPi (a : Keccak) : Keccak :=
  keccakOf fun x y =>
    let u := (x + 3 * y) % 5
    (a.lane u x).rotateLeft (keccakTurns.getD (u + 5 * x) 0)

/-- χ: the one step that is not linear. -/
def Keccak.chi (a : Keccak) : Keccak :=
  keccakOf fun x y => a.lane x y ^^^ (~~~a.lane (x + 1) y &&& a.lane (x + 2) y)

/-- The constants of ι. -/
def keccakConstants : List (BitVec 64) :=
  [0x0000000000000001, 0x0000000000008082, 0x800000000000808A, 0x8000000080008000, 0x000000000000808B, 0x0000000080000001,
    0x8000000080008081, 0x8000000000008009, 0x000000000000008A, 0x0000000000000088, 0x0000000080008009, 0x000000008000000A,
    0x000000008000808B, 0x800000000000008B, 0x8000000000008089, 0x8000000000008003, 0x8000000000008002, 0x8000000000000080,
    0x000000000000800A, 0x800000008000000A, 0x8000000080008081, 0x8000000000008080, 0x0000000080000001, 0x8000000080008008]

/-- One round. -/
def Keccak.round (a : Keccak) (rc : BitVec 64) : Keccak := a.theta.rhoPi.chi.modify 0 (· ^^^ rc)

def Keccak.permute (a : Keccak) : Keccak := keccakConstants.foldl Keccak.round a

/-- Bytes of a block that SHA3-512 takes in at a time. -/
def sha3Rate : Nat := 72

/-- The message with its domain bits and padding, to a whole number of blocks. -/
def sha3Padded (m : List Byte) : List Byte :=
  let n := sha3Rate - m.length % sha3Rate
  m ++ (if n == 1 then [0x86] else 0x06 :: List.replicate (n - 2) 0 ++ [0x80])

/-- The state takes in a block. -/
def Keccak.absorb (a : Keccak) (block : List Byte) : Keccak :=
  (keccakOf fun x y => a.lane x y ^^^ BitVec.ofNat 64 (leNat ((block.drop (8 * (x + 5 * y))).take 8))).permute

/-- The 64 bytes of a digest. -/
def sha3 (m : List Byte) : List Byte :=
  let p := sha3Padded m
  let a := (List.range (p.length / sha3Rate)).foldl (fun a k => Keccak.absorb a ((p.drop (sha3Rate * k)).take sha3Rate))
    (List.replicate 25 0)
  (a.take 8).flatMap fun l => leBytes 8 l.toNat

end Sys2Proof.Machine
end

