-- ==== Sys2Proof/Machine/DeviceEvents.lean ====
section
/-! DEFINITION. Time, start-up, management (16 R392, R393, R397, R401, R431 to R434). -/

namespace Sys2Proof.Machine

/-! ## The global tick (R431) -/

def State.modClock (s : State) (f : Clock → Clock) : State := { s with clock := f s.clock }
def State.modDevice (s : State) (f : Device → Device) : State := { s with device := f s.device }

/-- The timing input is valid while its last pulse is less than two seconds old (log 3). -/
def Clock.ppsValid (c : Clock) : Bool := c.pps.any fun t => (c.tick - t).toNat < 2000000000

/-- What the device advertises of its own clock: class 6 with a valid pulse-per-second input. -/
def Clock.own (c : Clock) : PtpClock :=
  let (p1, acc, var, p2, id) := Config.clockRank
  ⟨p1, if c.ppsValid then 6 else Config.clockClass, acc, var, p2, id⟩

def clockRanks (c : PtpClock) : List Nat := [c.priority1, c.class_, c.accuracy, c.variance, c.priority2, c.identity]

def lexLess : List Nat → List Nat → Bool
  | a :: as, b :: bs => a < b || (a == b && lexLess as bs)
  | _, _ => false

/-- The better of two clocks. -/
def clockBeats (a b : PtpClock) : Bool := lexLess (clockRanks a) (clockRanks b)

/-- R432: the fabric ports and the timing input are up. -/
def Device.timingUp (d : Device) : Bool := d.powered && !d.failed && 3 ≤ d.stage

/-- The best of some clocks. -/
def bestClock : List PtpClock → Option PtpClock
  | [] => none
  | k :: ks => some (ks.foldl (fun a b => if clockBeats b a then b else a) k)

/-- The master that a device follows: the best clock it has heard of. One whose own clock is better is the grandmaster and follows
none. -/
def Clock.master (c : Clock) : Option PtpClock := (bestClock c.heard).filter (clockBeats · c.own)

/-- What a message tells of its clock stands in place of what that clock told before. A message of the master slews a locked tick, by
at most 100 ppm. -/
def Clock.hear (c : Clock) (m : PtpMessage) : Clock :=
  let c := { c with heard := m.clock :: c.heard.filter (·.identity != m.clock.identity) }
  if c.locked && c.master == some m.clock then { c with slewPpm := max (-100) (min 100 m.slewPpm) } else c

/-- R430, R432: IEEE 1588 messages come over the fabric. -/
def execPtpMessage (m : PtpMessage) (s : State) : Answer :=
  .next (if s.device.fabricUp then s.modClock (·.hear m) else s)

def execPulsePerSecond (s : State) : Answer :=
  .next (if s.device.timingUp then s.modClock fun c => { c with pps := some c.tick } else s)

/-- At a lock the offset from the master goes once: forward in one step, or by holding the tick still. -/
def Clock.lockTo (c : Clock) (masterTick : BitVec 64) : Clock :=
  if (c.locked && c.holdover.isNone) || c.removing || c.master.isNone then c
  else if c.tick.toNat ≤ masterTick.toNat then
    { c with tick := masterTick, locked := true, removing := false, holdover := none, slewPpm := 0 }
  else
    { c with locked := false, removing := true, holdover := none, slewPpm := 0
             hold := c.tick.toNat - masterTick.toNat }

/-- R431: a device that is up and follows a master locks to it. -/
def execOffsetRemoval (masterTick : BitVec 64) (s : State) : Answer :=
  .next (if s.device.timingUp then s.modClock (·.lockTo masterTick) else s)

def execOffsetRemoved (s : State) : Answer :=
  .next (s.modClock fun c => if c.removing && c.hold == 0 then { c with removing := false, locked := true } else c)

/-- The master falls silent: the next best is the master, and a locked device that hears of none holds over (log 3). -/
def Clock.loseMaster (c : Clock) : Clock :=
  match c.master with
  | none => c
  | some m =>
    let c := { c with heard := c.heard.filter (·.identity != m.identity) }
    if c.master.isNone && c.locked && c.holdover.isNone then { c with holdover := some c.tick } else c

def execMasterLoss (s : State) : Answer := .next (s.modClock (·.loseMaster))

/-- The holdover ends, at the latest after 10 s (`Clock.pass`). -/
def execHoldoverExpiry (s : State) : Answer :=
  .next (s.modClock fun c => if c.holdover.isSome then c.unlock else c)

/-! ## Start-up and limits (R392, R432, R434) -/

/-- R434: a record fixes settings within the ranges of R392 and R12; one that does not is taken as one that fails its check
(log 10). -/
def settingsLegal (c : Settings) : Bool :=
  1 ≤ c.khz && c.khz ≤ 1900000 && c.ports.all (· < 36) && c.lowerAt ≤ 105 && c.offAt ≤ 115

/-- The settings that a record fixes, none when it is ignored. -/
def fixedSettings (a : BootRecord) : Option Settings := a.settings.filter settingsLegal

/-- Stage 1, or the stop there, which the mailbox reports, when the boot image does not verify. The counts of time start (R431),
and a record that is ignored leaves the defaults. -/
def execPowerGood (image : BootImage) (record : BootRecord) (s : State) : Answer :=
  if s.device.powered && s.device.stage != 0 then .next s
  else
    let settings := (fixedSettings record).getD defaultSettings
    let s := s.modDevice fun d =>
      { d with
        powered := true, stage := 1, failed := !image.verifies, image := image.image, firmware := image.firmware
        record := record.bytes, settings, defaults := (fixedSettings record).isNone }
    let s := s.modClock fun _ => { Clock.reset with khz := settings.khz }
    .next (if image.verifies then s else s.mail .failure [1])

def execStageComplete (s : State) : Answer :=
  .next (s.modDevice fun d =>
    if d.powered && !d.failed && 1 ≤ d.stage && d.stage < 4 then { d with stage := d.stage + 1 } else d)

/-- Above the thermal limit of the configuration the clock is lowered, to a rate that the spec does not give; the temperature is free
(log 10). -/
def execThermalLimit (s : State) : Answer :=
  if !s.device.powered || Config.celsius s.fresh ≤ s.device.settings.lowerAt then .next s
  else
    let s := s.modDevice fun d => { d with hot := true }
    if s.clock.khz ≤ 1 then .next s
    else
      let khz := 1 + Config.loweredKhz s.fresh % (s.clock.khz - 1)
      .next { (s.modClock fun c => { c with khz, phase := c.phase * khz / c.khz }) with fresh := s.fresh + 1 }

/-- At the upper limit of the configuration power is removed: what the device held is gone. -/
def execThermalShutdown (s : State) : Answer :=
  if !s.device.powered || Config.celsius s.fresh < s.device.settings.offAt then .next s
  else .next { (State.reset.modDevice fun d => { d with powered := false, hot := true }) with
    peers := s.peers, agenda := s.agenda, fresh := s.fresh }

/-! ## Partitions (R397, R401) -/

def FormArgs.legal (a : FormArgs) : Bool :=
  a.dies != [] && a.dies.all (· < 4) && a.dies.eraseDups.length == a.dies.length && queueBaseOk a.queueBase &&
    powerOfTwo a.queueSize 16 65536 && queueBaseOk a.ringBase && powerOfTwo a.ringSize 64 65536

def newPartition (a : FormArgs) (k : Nat) : Partition where
  id := k
  dies := (List.range 4).filter a.dies.contains
  ring := newRing a.ringBase a.ringSize
  rotation := 0
  decisions := 0
  level := 4
  slots := []
  saved := []
  resumes := []

/-- R397, R401: a partition of dies that are up and that no partition with contexts holds. Partitions that lose a die are re-formed, so
they end. -/
def execPartitionFormation (a : FormArgs) (s : State) : Answer :=
  let hit (p : Partition) : Bool := p.dies.any a.dies.contains
  let old := (s.partitions.filter hit).map (·.id)
  if !FormArgs.legal a || !a.dies.all s.device.dieUp || s.contexts.any fun c => old.contains c.ref.part then .next s
  else
    let k := a.dies.foldl min (a.dies.headD 0)
    .next { s with
      partitions := s.partitions.filter (fun p => !hit p) ++ [newPartition a k]
      queues := s.queues.filter (fun q => !old.contains q.ref.part) ++
        [newCmdQueue ⟨k, 0⟩ none a.queueBase a.queueSize 3 a.seqBase] }

/-- R433: the measurements and the nonce, with the signature over them. -/
def Device.attested (d : Device) (nonce : List Byte) : List Byte :=
  let said := [d.image, d.firmware, d.record].flatMap sha3 ++ nonce
  said ++ Config.signature said

/-- R432, R433: attestation answers at stage 4. -/
def execAttestation (nonce : List (BitVec 8)) (s : State) : Answer :=
  .next (s.reply (if s.device.stage == 4 then s.device.attested nonce else []))

end Sys2Proof.Machine
end

