-- ==== Sys2Proof/Machine/Queues.lean ====
section
/-! DEFINITION. Class 0x6, queue instructions (08 R199 to R218). -/

namespace Sys2Proof.Machine

def qIndex (q : BitVec 3) : Nat := q.toNat

/-- A run-time check of a binding (R199). -/
def badBinding (x : Cx) : Attempt := .trap x.w 1 1

/-- R37, R80: a consumed poisoned word of a popped row. -/
def Cx.spoiled (x : Cx) (bad : Mask) (go : Attempt) : Attempt :=
  if bad &&& x.act != 0 then .ends (x.s.consumedError x.ref.crew.launch none .warp x.core x.ref.warp) else go

/-- The queue that a name is bound to is closed and holds nothing (R205). -/
def Cx.drained (x : Cx) (name : Nat) : Bool := (x.bound name).any fun y => y.2.state == 1 && y.2.count == 0

/-- A ready row that is not staged yet holds a pop (R218). -/
def Cx.unstaged (x : Cx) (name : Nat) : Bool :=
  (x.bound name).any fun y => y.2.readyFor x.ref.warp && !y.2.staged

def Warp.bind (w : Warp) (name : Nat) (b : Option Binding) : Warp := { w with bindings := w.bindings.set name b }

/-! ## Bindings (R214, R216) -/

def execQmap (c : Ctl) (q : BitVec 3) (slot rights : BitVec 2) (off : BitVec 20) (s : State) :=
  issue (.qmap c q slot rights off) s fun x =>
    let queue := (x.c.slotGroup x.w slot.toNat).bind fun g =>
      x.c.queues.findIdx? fun k => k.group == g.1 && k.off == off.toNat
    match (x.w.bindings[qIndex q]?).join, queue with
    | none, some n =>
      .done (x.put (x.w.bind (qIndex q) (some ⟨n, rights.getLsbD 0, rights.getLsbD 1, false⟩))) { flight := none }
    | _, _ => badBinding x

/-- R200: the close of a binding with the push right that is still open. Each binding closes once: a warp that holds two of one
queue, or binds it anew after a close, is a producer by each (log 76). -/
def Cx.close (x : Cx) (b : Binding) (s : State) : State :=
  if b.push && !b.closed then s.modCrew x.ref.crew (·.closeQueue b.queue) else s

def execQunmap (c : Ctl) (q : BitVec 3) (s : State) := issue (.qunmap c q) s fun x =>
  match x.bound (qIndex q) with
  | some (b, _) => .done (x.close b (x.put (x.w.bind (qIndex q) none))) { flight := none }
  | none => badBinding x

def execQclose (c : Ctl) (q : BitVec 3) (s : State) := issue (.qclose c q) s fun x =>
  match x.bound (qIndex q) with
  | some (b, _) =>
    if b.push then
      .done (x.close b (x.put (x.w.bind (qIndex q) (some { b with closed := true })))) { flight := none }
    else badBinding x
  | none => badBinding x

/-! ## Transfers (R215) -/

/-- Under `.whole` a source that is itself a queue name gives the popped row's words in every lane, inactive lanes among them
(log 77). -/
def execQpush (c : Ctl) (q : BitVec 3) (a : Spec) (whole : Bool) (s : State) := issue (.qpush c q a whole) s fun x =>
  let m : Mask := if whole then BitVec.allOnes 48 else x.act
  match x.rowCheck [⟨a, 1⟩] m with
  | .trap w code arg => .trap w code arg
  | .move b => .block x.s (.move b true)
  | .ok => .done (x.put x.w) { push := some ⟨qIndex q, x.src a, m, x.srcBad ⟨a, 1⟩ &&& ~~~x.act⟩ }

/-- The row at the head of a queue goes to a lane destination. -/
def Cx.takeHead (x : Cx) (q : BitVec 3) (dst : Spec) (after : Warp → Warp) : Attempt :=
  match x.bound (qIndex q) with
  | none => badBinding x
  | some (b, _) =>
    let (row, _, bad) := x.c.headRow b.queue
    x.spoiled bad (.done (x.put (after (x.write x.w dst x.act row 0))) { pops := [b.queue] })

def execQpop (c : Ctl) (dst : Spec) (q : BitVec 3) (st : Bool) (p : BitVec 3) (s : State) :=
  issue (.qpop c dst q st p) s fun x =>
    if !st then
      x.spoiled (((x.pops.find? (·.name == qIndex q)).map (·.bad)).getD 0)
        (.done (x.put (x.write x.w dst x.act (x.src (.q ⟨q.toNat, q.isLt⟩)) 0)) {})
    else
      let ts : List Transfer := [⟨qIndex q, false, true⟩]
      match x.queueTest ts with
      | .trap code arg => .trap x.w code arg
      | .wait name =>
        if x.drained name then
          .done (x.put (x.writePred (x.write x.w dst x.act zeroRow 0) p x.act (BitVec.allOnes 48))) {}
        else x.queueBlock ts name
      | .go => x.takeHead q dst fun w => x.writePred w p x.act 0

def execQtryPop (c : Ctl) (p : BitVec 3) (dst : Spec) (q : BitVec 3) (s : State) := issue (.qtryPop c p dst q) s fun x =>
  let ts : List Transfer := [⟨qIndex q, false, true⟩]
  match x.queueTest ts with
  | .trap code arg => .trap x.w code arg
  | .wait name =>
    if x.unstaged name then x.queueBlock ts name
    else .done (x.put (x.writePred x.w p x.act 0)) { regs := some [.pred p.toNat] }
  | .go => x.takeHead q dst fun w => x.writePred w p x.act (BitVec.allOnes 48)

/-- R215. A source that is the name of an empty closed queue traps with code 9, as any read of it does (log 29). -/
def execQtryPush (c : Ctl) (p : BitVec 3) (q : BitVec 3) (a : Spec) (s : State) := issue (.qtryPush c p q a) s fun x =>
  let pops : List Transfer := (specQueue a).map fun n => ⟨n, false, false⟩
  let ts : List Transfer := ⟨qIndex q, true, false⟩ :: pops
  match x.queueTest ts with
  | .trap code arg => .trap x.w code arg
  | .wait name =>
    if ts.all (x.serves ts) then x.queueBlock ts name
    else .done (x.put (x.writePred x.w p x.act 0)) {}
  | .go =>
    let rows := x.popped ts
    let y := { x with pops := rows }
    x.spoiled ((rows.foldl (fun m r => m ||| r.bad) 0)) <|
      .done (x.put (x.writePred x.w p x.act (BitVec.allOnes 48)))
        { push := some ⟨qIndex q, y.src a, x.act, 0⟩, pops := rows.map (·.queue) }

/-! ## State of a queue (R217) -/

/-- The warps of a waiter list that are blocked on queues: one that was woken keeps its place until it issues, even where its next
attempt blocks on something else. -/
def Crew.blockedOf (c : Crew) (l : List Nat) : Nat := l.countP fun n => (c.warps[n]?).any fun w =>
  match w.block with
  | some (.queue _ _) => true
  | _ => false

def execQstat (c : Ctl) (dst : Spec) (q : BitVec 3) (sel : BitVec 12) (s : State) := issue (.qstat c dst q sel) s fun x =>
  match x.bound (qIndex q) with
  | none => badBinding x
  | some (_, k) =>
    let v : Nat := match sel.toNat with
      | 0 => k.openRows
      | 1 => k.cap
      | 2 => k.state.toNat
      | 3 => k.prod
      | 4 => k.pushed.toNat
      | 5 => k.popped.toNat
      | 6 => x.c.blockedOf (k.poppers.map (·.warp))
      | _ => x.c.blockedOf (k.pushers.map (·.warp))
    x.scalDone x.w dst (BitVec.ofNat 32 v)

/-! ## Refill (R208) -/

/-- How far a refill has come: the crew, the threads still to fill, the lanes filled, their words and which are poisoned, and
whether a row that the grace unit delivered supplied any (R209). -/
structure Filling where
  c : Crew
  need : List Nat
  filled : Mask
  words : Row
  bad : Mask
  fresh : Bool

/-- One item of the head row: thread `j` of the row goes to thread `t` of the warp. -/
def Filling.take (f : Filling) (triple : Bool) (row : Row) (valid bad : Mask) (t j : Nat) : Filling :=
  (List.zip (threadLanes triple t) (threadLanes triple j)).foldl (fun f p =>
    let ok := valid.getLsbD p.2
    { f with
      filled := f.filled ||| (1#48 <<< p.1)
      words := f.words.set p.1 (if ok then wordAt row p.2 else 0)
      bad := if ok && bad.getLsbD p.2 then f.bad ||| (1#48 <<< p.1) else f.bad }) f

/-- The reduced valid mask goes back into the slot of the head row. -/
def Crew.setValid (c : Crew) (n : Nat) (m : Mask) : Crew :=
  match c.queues[n]? with
  | none => c
  | some q =>
    let o := c.slotOff q q.head + 192
    (c.scratchWrite o (leBytes 6 m.toNat) false).clearShadow o 6

/-- Takes items from ready rows while there are threads to fill. -/
def Cx.fillFrom (x : Cx) (n : Nat) : Nat → Filling → Filling
  | 0, f => f
  | fuel + 1, f =>
    match f.c.queues[n]? with
    | none => f
    | some q =>
      if f.need.isEmpty || !q.readyFor x.ref.warp then f
      else
        let (row, valid, bad) := f.c.headRow n
        let has (j : Nat) : Bool := (threadLanes x.triple j).any valid.getLsbD
        let items := (List.range (threads x.triple)).filter has
        let pairs := List.zip f.need items
        let g := pairs.foldl (fun f p => f.take x.triple row valid bad p.1 p.2) f
        let taken := pairs.foldl (fun (m : Mask) p =>
          (threadLanes x.triple p.2).foldl (fun (m : Mask) l => m ||| (1#48 <<< l)) m) 0
        let left := valid &&& ~~~taken
        let c := g.c.setValid n left
        let c := if left == 0 then c.takeRow n x.ref.warp else c
        Cx.fillFrom x n fuel
          { g with c := c, need := f.need.drop pairs.length, fresh := f.fresh || (f.c.headFresh n && !pairs.isEmpty) }

/-- The threads of the warp to fill: vacant ones, and those of its split whose predicate is true, by the majority of a thread whose
siblings differ (R23, R208; log 30). -/
def Cx.refillLanes (x : Cx) (p : BitVec 3) : Mask :=
  let v := if x.triple then majorityMask (x.w.pred p) else x.w.pred p
  x.w.vacant ||| (v &&& x.sp.mask)

/-- What a refill leaves of the warp: filled lanes have their words and a false predicate, and vacant ones join the split. -/
def Cx.refilled (x : Cx) (dst : Spec) (p : BitVec 3) (f : Filling) : Warp :=
  let w := x.write x.w dst f.filled f.words 0
  (w.setPred p (w.pred p &&& ~~~f.filled)).joinVacant f.filled

/-- The items are taken; the queue then settles. -/
def Cx.refill (x : Cx) (dst : Spec) (p : BitVec 3) (n : Nat) (t : Mask) (cap : Nat) : Attempt :=
  let need := (List.range (threads x.triple)).filter fun j => (threadLanes x.triple j).any t.getLsbD
  let f := x.fillFrom n (cap + 1) ⟨x.c, need, 0, zeroRow, 0, false⟩
  if f.bad != 0 then .ends (x.s.consumedError x.ref.crew.launch none .warp x.core x.ref.warp)
  else
    let s := x.s.modCrew x.ref.crew fun _ => { f.c with warps := f.c.warps.set x.ref.warp (x.refilled dst p f) }.settleQueue n
    .done (if f.fresh then s.invalidate x.core else s) {}

def execRefill (c : Ctl) (dst : Spec) (q : BitVec 3) (p : BitVec 3) (wait : Bool) (s : State) :=
  issue (.refill c dst q p wait) s fun x =>
    let t := x.refillLanes p
    if t == 0 then .done (x.put x.w) {}
    else
      let ts : List Transfer := [⟨qIndex q, false, true⟩]
      match x.queueTest ts, x.bound (qIndex q) with
      | .trap code arg, _ => .trap x.w code arg
      | _, none => badBinding x
      | .wait name, some (_, k) =>
        if x.unstaged name || (wait && k.state == 0) then x.queueBlock ts name else .done (x.put x.w) {}
      | .go, some (b, k) =>
        match x.rowCheck [⟨dst, 1⟩] t with
        | .trap w code arg => .trap w code arg
        | .move r => .block x.s (.move r true)
        | .ok => x.refill dst p b.queue t k.cap

end Sys2Proof.Machine
end

