-- ==== Sys2Proof/Machine/Scalar.lean ====
section
/-! DEFINITION. Class 0x1, scalar and cross-lane instructions (03 R77, R92 to R101). -/

namespace Sys2Proof.Machine

/-! ## Scalar operations -/

/-- R92: an operation on scalars of either width. -/
def Cx.scalOp (x : Cx) (a : ScalArgs) (f : {n : Nat} → BitVec n → BitVec n → BitVec n) : Attempt :=
  if a.w64 then x.pairDone x.w a.dst (f (x.scal64 a.a) (x.scal64₂ a.b))
  else x.scalDone x.w a.dst (f (x.scal a.a) (x.scal2 a.b))

/-- R92: the shifts, whose amount is one 32-bit natural number. -/
def Cx.scalShift (x : Cx) (a : ScalArgs) (f : {n : Nat} → BitVec n → Nat → BitVec n) : Attempt :=
  let b := (x.scal2 a.b).toNat
  if a.w64 then x.pairDone x.w a.dst (f (x.scal64 a.a) b) else x.scalDone x.w a.dst (f (x.scal a.a) b)

def execSadd (c : Ctl) (x : ScalArgs) (s : State) := issue (.sadd c x) s fun k => k.scalOp x fun a b => a + b
def execSsub (c : Ctl) (x : ScalArgs) (s : State) := issue (.ssub c x) s fun k => k.scalOp x fun a b => a - b
def execSmul (c : Ctl) (x : ScalArgs) (s : State) := issue (.smul c x) s fun k => k.scalOp x fun a b => a * b
def execSand (c : Ctl) (x : ScalArgs) (s : State) := issue (.sand c x) s fun k => k.scalOp x fun a b => a &&& b
def execSor (c : Ctl) (x : ScalArgs) (s : State) := issue (.sor c x) s fun k => k.scalOp x fun a b => a ||| b
def execSxor (c : Ctl) (x : ScalArgs) (s : State) := issue (.sxor c x) s fun k => k.scalOp x fun a b => a ^^^ b

def execSshl (c : Ctl) (x : ScalArgs) (s : State) := issue (.sshl c x) s fun k =>
  k.scalShift x fun {n} a b => if n ≤ b then 0 else a <<< b

def execSshr (c : Ctl) (x : ScalArgs) (s : State) := issue (.sshr c x) s fun k =>
  k.scalShift x fun {n} a b =>
    if x.ty == .i32 then a.sshiftRight (min b (n - 1)) else if n ≤ b then 0 else a >>> b

def execSmov (c : Ctl) (x : ScalArgs) (s : State) := issue (.smov c x) s fun k => k.scalOp x fun a _ => a

def execSmovi (c : Ctl) (dst : Spec) (imm : Word) (s : State) := issue (.smovi c dst imm) s fun k => k.scalDone k.w dst imm

/-- A 64-bit scalar value as the tag reads it. -/
def pairVal (ty : Ty) (a : DWord) : Int := if ty == .n32 then a.toNat else a.toInt

/-- R94: one result for every active lane. -/
def execScmp (c : Ctl) (x : CmpArgs) (s : State) := issue (.scmp c x) s fun k =>
  let v := if x.w64 then ccHolds x.cc (pairVal x.ty (k.scal64 x.a)) (pairVal x.ty (k.scal64₂ x.b))
    else ccHolds x.cc (wordVal x.ty (k.scal x.a)) (wordVal x.ty (k.scal2 x.b))
  k.predDone k.w x.p (if v then k.act else 0)

def execSlea (c : Ctl) (x : LeaArgs) (s : State) := issue (.slea c x) s fun k =>
  k.pairDone k.w x.dst (leaSum x.ty x.sc (k.scal64 x.a) (k.scal x.b) x.imm)

/-! ## Cross-lane -/

def execBcast (c : Ctl) (dst a : Spec) (k : Src2) (s : State) := issue (.bcast c dst a k) s fun x =>
  let n := (x.scal2 k).toNat
  let row := x.src a
  x.cross a (x.laneDone x.w dst (laneList.map fun l => if n < threads x.triple then wordAt row (x.laneOfThread n l) else 0))

def execRdlane (c : Ctl) (dst a : Spec) (k : Src2) (s : State) := issue (.rdlane c dst a k) s fun x =>
  let n := (x.scal2 k).toNat
  let row := x.src a
  x.cross a (x.scalDone x.w dst (if n < 48 then wordAt row n else 0))

/-- R99: the votes of active voters, lane or thread number first. -/
def Cx.votes (x : Cx) (q : Pred) : List (Nat × Bool) :=
  let v := x.predMask q
  if x.triple then
    ((List.range 16).filter fun t => x.act.getLsbD (3 * t)).map fun t =>
      (t, maj (v.getLsbD (3 * t)) (v.getLsbD (3 * t + 1)) (v.getLsbD (3 * t + 2)))
  else (maskLanes x.act).map fun l => (l, v.getLsbD l)

def execVoteAny (c : Ctl) (p : BitVec 3) (q : Pred) (s : State) := issue (.voteAny c p q) s fun x =>
  x.predDone x.w p (if (x.votes q).any (·.2) then x.act else 0)

def execVoteAll (c : Ctl) (p : BitVec 3) (q : Pred) (s : State) := issue (.voteAll c p q) s fun x =>
  x.predDone x.w p (if (x.votes q).all (·.2) then x.act else 0)

def execVoteBallot (c : Ctl) (dst : Spec) (q : Pred) (s : State) := issue (.voteBallot c dst q) s fun x =>
  x.pairDone x.w dst (BitVec.ofNat 64 ((x.votes q).foldl (fun n v => if v.2 then n + 2 ^ v.1 else n) 0))

def execShfl (c : Ctl) (sm : Shuf) (dst a : Spec) (b : Src2) (s : State) := issue (.shfl c sm dst a b) s fun x =>
  let bs := x.src2 b
  let row := x.src a
  x.cross a (x.laneDone x.w dst (laneList.map fun l => wordAt row (x.shflLane sm (wordAt bs l) l)))

/-- R101: the lowest active lane, or thread. -/
def execElect (c : Ctl) (dst : Spec) (ep : BitVec 3) (s : State) := issue (.elect c dst ep) s fun x =>
  let l := (maskLanes x.act).headD 0
  let t := threadOf x.triple l
  let won := maskOf fun l => threadOf x.triple l == t
  let w := x.writeScal x.w dst (BitVec.ofNat 32 t)
  .done (x.put (if ep == 7 then w else x.writePred w ep x.act won)) {}

end Sys2Proof.Machine
end

