-- ==== Sys2Proof/Machine/Sibling.lean ====
section
/-! DEFINITION. Class 0x3, sibling instructions (05 R129 to R132, R139 to R146). -/

namespace Sys2Proof.Machine

/-- The three sibling words of a lane's thread; three times its own in single mode (R142). -/
def Cx.three (x : Cx) (r : Row) (l : Nat) : Word × Word × Word :=
  if x.triple then let t := l / 3; (wordAt r (3 * t), wordAt r (3 * t + 1), wordAt r (3 * t + 2))
  else (wordAt r l, wordAt r l, wordAt r l)

/-- A measure of three sibling values. -/
def sibMeasure (f : Fmt) (g : FVal → FVal → FVal → Nat) (w : Word × Word × Word) : Nat :=
  let v (a : Word) : FVal := operandVal f false 0 a
  g (v w.1) (v w.2.1) (v w.2.2)

def Cx.measure (x : Cx) (ty : Ty) (a : Spec) (g : Fmt → FVal → FVal → FVal → Nat) : List Nat :=
  let r := x.src a
  let f := fmtOf ty
  laneList.map fun l => if x.act.getLsbD l then sibMeasure f (g f) (x.three r l) else 0

/-- R141. -/
def Cx.setNear (x : Cx) (on : Bool) : Attempt :=
  .done (x.put { x.w with numctl := setField x.w.numctl 12 1 (if on then 1 else 0) }) { flight := none }

def execSibmodeNear (c : Ctl) (s : State) := issue (.sibmodeNear c) s fun x => x.setNear true
def execSibmodeRand (c : Ctl) (s : State) := issue (.sibmodeRand c) s fun x => x.setNear false

def execDigits (c : Ctl) (x : UnArgs) (s : State) := issue (.digits c x) s fun k =>
  k.laneDone k.w x.dst ((k.measure x.ty x.a digits3).map (BitVec.ofNat 32))

def execSmean (c : Ctl) (x : UnArgs) (s : State) := issue (.smean c x) s fun k =>
  k.laneDone k.w x.dst ((k.measure x.ty x.a mean3).map (BitVec.ofNat 32))

def execSibget (c : Ctl) (dst a : Spec) (n : BitVec 2) (s : State) := issue (.sibget c dst a n) s fun x =>
  let r := x.src a
  x.laneDone x.w dst (laneList.map fun l => wordAt r (3 * (l / 3) + n.toNat))

/-- R144. -/
def sibsAgree (ty : Ty) (w : Word × Word × Word) : Bool :=
  match ty with
  | .none => w.1 == w.2.1 && w.2.1 == w.2.2
  | ty =>
    let v (a : Word) : FVal := operandVal (fmtOf ty) false 0 a
    (v w.1).eqNum (v w.2.1) && (v w.2.1).eqNum (v w.2.2)

def execSibagree (c : Ctl) (ty : Ty) (p : BitVec 3) (a : Spec) (s : State) := issue (.sibagree c ty p a) s fun x =>
  let r := x.src a
  x.predDone x.w p (maskOf fun l => sibsAgree ty (x.three r l))

def execNchk (c : Ctl) (ty : Ty) (p : BitVec 3) (a : Spec) (n : Src2) (s : State) := issue (.nchk c ty p a n) s fun x =>
  let d := x.measure ty a digits3
  let lim := (x.scal2 n).toInt
  x.predDone x.w p (maskOf fun l => decide ((d.getD l 0 : Int) < lim))

/-- R146. -/
def execRand (c : Ctl) (ty : Ty) (same w64 : Bool) (dst : Spec) (s : State) := issue (.rand c ty same w64 dst) s fun x =>
  let w := x.w.advance x.act 1
  let g (l : Nat) : DWord :=
    genWord x.l.rndkey x.ref.crew.crew x.ref.warp x.triple same 1 l (x.w.opcount.getD l 0).toNat
  if w64 then
    x.wideDone w dst [laneList.map fun l => (g l).extractLsb' 0 32, laneList.map fun l => (g l).extractLsb' 32 32]
  else if ty == .f32 then
    x.laneDone w dst (laneList.map fun l =>
      BitVec.ofNat 32 (roundNear .fp32 (.ofDy ⟨((g l).toNat >>> 40 : Nat), -24⟩ false)))
  else x.laneDone w dst (laneList.map fun l => (g l).extractLsb' 32 32)

/-- R131, R142: the pair of a lane. -/
def Cx.pair (x : Cx) (f : Fmt) (r : Row) (l : Nat) : Nat × Nat :=
  if x.triple then (sibMeasure f (mean3 f) (x.three r l), sibMeasure f (digits3 f) (x.three r l))
  else
    let code := (wordAt r l).toNat % 2 ^ f.width
    (code, if (f.decode code).isNan then 0 else f.p)

def execMdpack (c : Ctl) (x : UnArgs) (s : State) := issue (.mdpack c x) s fun k =>
  let f := fmtOf x.ty
  let r := k.src x.a
  let ps := laneList.map fun l => if k.act.getLsbD l then k.pair f r l else (0, 0)
  if f.width == 32 then
    k.wideDone k.w x.dst [ps.map fun p => BitVec.ofNat 32 p.1, ps.map fun p => BitVec.ofNat 32 p.2]
  else k.laneDone k.w x.dst (ps.map fun p => BitVec.ofNat 32 (p.2 * 65536 + p.1))

def execMdunpack (c : Ctl) (x : UnArgs) (s : State) := issue (.mdunpack c x) s fun k =>
  let f := fmtOf x.ty
  let wide := f.width == 32
  let lo := if wide then k.srcWide x.a 0 else k.src x.a
  let hi := k.srcWide x.a 1
  k.laneDone k.w x.dst (laneList.map fun l =>
    let w := (wordAt lo l).toNat
    let m := w % 2 ^ f.width
    let b := if wide then (wordAt hi l).toNat % 256 else w / 65536 % 256
    BitVec.ofNat 32 (recon f m (min b f.p) (if k.triple then l % 3 else 1)))

end Sys2Proof.Machine
end

