-- ==== Sys2Proof/Machine/WatchEvents.lean ====
section
/-! DEFINITION. The watchdog and PC sampling (15 R366 to R368, R380, R381; 18 R440). -/

namespace Sys2Proof.Machine

/-! ## The watchdog -/

/-- R367: blocked on a barrier, in a `wait`, or on grace. -/
def Warp.watched (w : Warp) : Bool :=
  !w.retired && match w.block with
    | some (.barrier _ _) | some (.wait _ _) | some (.grace _) => true
    | _ => false

/-- R367: the count has reached the limit. -/
def Warp.overdue (w : Warp) (now : DWord) (limit : Nat) : Bool :=
  w.watched && decide (w.since.toNat + w.paused + limit * 1000 ≤ now.toNat)

/-- R440: the offending warp of a crew. -/
def Crew.offender (c : Crew) : Option Warp :=
  (c.warps.filter (·.watched)).foldl (fun (r : Option Warp) w => match r with
    | none => some w
    | some v => some (if w.since.toNat < v.since.toNat then w else v)) none

/-- The crews of a context that trigger now, in ascending crew index, sixteen at most (R368). -/
def State.triggered (s : State) (x : CtxRef) (limit : Nat) : List Crew :=
  let hit := s.crews.filter fun c =>
    c.core.isSome && (s.launch? c.ref.launch).any (fun l => l.ctx == x) && c.warps.any (·.overdue s.clock.tick limit)
  (hit.foldl (fun (l : List Crew) c =>
    l.takeWhile (·.ref.crew ≤ c.ref.crew) ++ [c] ++ l.dropWhile (·.ref.crew ≤ c.ref.crew)) []).take 16

/-- The diagnostic record at an address belongs to the event record that comes next (R447). -/
def State.pointDiag (s : State) (x : CtxRef) (addr : Nat) : State :=
  s.modContext x fun c =>
    { c with diags := c.diags.map fun d =>
        if addr == c.diagBase + d.off then { d with record := c.ring.write + BitVec.ofNat 32 c.ring.held.length } else d }

/-- R368: the diagnostic records, the end of the context, then a record of kind 6 for each crew. -/
def State.watchdogTrigger (s : State) (x : CtxRef) (limit : Nat) : State :=
  let crews := s.triggered x limit
  let (s, notes) := crews.foldl (fun (r : State × List (Launch × Nat × Nat)) c =>
    match r.1.launch? c.ref.launch, c.offender with
    | some l, some w =>
      let (s, addr) := r.1.diagWrite x (r.1.watchRecord c l w limit)
      (s, r.2 ++ [(l, addr, c.ref.crew)])
    | _, _ => r) (s, [])
  let s := s.endContext x 20
  notes.foldl (fun s n => (s.pointDiag x n.2.1).launchEvent n.1 6 3 (deadlockBody n.2.1 n.2.2 0)) s

def execWatchdog (w : WarpRef) (s : State) : Answer := s.onWarp w fun _ m =>
  match (s.launch? w.crew.launch).bind fun l => s.context? l.ctx with
  | none => s
  | some k =>
    let limit := (k.wdogctl.extractLsb' 0 24).toNat
    if limit == 0 || s.anyStopped k.ref || !m.overdue s.clock.tick limit then s else s.watchdogTrigger k.ref limit

/-! ## PC sampling -/

/-- The tiles that the next instruction waits for (R341). -/
def Cx.tileWait (x : Cx) : Bool :=
  let planes (t : BitVec 3) : List Nat := planeTiles (shapeOf (x.c.tileShape t.toNat)) t.toNat
  match x.i with
  | .mma _ m | .mdist _ m => !x.c.tilesReady (planes m.ta ++ [m.tb.toNat]) []
  | .tst _ t => !x.c.tilesReady (planes t.tile) []
  | .tld _ t => !x.c.tilesReady (if 1 < (planes t.tile).length then planes t.tile else []) (planes t.tile)
  | .acvt _ _ tile _ _ => !x.c.tilesReady [] (planes tile)
  | _ => false

def fences : Instr → Bool
  | .fenceAcq _ _ | .fenceRel _ _ | .fenceAcqrel _ _ | .fenceSc _ _ | .fenceAsync _ => true
  | _ => false

/-- The control register that the next instruction reads. -/
def Cx.controlNo (x : Cx) : Option Nat :=
  match x.i with
  | .ctlrd _ _ creg => some creg.toNat
  | _ => none

/-- Whether the queue of the engine that the next instruction goes to is full (R299, R339). -/
def Cx.engineFull (x : Cx) : Bool :=
  let k := x.s.coreAt x.core
  match x.i with
  | .cpyLoad _ _ | .cpyStore _ _ | .cpytLoad _ _ | .cpytStore _ _ | .cpym _ _ _ | .cpyfLoad _ _ | .cpyfStore _ _ =>
    copyLimit ≤ k.copies.length
  | .mma _ _ | .mdist _ _ | .azero _ _ _ | .ard _ _ _ _ _ _ _ | .acvt _ _ _ _ _ | .atopk _ _ _ _ _ _ _ | .asave _ _
  | .arest _ _ => unitQueue ≤ k.matQueue.length
  | _ => false

/-- What the next instruction waits for, as its stall code (R381). -/
def State.holdReason (s : State) (r : WarpRef) (w : Warp) : Nat :=
  match s.nextAttempt r with
  | some (.inl x) =>
    let storing := !(s.storing x.core r).isEmpty
    if x.storesFirst || (storing && fences x.i) then 9
    else if x.tileWait then 10
    else if w.switch != 0 then 11
    else if w.redirect != 0 then 12
    else if !w.flagsFree x.i then 13
    else if w.landed != 0 || x.interlocked || (x.controlNo.any w.changing) then 14
    else if w.stall != 0 then 15
    else if x.engineFull then 17
    else if w.wake != 0 then (Config.recordByte 3 0).toNat % 20
    else 18
  | _ => if w.switch != 0 then 11 else if w.redirect != 0 then 12 else if w.stall != 0 then 15 else 18

/-- R381: the lowest code that holds, once the quarter has had its turn in the cycle. Code 16 is timing (log 60). The spec names no
code for the two cycles before a warp that was woken is eligible: that one is free (log 18). -/
def State.stallReason (s : State) (r : WarpRef) (w : Warp) : Nat :=
  if w.issuedAt == some s.clock.cycle then 0
  else if w.stopped then 1
  else match w.block with
    | some b => b.reason
    | none => s.holdReason r w

/-- The sampling period of a launch's context, as the exponent n of R380. -/
def State.samplingOf (s : State) (id : Nat) : Option Nat := ((s.launch? id).bind fun l => s.context? l.ctx).bind (·.sampling)

/-- R380: the next resident slot after the one last sampled. A slot of a context whose own period does not end in this cycle takes
no part (log 57). -/
def execPcSampling (core quarter : Nat) (s : State) : Answer :=
  let last := (s.coreAt core).sampled.getD quarter 15
  let takes (r : WarpRef) : Bool := (s.samplingOf r.crew.launch).all fun n => s.clock.cycle % 2 ^ n == 0
  let next := ((s.quarterWarps core quarter).filter fun x => takes x.1).foldl (fun (r : Option (WarpRef × Warp)) x => match r with
    | none => some x
    | some y => some (if slotDistance (last + 1) x.2.slot < slotDistance (last + 1) y.2.slot then x else y)) none
  match next with
  | none => .next s
  | some (r, w) =>
    let s := s.modCore core fun k => { k with sampled := k.sampled.set quarter w.slot }
    match s.launch? r.crew.launch with
    | none => .next s
    | some l =>
      if (s.samplingOf l.id).isNone then .next s
      else
        let reason := s.stallReason r w
        .next (s.sample l.ctx (sampleBytes s.clock.tick l.seq w.split.pc (4 * core + quarter) w.slot
          (if reason == 0 then 128 else reason) r.crew.crew 0 r.warp 0))

end Sys2Proof.Machine
end

