-- ==== Sys2Proof/Machine/Dispatch.lean ====
section
/-! DEFINITION. One arm per instruction and event: what each does. -/

namespace Sys2Proof.Machine

def exec (i : Instr) (s : State) : Host.Outcome State Fault Refusal :=
  match i with
  | .iadd c x => Sys2Proof.Machine.execIadd c x s
  | .isub c x => Sys2Proof.Machine.execIsub c x s
  | .imul c x => Sys2Proof.Machine.execImul c x s
  | .imulh c x => Sys2Proof.Machine.execImulh c x s
  | .imad c x => Sys2Proof.Machine.execImad c x s
  | .imin c x => Sys2Proof.Machine.execImin c x s
  | .imax c x => Sys2Proof.Machine.execImax c x s
  | .iabs c x => Sys2Proof.Machine.execIabs c x s
  | .and c x => Sys2Proof.Machine.execAnd c x s
  | .or c x => Sys2Proof.Machine.execOr c x s
  | .xor c x => Sys2Proof.Machine.execXor c x s
  | .andn c x => Sys2Proof.Machine.execAndn c x s
  | .shl c x => Sys2Proof.Machine.execShl c x s
  | .shr c x => Sys2Proof.Machine.execShr c x s
  | .sar c x => Sys2Proof.Machine.execSar c x s
  | .rot c x => Sys2Proof.Machine.execRot c x s
  | .popc c x => Sys2Proof.Machine.execPopc c x s
  | .clz c x => Sys2Proof.Machine.execClz c x s
  | .bfx c x => Sys2Proof.Machine.execBfx c x s
  | .bfi c x => Sys2Proof.Machine.execBfi c x s
  | .sel c x => Sys2Proof.Machine.execSel c x s
  | .mov c dst a => Sys2Proof.Machine.execMov c dst a s
  | .movi c dst imm => Sys2Proof.Machine.execMovi c dst imm s
  | .icmp c x => Sys2Proof.Machine.execIcmp c x s
  | .lea c x => Sys2Proof.Machine.execLea c x s
  | .sxt c x => Sys2Proof.Machine.execSxt c x s
  | .sadd c x => Sys2Proof.Machine.execSadd c x s
  | .ssub c x => Sys2Proof.Machine.execSsub c x s
  | .smul c x => Sys2Proof.Machine.execSmul c x s
  | .sand c x => Sys2Proof.Machine.execSand c x s
  | .sor c x => Sys2Proof.Machine.execSor c x s
  | .sxor c x => Sys2Proof.Machine.execSxor c x s
  | .sshl c x => Sys2Proof.Machine.execSshl c x s
  | .sshr c x => Sys2Proof.Machine.execSshr c x s
  | .smov c x => Sys2Proof.Machine.execSmov c x s
  | .smovi c dst imm => Sys2Proof.Machine.execSmovi c dst imm s
  | .scmp c x => Sys2Proof.Machine.execScmp c x s
  | .slea c x => Sys2Proof.Machine.execSlea c x s
  | .bcast c dst a k => Sys2Proof.Machine.execBcast c dst a k s
  | .rdlane c dst a k => Sys2Proof.Machine.execRdlane c dst a k s
  | .voteAny c p q => Sys2Proof.Machine.execVoteAny c p q s
  | .voteAll c p q => Sys2Proof.Machine.execVoteAll c p q s
  | .voteBallot c dst q => Sys2Proof.Machine.execVoteBallot c dst q s
  | .shfl c sm dst a b => Sys2Proof.Machine.execShfl c sm dst a b s
  | .elect c dst ep => Sys2Proof.Machine.execElect c dst ep s
  | .fadd c x => Sys2Proof.Machine.execFadd c x s
  | .fsub c x => Sys2Proof.Machine.execFsub c x s
  | .fmul c x => Sys2Proof.Machine.execFmul c x s
  | .ffma c x => Sys2Proof.Machine.execFfma c x s
  | .fmin c x => Sys2Proof.Machine.execFmin c x s
  | .fmax c x => Sys2Proof.Machine.execFmax c x s
  | .fcmp c x => Sys2Proof.Machine.execFcmp c x s
  | .fdiv c x => Sys2Proof.Machine.execFdiv c x s
  | .fsqrt c x => Sys2Proof.Machine.execFsqrt c x s
  | .frcp c x => Sys2Proof.Machine.execFrcp c x s
  | .frsq c x => Sys2Proof.Machine.execFrsq c x s
  | .fexp2 c x => Sys2Proof.Machine.execFexp2 c x s
  | .flog2 c x => Sys2Proof.Machine.execFlog2 c x s
  | .fclass c x => Sys2Proof.Machine.execFclass c x s
  | .frnd c x => Sys2Proof.Machine.execFrnd c x s
  | .hadd2 c x => Sys2Proof.Machine.execHadd2 c x s
  | .hmul2 c x => Sys2Proof.Machine.execHmul2 c x s
  | .hfma2 c x => Sys2Proof.Machine.execHfma2 c x s
  | .cvt c x => Sys2Proof.Machine.execCvt c x s
  | .sibmodeNear c => Sys2Proof.Machine.execSibmodeNear c s
  | .sibmodeRand c => Sys2Proof.Machine.execSibmodeRand c s
  | .digits c x => Sys2Proof.Machine.execDigits c x s
  | .smean c x => Sys2Proof.Machine.execSmean c x s
  | .sibget c dst a k => Sys2Proof.Machine.execSibget c dst a k s
  | .sibagree c ty p a => Sys2Proof.Machine.execSibagree c ty p a s
  | .nchk c ty p a n => Sys2Proof.Machine.execNchk c ty p a n s
  | .rand c ty same w64 dst => Sys2Proof.Machine.execRand c ty same w64 dst s
  | .mdpack c x => Sys2Proof.Machine.execMdpack c x s
  | .mdunpack c x => Sys2Proof.Machine.execMdunpack c x s
  | .bra c p off => Sys2Proof.Machine.execBra c p off s
  | .bru c p off => Sys2Proof.Machine.execBru c p off s
  | .brx c a off => Sys2Proof.Machine.execBrx c a off s
  | .call c off shift => Sys2Proof.Machine.execCall c off shift s
  | .callx c a off shift => Sys2Proof.Machine.execCallx c a off shift s
  | .ret c => Sys2Proof.Machine.execRet c s
  | .exit c => Sys2Proof.Machine.execExit c s
  | .join c => Sys2Proof.Machine.execJoin c s
  | .yield c => Sys2Proof.Machine.execYield c s
  | .nop c => Sys2Proof.Machine.execNop c s
  | .rclaim c n => Sys2Proof.Machine.execRclaim c n s
  | .rrelease c n => Sys2Proof.Machine.execRrelease c n s
  | .rpool c dst sel => Sys2Proof.Machine.execRpool c dst sel s
  | .wflush c => Sys2Proof.Machine.execWflush c s
  | .wdepth c dst sel => Sys2Proof.Machine.execWdepth c dst sel s
  | .xset c k a lim => Sys2Proof.Machine.execXset c k a lim s
  | .xadd c k a ib imm => Sys2Proof.Machine.execXadd c k a ib imm s
  | .qmap c q slot rights off => Sys2Proof.Machine.execQmap c q slot rights off s
  | .qunmap c q => Sys2Proof.Machine.execQunmap c q s
  | .qpush c q a whole => Sys2Proof.Machine.execQpush c q a whole s
  | .qpop c dst q st p => Sys2Proof.Machine.execQpop c dst q st p s
  | .qtryPop c p dst q => Sys2Proof.Machine.execQtryPop c p dst q s
  | .qtryPush c p q a => Sys2Proof.Machine.execQtryPush c p q a s
  | .qclose c q => Sys2Proof.Machine.execQclose c q s
  | .qstat c dst q sel => Sys2Proof.Machine.execQstat c dst q sel s
  | .refill c dst q p wait => Sys2Proof.Machine.execRefill c dst q p wait s
  | .ld c x => Sys2Proof.Machine.execLd c x s
  | .st c x => Sys2Proof.Machine.execSt c x s
  | .lds c x => Sys2Proof.Machine.execLds c x s
  | .sts c x => Sys2Proof.Machine.execSts c x s
  | .ldu c x => Sys2Proof.Machine.execLdu c x s
  | .atom c x => Sys2Proof.Machine.execAtom c x s
  | .atoms c x => Sys2Proof.Machine.execAtoms c x s
  | .red c x => Sys2Proof.Machine.execRed c x s
  | .pref c x => Sys2Proof.Machine.execPref c x s
  | .cctl c x => Sys2Proof.Machine.execCctl c x s
  | .fenceAcq c sc => Sys2Proof.Machine.execFenceAcq c sc s
  | .fenceRel c sc => Sys2Proof.Machine.execFenceRel c sc s
  | .fenceAcqrel c sc => Sys2Proof.Machine.execFenceAcqrel c sc s
  | .fenceSc c sc => Sys2Proof.Machine.execFenceSc c sc s
  | .fenceAsync c => Sys2Proof.Machine.execFenceAsync c s
  | .barinit c b n => Sys2Proof.Machine.execBarinit c b n s
  | .barinitInv c b => Sys2Proof.Machine.execBarinitInv c b s
  | .bararr c b => Sys2Proof.Machine.execBararr c b s
  | .barwait c b ph => Sys2Proof.Machine.execBarwait c b ph s
  | .bartx c b a ib imm => Sys2Proof.Machine.execBartx c b a ib imm s
  | .wait c x => Sys2Proof.Machine.execWait c x s
  | .rdenter c => Sys2Proof.Machine.execRdenter c s
  | .rdexit c => Sys2Proof.Machine.execRdexit c s
  | .gstart c dst => Sys2Proof.Machine.execGstart c dst s
  | .gsync c dst => Sys2Proof.Machine.execGsync c dst s
  | .dfree c a len q => Sys2Proof.Machine.execDfree c a len q s
  | .gstat c dst sel => Sys2Proof.Machine.execGstat c dst sel s
  | .cpyLoad c x => Sys2Proof.Machine.execCpyLoad c x s
  | .cpyStore c x => Sys2Proof.Machine.execCpyStore c x s
  | .cpytLoad c x => Sys2Proof.Machine.execCpytLoad c x s
  | .cpytStore c x => Sys2Proof.Machine.execCpytStore c x s
  | .cpym c x fromsp => Sys2Proof.Machine.execCpym c x fromsp s
  | .cpyfLoad c x => Sys2Proof.Machine.execCpyfLoad c x s
  | .cpyfStore c x => Sys2Proof.Machine.execCpyfStore c x s
  | .cpycan c dst h => Sys2Proof.Machine.execCpycan c dst h s
  | .tctl c slot tile a imm => Sys2Proof.Machine.execTctl c slot tile a imm s
  | .tld c x => Sys2Proof.Machine.execTld c x s
  | .tst c x => Sys2Proof.Machine.execTst c x s
  | .mma c x => Sys2Proof.Machine.execMma c x s
  | .mdist c x => Sys2Proof.Machine.execMdist c x s
  | .azero c slot acc => Sys2Proof.Machine.execAzero c slot acc s
  | .ard c dst e slot acc psel raw => Sys2Proof.Machine.execArd c dst e slot acc psel raw s
  | .acvt c slot tile acc psel => Sys2Proof.Machine.execAcvt c slot tile acc psel s
  | .atopk c slot acc a k init min => Sys2Proof.Machine.execAtopk c slot acc a k init min s
  | .asave c x => Sys2Proof.Machine.execAsave c x s
  | .arest c x => Sys2Proof.Machine.execArest c x s
  | .trap c n => Sys2Proof.Machine.execTrap c n s
  | .rtt c => Sys2Proof.Machine.execRtt c s
  | .ctlrd c dst creg => Sys2Proof.Machine.execCtlrd c dst creg s
  | .ctlwr c creg a => Sys2Proof.Machine.execCtlwr c creg a s
  | .clockTick c dst => Sys2Proof.Machine.execClockTick c dst s
  | .clockCyc c dst => Sys2Proof.Machine.execClockCyc c dst s
  | .brk c => Sys2Proof.Machine.execBrk c s
  | .mark c a sr imm => Sys2Proof.Machine.execMark c a sr imm s
  | .breakpointHit w => Sys2Proof.Machine.execBreakpointHit w s
  | .stallCountExpiry w => Sys2Proof.Machine.execStallCountExpiry w s
  | .fetchRedirectExpiry w => Sys2Proof.Machine.execFetchRedirectExpiry w s
  | .splitSwitchExpiry w => Sys2Proof.Machine.execSplitSwitchExpiry w s
  | .instructionCompletion w k => Sys2Proof.Machine.execInstructionCompletion w k s
  | .registerWriteLands w k => Sys2Proof.Machine.execRegisterWriteLands w k s
  | .windowMoveDone w => Sys2Proof.Machine.execWindowMoveDone w s
  | .spillWrite core k => Sys2Proof.Machine.execSpillWrite core k s
  | .claimServed cr quarter => Sys2Proof.Machine.execClaimServed cr quarter s
  | .claimDeadlock cr quarter => Sys2Proof.Machine.execClaimDeadlock cr quarter s
  | .crewDeadlock cr => Sys2Proof.Machine.execCrewDeadlock cr s
  | .queueRowLands q k => Sys2Proof.Machine.execQueueRowLands q k s
  | .queueHeadStaged q => Sys2Proof.Machine.execQueueHeadStaged q s
  | .queueStateError q => Sys2Proof.Machine.execQueueStateError q s
  | .graceDelivery x => Sys2Proof.Machine.execGraceDelivery x s
  | .deliveryPendingSlot q => Sys2Proof.Machine.execDeliveryPendingSlot q s
  | .arrivalApplied cr group bar warp => Sys2Proof.Machine.execArrivalApplied cr group bar warp s
  | .waitEvaluation w => Sys2Proof.Machine.execWaitEvaluation w s
  | .waitDeadline w => Sys2Proof.Machine.execWaitDeadline w s
  | .graceStartAtHome x => Sys2Proof.Machine.execGraceStartAtHome x s
  | .graceNumberReturned w => Sys2Proof.Machine.execGraceNumberReturned w s
  | .depthChangeAtHome x => Sys2Proof.Machine.execDepthChangeAtHome x s
  | .curReceived x core => Sys2Proof.Machine.execCurReceived x core s
  | .curAcknowledged x core => Sys2Proof.Machine.execCurAcknowledged x core s
  | .doneReceived x core => Sys2Proof.Machine.execDoneReceived x core s
  | .copyUnitLanded core k unit receiver => Sys2Proof.Machine.execCopyUnitLanded core k unit receiver s
  | .copyUnitFault core k unit => Sys2Proof.Machine.execCopyUnitFault core k unit s
  | .matrixUnitTake core => Sys2Proof.Machine.execMatrixUnitTake core s
  | .matrixOpCompletion core => Sys2Proof.Machine.execMatrixOpCompletion core s
  | .tilePathCompletion core => Sys2Proof.Machine.execTilePathCompletion core s
  | .uncorrectableError e => Sys2Proof.Machine.execUncorrectableError e s
  | .lineAgeExpiry cache line => Sys2Proof.Machine.execLineAgeExpiry cache line s
  | .watchdog w => Sys2Proof.Machine.execWatchdog w s
  | .pcSampling core quarter => Sys2Proof.Machine.execPcSampling core quarter s
  | .comparePoint w => Sys2Proof.Machine.execComparePoint w s
  | .kick q value => Sys2Proof.Machine.execKick q value s
  | .packetReread q => Sys2Proof.Machine.execPacketReread q s
  | .launch q => Sys2Proof.Machine.execLaunch q s
  | .waitOnValue q => Sys2Proof.Machine.execWaitOnValue q s
  | .waitOnValuePoll q => Sys2Proof.Machine.execWaitOnValuePoll q s
  | .writeValue q => Sys2Proof.Machine.execWriteValue q s
  | .copy q => Sys2Proof.Machine.execCopy q s
  | .faultAcknowledgement q => Sys2Proof.Machine.execFaultAcknowledgement q s
  | .createContext q => Sys2Proof.Machine.execCreateContext q s
  | .destroyContext q => Sys2Proof.Machine.execDestroyContext q s
  | .queueCreate q => Sys2Proof.Machine.execQueueCreate q s
  | .queueStop q managed => Sys2Proof.Machine.execQueueStop q managed s
  | .queueRestart q managed => Sys2Proof.Machine.execQueueRestart q managed s
  | .translationInvalidation q => Sys2Proof.Machine.execTranslationInvalidation q s
  | .swapOut q => Sys2Proof.Machine.execSwapOut q s
  | .resume q => Sys2Proof.Machine.execResume q s
  | .partitionSave q => Sys2Proof.Machine.execPartitionSave q s
  | .partitionRestore q => Sys2Proof.Machine.execPartitionRestore q s
  | .preemptionComplete q => Sys2Proof.Machine.execPreemptionComplete q s
  | .setWdogctl q => Sys2Proof.Machine.execSetWdogctl q s
  | .setApertureEntry q => Sys2Proof.Machine.execSetApertureEntry q s
  | .sampling q => Sys2Proof.Machine.execSampling q s
  | .dispatchDecision part => Sys2Proof.Machine.execDispatchDecision part s
  | .crewEnd cr => Sys2Proof.Machine.execCrewEnd cr s
  | .eventRingReadIndex part ctx value => Sys2Proof.Machine.execEventRingReadIndex part ctx value s
  | .samplingRingReadIndex x value => Sys2Proof.Machine.execSamplingRingReadIndex x value s
  | .deadLetterTail die value => Sys2Proof.Machine.execDeadLetterTail die value s
  | .registerWriteOther off value => Sys2Proof.Machine.execRegisterWriteOther off value s
  | .hostBar2Access off a => Sys2Proof.Machine.execHostBar2Access off a s
  | .peerAccess x va a => Sys2Proof.Machine.execPeerAccess x va a s
  | .flitRetry port => Sys2Proof.Machine.execFlitRetry port s
  | .linkFailure port victims => Sys2Proof.Machine.execLinkFailure port victims s
  | .ptpMessage m => Sys2Proof.Machine.execPtpMessage m s
  | .pulsePerSecond => Sys2Proof.Machine.execPulsePerSecond  s
  | .offsetRemoval masterTick => Sys2Proof.Machine.execOffsetRemoval masterTick s
  | .offsetRemoved => Sys2Proof.Machine.execOffsetRemoved  s
  | .masterLoss => Sys2Proof.Machine.execMasterLoss  s
  | .holdoverExpiry => Sys2Proof.Machine.execHoldoverExpiry  s
  | .powerGood image record => Sys2Proof.Machine.execPowerGood image record s
  | .stageComplete => Sys2Proof.Machine.execStageComplete  s
  | .thermalLimit => Sys2Proof.Machine.execThermalLimit s
  | .thermalShutdown => Sys2Proof.Machine.execThermalShutdown s
  | .partitionFormation a => Sys2Proof.Machine.execPartitionFormation a s
  | .attestation nonce => Sys2Proof.Machine.execAttestation nonce s
  | .debuggerAttach x scope => Sys2Proof.Machine.execDebuggerAttach x scope s
  | .debugStop w => Sys2Proof.Machine.execDebugStop w s
  | .debugResume w => Sys2Proof.Machine.execDebugResume w s
  | .singleStep w => Sys2Proof.Machine.execSingleStep w s
  | .setBreakpoint x k pc => Sys2Proof.Machine.execSetBreakpoint x k pc s
  | .debugStateAccess w a => Sys2Proof.Machine.execDebugStateAccess w a s
  | .peerFault u addr => Sys2Proof.Machine.execPeerFault u addr s

end Sys2Proof.Machine
end

