-- ==== Sys2Proof/Machine/Schedule.lean ====
section
/-! DEFINITION. The round of a cycle: the order in which the engines and the quarters move when the agenda names no other
(01 R12, R14; log 1), and what is placed by hand to run one instruction. -/

namespace Sys2Proof.Machine

/-! ## Engines -/

/-- The first unit of a copy that a receiver has not counted. -/
def Receiver.nextUnit (r : Receiver) : Nat :=
  ((List.range (r.counted.length + 1)).find? fun u => !r.counted.contains u).getD 0

/-- The copies of a core: a unit of each receiver lands, and each of these units may fault. -/
def CoreState.copyMoves (core : Nat) (k : CoreState) : List Instr :=
  k.copies.zipIdx.reverse.flatMap fun c =>
    let due := c.1.receivers.zipIdx.filter fun r => !r.1.finished
    ((due.map fun r => r.1.nextUnit).eraseDups.map fun u => .copyUnitFault core c.2 u) ++
      due.map fun r => .copyUnitLanded core c.2 r.1.nextUnit r.2

/-- The engines of a core, its copies apart: matrix unit, tile path, spill engine. -/
def CoreState.moves (core : Nat) (k : CoreState) : List Instr :=
  (if k.matUnit.isSome then [.matrixOpCompletion core] else []) ++
    (if k.matQueue.isEmpty then [] else [.matrixUnitTake core]) ++
    (if k.tilePath.isEmpty then [] else [.tilePathCompletion core]) ++
    (k.spillBuf.zipIdx.map fun g => .spillWrite core g.2)

/-! ## Crews and warps -/

/-- Claims, queues and deadlocks of a crew, and its end. -/
def Crew.moves (c : Crew) : List Instr :=
  ((c.claims.zipIdx.filter fun l => !l.1.isEmpty).flatMap fun l =>
      [.claimServed c.ref l.2, .claimDeadlock c.ref l.2]) ++
    (c.queues.zipIdx.flatMap fun q =>
      (q.1.landing.zipIdx.reverse.map fun l => Instr.queueRowLands ⟨c.ref, q.2⟩ l.2) ++
        (if !q.1.headReady || q.1.staged then [] else [.queueHeadStaged ⟨c.ref, q.2⟩]) ++
        (if q.1.pending.isEmpty then [] else [.deliveryPendingSlot ⟨c.ref, q.2⟩])) ++
    (if c.allStuck then [.crewDeadlock c.ref] else []) ++
    (if c.warps.all (·.retired) then [.crewEnd c.ref] else [])

/-- Completions, and what ends a block or a count, of a warp. -/
def Warp.moves (r : WarpRef) (w : Warp) : List Instr :=
  if w.retired then (if w.compare.isSome then [.comparePoint r] else [])
  else
    (w.flights.zipIdx.reverse.flatMap fun f => [.registerWriteLands r f.2, .instructionCompletion r f.2]) ++
      (if w.graceSent || w.flights.any (fun f => match f.kind with
        | .grace _ => true
        | _ => false) then [.graceNumberReturned r] else []) ++
      (match w.block with
        | none => []
        | some (.move _ _) | some .flush => [.windowMoveDone r]
        | some (.wait _ _) => [.waitDeadline r]
        | some (.grace 0) => [.graceNumberReturned r]
        | some _ => []) ++
      (if w.watched then [.watchdog r] else []) ++
      (if w.compare.isSome || w.holdFull then [.comparePoint r] else []) ++
      (if w.stopped then [] else [.breakpointHit r])

def State.crewMoves (s : State) : List Instr :=
  (s.crews.filter (·.core.isSome)).flatMap fun c =>
    (c.warps.flatMap fun w => w.moves ⟨c.ref, w.num⟩) ++ c.moves

/-! ## Grace, command queues and sampling -/

/-- The cores' messages to a context's home and from it (R283 to R285). -/
def Context.moves (x : Context) : List Instr :=
  let g := x.grace
  (if g.depths.isEmpty then [] else [.depthChangeAtHome x.ref]) ++
    (if g.starts.isEmpty then [] else [.graceStartAtHome x.ref]) ++
    (g.copies.flatMap fun k =>
      (if k.cur == g.cur then [] else [.curReceived x.ref k.core]) ++
        (if k.acked == k.cur then [] else [.curAcknowledged x.ref k.core]) ++
        (if k.done == g.done then [] else [.doneReceived x.ref k.core])) ++
    (if g.frees.isEmpty then [] else [.graceDelivery x.ref])

/-- The event that takes the packet at the head of a queue, by its kind and its subkind; a packet without a legal kind is
refused by any of them. -/
def packetMove (r : QueueRef) (b : List Byte) : Instr :=
  let op := byteAt b 17
  match byteAt b 0 with
  | 2 => .waitOnValue r
  | 3 => .writeValue r
  | 4 => .copy r
  | 5 => match byteAt b 16 with
    | 2 => .destroyContext r
    | 3 => if op == 1 then .queueStop r false else if op == 2 then .queueRestart r none else .queueCreate r
    | 4 => .translationInvalidation r
    | 5 => if op == 1 then .resume r else .swapOut r
    | 6 => if op == 1 then .partitionRestore r else .partitionSave r
    | 7 => .setWdogctl r
    | 8 => .setApertureEntry r
    | 9 => .sampling r
    | _ => .createContext r
  | 6 => .faultAcknowledgement r
  | _ => .launch r

def State.queueMoves (s : State) (q : CmdQueue) : List Instr :=
  (if q.rereads == 0 then [] else [.packetReread q.ref]) ++
    (if q.waiting.isSome then [.waitOnValuePoll q.ref] else []) ++
    (if q.pending.isEmpty then [] else [.preemptionComplete q.ref]) ++
    (if s.mayRead q then [packetMove q.ref (q.fetched.getD (s.headBytes q))] else [])

/-- R380: the quarters of a core sample in a cycle in which the period of a context on it ends. -/
def State.sampleMoves (s : State) : List Instr :=
  let due (c : Crew) : Option Nat :=
    if (s.samplingOf c.ref.launch).any fun n => (s.clock.cycle + 1) % 2 ^ n == 0 then c.core else none
  (s.crews.filterMap due).eraseDups.flatMap fun k => [0, 1, 2, 3].map fun q => .pcSampling k q

/-! ## The order within a cycle -/

/-- The arrivals of the warps of quarter `q`. -/
def State.arrivalMoves (s : State) (q : Nat) : List Instr :=
  (s.crews.filter (·.core.isSome)).flatMap fun c =>
    (c.arrivals.filter fun a => ((c.warps[a.warp]?).map (·.quarter)).getD 0 == q).map fun a =>
      .arrivalApplied c.ref a.group a.bar a.warp

/-- Quarter `q` of each core that a crew stands on. -/
def State.quarterMoves (s : State) (q : Nat) : List Move :=
  ((List.range s.cores.length).filter fun k => s.crews.any (·.core == some k)).map fun k => .quarter k q

/-- The events of a cycle that come before its instructions: engines, crews, grace homes, the sorting office. -/
def State.roundEvents (s : State) : List Instr :=
  (s.cores.zipIdx.flatMap fun k => CoreState.moves k.2 k.1) ++ s.crewMoves ++
    (s.contexts.flatMap fun (x : Context) => x.moves) ++ (s.queues.flatMap s.queueMoves) ++
    (s.partitions.map fun (p : Partition) => Instr.dispatchDecision p.id) ++
    (if s.clock.removing && s.clock.hold == 0 then [Instr.offsetRemoved] else [])

/-- Everything that may move in a cycle: the events, the quarters in ascending order, each after the arrivals of its warps, the copy
engines' updates, and sampling (R267, R340). -/
def State.roundMoves (s : State) : List Move :=
  s.roundEvents.map Move.event ++
    ([0, 1, 2, 3].flatMap fun q => (s.arrivalMoves q).map Move.event ++ s.quarterMoves q) ++
    (s.cores.zipIdx.flatMap fun k => (CoreState.copyMoves k.2 k.1).map Move.event) ++ s.sampleMoves.map Move.event

/-- Where a move stands in its cycle: each core it touches, the latest place after which it may still come, and the place it leaves. A quarter
takes one turn, before those of higher number; arrivals go with the quarter of their warp, then the copy engine's updates, then
sampling. Other events have no place. -/
def State.placeIn (s : State) (m : Move) : List (Nat × Nat × Nat) :=
  match m with
  | .quarter core q => [(core, 2 * q, 2 * q + 1)]
  | .event (.arrivalApplied cr _ _ w) =>
    (((s.crew? cr).bind fun c => c.core.map fun core =>
      let q := ((c.warps[w]?).map (·.quarter)).getD 0
      (core, 2 * q + 1, 2 * q))).toList
  | .event (.copyUnitLanded core copy u r) =>
    match (s.coreAt core).copies[copy]?, ((s.coreAt core).copies[copy]?).bind fun c => c.receivers[r]? with
    | some c, some x =>
      let target := ((s.crew? x.crew).bind (·.core)).getD core
      let last := (List.range c.units).all fun v => v == u || x.counted.contains v
      (target, 8, 8) :: if c.multicasts && last && target != core then [(core, 8, 8)] else []
    | _, _ => [(core, 8, 8)]
  | .event (.pcSampling core _) => [(core, 9, 9)]
  | .event _ => []

/-- R267, R340: a move that comes too late in a cycle of its core takes place in the next one. -/
def State.inPlace (s : State) (m : Move) : State :=
  let places := s.placeIn m
  let late := places.any fun p => (s.coreAt p.1).stamp == s.clock.cycle && p.2.1 < (s.coreAt p.1).place
  places.foldl (fun s p => s.modCore p.1 fun k =>
      { k with stamp := s.clock.cycle, place := max (if k.stamp == s.clock.cycle then k.place else 0) p.2.2 })
    (if late then s.settleEnds.elapse 1 else s)

/-- The round of one cycle: the cycle passes before its first move. -/
def State.roundTurns (s : State) : List Turn :=
  match s.roundMoves with
  | [] => []
  | m :: ms => ⟨1, m⟩ :: ms.map (Turn.mk 0)

/-- What stands on the agenda, or the round when nothing does (log 1). -/
def State.planned (s : State) : List Turn := if s.agenda.isEmpty then s.roundTurns else s.agenda

/-- What is planned next belongs to another cycle. -/
def State.cycleOver (s : State) : Bool := s.agenda.head?.all fun t => t.cycles != 0

/-- What every move ends with: the last of a cycle ends the launches that a cause reached in it (R449), the waits look at what
changed (R277), and the open values of the next move are fresh (log 8). -/
def State.afterMove (s : State) : State :=
  let s := if s.cycleOver then s.settleEnds else s
  { s.settleWaits with fresh := s.fresh + 1 }

/-- A move under `exec`. -/
def State.runMove (exec : Instr → State → Host.Outcome State Fault Refusal) (s : State) (m : Move) :
    Host.Outcome State Fault Refusal :=
  let s : State := { s with turn := none }
  match m with
  | .event i => exec i s
  | .quarter core q => State.runQuarter exec core q 16 [] s

/-- One step: the next move of what is planned, after the cycles that precede it and in its place in the cycle; with nothing planned,
a cycle passes. -/
def State.advance (exec : Instr → State → Host.Outcome State Fault Refusal) (s : State) :
    Host.Outcome State Fault Refusal :=
  match s.planned with
  | [] => .next (s.elapse 1)
  | t :: ts =>
    match ({ s with agenda := ts } : State).elapse t.cycles |>.inPlace t.move |>.runMove exec t.move with
    | .next u => .next u.afterMove
    | o => o

/-! ## One instruction placed by hand -/

def benchCrew : CrewRef := ⟨1, 0, false⟩

/-- A page table whose one leaf maps the first gigabyte of the address space onto the first of the memory (R220 to R222). -/
def benchTable (m : List Host.Cell) : List Host.Cell :=
  Memory.writeN (Memory.writeN m 0x4000 (leBytes 16 0x8001)) 0x8000 (leBytes 16 3)

def benchContext : Context where
  ref := ⟨0, 0⟩
  root := 0x4000
  replayOn := false
  wdogctl := 0
  diagBase := 0x10000
  diagNext := 0
  diags := []
  ring := newRing 0x110000 64
  sampleRing := none
  pool := 0
  poolSize := 0
  poolUsed := 0
  apTable := 0
  apertures := []
  faultCount := 0
  outstanding := []
  sampling := none
  grace := Grace.new (List.range 48)
  debugger := none
  breakpoints := []
  tlb := []

def benchTemplate (triple : Bool) : Template where
  codeBase := 0x20000
  codeSize := 16
  triple
  scratch := 4096
  tiles := 8
  accs := 4
  budget := [256, 0, 0, 0]
  warps := [⟨0, 192, 0⟩]
  groups := [⟨1, 0, 4096, 4, none, 0xFF, 0xF⟩]
  queues := []

def benchLaunch (triple : Bool) (image : List Host.Cell) : Launch where
  id := 1
  queue := ⟨0, 1⟩
  ctx := ⟨0, 0⟩
  seq := 0
  tag := 0
  compl := false
  tmpl := benchTemplate triple
  image
  badCode := []
  count := 1
  next := 1
  ended := 0
  replay := false
  paired := false
  coloc := false
  race := false
  aff := none
  replayLimit := 0
  replays := 0
  unreplayable := false
  confirmed := false
  rndkey := 0
  args := List.replicate 8 0
  spillBase := 0x300000
  spillW := 51200
  spillSlots := 1
  hold := []
  snapshots := []
  laneFaults := []
  races := 0
  sigs := []
  done := none
  fallen := none
  ending := none

def benchPartition : Partition where
  id := 0
  dies := [0]
  ring := newRing 0x210000 64
  rotation := 0
  decisions := 0
  level := 0
  slots := []
  saved := []
  resumes := []

/-- The state `s` with one crew of one warp whose next instruction is the word with these bytes, and its quarter's turn
next; launches, crews and agenda of `s` make room for them. -/
def State.bench (s : State) (triple : Bool) (bytes : List Byte) : State :=
  let l := benchLaunch triple (Memory.writeN [] 0 bytes)
  { s with
    mem := benchTable s.mem
    partitions := [benchPartition]
    contexts := [benchContext]
    launches := [l]
    crews := [newCrew l benchCrew 0 0 [0]]
    nextLaunch := 2
    turn := none
    agenda := [⟨0, .quarter 0 0⟩] }

/-- The bytes of a word as the opcode table numbers its bits, as the hardware stores them (R38). -/
def tableBytes (nbits w : Nat) : List Byte := bytesOfWord (BitVec.ofNat 96 (w % 2 ^ nbits))

/-- Words that only triple mode has (R64). -/
def tableTriple (nbits w : Nat) : Bool :=
  match decodeBytes false (tableBytes nbits w) with
  | .error .mode => true
  | _ => false

end Sys2Proof.Machine
end

