-- ==== Sys2Proof/Machine/Step.lean ====
section
/-! DEFINITION. One step: the next move of the agenda, or of the cycle's round (01 R12, R14; log 1). -/

namespace Sys2Proof.Machine

def step (s : State) : Host.Outcome State Fault Refusal := s.advance exec

/-- `s` with the word's bytes where the next step fetches its instruction. -/
def State.withFetchWord (s : State) (nbits w : Nat) : State := s.bench (tableTriple nbits w) (tableBytes nbits w)

end Sys2Proof.Machine
end

