-- ==== Sys2Proof/Safety.lean ====
section
/-! DEFINITION. The terms in which claims speak: the registers of a warp, when an instruction reaches its effect, what
its issue leaves behind, and the invariants of the machine. -/

namespace Sys2Proof.Machine

/-! ## The registers of a warp -/

/-- A warp without its splits, its flags and flights, its counts and what blocks it: who it is, its window, its lane,
scalar, predicate and index registers, its bindings, its section, and its control registers (R25, R26, R364). -/
structure Bank where
  num : Nat
  quarter : Nat
  slot : Nat
  prio : Nat
  bot : Nat
  ring : Nat
  high : Nat
  rows : List Row
  poison : List (Nat × Nat)
  scalars : List Word
  scalarPoison : List Nat
  preds : List Mask
  xregs : List (List Byte)
  xlim : List Byte
  bindings : List (Option Binding)
  groups : List Nat
  depth : Nat
  tag : DWord
  numctl : Word
  numstat : Word
  fpctl : Word
  reach : Nat
  woc : BitVec 3
  rej : Bool
  spillBase : DWord
  spillLim : Nat
  laneFault : DWord
  trapBase : Word
  trapCause : Word
  trapPc : Word
  opcount : List (BitVec 48)
  age : Nat
  stopped : Bool
  stepping : Bool
  retired : Bool
  lfMask : Mask
  lfCause : BitVec 3
  sig : DWord
  stores : Nat
  deriving DecidableEq, Repr

def Warp.bank (w : Warp) : Bank where
  num := w.num
  quarter := w.quarter
  slot := w.slot
  prio := w.prio
  bot := w.bot
  ring := w.ring
  high := w.high
  rows := w.rows
  poison := w.poison
  scalars := w.scalars
  scalarPoison := w.scalarPoison
  preds := w.preds
  xregs := w.xregs
  xlim := w.xlim
  bindings := w.bindings
  groups := w.groups
  depth := w.depth
  tag := w.tag
  numctl := w.numctl
  numstat := w.numstat
  fpctl := w.fpctl
  reach := w.reach
  woc := w.woc
  rej := w.rej
  spillBase := w.spillBase
  spillLim := w.spillLim
  laneFault := w.laneFault
  trapBase := w.trapBase
  trapCause := w.trapCause
  trapPc := w.trapPc
  opcount := w.opcount
  age := w.age
  stopped := w.stopped
  stepping := w.stepping
  retired := w.retired
  lfMask := w.lfMask
  lfCause := w.lfCause
  sig := w.sig
  stores := w.stores

/-! ## When an instruction reaches its effect -/

/-- Nothing holds the attempt back before its effect: the rows it names stand in the band and its index registers are
in range (R174, R188), a lane is active (R65), its queue operands can be transferred (R201), no consumed word is
poisoned (R80), no store of its own stands before a release (R342), it owes no trap (R268), the warp has an issuing split and
no debugger steps it (R379). -/
def Cx.clear (x : Cx) : Bool :=
  (match x.rowCheck x.named x.act with
    | .ok => true
    | _ => false) &&
  x.act != 0 &&
  (match x.queueTest (transfersOf x.i) with
    | .go => true
    | _ => false) &&
  !x.taking.poisonedSource && !x.taking.storesFirst && x.w.owed.isNone &&
  (x.w.splitAt x.w.cur).isSome && !x.w.stepping

/-- The attempt with the rows that its queue operands supply, if it reaches its effect: a warp is at its turn, its guard
is resolved without a trap (R136), and the attempt is clear. -/
def State.ready (s : State) (i : Instr) : Option Cx :=
  match s.begin i with
  | .go x => if x.clear then some x.taking else none
  | _ => none

/-- What an instruction leaves: the state `e` of its effect with its warp as `w`, the rows it pops gone from their
queues and the row it pushes on its way (R203), to land with the flight `k` where the instruction is in flight (R44, R123);
a row that the grace unit delivered is an acquire (R209). The turn is over. -/
def Cx.leaves (x : Cx) (e : State) (w : Warp) (pops : List Nat) (push : Option Push) (k : Option Nat) : State :=
  x.popAcquires ((({ e with turn := none } : State).modWarp x.ref fun _ => w).modCrew x.ref.crew
    (·.transfer x.ref.warp (x.pops.map (·.queue) ++ pops) (push.bind fun p => (x.bound p.name).map fun y => (y.1.queue, p)) k))
    (x.pops.map (·.queue) ++ pops)

/-- The warp with its issuing split moved on to the next instruction (R151). -/
def Cx.next (x : Cx) (w : Warp) : Warp := w.modSplit w.cur fun s => { s with pc := x.sp.pc + 1 }

/-- Lane `l` of a warp stands at `pc` with window base `base`, in a split or on a parked path (R24, R149). -/
def Warp.stands (w : Warp) (l : Nat) (pc : Word) (base : Nat) : Prop :=
  ∃ n s, w.splitAt n = some s ∧
    ((s.mask.getLsbD l = true ∧ s.pc = pc ∧ s.base = base) ∨
      ∃ e ∈ s.layby, e.mask.getLsbD l = true ∧ e.pc = pc ∧ e.base = base)

/-- Two warps have their lanes at the same places, however their splits are merged (R151). -/
def Warp.samePlaces (w v : Warp) : Prop := ∀ l pc base, w.stands l pc base ↔ v.stands l pc base

/-- The `FPCTL` flags that the instructions in flight set as they complete, oldest first (R110, R123). -/
def Warp.raising (w : Warp) : List Word := w.flights.filterMap (·.raise)

/-- The flights of a warp are `v`'s with the one numbered `k` after them, if the instruction went into flight (R44). -/
def Warp.flies (v w : Warp) (k : Option Nat) : Prop :=
  match k with
  | none => w.flights = v.flights
  | some k => ∃ f, w.flights = v.flights ++ [f] ∧ f.id = k

/-- `w` is what the issue of `i` leaves of a warp that its effect made `v`: the same registers, lanes at the same places,
the stall of R43, one more on its flag when it is counted there (R44), and the `FPCTL` flags that its completion will set. -/
def Warp.issuedAs (v : Warp) (i : Instr) (flagged : Bool) (w : Warp) (raise : Option Word := none) : Prop :=
  w.bank = v.bank ∧ w.vacant = v.vacant ∧ w.stall = i.ctl.stall.toNat + 1 ∧
    w.flags = (if flagged then (v.modFlag i.ctl.setf.toNat (· + 1)).flags else v.flags) ∧
    w.raising = v.raising ++ raise.toList ∧ w.samePlaces v

/-- Instruction `i` completes its issue in `s`: a next state that differs from the effect `e` in the issuing warp, which its
effect made `v`, and in the queues that it pops and pushes; the row it pushes lands with its own flight. -/
def State.issues (s : State) (i : Instr) (x : Cx) (e : State) (v : Warp) (flagged : Bool) (pops : List Nat)
    (push : Option Push) (raise : Option Word := none) : Prop :=
  ∃ w k, exec i s = .next (x.leaves e w pops push k) ∧ v.issuedAs i flagged w raise ∧ v.flies w k

/-- Lane `l` of a warp stands there outside the mask of its issuing split: in another split or parked (R149). -/
def Warp.elsewhere (w : Warp) (l : Nat) (pc : Word) (base : Nat) : Prop :=
  (∃ n s, n ≠ w.cur ∧ w.splitAt n = some s ∧ s.mask.getLsbD l = true ∧ s.pc = pc ∧ s.base = base) ∨
    ∃ n s, w.splitAt n = some s ∧ ∃ e ∈ s.layby, e.mask.getLsbD l = true ∧ e.pc = pc ∧ e.base = base

/-- Instruction `i` issues with effect `e` and sends each lane `l` of its split to `dest l`, PC and window base; every other lane
stays, and the warp is otherwise `w` (R150, R151). -/
def State.sends (s : State) (i : Instr) (x : Cx) (e : State) (w : Warp) (dest : Nat → Word × Nat) : Prop :=
  ∃ v, s.issues i x e v false [] none ∧ v.bank = w.bank ∧ v.flags = w.flags ∧ v.vacant = w.vacant ∧
    ∀ l pc base, v.stands l pc base ↔ (x.sp.mask.getLsbD l = true ∧ dest l = (pc, base)) ∨ x.w.elsewhere l pc base

/-- The warp after the lanes of `m` have left its issuing split, if there are any (R163, R228). -/
def Warp.without (w : Warp) (m : Mask) : Warp := if m = 0 then w else w.dropLanes m

/-- Instruction `i` completes its issue as in `State.issues`, and the lanes of `off` become vacant; a warp whose last lane
leaves retires (R148, R163, R228). -/
def State.issuesOff (s : State) (i : Instr) (x : Cx) (e : State) (w : Warp) (off : Mask) (flagged : Bool) (pops : List Nat)
    (push : Option Push) : Prop :=
  ∃ u k, (w.without off).issuedAs i flagged u ∧ (w.without off).flies u k ∧
    exec i s = .next (if (w.without off).finished then (x.leaves e u pops push k).retireWarp x.ref else x.leaves e u pops push k)

/-- The split in the lanes that leave holds nothing back: what resumes in its place stands in the window (R173). -/
def Cx.mayDrop (x : Cx) (off : Mask) : Prop := off = 0 ∨ x.dropCheck off = .ok

/-- The row a lane result pushes when its destination is a queue (R55, R203). -/
def Cx.pushed (x : Cx) (dst : Spec) (row : Row) : Option Push :=
  match dst with
  | .q n => some ⟨n.val, row, x.act, 0⟩
  | _ => none

/-- Nothing holds back a source whose lanes the instruction chooses: its rows stand in the band, its index registers are in
range, and no word is poisoned (R80, R174, R188). -/
def Cx.crossClear (x : Cx) (a : Spec) (m : Mask) : Bool :=
  (match x.rowCheck [⟨a, 1⟩] m with
    | .ok => true
    | _ => false) && x.srcBad ⟨a, 1⟩ &&& m == 0

/-- The machine without what its data caches and translation caches hold (R224, R233). -/
def State.uncached (s : State) : State :=
  { s with
    cores := s.cores.map fun k => { k with l1 := [] }
    dies := s.dies.map fun d => { d with rdc := [] }
    contexts := s.contexts.map fun c => { c with tlb := [] } }

/-- The warp with the rows of a load or an atomic in the registers of `dst`, in the lanes of `m` (R55, R56, R79). -/
def Cx.landed (x : Cx) (w : Warp) (dst : Spec) (m : Mask) (rows : List (Row × Mask)) : Warp :=
  match dst with
  | .q _ => w
  | dst => (List.range rows.length).foldl (fun w k => x.writeWide w dst k m (rows.getD k ([], 0)).1 (rows.getD k ([], 0)).2) w

/-- The row that a load or an atomic pushes when its destination is a queue (R203). -/
def pushedRow (dst : Spec) (m : Mask) (rows : List (Row × Mask)) : Option Push :=
  match dst with
  | .q n => some ⟨n.val, (rows.getD 0 ([], 0)).1, m, (rows.getD 0 ([], 0)).2⟩
  | _ => none

/-- Instruction `i` completes with the rows of a load or an atomic: in its registers, or pushed (R55, R79, R203). `m` are the
lanes that complete; those of `off` leave (R228). -/
def State.delivers (s : State) (i : Instr) (x : Cx) (e : State) (w : Warp) (dst : Spec) (m : Mask) (rows : List (Row × Mask))
    (off : Mask) : Prop :=
  s.issuesOff i x e (x.next (x.landed w dst m rows)) off true [] (pushedRow dst m rows)

/-- `y` is the attempt `x` after the window move to `b` that it waited for: over the moved band, with the guard's record kept (R136,
R173, R175). -/
def Cx.overMoved (x : Cx) (b ring : Nat) (y : Cx) : Prop :=
  x.w.moved = some b ∧ ∃ t c m, x.s.moveBand x.ref b ring = .ok t ∧ t.crew? x.ref.crew = some c ∧ t.warp? x.ref = some m ∧
    y = { x with s := t, c := c, w := { m with numstat := x.w.numstat } }

/-- The effect `e` of the attempt `x` over the band moved to `b`, the move that its warp waited for (R173, R175). -/
def Cx.movedTo (x : Cx) (b : Nat) (e t : State) : Prop :=
  x.w.moved = some b ∧ (∃ u, x.s.moveBand x.ref b x.w.ring = .ok u) ∧ e.moveBand x.ref b x.w.ring = .ok t

/-- A byte address outside `n` bytes at `a`. -/
def outside (b a n : Nat) : Prop := b < a ∨ a + n ≤ b

/-! ## Events -/

/-- Event `i` changes the warp `r` alone, which is `w` and becomes one with `p`. -/
def State.warpBecomes (s : State) (i : Instr) (r : WarpRef) (w : Warp) (p : Warp → Prop) : Prop :=
  ∃ f : Warp → Warp, exec i s = .next (s.modWarp r f) ∧ p (f w)

/-- Event `i` changes the crew `r` alone, which is `c` and becomes one with `p`; the registers of its warps stay. -/
def State.crewBecomes (s : State) (i : Instr) (r : CrewRef) (c : Crew) (p : Crew → Prop) : Prop :=
  ∃ f : Crew → Crew, exec i s = .next (s.modCrew r f) ∧ (f c).warps.map (·.bank) = c.warps.map (·.bank) ∧ p (f c)

/-- Event `i` ends the launch numbered `id` with a status of R449, or with that of another cause of the same cycle that stands
before it. -/
def State.launchEnds (s : State) (i : Instr) (id status : Nat) : Prop :=
  ∃ t l, exec i s = .next t ∧ t.launch? id = some l ∧ l.status = some (s.endsAs id status)

/-! ## Invariants -/

/-- Every sparse byte store of the machine is in its canonical form. -/
def State.memOk (s : State) : Prop := Memory.wf s.mem = true

/-- R148: the masks of a warp's lanes: the vacant ones, those of its splits, and those of their lay-by entries. -/
def Warp.masks (w : Warp) : List Mask :=
  w.vacant :: w.splits.flatMap fun s => match s with
    | some s => s.mask :: s.layby.map (·.mask)
    | none => []

/-- R24, R148, R171: a warp has four split slots, each of its 48 lanes is in exactly one of its masks, and while a split remains the
windows of its splits lie within its ring. -/
def Warp.tabled (w : Warp) : Prop :=
  w.splits.length = 4 ∧ (∀ l, l < 48 → w.masks.countP (·.getLsbD l) = 1) ∧
    (w.finished = true ∨ spanOk w.ring w.reach w.lo w.hi = true)

/-- The split tables of the machine's warps, on its cores, swapped out, or in the image of a context (R372). -/
def State.tablesOk (s : State) : Prop :=
  (∀ c ∈ s.crews, ∀ w ∈ c.warps, w.tabled) ∧ ∀ p ∈ s.partitions, ∀ v ∈ p.saved, ∀ c ∈ v.crews, ∀ w ∈ c.warps, w.tabled

/-- The cores and dies of the device (R13). -/
def State.shapeOk (s : State) : Prop := s.cores.length = 192 ∧ s.dies.length = 4

end Sys2Proof.Machine
end

