-- ==== Sys2Proof/Certificates/Slice0/Obligations.lean ====
section
/-! DEFINITION. The statements of this row. The tables in `Sys2Proof.Claims` say, instruction by instruction, the value that
the spec gives; an obligation says that `exec` leaves it, and nothing else changed. -/

namespace Sys2Proof.Claims

open Sys2Proof.Machine

/-! ## Lane results -/

/-- One word per lane from one source. -/
def map1 (x : Cx) (a : Spec) (f : Word → Word) : Row := (x.src a).map f

/-- One word per lane from two sources, the second an immediate under IB. -/
def map2 (x : Cx) (a : Spec) (b : Src2) (f : Word → Word → Word) : Row := List.zipWith f (x.src a) (x.src2 b)

/-- R85 to R88, R91: the destination of an integer lane instruction and the row it computes. -/
def integerRow (x : Cx) : Instr → Option (Spec × Row)
  | .iadd _ a => some (a.dst, map2 x a.a a.b fun p q =>
      if a.sat then satWord a.ty (wordVal a.ty p + wordVal a.ty q) else p + q)
  | .isub _ a => some (a.dst, map2 x a.a a.b fun p q =>
      if a.sat then satWord a.ty (wordVal a.ty p - wordVal a.ty q) else p - q)
  | .imul _ a => some (a.dst, map2 x a.a a.b fun p q => p * q)
  | .imulh _ a => some (a.dst, map2 x a.a a.b fun p q => BitVec.ofInt 32 (wordVal a.ty p * wordVal a.ty q / 2 ^ 32))
  | .imad _ a => some (a.dst, List.zipWith (fun pq r =>
      if a.sat then satWord a.ty (wordVal a.ty pq.1 * wordVal a.ty pq.2 + wordVal a.ty r) else pq.1 * pq.2 + r)
      (List.zip (x.src a.a) (x.src2 a.b)) (x.src a.c))
  | .imin _ a => some (a.dst, map2 x a.a a.b fun p q => if wordVal a.ty q < wordVal a.ty p then q else p)
  | .imax _ a => some (a.dst, map2 x a.a a.b fun p q => if wordVal a.ty p < wordVal a.ty q then q else p)
  | .iabs _ a => some (a.dst, map1 x a.a fun p =>
      if 0 ≤ p.toInt then p else if a.sat && p == 0x8000_0000 then 0x7FFF_FFFF else -p)
  | .and _ a => some (a.dst, map2 x a.a a.b fun p q => p &&& q)
  | .or _ a => some (a.dst, map2 x a.a a.b fun p q => p ||| q)
  | .xor _ a => some (a.dst, map2 x a.a a.b fun p q => p ^^^ q)
  | .andn _ a => some (a.dst, map2 x a.a a.b fun p q => p &&& ~~~q)
  | .shl _ a => some (a.dst, map2 x a.a a.b fun p q => p <<< q.toNat)
  | .shr _ a => some (a.dst, map2 x a.a a.b fun p q => p >>> q.toNat)
  | .sar _ a => some (a.dst, map2 x a.a a.b fun p q => p.sshiftRight q.toNat)
  | .rot _ a => some (a.dst, map2 x a.a a.b fun p q => p.rotateLeft (q.toNat % 32))
  | .popc _ a => some (a.dst, map1 x a.a fun p => BitVec.ofNat 32 ((List.range 32).countP fun k => p.getLsbD k))
  | .clz _ a => some (a.dst, map1 x a.a clzWord)
  | .bfx _ a => some (a.dst, map1 x a.a (bfxWord a.ty a.pos a.wid))
  | .bfi _ a => some (a.dst, List.zipWith (bfiWord a.pos a.wid) (x.src a.a) (x.src a.b))
  | .sel _ a => some (a.dst, laneList.map fun l =>
      if (x.predMask a.p).getLsbD l then wordAt (x.src a.a) l else wordAt (x.src2 a.b) l)
  | .mov _ dst a => some (dst, x.src a)
  | .movi _ dst imm => some (dst, laneList.map fun _ => imm)
  | .sxt _ a => some (a.dst, map1 x a.a (sxtWord a.ty))
  | _ => none

/-- R139 to R146, 05: the warp before the write, the destination and the row of a sibling instruction with a 32-bit
result. -/
def siblingRow (x : Cx) : Instr → Option (Warp × Spec × Row)
  | .digits _ a => some (x.w, a.dst, (x.measure a.ty a.a digits3).map (BitVec.ofNat 32))
  | .smean _ a => some (x.w, a.dst, (x.measure a.ty a.a mean3).map (BitVec.ofNat 32))
  | .sibget _ dst a k => some (x.w, dst, laneList.map fun l => wordAt (x.src a) (3 * (l / 3) + k.toNat))
  | .rand _ ty same w64 dst =>
    let g (l : Nat) : DWord :=
      genWord x.l.rndkey x.ref.crew.crew x.ref.warp x.triple same 1 l (x.w.opcount.getD l 0).toNat
    if w64 then none
    else some (x.w.advance x.act 1, dst, laneList.map fun l =>
      if ty == .f32 then BitVec.ofNat 32 (roundNear .fp32 (.ofDy ⟨((g l).toNat >>> 40 : Nat), -24⟩ false))
      else (g l).extractLsb' 32 32)
  | .mdpack _ a =>
    let f := fmtOf a.ty
    if f.width == 32 then none
    else some (x.w, a.dst, laneList.map fun l =>
      let p := if x.act.getLsbD l then x.pair f (x.src a.a) l else (0, 0)
      BitVec.ofNat 32 (p.2 * 65536 + p.1))
  | .mdunpack _ a =>
    let f := fmtOf a.ty
    some (x.w, a.dst, laneList.map fun l =>
      let w := if f.width == 32 then (wordAt (x.srcWide a.a 0) l).toNat else (wordAt (x.src a.a) l).toNat
      let b := if f.width == 32 then (wordAt (x.srcWide a.a 1) l).toNat % 256 else w / 65536 % 256
      BitVec.ofNat 32 (recon f (w % 2 ^ f.width) (min b f.p) (if x.triple then l % 3 else 1)))
  | _ => none

/-- Results of 64 bits per lane: the warp before the write, the destination and its two rows (R56, R90, R128, R131,
R146). -/
def wideRows (x : Cx) : Instr → Option (Warp × Spec × Row × Row)
  | .lea _ a =>
    let sum (l : Nat) : DWord :=
      (wordAt (x.srcWide a.a 1) l ++ wordAt (x.srcWide a.a 0) l) +
        ((if a.ty == .n32 then (wordAt (x.src a.b) l).setWidth 64 else (wordAt (x.src a.b) l).signExtend 64) <<< a.sc.toNat) +
        a.imm.signExtend 64
    some (x.w, a.dst, laneList.map fun l => (sum l).extractLsb' 0 32, laneList.map fun l => (sum l).extractLsb' 32 32)
  | .rand _ _ same true dst =>
    let g (l : Nat) : DWord :=
      genWord x.l.rndkey x.ref.crew.crew x.ref.warp x.triple same 1 l (x.w.opcount.getD l 0).toNat
    some (x.w.advance x.act 1, dst, laneList.map fun l => (g l).extractLsb' 0 32, laneList.map fun l => (g l).extractLsb' 32 32)
  | .mdpack _ a =>
    let f := fmtOf a.ty
    let p (l : Nat) : Nat × Nat := if x.act.getLsbD l then x.pair f (x.src a.a) l else (0, 0)
    if f.width == 32 then
      some (x.w, a.dst, laneList.map fun l => BitVec.ofNat 32 (p l).1, laneList.map fun l => BitVec.ofNat 32 (p l).2)
    else none
  | .ctlrd _ dst creg =>
    let v (l : Nat) : DWord := (x.w.opcount.getD l 0).setWidth 64
    if creg == 0x04 then
      some (x.w, dst, laneList.map fun l => (v l).extractLsb' 0 32, laneList.map fun l => (v l).extractLsb' 32 32)
    else none
  | _ => none

/-! ## Predicates -/

/-- R94, R99, R144, R145: the predicate an instruction writes and its value in the active lanes. -/
def predicateOf (x : Cx) : Instr → Option (BitVec 3 × Mask)
  | .scmp _ a =>
    let v := if a.w64 then ccHolds a.cc (pairVal a.ty (x.scal64 a.a)) (pairVal a.ty (x.scal64₂ a.b))
      else ccHolds a.cc (wordVal a.ty (x.scal a.a)) (wordVal a.ty (x.scal2 a.b))
    some (a.p, if v then x.act else 0)
  | .voteAny _ p q => some (p, if (x.votes q).any (·.2) then x.act else 0)
  | .voteAll _ p q => some (p, if (x.votes q).all (·.2) then x.act else 0)
  | .sibagree _ ty p a => some (p, maskOf fun l => sibsAgree ty (x.three (x.src a) l))
  | .nchk _ ty p a n => some (p, maskOf fun l => decide (((x.measure ty a digits3).getD l 0 : Int) < (x.scal2 n).toInt))
  | _ => none

/-- R89, R116: a comparison under the CMPDIS cause: its predicate, its result per lane, and the flags that its completion
sets: NV or none. -/
def comparison (x : Cx) : Instr → Option (BitVec 3 × Mask × Option Word)
  | .icmp _ a => some (a.p, maskOf fun l =>
      (List.zipWith (fun p q => ccHolds a.cc (wordVal a.ty p) (wordVal a.ty q)) (x.src a.a) (x.src2 a.b)).getD l false, none)
  | .fcmp _ a =>
    let v (r : Spec) (l : Nat) : FVal := operandVal (fmtOf a.ty) false 0 (wordAt (x.src r) l)
    some (a.p, maskOf fun l => x.act.getLsbD l && fccHolds a.cc (v a.a l) (v a.b l),
      some (if laneList.any fun l => x.act.getLsbD l && fccInvalid a.cc (v a.a l) (v a.b l) then 0x10 else 0))
  | _ => none

/-! ## Scalars -/

/-- R92, R93: 32-bit scalar results. -/
def scalarOf (x : Cx) : Instr → Option (Spec × Word)
  | .sadd _ a => if a.w64 then none else some (a.dst, x.scal a.a + x.scal2 a.b)
  | .ssub _ a => if a.w64 then none else some (a.dst, x.scal a.a - x.scal2 a.b)
  | .smul _ a => if a.w64 then none else some (a.dst, x.scal a.a * x.scal2 a.b)
  | .sand _ a => if a.w64 then none else some (a.dst, x.scal a.a &&& x.scal2 a.b)
  | .sor _ a => if a.w64 then none else some (a.dst, x.scal a.a ||| x.scal2 a.b)
  | .sxor _ a => if a.w64 then none else some (a.dst, x.scal a.a ^^^ x.scal2 a.b)
  | .sshl _ a => if a.w64 then none else some (a.dst, x.scal a.a <<< (x.scal2 a.b).toNat)
  | .sshr _ a =>
    if a.w64 then none
    else some (a.dst, if a.ty == .i32 then (x.scal a.a).sshiftRight (x.scal2 a.b).toNat
      else x.scal a.a >>> (x.scal2 a.b).toNat)
  | .smov _ a => if a.w64 then none else some (a.dst, x.scal a.a)
  | .smovi _ dst imm => some (dst, imm)
  | _ => none

/-- R92, R95: 64-bit scalar results. -/
def scalarPairOf (x : Cx) : Instr → Option (Spec × DWord)
  | .sadd _ a => if a.w64 then some (a.dst, x.scal64 a.a + x.scal64₂ a.b) else none
  | .ssub _ a => if a.w64 then some (a.dst, x.scal64 a.a - x.scal64₂ a.b) else none
  | .smul _ a => if a.w64 then some (a.dst, x.scal64 a.a * x.scal64₂ a.b) else none
  | .sand _ a => if a.w64 then some (a.dst, x.scal64 a.a &&& x.scal64₂ a.b) else none
  | .sor _ a => if a.w64 then some (a.dst, x.scal64 a.a ||| x.scal64₂ a.b) else none
  | .sxor _ a => if a.w64 then some (a.dst, x.scal64 a.a ^^^ x.scal64₂ a.b) else none
  | .sshl _ a => if a.w64 then some (a.dst, x.scal64 a.a <<< (x.scal2 a.b).toNat) else none
  | .sshr _ a =>
    if a.w64 then some (a.dst, if a.ty == .i32 then (x.scal64 a.a).sshiftRight (x.scal2 a.b).toNat
      else x.scal64 a.a >>> (x.scal2 a.b).toNat)
    else none
  | .smov _ a => if a.w64 then some (a.dst, x.scal64 a.a) else none
  | .slea _ a => some (a.dst, x.scal64 a.a +
      ((if a.ty == .n32 then (x.scal a.b).setWidth 64 else (x.scal a.b).signExtend 64) <<< a.sc.toNat) + a.imm.signExtend 64)
  | _ => none

/-- A warp of the crew is blocked on queues (R202, R217). -/
def waits (x : Cx) (warp : Nat) : Bool := (x.c.warps[warp]?).any fun w =>
  match w.block with
  | some (.queue _ _) => true
  | _ => false

/-- R191, R217, R295, R364: 32-bit scalars that tell of the machine. -/
def readingOf (x : Cx) : Instr → Option (Spec × Word)
  | .rpool _ dst sel =>
    let q := x.w.quarter
    let blocked := (x.c.claims.getD q []).filter fun k => !k.served
    some (dst, BitVec.ofNat 32 (
      if sel == 0 then x.c.reserve.getD q 0 else if sel == 1 then x.w.ring else if sel == 2 then x.c.budget.getD q 0
      else if sel == 3 then (blocked.map (·.rows)).sum else blocked.length))
  | .wdepth _ dst sel =>
    some (dst, BitVec.ofNat 32 (
      if sel == 0 then x.sp.base else if sel == 1 then x.w.bot else if sel == 2 then x.w.high
      else if sel == 3 then x.w.lo else x.w.hi))
  | .qstat _ dst q sel =>
    (x.bound q.toNat).map fun y =>
      let k := y.2
      (dst,
        if sel == 0 then BitVec.ofNat 32 (k.readyRows.filter fun r => (k.holder r).isNone).length
        else if sel == 1 then BitVec.ofNat 32 k.cap
        else if sel == 2 then k.state.setWidth 32 else if sel == 3 then BitVec.ofNat 32 k.prod
        else if sel == 4 then k.pushed else if sel == 5 then k.popped
        else if sel == 6 then BitVec.ofNat 32 (k.poppers.filter fun p => waits x p.warp).length
        else BitVec.ofNat 32 (k.pushers.filter fun p => waits x p.warp).length)
  | .gstat _ dst sel =>
    if sel == 2 then some (dst, BitVec.ofNat 32 x.w.depth)
    else if sel == 0 || sel == 1 || sel == 3 then none
    else some (dst, BitVec.ofNat 32 x.grace.frees.length)
  | .ctlrd _ dst creg =>
    if x.noTile creg.toNat || x.w.changing creg.toNat then none
    else match cregKind creg with
      | .pair | .lanePair => none
      | _ => some (dst, x.creg32 creg.toNat)
  | _ => none

/-- R99, R295, R364, R389: 64-bit scalars that tell of the machine. -/
def readingPairOf (x : Cx) : Instr → Option (Spec × DWord)
  | .voteBallot _ dst q => some (dst, BitVec.ofNat 64 (((x.votes q).filter (·.2)).map fun v => 2 ^ v.1).sum)
  | .gstat _ dst sel =>
    if sel == 0 then some (dst, x.graceCopy.cur) else if sel == 1 then some (dst, x.graceCopy.done)
    else if sel == 3 then some (dst, if x.w.depth == 0 then 0 else x.w.tag) else none
  | .clockTick _ dst => some (dst, x.s.clock.tick)
  | .clockCyc _ dst => some (dst, BitVec.ofNat 64 x.s.clock.cycle)
  | .ctlrd _ dst creg =>
    if creg == 0x03 then some (dst, x.l.rndkey) else if creg == 0x06 then some (dst, x.w.spillBase)
    else if creg == 0x08 then some (dst, x.w.laneFault)
    else if creg == 0x0D && !x.w.changing 0x0D then some (dst, x.graceCopy.cur) else none
  | _ => none

/-- R110, R192, R296, R365: a register that an earlier instruction of the warp can still change: `FPCTL` by its flags,
`WINCTL.BUSY` by a `wflush`, `GRACENUM` by a start. -/
def unsettled (w : Warp) (creg : Word) : Prop :=
  ∃ f ∈ w.flights, (creg = 0x02 ∧ f.raise ≠ none) ∨ (creg = 0x05 ∧ f.kind = .flush) ∨
    (creg = 0x0D ∧ ∃ n, f.kind = .grace n)

/-! ## Numerical events and floating point -/

/-- R134 to R136: events tested in order; the first that is enabled traps, with its code. -/
def afterEvents (w : Warp) : List (Cause × Nat) → Except (Warp × Nat) Warp
  | [] => .ok w
  | (c, set) :: l => match w.event c set with
    | .error w => .error (w, c.trap)
    | .ok w => afterEvents w l

/-- R114, R118: an operation that rounds once: its arguments, its sources, the operation, whether it tests CANCEL, and the
source that DIVZ tests. -/
def rounding : Instr → Option (FArgs × Nat × FOp × Bool × Option Nat)
  | .fadd _ a => some (a, 2, opAdd, true, none)
  | .fsub _ a => some (a, 2, opSub, true, none)
  | .fmul _ a => some (a, 2, opMul, false, none)
  | .ffma _ a => some (a, 3, opFma, true, none)
  | .fdiv _ a => some (a, 2, opDiv, false, some 1)
  | .fsqrt _ a => some (a, 1, opSqrt, false, none)
  | .frcp _ a => some (a, 1, opRcp, false, some 0)
  | .frsq _ a => some (a, 1, opRsq, false, some 0)
  | .fexp2 _ a => some (a, 1, opExp2, false, none)
  | .flog2 _ a => some (a, 1, opLog2, false, none)
  | _ => none

/-- R120: a packed operation. -/
def packedRounding : Instr → Option (FArgs × Nat × FOp × Bool)
  | .hadd2 _ a => some (a, 2, opAdd, true)
  | .hmul2 _ a => some (a, 2, opMul, false)
  | .hfma2 _ a => some (a, 3, opFma, true)
  | _ => none

/-- R105, R114: the code of a lane and its flags: the operands as read, the exact operation, one rounding. `sh` is the bit at
which the format lies in its word, `k` the number of the draw. -/
def rounded (x : Cx) (f : Fmt) (m : Rm) (op : FOp) (srcs : List (Bool × Row)) (sh k l : Nat) : FRes :=
  let e := op m (srcs.map fun p => (f.decode (((wordAt p.2 l).toNat >>> sh) % 2 ^ f.width)).negIf p.1)
  let c := roundTo f m (if drawing m then x.gen l k else 0) e.1
  (c.1, e.2.or c.2)

/-- The active threads whose divisor has no digit (R134). -/
def zeroDivisors (x : Cx) (f : Fmt) (srcs : List (Bool × Row)) : Option Nat → Nat
  | none => 0
  | some k => if x.triple then
      x.threadSet fun t => threadDigits f (fun l => operandVal f false 0 (wordAt (srcs.getD k (false, [])).2 l)) t == 0
    else 0

/-- R115, R117, R119, R121: the other floating instructions: the warp before the write, the destination, the row, and the flags
that the completion sets. -/
def floatRow (x : Cx) : Instr → Option (Warp × Spec × Row × Option Word)
  | .fmin _ a =>
    let res := x.perLane fun l => minMax (fmtOf a.ty) false ((wordAt (x.src a.a) l).toNat % 2 ^ (fmtOf a.ty).width)
      ((wordAt (x.src a.b) l).toNat % 2 ^ (fmtOf a.ty).width)
    some (x.w, a.dst, codesOf res, some (flagsOf res).toWord)
  | .fmax _ a =>
    let res := x.perLane fun l => minMax (fmtOf a.ty) true ((wordAt (x.src a.a) l).toNat % 2 ^ (fmtOf a.ty).width)
      ((wordAt (x.src a.b) l).toNat % 2 ^ (fmtOf a.ty).width)
    some (x.w, a.dst, codesOf res, some (flagsOf res).toWord)
  | .fclass _ a => some (x.w, a.dst, map1 x a.a fun w =>
      BitVec.ofNat 32 (classMask (fmtOf a.ty) (w.toNat % 2 ^ (fmtOf a.ty).width)), some 0)
  | .frnd _ a =>
    let m := x.w.resolveRm a.rm
    let res := x.perLane fun l =>
      rndLane (fmtOf a.ty) m (x.drawFor m l 0) (operandVal (fmtOf a.ty) a.na 0 (wordAt (x.src a.a) l))
    some (x.settleDraws x.w m 1, a.dst, codesOf res, some (flagsOf res).toWord)
  | .cvt _ a =>
    let m := x.w.resolveRm a.rm
    let res := x.perLane fun l => cvtLane a.dty a.sty a.elem.toNat m (x.drawFor m l 0) (wordAt (x.src a.a) l)
    some (x.settleDraws x.w m 1, a.dst, codesOf res, some (flagsOf res).toWord)
  | _ => none

end Sys2Proof.Claims

open Sys2Proof Sys2Proof.Machine

/-! # Lane, scalar and floating results -/

/-- R79, R85 to R88, R91. Every ready integer lane instruction completes: its destination receives the row of the spec's table
in the active lanes (or is pushed), and no other register, no memory and no other warp changes. Of `iadd`, `isub`, `imul`,
`imulh`, `imad`, `imin`, `imax`, `iabs`, `and`, `or`, `xor`, `andn`, `shl`, `shr`, `sar`, `rot`, `popc`, `clz`, `bfx`, `bfi`,
`sel`, `mov`, `movi`, `sxt`. -/
def Obligations.IntegerLanes : Prop :=
  ∀ (s : State) (i : Instr) (x : Cx) (dst : Spec) (row : Row),
    s.ready i = some x → Claims.integerRow x i = some (dst, row) →
      s.issues i x s (x.next (x.write x.w dst x.act row 0)) true [] (x.pushed dst row)

/-- R129 to R132, R139 to R146: `digits`, `smean`, `sibget`, `rand`, `mdpack` and `mdunpack` with results of 32 bits. R141:
`sibmode.near` sets `NUMCTL.NEAR`, `sibmode.rand` clears it; no completion flag counts them. What a stored BF16 mean that is
subnormal stands for in `mdunpack` is the model's reading (log 72). -/
def Obligations.SiblingLanes : Prop :=
  (∀ (s : State) (i : Instr) (x : Cx) (w : Warp) (dst : Spec) (row : Row),
    s.ready i = some x → Claims.siblingRow x i = some (w, dst, row) →
      s.issues i x s (x.next (x.write w dst x.act row 0)) true [] (x.pushed dst row)) ∧
  (∀ (s : State) (c : Ctl) (x : Cx),
    (s.ready (.sibmodeNear c) = some x →
      s.issues (.sibmodeNear c) x s (x.next { x.w with numctl := x.w.numctl ||| 0x1000 }) false [] none) ∧
    (s.ready (.sibmodeRand c) = some x →
      s.issues (.sibmodeRand c) x s (x.next { x.w with numctl := x.w.numctl &&& 0xFFFF_EFFF }) false [] none))

/-- R56, R90, R125, R128, R131, R142, R146, R364: 64-bit lane results, low word in the even register: `lea`, `rand.b64`,
`mdpack.f32`, `ctlrd` of `OPCOUNT`. -/
def Obligations.WideLanes : Prop :=
  ∀ (s : State) (i : Instr) (x : Cx) (w : Warp) (dst : Spec) (lo hi : Row),
    s.ready i = some x → Claims.wideRows x i = some (w, dst, lo, hi) →
      s.issues i x s (x.next (x.writeWide (x.writeWide w dst 0 x.act lo 0) dst 1 x.act hi 0)) true [] none

/-- R83, R94, R99, R144, R145: a predicate result in the active lanes, the others keeping theirs: `scmp`, `vote.any`,
`vote.all`, `sibagree`, `nchk`. R89, R116, R134 to R136: `icmp` and `fcmp` write the comparison, or its majority where
siblings differ and the CMPDIS cause is masked; where it is enabled they trap with code 3. R110, R123: the NV of `fcmp` is set as
it completes. -/
def Obligations.PredicateResults : Prop :=
  (∀ (s : State) (i : Instr) (x : Cx) (p : BitVec 3) (v : Mask),
    s.ready i = some x → Claims.predicateOf x i = some (p, v) →
      s.issues i x s (x.next (x.writePred x.w p x.act v)) true [] none) ∧
  (∀ (s : State) (i : Instr) (x : Cx) (p : BitVec 3) (v : Mask) (raise : Option Word),
    s.ready i = some x → Claims.comparison x i = some (p, v, raise) →
      match x.w.resolve x.triple x.act v with
      | .error w => exec i s = .next (s.takeTrap x.ref w 3 0 x.sp.pc)
      | .ok (w, v) => s.issues i x s (x.next (x.writePred w p x.act v)) true [] none raise)

/-- R92, R93, R95: scalar arithmetic of either width: `sadd`, `ssub`, `smul`, `sand`, `sor`, `sxor`, `sshl`, `sshr`,
`smov`, `smovi`, `slea`. R99, R191, R217, R295, R364, R389: what `rpool`, `wdepth`, `qstat`, `gstat`, `ctlrd`,
`vote.ballot` and `clock` read. R365: `ctlrd` is held back while an earlier instruction of its warp can still change the register
(log 60); one of a tile that the crew does not declare traps with code 1. -/
def Obligations.ScalarResults : Prop :=
  (∀ (s : State) (i : Instr) (x : Cx), s.ready i = some x →
    (∀ dst v, Claims.scalarOf x i = some (dst, v) → s.issues i x s (x.next (x.writeScal x.w dst v)) true [] none) ∧
    (∀ dst v, Claims.scalarPairOf x i = some (dst, v) → s.issues i x s (x.next (x.writeScal64 x.w dst v)) true [] none)) ∧
  (∀ (s : State) (i : Instr) (x : Cx), s.ready i = some x →
    (∀ dst v, Claims.readingOf x i = some (dst, v) → s.issues i x s (x.next (x.writeScal x.w dst v)) true [] none) ∧
    (∀ dst v, Claims.readingPairOf x i = some (dst, v) → s.issues i x s (x.next (x.writeScal64 x.w dst v)) true [] none)) ∧
  (∀ (s : State) (c : Ctl) (dst : Spec) (creg : Word) (x : Cx), s.ready (.ctlrd c dst creg) = some x →
    if 0x10 ≤ creg.toNat ∧ x.c.tiles.length ≤ creg.toNat - 0x10 then
      exec (.ctlrd c dst creg) s = .next (s.takeTrap x.ref x.w 1 1 x.sp.pc)
    else Claims.unsettled x.w creg → exec (.ctlrd c dst creg) s = .next s)

/-- R96 to R98, R100, R101: cross-lane moves. Source words are read before any is written, whether their lanes are active or
not: `bcast`, `rdlane`, `shfl`, `elect`. -/
def Obligations.CrossLaneResults : Prop :=
  ∀ (s : State) (c : Ctl) (dst a : Spec) (k : Src2) (sm : Shuf) (ep : BitVec 3) (x : Cx),
    (s.ready (.bcast c dst a k) = some x →
      let n := (x.scal2 k).toNat
      let lane (l : Nat) : Nat := if x.triple then 3 * n + l % 3 else n
      let row : Row := laneList.map fun l => if n < threads x.triple then wordAt (x.src a) (lane l) else 0
      x.crossClear a (maskOf fun l => decide (n < threads x.triple) && (maskLanes x.act).any fun t => lane t == l) = true →
        s.issues (.bcast c dst a k) x s (x.next (x.write x.w dst x.act row 0)) true [] (x.pushed dst row)) ∧
    (s.ready (.rdlane c dst a k) = some x →
      let n := (x.scal2 k).toNat
      x.crossClear a (if n < 48 then 1#48 <<< n else 0) = true →
        s.issues (.rdlane c dst a k) x s
          (x.next (x.writeScal x.w dst (if n < 48 then wordAt (x.src a) n else 0))) true [] none) ∧
    (s.ready (.shfl c sm dst a k) = some x →
      let from_ (l : Nat) : Nat := x.shflLane sm (wordAt (x.src2 k) l) l
      let row : Row := laneList.map fun l => wordAt (x.src a) (from_ l)
      x.crossClear a (maskOf fun l => (maskLanes x.act).any fun t => from_ t == l) = true →
        s.issues (.shfl c sm dst a k) x s (x.next (x.write x.w dst x.act row 0)) true [] (x.pushed dst row)) ∧
    (s.ready (.elect c dst ep) = some x →
      let t := threadOf x.triple ((maskLanes x.act).headD 0)
      let w := x.writeScal x.w dst (BitVec.ofNat 32 t)
      s.issues (.elect c dst ep) x s
        (x.next (if ep = 7 then w else x.writePred w ep x.act (maskOf fun l => threadOf x.triple l == t))) true [] none)

/-- R105 to R107, R110, R111, R114, R118, R123, R134 to R136: operations that round once. Each active lane receives the rounded
exact result, whose comparisons with the real value are those of a wide fixed-point approximation for `fexp2` and `flog2` (the
model's reading, log 16); the flags are set as the instruction completes, drawing modes advance the op count by one, and DIVZ and
CANCEL are recorded or trap. Of `fadd`, `fsub`, `fmul`, `ffma`, `fdiv`, `fsqrt`, `frcp`, `frsq`, `fexp2`, `flog2`. R120: packed
operations work on both halves of a word, low half first, with two draws and a test of CANCEL each (the model's choice, log 69). Of
`hadd2`, `hmul2`, `hfma2`. -/
def Obligations.FloatRounding : Prop :=
  (∀ (s : State) (i : Instr) (x : Cx) (a : FArgs) (n : Nat) (op : FOp) (cancel : Bool) (divisor : Option Nat),
    s.ready i = some x → Claims.rounding i = some (a, n, op, cancel, divisor) →
      let f := fmtOf a.ty
      let m := x.w.resolveRm a.rm
      let srcs := x.fsrcs a n
      let res := x.perLane (Claims.rounded x f m op srcs 0 0)
      let set := if cancel then x.cancelSet f srcs 0 res else 0
      match Claims.afterEvents x.w [(.divz, Claims.zeroDivisors x f srcs divisor), (.cancel, set)] with
      | .error (w, code) => exec i s = .next (s.takeTrap x.ref w code 0 x.sp.pc)
      | .ok w => s.issues i x s (x.next (x.write (x.settleDraws w m 1) a.dst x.act (codesOf res) 0)) true []
          (x.pushed a.dst (codesOf res)) (some (flagsOf res).toWord)) ∧
  (∀ (s : State) (i : Instr) (x : Cx) (a : FArgs) (n : Nat) (op : FOp) (cancel : Bool),
    s.ready i = some x → Claims.packedRounding i = some (a, n, op, cancel) →
      let f := if a.ty == .bf16 then Fmt.bf16 else Fmt.fp16
      let m := x.w.resolveRm a.rm
      let srcs := x.fsrcs a n
      let lo := x.perLane (Claims.rounded x f m op srcs 0 0)
      let hi := x.perLane (Claims.rounded x f m op srcs 16 1)
      let set (sh : Nat) (r : List FRes) : Nat := if cancel then x.cancelSet f srcs sh r else 0
      let row : Row := List.zipWith (fun (h l : FRes) => BitVec.ofNat 32 (h.1 * 65536 + l.1)) hi lo
      match Claims.afterEvents x.w [(.cancel, set 0 lo), (.cancel, set 16 hi)] with
      | .error (w, code) => exec i s = .next (s.takeTrap x.ref w code 0 x.sp.pc)
      | .ok w => s.issues i x s (x.next (x.write (x.settleDraws w m 2) a.dst x.act row 0)) true []
          (x.pushed a.dst row) (some ((flagsOf lo).or (flagsOf hi)).toWord))

/-- R115, R117, R119, R121, R122: `fmin`, `fmax`, `fclass`, `frnd`, `cvt`. A value of E5M2F beyond the range of FP16 overflows (the
model's choice, log 71). -/
def Obligations.FloatOther : Prop :=
  ∀ (s : State) (i : Instr) (x : Cx) (w : Warp) (dst : Spec) (row : Row) (raise : Option Word),
    s.ready i = some x → Claims.floatRow x i = some (w, dst, row, raise) →
      s.issues i x s (x.next (x.write w dst x.act row 0)) true [] (x.pushed dst row) raise

/-! # Control flow -/

namespace Sys2Proof.Claims

open Sys2Proof.Machine

/-- R155: the active lanes whose condition is true, majorities taken (R135, R136). -/
def taken (x : Cx) (p : Pred) : Except Warp (Warp × Mask) :=
  (x.w.resolve x.triple x.act (x.predMask p &&& x.act)).map fun r => (r.1, r.2 &&& x.act)

/-- R156 to R162: an instruction that reads a target per lane: the targets, where the lanes of a target go on, whether lanes
that do not take part stay (R154), the row and word of a link (R158, R161), and whether its first pass is still to come. -/
def flowOf (x : Cx) : Instr → Option Flow
  | .brx _ a off => some ⟨(x.src a).map (· + off), fun t => (t, x.sp.base), false, none, !x.w.serving⟩
  | .call _ off shift =>
    let base := x.sp.base + 8 * shift.toNat
    some ⟨laneList.map fun _ => x.sp.pc + off, fun t => (t, base), false,
      some (base, ((x.sp.pc + 1) <<< 5) ||| shift.setWidth 32), !x.w.serving⟩
  | .callx _ a off shift =>
    let base := x.sp.base + 8 * shift.toNat
    some ⟨(x.src a).map (· + off), fun t => (t, base), false,
      some (base, ((x.sp.pc + 1) <<< 5) ||| shift.setWidth 32), !x.w.serving⟩
  | .ret _ =>
    some ⟨x.src (.v 0), fun w => ((w.extractLsb' 5 27).setWidth 32, x.sp.base - 8 * (w.extractLsb' 0 5).toNat), true, none, !x.w.serving⟩
  | _ => none

/-- R156: the elected target: that of the lowest active lane, or what two siblings of the lowest active thread hold. -/
def elected (x : Cx) (targets : Row) : Word :=
  let l := (maskLanes x.act).headD 0
  let a := wordAt targets l
  let b := wordAt targets (l + 1)
  if x.triple && a != b && a != wordAt targets (l + 2) && b == wordAt targets (l + 2) then b else a

/-- R156: the lanes of the elected target: those whose test is true, and the lowest thread. -/
def group (x : Cx) (v : Mask) : Mask :=
  (v ||| maskOf fun l => threadOf x.triple l == threadOf x.triple ((maskLanes x.act).headD 0)) &&& x.act

/-- R158: the row of a link in the lanes of a group. -/
def linked (w : Warp) (g : Mask) : Option (Nat × Word) → Warp
  | some (row, word) => w.writeRow row g (laneList.map fun _ => word) 0
  | none => w

end Sys2Proof.Claims

/-- R154, R155, R160: `bra` sends the active lanes whose condition is true to its target and all others on; where both sides
remain and differ it needs a place, and without one traps with code 8. `bru` sends every lane of its split to the target if
the condition is true in an active lane. R163, R165, R166: `join` leaves every lane where it is while a split of its window base that
does not wait remains or a parked path of that base takes its turn, and otherwise moves on; `yield` moves on; `nop` moves on and has no
other effect. In a warp whose only split has a parked path of its own window base, `join` and `yield` run that path next. -/
def Obligations.BranchesJoinsAndYields : Prop :=
  (∀ (s : State) (c : Ctl) (p : Pred) (off : Word) (x : Cx),
    (s.ready (.bra c p off) = some x →
      match Claims.taken x p with
      | .error w => exec (.bra c p off) s = .next (s.takeTrap x.ref w 3 0 x.sp.pc)
      | .ok (w, t) =>
        let splits := t ≠ 0 ∧ x.sp.mask &&& ~~~t ≠ 0 ∧ x.sp.pc + off ≠ x.sp.pc + 1
        (splits ∧ w.room 1 = false → exec (.bra c p off) s = .next (s.takeTrap x.ref w 8 0 x.sp.pc)) ∧
        (¬ (splits ∧ w.room 1 = false) →
          s.sends (.bra c p off) x s w fun l => (if t.getLsbD l then x.sp.pc + off else x.sp.pc + 1, x.sp.base))) ∧
    (s.ready (.bru c p off) = some x →
      match Claims.taken x p with
      | .error w => exec (.bru c p off) s = .next (s.takeTrap x.ref w 3 0 x.sp.pc)
      | .ok (w, t) =>
        s.sends (.bru c p off) x s w fun _ => (if t = 0 then x.sp.pc + 1 else x.sp.pc + off, x.sp.base))) ∧
  (∀ (s : State) (c : Ctl) (x : Cx),
    (s.ready (.join c) = some x →
      let awaits := ∃ n u, n < 4 ∧ n ≠ x.w.cur ∧ x.w.splitAt n = some u ∧ u.base = x.sp.base ∧ u.joinWait = false
      (x.w.parked.isSome ∨ awaits → s.sends (.join c) x s x.w fun _ => (x.sp.pc, x.sp.base)) ∧
      (x.w.parked = none ∧ ¬ awaits → s.sends (.join c) x s x.w fun _ => (x.sp.pc + 1, x.sp.base))) ∧
    (s.ready (.yield c) = some x → s.sends (.yield c) x s x.w fun _ => (x.sp.pc + 1, x.sp.base)) ∧
    (s.ready (.nop c) = some x → s.issues (.nop c) x s (x.next x.w) false [] none)) ∧
  (∀ (s : State) (i : Instr) (c : Ctl) (x : Cx) (e : LayEntry) (l : List LayEntry),
    i = .join c ∨ i = .yield c → s.ready i = some x → x.w.parked = some (e, l) →
    (∀ n, n ≠ x.w.cur → x.w.splitAt n = none) →
      ∃ w, exec i s = .next (x.leaves s w [] none none) ∧ w.split.pc = e.pc ∧ w.split.base = e.base ∧
        e.mask &&& w.split.mask = e.mask)

/-- R154, R156 to R162, R171, R173: one pass of `brx`, `call`, `callx` and `ret`. The places that all lanes need are counted before
the first pass and trap with code 8; a later pass of threads that went by majority traps so where what it sends away finds no place
(the model's reading, log 21); then siblings are resolved (code 3); then the window limit (code 7, WOC 1) and, before any lane
moves, the window span of every pass to come (WOC 2) are checked; a window that must move blocks the warp first. The lanes of the
elected target go to it, with the window base of a callee or caller and, in a call, with the link in row 0 of the callee's window;
other active lanes stay for the next pass. Lanes switched off by the guard go on, but those of a `ret` stay in the split, which goes
on with the last pass. R162: `ret` traps with code 7 when a link drops the window below its stack. The order of the checks is the
model's reading (logs 21, 26), and so is the wait for a move (log 22). -/
def Obligations.IndirectFlow : Prop :=
  (∀ (s : State) (i : Instr) (x : Cx) (f : Flow), s.ready i = some x → Claims.flowOf x i = some f →
    (f.keeps = true → ∀ l, x.act.getLsbD l = true → 8 * ((wordAt f.targets l).extractLsb' 0 5).toNat ≤ x.sp.base) →
      let targets := ((maskLanes x.act).map (wordAt f.targets)).eraseDups
      let out := x.sp.mask &&& ~~~x.act
      let whole := out ≠ 0 ∧ targets.length = 1 ∧ ∀ t ∈ targets, f.dest t = (x.sp.pc + 1, x.sp.base)
      let t := Claims.elected x f.targets
      if f.first = true ∧ ¬ whole ∧ x.w.room (targets.length + (if out ≠ 0 then 1 else 0) - 1) = false then
        exec i s = .next (s.takeTrap x.ref x.w 8 0 x.sp.pc)
      else match x.w.resolve x.triple x.act (maskOf fun l => x.act.getLsbD l && wordAt f.targets l == t) with
      | .error w => exec i s = .next (s.takeTrap x.ref w 3 0 x.sp.pc)
      | .ok (w, v) =>
        let g := Claims.group x v
        let links := (f.link.map (·.1)).toList
        let passes := (t, g) :: groupsOf x.triple f.targets 48 (x.act &&& ~~~g)
        let bases := (f.pass x.act t g w).bases ++ links
        let dest (l : Nat) : Word × Nat :=
          if g.getLsbD l then f.dest t
          else if x.act.getLsbD l || (f.keeps && g != x.act) then (x.sp.pc, x.sp.base)
          else (x.sp.pc + 1, x.sp.base)
        let later := (if out = 0 ∨ f.keeps = true then 0 else 1) + if g = x.act ∧ ¬ (f.keeps = true ∧ out ≠ 0) then 0 else 1
        if f.first = false ∧ w.room later = false then
          exec i s = .next (s.takeTrap x.ref w 8 0 x.sp.pc)
        else if ∃ b ∈ links, limitOk w.spillLim w.reach b = false then
          exec i s = .next (s.takeTrap x.ref { w with woc := 1 } 7 0 x.sp.pc)
        else if ∃ v ∈ f.after passes x.act w, v.spans links = false then
          exec i s = .next (s.takeTrap x.ref { w with woc := 2 } 7 0 x.sp.pc)
        else match coverTo w.bot w.ring w.reach (lowest bases) (highest bases) with
          | none => s.sends i x s (Claims.linked w g f.link) dest
          | some b =>
            (x.w.moved ≠ some b → exec i s = .next (s.blockWarp x.ref (.move b false))) ∧
            ∀ y, { x with w := w }.overMoved b w.ring y → s.sends i x y.s (Claims.linked y.w g f.link) dest) ∧
  (∀ (s : State) (c : Ctl) (x : Cx) (l : Nat),
    s.ready (.ret c) = some x → x.act.getLsbD l = true →
      x.sp.base < 8 * ((wordAt (x.src (.v 0)) l).extractLsb' 0 5).toNat →
        exec (.ret c) s = .next (s.takeTrap x.ref { x.w with woc := 3 } 7 0 x.sp.pc))

/-- R148, R152, R163, R173: the active lanes of an `exit` leave, the others go on; a warp without lanes retires. Where what resumes
in their place needs the window to move, the warp blocks for the move and the band moves as the `exit` completes (log 22). R152,
R163, R228: lanes that leave their split become vacant, no other lane moves, and the registers stay. R148, R184, R200: a
warp that retires gives its ring back to its quarter's reserve, closes the queues that it produces for and leaves its
section. -/
def Obligations.LanesAndWarpsLeave : Prop :=
  (∀ (s : State) (c : Ctl) (x : Cx), s.ready (.exit c) = some x →
    (x.mayDrop x.act → s.issuesOff (.exit c) x s (x.next x.w) x.act false [] none) ∧
    (∀ w code arg, x.dropCheck x.act = .trap w code arg → exec (.exit c) s = .next (s.takeTrap x.ref w code arg x.sp.pc)) ∧
    ∀ b, x.dropCheck x.act = .move b →
      (x.w.moved ≠ some b → exec (.exit c) s = .next (s.blockWarp x.ref (.move b false))) ∧
      ∀ t v, x.movedTo b (x.put x.w) t → t.warp? x.ref = some v → s.issuesOff (.exit c) x t (x.next v) x.act false [] none) ∧
  (∀ (w : Warp) (m : Mask), (w.splitAt w.cur).isSome →
    (w.without m).bank = w.bank ∧ (w.without m).flags = w.flags ∧ (w.without m).vacant = w.vacant ||| (w.split.mask &&& m) ∧
    ∀ l pc base, (w.without m).stands l pc base ↔
      (w.split.mask.getLsbD l = true ∧ m.getLsbD l = false ∧ w.split.pc = pc ∧ w.split.base = base) ∨ w.elsewhere l pc base) ∧
  (∀ (s : State) (r : WarpRef) (w : Warp) (c : Crew) (l : Launch),
    s.warp? r = some w → s.crew? r.crew = some c → s.launch? r.crew.launch = some l →
      ∃ d v, (s.retireWarp r).crew? r.crew = some d ∧ (s.retireWarp r).warp? r = some v ∧
        v.retired = true ∧ v.ring = 0 ∧ v.rows = [] ∧ v.depth = 0 ∧ v.bindings = w.bindings.map (fun _ => none) ∧
        d.reserve = c.reserve.modify w.quarter (· + w.ring) ∧
        d.queues = (w.bindings.foldl (fun c b => match b with
          | some b => if b.push && !b.closed then c.closeQueue b.queue else c
          | none => c) c).queues)

/-! # Window and register pool -/

namespace Sys2Proof.Claims

open Sys2Proof.Machine

/-- R186, R190: the warp after its ring grew by `n` rows that were never written. -/
def grown (w : Warp) (n : Nat) : Warp :=
  { w with
    ring := w.ring + n
    rows := (List.range (w.ring + n)).map fun k => if k < w.ring then w.rowAt (w.bot + k) else laneList.map fun _ => 0
    poison := w.poison.filter fun p => w.bot / 8 ≤ p.1 / 8 && p.1 / 8 < (w.bot + w.ring) / 8
    high := max w.high (w.bot + w.ring + n) }

/-- R193: index register `k` of the active lanes, held between 0 and 255. -/
def indexed (x : Cx) (k : BitVec 2) (f : Nat → Int) : Warp :=
  { x.w with xregs := x.w.xregs.modify k.toNat fun old => laneList.map fun l =>
      if x.act.getLsbD l then BitVec.ofInt 8 (max 0 (min (f l) 255)) else old.getD l 0 }

end Sys2Proof.Claims

/-- R185 to R187, R190: `rclaim` of a warp without a claim. Within the budget and behind no other unserved claim it takes its
rows from the reserve at once; otherwise the warp blocks at the end of the list. A claim over the budget can never be
served and ends the launch (R187). A claim that was served while its warp was blocked grows the ring when the warp runs again (the
model's reading, log 28); where rows must come back from memory a claim, served at once or later, holds its rows, blocks for the move
and completes over the moved band (log 22). -/
def Obligations.ClaimRows : Prop :=
  ∀ (s : State) (c : Ctl) (n : Word) (x : Cx),
    s.ready (.rclaim c n) = some x →
      let q := x.w.quarter
      let claims := x.c.claims.getD q []
      let taken (t : State) : State :=
        t.modCrew x.ref.crew fun c => { c with claims := c.claims.modify q fun l => l.filter (·.warp != x.ref.warp) }
      let whole := x.w.bot % 8 = 0 ∧ x.w.ring % 8 = 0 ∧ n.toNat % 8 = 0 ∧ min x.w.high x.w.spillLim ≤ x.w.bot + x.w.ring
      ((∀ k ∈ claims, k.warp ≠ x.ref.warp) →
        if x.c.budget.getD q 0 < x.w.ring + n.toNat then
          exec (.rclaim c n) s = .next { s.claimDeadlock x.ref.crew q (some (x.ref.warp, n.toNat)) with turn := none }
        else if (∀ k ∈ claims, k.served = true) ∧ n.toNat ≤ x.c.reserve.getD q 0 then
          let set := (x.put x.w).modCrew x.ref.crew fun c =>
            { c with claims := c.claims.modify q (· ++ [⟨x.ref.warp, n.toNat, true⟩]), reserve := c.reserve.modify q (· - n.toNat) }
          (whole → s.issues (.rclaim c n) x
            (s.modCrew x.ref.crew fun c => { c with reserve := c.reserve.modify q (· - n.toNat) })
            (x.next (Claims.grown x.w n.toNat)) true [] none) ∧
          (x.w.bot + x.w.ring < min x.w.high x.w.spillLim →
            (x.w.moved ≠ some x.w.bot → exec (.rclaim c n) s = .next (set.blockWarp x.ref (.move x.w.bot false))) ∧
            ∀ t m, x.w.moved = some x.w.bot → set.moveBand x.ref x.w.bot (x.w.ring + n.toNat) = .ok t →
              t.warp? x.ref = some m → s.issues (.rclaim c n) x (taken t) (x.next m) true [] none)
        else
          exec (.rclaim c n) s = .next (((x.put x.w).modCrew x.ref.crew fun c =>
            { c with claims := c.claims.modify q (· ++ [⟨x.ref.warp, n.toNat, false⟩]) }).blockWarp x.ref (.claim n.toNat))) ∧
      (∀ k, claims.find? (·.warp == x.ref.warp) = some k → k.served = true →
        (whole → s.issues (.rclaim c n) x (taken s) (x.next (Claims.grown x.w n.toNat)) true [] none) ∧
        (x.w.bot + x.w.ring < min x.w.high x.w.spillLim →
          (x.w.moved ≠ some x.w.bot → exec (.rclaim c n) s = .next ((x.put x.w).blockWarp x.ref (.move x.w.bot false))) ∧
          ∀ t m, x.w.moved = some x.w.bot → (x.put x.w).moveBand x.ref x.w.bot (x.w.ring + n.toNat) = .ok t →
            t.warp? x.ref = some m → s.issues (.rclaim c n) x (taken t) (x.next m) true [] none))

/-- R190: `rrelease` keeps at least 8 rows (code 7, WOC 5) and every window in use (WOC 2), drops its top rows and gives
them to the reserve; where rows below must leave first the warp blocks for the move, and the `rrelease` completes over the moved
band (log 22). R192, R193: `wflush` hands every band granule below the limit to the spill engine, whose buffer holds 32, those left out
that an earlier attempt of it handed over when the buffer was full, and its flag counts until they are written; `xset` and `xadd` set an
index register of the active lanes. -/
def Obligations.ReleaseFlushAndIndex : Prop :=
  (∀ (s : State) (c : Ctl) (n : Word) (x : Cx),
    s.ready (.rrelease c n) = some x →
      let w := x.w
      let ring := w.ring - n.toNat
      let top := w.hi + 8 * w.reach
      let b := max w.bot (top - ring)
      if w.ring < n.toNat + 8 then exec (.rrelease c n) s = .next (s.takeTrap x.ref { w with woc := 5 } 7 0 x.sp.pc)
      else if ring < top - w.lo then exec (.rrelease c n) s = .next (s.takeTrap x.ref { w with woc := 2 } 7 0 x.sp.pc)
      else
        let given (t : State) : State :=
          t.modCrew x.ref.crew fun c => { c with reserve := c.reserve.modify w.quarter (· + n.toNat) }
        let left (m : Warp) : Warp :=
          { m with ring, high := b + ring, rows := m.rows.take ring, poison := m.poison.filter fun p => p.1 < b + ring }
        if b = w.bot then s.issues (.rrelease c n) x (given s) (x.next (left w)) true [] none
        else
          (w.moved ≠ some b → exec (.rrelease c n) s = .next (s.blockWarp x.ref (.move b false))) ∧
          ∀ y, x.overMoved b (w.bot + w.ring - b) y →
            s.issues (.rrelease c n) x (given y.s) (x.next (left y.w)) true [] none) ∧
  ∀ (s : State) (c : Ctl) (k : BitVec 2) (a : Spec) (lim : Word) (ib : Bool) (imm : Word) (x : Cx),
    (s.ready (.wflush c) = some x →
      let gs := ((List.range (x.w.ring / 8)).map (· + x.w.bot / 8)).filter fun g => 8 * g < x.w.spillLim && !x.w.taken.contains g
      (s.coreAt x.core).spillBuf.length + gs.length ≤ 32 →
        s.issues (.wflush c) x
          (s.modCore x.core fun k => { k with spillBuf := k.spillBuf ++ gs.map (x.w.granule x.ref x.l.ctx) })
          (x.next x.w) true [] none) ∧
    (s.ready (.xset c k a lim) = some x →
      s.issues (.xset c k a lim) x s
        (x.next { Claims.indexed x k fun l => (wordAt (x.src a) l).toInt with
          xlim := x.w.xlim.set k.toNat (lim.extractLsb' 0 8) }) true [] none) ∧
    (s.ready (.xadd c k a ib imm) = some x →
      s.issues (.xadd c k a ib imm) x s
        (x.next (Claims.indexed x k fun l =>
          (x.w.index k.toNat l).toNat + if ib then imm.toInt else (wordAt (x.src a) l).toInt)) true [] none)

/-! # Queues -/

/-- R199, R200, R214, R216: `qmap` binds a free name to a queue of a group in a slot; `qunmap` frees a name and `qclose`
closes it, either giving up a push right that is still open. A name or queue that does not serve traps with code 1. -/
def Obligations.QueueBindings : Prop :=
  ∀ (s : State) (c : Ctl) (q : BitVec 3) (slot rights : BitVec 2) (off : BitVec 20) (x : Cx),
    (s.ready (.qmap c q slot rights off) = some x →
      let queue := (x.c.slotGroup x.w slot.toNat).bind fun g =>
        x.c.queues.findIdx? fun k => k.group == g.1 && k.off == off.toNat
      match (x.w.bindings[q.toNat]?).join, queue with
      | none, some n =>
        let b : Binding := ⟨n, rights.getLsbD 0, rights.getLsbD 1, false⟩
        s.issues (.qmap c q slot rights off) x s (x.next { x.w with bindings := x.w.bindings.set q.toNat (some b) }) false [] none
      | _, _ => exec (.qmap c q slot rights off) s = .next (s.takeTrap x.ref x.w 1 1 x.sp.pc)) ∧
    (s.ready (.qunmap c q) = some x →
      match x.bound q.toNat with
      | some (b, _) =>
        let v : Warp := { x.w with bindings := x.w.bindings.set q.toNat none }
        s.issues (.qunmap c q) x
          (if b.push && !b.closed then (x.put v).modCrew x.ref.crew (·.closeQueue b.queue) else x.put v) (x.next v) false [] none
      | none => exec (.qunmap c q) s = .next (s.takeTrap x.ref x.w 1 1 x.sp.pc)) ∧
    (s.ready (.qclose c q) = some x →
      match x.bound q.toNat with
      | some (b, _) =>
        let v : Warp := { x.w with bindings := x.w.bindings.set q.toNat (some { b with closed := true }) }
        if b.push then s.issues (.qclose c q) x
          (if !b.closed then (x.put v).modCrew x.ref.crew (·.closeQueue b.queue) else x.put v) (x.next v) false [] none
        else exec (.qclose c q) s = .next (s.takeTrap x.ref x.w 1 1 x.sp.pc)
      | none => exec (.qclose c q) s = .next (s.takeTrap x.ref x.w 1 1 x.sp.pc))

/-- R201, R203, R205, R215: `qpush` pushes its source row, whole or in the active lanes, and waits where a row of a whole push must
be brought into the band; `qpop` writes the row it pops to the active lanes, and under `.st` completes with zeros and a true
predicate on a queue that is closed and empty; `qtry.pop` and `qtry.push` complete whether they transfer or not, and say so in their
predicate. Model's choices: a whole push of a popped row takes its words in every lane (log 77), the poison of its inactive lanes
goes with it (log 23), and a head that is ready but not staged holds a pop back (log 29). -/
def Obligations.QueueTransfers : Prop :=
  ∀ (s : State) (c : Ctl) (q p : BitVec 3) (a dst : Spec) (whole : Bool) (x : Cx),
    let name := q.toNat
    let ones : Mask := BitVec.allOnes 48
    let blocks (i : Instr) (ts : List Transfer) (n : Nat) : Prop :=
      ∃ e b, x.queueBlock ts n = .block e b ∧ exec i s = .next (e.blockWarp x.ref b)
    (s.ready (.qpush c q a whole) = some x →
      let m : Mask := if whole then ones else x.act
      match x.rowCheck [⟨a, 1⟩] m with
      | .trap w code arg => exec (.qpush c q a whole) s = .next (s.takeTrap x.ref w code arg x.sp.pc)
      | .move b => exec (.qpush c q a whole) s = .next (s.blockWarp x.ref (.move b true))
      | .ok =>
        s.issues (.qpush c q a whole) x s (x.next x.w) true [] (some ⟨name, x.src a, m, x.srcBad ⟨a, 1⟩ &&& ~~~x.act⟩)) ∧
    (s.ready (.qpop c dst q false p) = some x →
      ((x.pops.find? (·.name == name)).map (·.bad)).getD 0 &&& x.act = 0 →
        s.issues (.qpop c dst q false p) x s (x.next (x.write x.w dst x.act (x.src (.q ⟨name, q.isLt⟩)) 0)) true [] none) ∧
    (s.ready (.qpop c dst q true p) = some x →
      match x.queueTest [⟨name, false, true⟩], x.bound name with
      | .go, some (b, _) =>
        let h := x.c.headRow b.queue
        h.2.2 &&& x.act = 0 → s.issues (.qpop c dst q true p) x s
          (x.next (x.writePred (x.write x.w dst x.act h.1 0) p x.act 0)) true [b.queue] none
      | .wait n, some (_, k) =>
        if k.state = 1 ∧ k.count = 0 then s.issues (.qpop c dst q true p) x s
          (x.next (x.writePred (x.write x.w dst x.act (laneList.map fun _ => 0) 0) p x.act ones)) true [] none
        else blocks (.qpop c dst q true p) [⟨name, false, true⟩] n
      | .trap code arg, _ => exec (.qpop c dst q true p) s = .next (s.takeTrap x.ref x.w code arg x.sp.pc)
      | _, _ => True) ∧
    (s.ready (.qtryPop c p dst q) = some x →
      match x.queueTest [⟨name, false, true⟩], x.bound name with
      | .go, some (b, _) =>
        let h := x.c.headRow b.queue
        h.2.2 &&& x.act = 0 → s.issues (.qtryPop c p dst q) x s
          (x.next (x.writePred (x.write x.w dst x.act h.1 0) p x.act ones)) true [b.queue] none
      | .wait n, _ =>
        if x.unstaged n then blocks (.qtryPop c p dst q) [⟨name, false, true⟩] n
        else s.issues (.qtryPop c p dst q) x s (x.next (x.writePred x.w p x.act 0)) true [] none
      | .trap code arg, _ => exec (.qtryPop c p dst q) s = .next (s.takeTrap x.ref x.w code arg x.sp.pc)
      | _, _ => True) ∧
    (s.ready (.qtryPush c p q a) = some x →
      let ps : List Transfer := (specQueue a).map fun n => ⟨n, false, false⟩
      let ts : List Transfer := ⟨name, true, false⟩ :: ps
      match x.queueTest ts with
      | .go =>
        let y := { x with pops := x.popped ps }
        (∀ r ∈ y.pops, r.bad &&& x.act = 0) → s.issues (.qtryPush c p q a) x s (x.next (x.writePred x.w p x.act ones)) true
          (y.pops.map (·.queue)) (some ⟨name, y.src a, x.act, 0⟩)
      | .wait n =>
        if ∀ t ∈ ts, x.serves ts t = true then blocks (.qtryPush c p q a) ts n
        else s.issues (.qtryPush c p q a) x s (x.next (x.writePred x.w p x.act 0)) true [] none
      | .trap code arg => exec (.qtryPush c p q a) s = .next (s.takeTrap x.ref x.w code arg x.sp.pc))

/-- R203, R204, R206, R209: a pop takes the head away and a push appends at the tail, where its row lands later, with the completion
of the instruction in flight that pushed it (R123); neither touches another queue, and what settles after them moves no row of a
queue on which no delivery waits. -/
def Obligations.QueueRows : Prop :=
  ∀ (c : Crew) (n warp : Nat) (q : Queue) (words : Row) (valid bad : Mask) (k : Option (Nat × Nat)),
    c.queues[n]? = some q →
      (∃ p, (c.takeRow n warp).queues[n]? = some p ∧ p.head = (q.head + 1) % q.cap ∧ p.count = q.count - 1 ∧
        p.popped = q.popped + 1 ∧ p.tail = q.tail ∧ p.pushed = q.pushed ∧ p.state = q.state ∧ p.staged = false ∧
        p.landing = q.landing ∧ p.pending = q.pending) ∧
      (∃ p, (c.putRow n warp words valid bad k).queues[n]? = some p ∧ p.tail = (q.tail + 1) % q.cap ∧ p.count = q.count + 1 ∧
        p.pushed = q.pushed + 1 ∧ p.head = q.head ∧ p.popped = q.popped ∧ p.state = q.state ∧
        p.landing = q.landing ++ [⟨q.tail, words, valid, bad, k⟩] ∧ p.pending = q.pending) ∧
      (q.pending = [] → ∃ p, (c.settleQueue n).queues[n]? = some p ∧ p.head = q.head ∧ p.tail = q.tail ∧ p.count = q.count ∧
        p.pushed = q.pushed ∧ p.popped = q.popped ∧ p.state = q.state ∧ p.prod = q.prod ∧ p.landing = q.landing) ∧
      (∀ m, m ≠ n → (c.takeRow n warp).queues[m]? = c.queues[m]? ∧ (c.putRow n warp words valid bad k).queues[m]? = c.queues[m]? ∧
        (c.settleQueue n).queues[m]? = c.queues[m]?)

/-- R208: `refill` gives work items of the queue's ready rows to the vacant lanes of the warp and to the lanes of its split
whose predicate is true; those it fills stand in the split, with a false predicate. With nobody to fill, or without `.wait`
with nothing to take, it completes without effect. Row by row: the threads of the head row that hold an item, in ascending order,
go to the threads still to fill, in ascending order; each lane gets the word of the same sibling, 0 where that lane held none; the
row keeps the items that were not taken and is popped once none is left. Model's choices: the predicate of a thread whose siblings
differ is its majority (log 30), poison is consumed with the item that holds it (log 23), and an unstaged head holds the
instruction back (log 29). -/
def Obligations.RefillLanes : Prop :=
  (∀ (s : State) (c : Ctl) (dst : Spec) (q p : BitVec 3) (wait : Bool) (x : Cx),
    s.ready (.refill c dst q p wait) = some x →
      let i : Instr := .refill c dst q p wait
      let t := x.w.vacant ||| ((if x.triple then majorityMask (x.w.pred p) else x.w.pred p) &&& x.sp.mask)
      if t = 0 then s.issues i x s (x.next x.w) true [] none
      else match x.queueTest [⟨q.toNat, false, true⟩], x.bound q.toNat with
        | .trap code arg, _ => exec i s = .next (s.takeTrap x.ref x.w code arg x.sp.pc)
        | _, none => exec i s = .next (s.takeTrap x.ref x.w 1 1 x.sp.pc)
        | .wait n, some (_, k) =>
          if x.unstaged n = true ∨ (wait = true ∧ k.state = 0) then
            ∃ e b, x.queueBlock [⟨q.toNat, false, true⟩] n = .block e b ∧ exec i s = .next (e.blockWarp x.ref b)
          else s.issues i x s (x.next x.w) true [] none
        | .go, some (b, k) =>
          match x.rowCheck [⟨dst, 1⟩] t with
          | .trap w code arg => exec i s = .next (s.takeTrap x.ref w code arg x.sp.pc)
          | .move m => exec i s = .next (s.blockWarp x.ref (.move m true))
          | .ok =>
            let need := (List.range (threads x.triple)).filter fun j => (threadLanes x.triple j).any t.getLsbD
            let f := x.fillFrom b.queue (k.cap + 1) ⟨x.c, need, 0, laneList.map fun _ => 0, 0, false⟩
            if f.bad ≠ 0 then
              exec i s = .next { s.consumedError x.ref.crew.launch none .warp x.core x.ref.warp with turn := none }
            else
              let d := x.write x.w dst f.filled f.words 0
              let d := d.setPred p (d.pred p &&& ~~~f.filled)
              let d := { d.modSplit d.cur (fun s => { s with mask := s.mask ||| f.filled }) with
                vacant := d.vacant &&& ~~~f.filled }
              let e := s.modCrew x.ref.crew fun _ => { f.c with warps := f.c.warps.set x.ref.warp d }.settleQueue b.queue
              s.issues i x (if f.fresh then e.invalidate x.core else e) (x.next d) true [] none) ∧
  (∀ (x : Cx) (n fuel : Nat) (f : Filling) (q : Queue),
    f.c.queues[n]? = some q → f.need ≠ [] → f.need.Nodup → (∀ t ∈ f.need, t < threads x.triple) → f.words.length = 48 →
    q.readyFor x.ref.warp = true →
      let h := f.c.headRow n
      let items := (List.range (threads x.triple)).filter fun j => (threadLanes x.triple j).any h.2.1.getLsbD
      let pairs := List.zip f.need items
      let left : Mask := maskOf fun l => h.2.1.getLsbD l && !pairs.any fun p => p.2 == threadOf x.triple l
      ∃ g, x.fillFrom n (fuel + 1) f = x.fillFrom n fuel g ∧ g.need = f.need.drop pairs.length ∧
        (∀ l, l < 48 → match pairs.find? (fun p => p.1 == threadOf x.triple l) with
          | some (_, j) =>
            let from_ := if x.triple then 3 * j + l % 3 else j
            g.filled.getLsbD l = true ∧ wordAt g.words l = (if h.2.1.getLsbD from_ then wordAt h.1 from_ else 0) ∧
              g.bad.getLsbD l = (f.bad.getLsbD l || (h.2.1.getLsbD from_ && h.2.2.getLsbD from_))
          | none => g.filled.getLsbD l = f.filled.getLsbD l ∧ wordAt g.words l = wordAt f.words l ∧
              g.bad.getLsbD l = f.bad.getLsbD l) ∧
        ∃ p, g.c.queues[n]? = some p ∧
          if left = 0 then p.head = (q.head + 1) % q.cap ∧ p.count = q.count - 1 ∧ p.popped = q.popped + 1
          else p = q ∧ (Memory.wf f.c.scratch = true → (g.c.headRow n).2.1 = left)) ∧
  (∀ (x : Cx) (n fuel : Nat) (f : Filling),
    (f.need = [] ∨ ∀ q, f.c.queues[n]? = some q → q.readyFor x.ref.warp = false) → x.fillFrom n fuel f = f)

/-! # Memory -/

namespace Sys2Proof.Claims

open Sys2Proof.Machine

/-- The addresses of a global form after R226, then the checks of its active lanes (R238): the instruction traps, faults, or
goes on with the lanes' leaves. -/
inductive Access where
  | trap (w : Warp)
  | fault (f : MemFault)
  | go (w : Warp) (lanes : List (Nat × Nat × List Leaf))

def access (x : Cx) (k : Acc4) (a : MemArgs) : Access :=
  match x.agree (x.globalAddrs a) with
  | .error w => .trap w
  | .ok (w, addrs) =>
    match x.checkLanes k addrs (2 ^ a.sz.toNat) with
    | .error f => .fault f
    | .ok lanes => .go w lanes

/-- R225: the words that a lane's access reads. -/
def loaded (x : Cx) (n : Nat) (sx : Bool) (sib : Option Nat) (va : Nat) (leaves : List Leaf) : List (Word × Bool) :=
  wordsOfParts n sx ((accessParts va n leaves).map (x.s.readPart x.agent sib))

/-- R227 to R230: the lanes of a scratchpad form that complete, with their addresses, and those switched off; the warp records
them. None when no group stands in the slot. -/
def windowed (x : Cx) (a : MemArgs) (stores : Bool) : Option (Except Warp (Warp × List (Nat × Nat) × Mask)) :=
  let slot := match a.base with
    | .slot g => g.toNat
    | .glob _ => 0
  (x.c.slotGroup x.w slot).map fun g => (x.agree (x.windowOffsets a)).map fun r =>
    let cause (l : Nat) : Nat := laneCause x.c g.2 (r.2.getD l 0) (2 ^ a.sz.toNat) stores
    let good := (maskLanes x.act).filter fun l => cause l == 0
    let bad := (maskLanes x.act).filter fun l => cause l != 0
    let off := maskOf fun l => bad.contains l
    (r.1.recordLaneFault off (BitVec.ofNat 3 ((bad.map cause).getLastD 0)), good.map fun l => (l, g.2.base + (r.2.getD l 0).toNat), off)

/-- R242: an atomic on the scratchpad, thread by thread: the crew after it and what each lane receives. -/
def scratchAtomic (x : Cx) (a : MemArgs) (good : List (Nat × Nat)) : Crew × List (Nat × List (Word × Bool)) :=
  let n := 2 ^ a.sz.toNat
  let datum := x.datum a (if a.aop == 10 then 2 * max 1 (n / 4) else max 1 (n / 4))
  (if x.triple then good.filter (·.1 % 3 == 0) else good).foldl (fun r t =>
    let parts := (List.range (n / 4)).map fun k => r.1.scratchRead (t.2 + 4 * k) 4
    let d := atomParts a.aop n (datum t.1)
    let new := leBytes n (atomNew a.aop n (leNat (parts.flatMap (·.1))) d.1 d.2)
    ((r.1.scratchWrite t.2 new (parts.any (·.2) && a.aop != 9)).clearShadow t.2 n,
      r.2 ++ (if x.triple then [t.1, t.1 + 1, t.1 + 2] else [t.1]).map fun l => (l, wordsOfParts n false parts)))
    (x.c, [])

/-- Rows from what each lane receives. -/
def rowsFrom (a : MemArgs) (got : List (Nat × List (Word × Bool))) : List (Row × Mask) :=
  rowsOfLanes (max 1 (2 ^ a.sz.toNat / 4)) fun l => (got.find? (·.1 == l)).map (·.2)

/-- R225, R226: where the atomic of a lane acts: per location, the lanes that receive its old value, and the physical address. In
single mode each lane acts once, on a triple page on every frame with the old value of frame 0; in triple mode a lane acts on its
sibling's frame of a triple page, and elsewhere the first sibling acts for its thread. -/
def atomTargets (x : Cx) (t : Nat × Nat × List Leaf) : List (List Nat × Nat) :=
  let at_ (leaf : Leaf) (k : Nat) : Nat := leaf.phys (leaf.frameNo k) (t.2.1 - leaf.va)
  match t.2.2 with
  | [] => []
  | leaf :: _ =>
    if x.triple then
      if leaf.layout = .triple then [([t.1], at_ leaf (t.1 % 3))]
      else if t.1 % 3 = 0 then [([t.1, t.1 + 1, t.1 + 2], at_ leaf 0)] else []
    else if leaf.layout = .triple then [([t.1], at_ leaf 0), ([], at_ leaf 1), ([], at_ leaf 2)]
    else [([t.1], at_ leaf 0)]

/-- R234, R242: the locations of the lane `l` one after the other: the old value is read at the home, `atomNew` of it is written, and
the receiving lanes get the old value; a location keeps its poison under an operation that uses the old value. -/
def atomRun (x : Cx) (a : MemArgs) (l : Nat) : List (List Nat × Nat) → State → State × List (Nat × List (Word × Bool))
  | [], s => (s, [])
  | (lanes, pa) :: ts, s =>
    let n := 2 ^ a.sz.toNat
    let parts := (List.range (n / 4)).map fun k => s.physRead { x.agent with core := none } (pa + 4 * k) 4
    let d := atomParts a.aop n (x.datum a (if a.aop == 10 then 2 * max 1 (n / 4) else max 1 (n / 4)) l)
    let new := leBytes n (atomNew a.aop n (leNat (parts.flatMap (·.1))) d.1 d.2)
    let r := atomRun x a l ts (s.physWrite x.agent pa new (parts.any (·.2) && a.aop != 9))
    (r.1, lanes.map (fun k => (k, wordsOfParts n false parts)) ++ r.2)

/-- The active lanes in ascending order. -/
def atomsRun (x : Cx) (a : MemArgs) : List (Nat × Nat × List Leaf) → State → State × List (Nat × List (Word × Bool))
  | [], s => (s, [])
  | t :: ts, s =>
    let r := atomRun x a t.1 (atomTargets x t) s
    let q := atomsRun x a ts r.1
    (q.1, r.2 ++ q.2)

/-- R419: a write of the launch to the page of this leaf takes no snapshot first. -/
def unsnapped (l : Launch) (page : Leaf) : Prop :=
  l.replay = false ∨ l.unreplayable = true ∨ ∃ h ∈ l.snapshots, h.page = page.va

/-- A warp that waits at its compare point (R424). -/
def atPoint (x : Cx) : State :=
  (x.s.modWarp x.ref fun w => { w with compare := some x.w.stores, passed := false }).blockWarp x.ref .fence

end Sys2Proof.Claims

/-- R219, R225, R226, R235, R238, R243: `ld` completes with each active lane's words in its destination and `ldu` with one datum for
the warp in consecutive scalars; a scalar is poisoned by a word that is. Nothing but caches changes beside the destination: no other
register, control register, binding, split or flag. Addresses that siblings dispute trap with code 5 when ADDRDIS is enabled, and a
lane that faults stops the instruction before any effect. The lanes in the record of a fault of `ldu` (log 34) and the mean that a load
of BF16 from a mean-digits page makes (log 72) are the model's readings. -/
def Obligations.GlobalLoads : Prop :=
  ∀ (s : State) (c : Ctl) (a : MemArgs) (x : Cx),
    let n := 2 ^ a.sz.toNat
    (s.ready (.ld c a) = some x →
      match Claims.access x .load a with
      | .trap w => exec (.ld c a) s = .next (s.takeTrap x.ref w 5 0 x.sp.pc)
      | .fault f => exec (.ld c a) s = .next (s.faultWarp x.ref f)
      | .go w lanes => ∃ e, e.uncached = s.uncached ∧
          s.delivers (.ld c a) x e w a.dst x.act
            (Claims.rowsFrom a (lanes.map fun t =>
              (t.1, Claims.loaded x n a.sx (if x.triple then some (t.1 % 3) else none) t.2.1 t.2.2))) 0) ∧
    (s.ready (.ldu c a) = some x →
      let base : DWord := match a.base with
        | .glob r => x.scal64 r
        | .slot _ => 0
      let va := (((base.toNat : Int) + ((x.scal a.index).toNat * 2 ^ a.scl.toNat : Nat) + MemArgs.offset a) % 2 ^ 49).toNat
      match s.checkLane x.l.ctx .load va n false with
      | .error f => exec (.ldu c a) s = .next (s.faultWarp x.ref (x.memFault .load f.1 f.2.1 f.2.2 x.act))
      | .ok leaves =>
        let ws := Claims.loaded x n a.sx none va leaves
        ∃ e v, e.uncached = s.uncached ∧ s.issues (.ldu c a) x e (x.next v) true [] none ∧
          v = { x.w with scalars := v.scalars, scalarPoison := v.scalarPoison } ∧
          (∀ k, a.dst = .s k → ∀ j, j < ws.length →
            (k.val + j < x.w.scalars.length → v.scalar (k.val + j) = (ws.getD j (0, false)).1) ∧
            (k.val + j ∈ v.scalarPoison ↔ (ws.getD j (0, false)).2 = true)) ∧
          (∀ m, (∀ k, a.dst = .s k → m < k.val ∨ k.val + ws.length ≤ m) →
            v.scalar m = x.w.scalar m ∧ (m ∈ v.scalarPoison ↔ m ∈ x.w.scalarPoison)))

/-- R225, R226, R233, R238, R419, R422 to R424: `st` performs the writes of its lanes in ascending order. Bytes outside them,
and outside those of its launch's hold, which a store may drain (R419), stay as they are, unless the launch must take a snapshot of
a page first, which fills its pool. A store of a launch that is neither replayable nor paired reaches memory at once. A store of a
paired launch enters its warp's signature, and waits while the hold has no room (the model's choices: logs 9, 24, 32). -/
def Obligations.GlobalStores : Prop :=
  ∀ (s : State) (c : Ctl) (a : MemArgs) (x : Cx), s.ready (.st c a) = some x →
    match Claims.access x .store a with
    | .trap w => exec (.st c a) s = .next (s.takeTrap x.ref w 5 0 x.sp.pc)
    | .fault f => exec (.st c a) s = .next (s.faultWarp x.ref f)
    | .go w lanes =>
      let n := 2 ^ a.sz.toNat
      let ws := x.storeWrites n (x.datum a (max 1 (n / 4))) lanes
      let bytes := (ws.map (·.2.2.data.length)).sum
      let v := if x.l.paired then { w with sig := ws.foldl (fun c p => signWrite c p.2.2) w.sig, stores := w.stores + 1 } else w
      (x.l.paired = false ∨ x.holdRoom bytes = .room →
        ∃ e, s.issues (.st c a) x e (x.next v) true [] none ∧ e.crews = s.crews ∧
          ((∀ p ∈ ws, Claims.unsnapped x.l p.1) → ∀ b, (∀ p ∈ ws, outside b p.2.2.pa p.2.2.data.length) →
            (∀ h ∈ x.l.hold, outside b h.pa h.data.length) → Memory.read e.mem b = Memory.read s.mem b) ∧
          (x.l.replay = true → (∀ p ∈ ws, isDram p.2.2.pa = true → ∃ l, e.launch? x.l.id = some l ∧
            (l.unreplayable = true ∨ ∃ h ∈ l.snapshots, h.page = p.1.va))) ∧
          (x.l.paired = false → x.l.replay = false →
            e.uncached = (ws.foldl (fun e p => e.physWrite x.agent p.2.2.pa p.2.2.data p.2.2.bad) s).uncached)) ∧
      (x.l.paired = true → x.holdRoom bytes = .full → exec (.st c a) s =
        .next ((s.modWarp x.ref fun w => { w with compare := none, passed := false }).blockWarp x.ref .fence)) ∧
      (x.l.paired = true → x.holdRoom bytes = .overflow → exec (.st c a) s = .next { s.endLaunch x.l.id 25 with turn := none })

/-- R233, R394: a physical write to device or host memory is read back byte for byte, and no other byte changes. R197,
R198, R232: a scratchpad write is read back and leaves every other byte and every other part of its crew but the poison of
its words. -/
def Obligations.BytesWritten : Prop :=
  (∀ (s : State) (ag : Agent) (pa : Nat) (data : List Byte) (bad : Bool), s.memOk →
    (∀ b, outside b pa data.length → Memory.read (s.physWrite ag pa data bad).mem b = Memory.read s.mem b) ∧
    ((isDram pa = true ∨ region pa = .host) → ∀ k, k < data.length →
      Memory.read (s.physWrite ag pa data bad).mem (pa + k) = data.getD k 0)) ∧
  (∀ (c : Crew) (o : Nat) (data : List Byte) (bad : Bool), Memory.wf c.scratch = true →
    (∀ k, k < data.length → Memory.read (c.scratchWrite o data bad).scratch (o + k) = data.getD k 0) ∧
    (∀ b, outside b o data.length → Memory.read (c.scratchWrite o data bad).scratch b = Memory.read c.scratch b) ∧
    Memory.wf (c.scratchWrite o data bad).scratch = true ∧
    { c.scratchWrite o data bad with scratch := c.scratch, scratchPoison := c.scratchPoison } = c)

/-- R225, R226, R234, R242, R419, R424: `atom` and `red` act at the home once per thread and location, in ascending lane order: each
reads the old value and writes the new one, which the operation makes of the old value and the lane's data; `atom` gives each lane
the value before, `red` writes no register, and memory elsewhere is as before. In a paired launch both copies come to a compare
point first, the primary acts and the shadow receives its values, waiting for them under `red` too (the model's choices: logs 14,
33). -/
def Obligations.GlobalAtomics : Prop :=
  ∀ (s : State) (i : Instr) (c : Ctl) (a : MemArgs) (reads : Bool) (x : Cx),
    i = (if reads then .atom c a else .red c a) → s.ready i = some x →
      match Claims.access x (if reads then .atomic else .reduce) a with
      | .trap w => exec i s = .next (s.takeTrap x.ref w 5 0 x.sp.pc)
      | .fault f => exec i s = .next (s.faultWarp x.ref f)
      | .go w lanes =>
        let act := x.performAtom a lanes
        let rows := Claims.rowsFrom a act.2
        let after (e : State) : State := x.acquire e (MemArgs.acquires a) (MemArgs.scope a)
        let ends (e : State) (rows : List (Row × Mask)) : Prop :=
          if reads then s.delivers i x e w a.dst x.act rows 0 else s.issues i x e (x.next w) true [] none
        (x.l.paired = false → x.l.replay = false → act.2 = (Claims.atomsRun x a lanes s).2 ∧
          act.1.uncached = (Claims.atomsRun x a lanes s).1.uncached) ∧
        ((∀ t ∈ lanes, ∀ p ∈ t.2.2, Claims.unsnapped x.l p) → ∀ b,
          (∀ t ∈ lanes, ∀ u ∈ Claims.atomTargets x t, outside b u.2 (2 ^ a.sz.toNat)) →
          (∀ h ∈ x.l.hold, outside b h.pa h.data.length) → Memory.read act.1.mem b = Memory.read s.mem b) ∧
        (x.l.paired = false → ends (after act.1) rows) ∧
        (x.l.paired = true → x.w.passed = false → exec i s = .next (Claims.atPoint x)) ∧
        (x.l.paired = true → x.w.passed = true → x.ref.crew.shadow = false →
          ends (after (act.1.modWarp (twinOf x.ref) fun t => { t with given := some (rows.map (·.1)) })) rows) ∧
        (x.l.paired = true → x.w.passed = true → x.ref.crew.shadow = true →
          (x.w.given = none → exec i s = .next s) ∧ ∀ g, x.w.given = some g → ends (after s) (g.map fun r => (r, 0)))

/-- R227 to R230, R242, R383, R384: `lds`, `sts` and `atoms` act in the lanes whose bytes lie in their group's window, are
aligned and, for a write, touch no queue descriptor; the others are switched off and recorded. Where what resumes in the place of
the lanes that leave needs the window to move, the warp blocks for it, and the band moves as the instruction completes (log 22). The
unit of poison is log 14, the race record of an instruction log 33. -/
def Obligations.ScratchpadAccess : Prop :=
  ∀ (s : State) (c : Ctl) (a : MemArgs) (x : Cx),
    let n := 2 ^ a.sz.toNat
    let step := min n 4
    let all (i : Instr) (stores : Bool) (does : Warp → List (Nat × Nat) → State × Warp × Option Push) : Prop :=
      s.ready i = some x →
        match Claims.windowed x a stores with
        | none => exec i s = .next (s.takeTrap x.ref x.w 1 1 x.sp.pc)
        | some (.error w) => exec i s = .next (s.takeTrap x.ref w 5 0 x.sp.pc)
        | some (.ok (w, good, off)) =>
          let (e, v, push) := does w good
          (x.mayDrop off → s.issuesOff i x e (x.next v) off true [] push) ∧
          (off ≠ 0 → ∀ u code arg, x.dropCheck off = .trap u code arg →
            exec i s = .next (s.takeTrap x.ref u code arg x.sp.pc)) ∧
          ∀ b, off ≠ 0 → x.dropCheck off = .move b →
            (x.w.moved ≠ some b → exec i s = .next (s.blockWarp x.ref (.move b false))) ∧
            ∀ t u, x.movedTo b (e.modWarp x.ref fun _ => v) t → t.warp? x.ref = some u →
              s.issuesOff i x t (x.next u) off true [] push
    all (.lds c a) false (fun w good =>
      let m := maskOf fun l => good.any (·.1 == l)
      let rows := Claims.rowsFrom a (good.map fun t =>
        (t.1, wordsOfParts n a.sx ((List.range (n / step)).map fun k => x.c.scratchRead (t.2 + k * step) step)))
      (x.raceCheck s false good n, x.landed w a.dst m rows, pushedRow a.dst m rows)) ∧
    all (.sts c a) true (fun w good =>
      let who := if x.triple then good.filter (·.1 % 3 == 0) else good
      ((x.raceCheck s true who n).modCrew x.ref.crew fun c =>
        who.foldl (fun c t => c.scratchWrite t.2 ((x.datum a (max 1 (n / 4)) t.1).take n) false) c, w, none)) ∧
    all (.atoms c a) true (fun w good =>
      let r := Claims.scratchAtomic x a good
      let m := maskOf fun l => good.any (·.1 == l)
      (s.modCrew x.ref.crew fun _ => r.1, x.landed w a.dst m (Claims.rowsFrom a r.2),
        pushedRow a.dst m (Claims.rowsFrom a r.2)))

/-- R134 to R136, R218, R219, R244: `pref` and `cctl` change caches alone and raise no memory fault. Addresses that siblings dispute
trap with code 5 when ADDRDIS is enabled. -/
def Obligations.CacheHints : Prop :=
  ∀ (s : State) (c : Ctl) (a : MemArgs) (x : Cx),
    (s.ready (.pref c a) = some x →
      match x.agree (x.globalAddrs a) with
      | .error w => exec (.pref c a) s = .next (s.takeTrap x.ref w 5 0 x.sp.pc)
      | .ok (w, _) => ∃ e, e.uncached = s.uncached ∧ s.issues (.pref c a) x e (x.next w) false [] none) ∧
    (s.ready (.cctl c a) = some x →
      match x.agree (x.globalAddrs a) with
      | .error w => exec (.cctl c a) s = .next (s.takeTrap x.ref w 5 0 x.sp.pc)
      | .ok (w, _) => ∃ e, e.uncached = s.uncached ∧ s.issues (.cctl c a) x e (x.next w) true [] none)

/-! # Ordering, synchronisation and grace periods -/

namespace Sys2Proof.Claims

open Sys2Proof.Machine

/-- R271: a fence's acquire half, release half and scope. -/
def fenceOf : Instr → Option (Bool × Bool × Scope)
  | .fenceAcq _ sc => some (true, false, sc)
  | .fenceRel _ sc => some (false, true, sc)
  | .fenceAcqrel _ sc => some (true, true, sc)
  | .fenceSc _ sc => some (true, true, sc)
  | .fenceAsync _ => some (false, false, .warp)
  | _ => none

/-- What a barrier instruction does to its crew when the barrier allows it: the operand, whether it must be valid, and its
effect on group `g`; none when the barrier is not to be set up again (R272). -/
def barrierOp (x : Cx) : Instr → Option (BarName × Bool × (Nat → Barrier → Option (Crew → Crew)))
  | .barinit _ b n => some (b, false, fun g r =>
      if r.arrived == 0 && r.pend == 0 then
        some fun c => (c.modBarrier g b.bar.toNat fun r => { r with expect := n, inv := false }).settleBarrier g b.bar.toNat
      else none)
  | .barinitInv _ b => some (b, false, fun g _ => some fun c =>
      let d := c.modBarrier g b.bar.toNat fun r => { r with inv := true, arrived := 0, pend := 0 }
      { d with arrivals := d.arrivals.filter fun a => !(a.group == g && a.bar == b.bar.toNat) }.wakeOnBarrier g b.bar.toNat)
  | .bararr _ b => some (b, true, fun g _ => some fun c =>
      { c with arrivals := c.arrivals ++ [⟨g, b.bar.toNat, x.ref.warp, x.s.storing x.core x.ref⟩] })
  | _ => none

/-- R266, R267: a barrier after a change: with its arrivals complete and no bytes pending it changes phase. -/
def settled (r : Barrier) : Barrier :=
  if r.inv = false ∧ r.expect.toNat ≤ ((List.range 64).filter r.arrived.getLsbD).length ∧ r.pend = 0 then
    { r with ph := !r.ph, arrived := 0 }
  else r

end Sys2Proof.Claims

/-- R235, R258, R271, R342, R424: the fences. A fence waits until the stores of the warp's earlier `tst` and `asave` have landed. An
acquire of die scope or wider empties the core's L1 and its die's remote-data cache; a release at `.dev` or `.sys` scope is a compare
point of a paired launch. That every other access has been performed when its instruction issued is the model's reading (log 9), and
which stores a compare point covers is log 44. -/
def Obligations.Fences : Prop :=
  (∀ (s : State) (i : Instr) (x : Cx) (acq rel : Bool) (sc : Scope),
    s.ready i = some x → Claims.fenceOf i = some (acq, rel, sc) →
      let wide := sc = .dev ∨ sc = .sys
      let point := rel = true ∧ wide ∧ x.l.paired = true ∧ x.w.passed = false
      (s.storing x.core x.ref ≠ [] → exec i s = .next s) ∧
      (s.storing x.core x.ref = [] → point → exec i s = .next (Claims.atPoint x)) ∧
      (s.storing x.core x.ref = [] → ¬ point →
        s.issues i x (if acq = true ∧ (sc = .die ∨ wide) then s.invalidate x.core else s) (x.next x.w) true [] none)) ∧
  (∀ (s : State) (n : Nat), ((s.invalidate n).coreAt n).l1 = [] ∧ (s.invalidate n).uncached = s.uncached ∧
    ∀ d, (s.invalidate n).dies[dieOfCore n]? = some d → d.rdc = [])

/-- R268, R270, R272 to R274: `barinit`, `barinit.inv` and `bararr` change one barrier of their group, and complete at issue. An
operand that names none traps with code 1, and an invalid barrier, or one in use that is set up again, with code 12. What the
argument names and what a change of EXPECT completes are the model's reading (log 21). -/
def Obligations.BarrierChanges : Prop :=
  ∀ (s : State) (i : Instr) (x : Cx) (b : BarName) (valid : Bool) (f : Nat → Barrier → Option (Crew → Crew)),
    s.ready i = some x → Claims.barrierOp x i = some (b, valid, f) →
      match x.c.barrierOf x.w b with
      | none => exec i s = .next (s.takeTrap x.ref x.w 1 1 x.sp.pc)
      | some (g, r) =>
        let byte := b.slot.toNat * 64 + b.bar.toNat * 4
        if valid = true ∧ r.inv = true then exec i s = .next (s.takeTrap x.ref x.w 12 byte x.sp.pc)
        else match f g r with
          | none => exec i s = .next (s.takeTrap x.ref x.w 12 byte x.sp.pc)
          | some f => s.issues i x ((x.put x.w).modCrew x.ref.crew f) (x.next x.w) false [] none

/-- R275: `bartx` adds the value of its scalar, as a 32-bit natural number, or its immediate to the barrier's pending bytes modulo
2^48, and the barrier then settles (R266); caches and memory stay. A barrier that is not there traps with code 1, an invalid one
with code 12. -/
def Obligations.TransactionBytes : Prop :=
  ∀ (s : State) (c : Ctl) (b : BarName) (a : Spec) (ib : Bool) (imm : BitVec 24) (x : Cx), s.ready (.bartx c b a ib imm) = some x →
    match x.c.barrierOf x.w b with
    | none => exec (.bartx c b a ib imm) s = .next (s.takeTrap x.ref x.w 1 1 x.sp.pc)
    | some (g, r) =>
      (r.inv = true → exec (.bartx c b a ib imm) s = .next (s.takeTrap x.ref x.w 12 (b.slot.toNat * 64 + b.bar.toNat * 4) x.sp.pc)) ∧
      (r.inv = false → ∃ k, s.issues (.bartx c b a ib imm) x (s.modCrew x.ref.crew k) (x.next x.w) false [] none ∧
        ((k x.c).groups[g]?).bind (fun q => q.bars[b.bar.toNat]?) =
          some (Claims.settled { r with pend := r.pend + BitVec.ofNat 48 (if ib then imm.toNat else (x.scal a).toNat) }) ∧
        (k x.c).scratch = x.c.scratch ∧ (k x.c).warps.map (·.bank) = x.c.warps.map (·.bank))

/-- R31, R268, R270, R274: `barwait` completes when the phase bit has the value it names, and else blocks, unissued; an operand that
names no barrier traps with code 1, an invalid barrier with code 12. R266, R267: a barrier whose arrivals reach its count with no bytes
pending changes phase and forgets its arrivals. -/
def Obligations.BarrierWaits : Prop :=
  (∀ (s : State) (c : Ctl) (b : BarName) (ph : Bool) (x : Cx), s.ready (.barwait c b ph) = some x →
    match x.c.barrierOf x.w b with
    | none => exec (.barwait c b ph) s = .next (s.takeTrap x.ref x.w 1 1 x.sp.pc)
    | some (_, r) =>
      (r.inv = true → exec (.barwait c b ph) s = .next (s.takeTrap x.ref x.w 12 (barByte b ph) x.sp.pc)) ∧
      (r.inv = false → r.ph = ph → s.issues (.barwait c b ph) x s (x.next x.w) true [] none) ∧
      (r.inv = false → r.ph ≠ ph → exec (.barwait c b ph) s = .next (s.blockWarp x.ref (.barrier b ph)))) ∧
  (∀ (c : Crew) (g b : Nat) (gr : Group) (r : Barrier), c.groups[g]? = some gr → gr.bars[b]? = some r →
    ((c.settleBarrier g b).groups[g]?).bind (fun gr => gr.bars[b]?) = some (Claims.settled r) ∧
    (c.settleBarrier g b).gen = (if (Claims.settled r).ph ≠ r.ph then c.gen + 1 else c.gen))

/-- R268, R276 to R278: `wait` answers with the mask of the conditions that held, and with its predicate true where the deadline
ended it; until then it blocks, with the deadline that its first attempt set. R277: what one evaluation of a `wait`
answers: bit n of the mask for condition n, and an end by the conditions before an end by the deadline. What a `wait` without a used
slot ends by is log 21, and the words that it reads log 35. -/
def Obligations.Waits : Prop :=
  (∀ (s : State) (c : Ctl) (a : WaitArgs) (x : Cx), s.ready (.wait c a) = some x →
    let k : Watch := ⟨s, x.l.ctx, x.c, x.w, x.ref⟩
    let slots := [(0, a.c0), (1, a.c1), (2, a.c2), (3, a.c3)]
    let deadline := match x.w.deadline with
      | some d => d
      | none => k.deadline a
    (x.w.waitHit = none → ∀ t ∈ slots, (if x.w.deadline = none then x.checkCond t.2 else x.checkPhase t.2).isNone) →
      match x.w.waitHit.or (k.evaluate a deadline) with
      | some (h, late) =>
        let w := x.writeScal x.w a.dst (BitVec.ofNat 32 h)
        s.issues (.wait c a) x
          (if slots.any fun t => h.testBit t.1 && condAcquires t.2 then s.invalidate x.core else s)
          (x.next (if a.tp = 7 then w else x.writePred w a.tp x.act (if late then BitVec.allOnes 48 else 0))) true [] none
      | none => exec (.wait c a) s =
          .next ((s.modWarp x.ref fun w => { w with deadline := some deadline }).blockWarp x.ref (.wait (WaitArgs.used a) a.all))) ∧
  (∀ (k : Watch) (a : WaitArgs) (d : Option DWord),
    let conds := [a.c0, a.c1, a.c2, a.c3]
    let used := conds.filter fun c => c != .none
    let passed := ∃ t, d = some t ∧ t.toNat ≤ k.s.clock.tick.toNat
    let met := if used = [] then d = none else if a.all then ∀ c ∈ used, k.holds c = true else ∃ c ∈ used, k.holds c = true
    (∀ h late, k.evaluate a d = some (h, late) → (∀ n, h.testBit n = (decide (n < 4) && k.holds (conds.getD n .none))) ∧
      (late = false ↔ met)) ∧
    (k.evaluate a d = none ↔ ¬ met ∧ ¬ passed))

/-- R280 to R283, R288, R289, R293, R294, R296: `rdenter` and `rdexit` count a section's depth and tell the grace home when it
begins and ends; `gstart` sends a start whose number comes back later; `gsync` sends one and blocks until its period is complete;
`dfree` sends one with its entry, and blocks while 4096 entries wait. An `rdenter` acquires when the core's copy of `CUR` has
advanced since its last one. The depth change of an `rdexit` names the stores of its warp that it follows (R292). In a paired launch
each of the last four is a compare point first (R424). -/
def Obligations.GraceSections : Prop :=
  ∀ (s : State) (c : Ctl) (dst a len : Spec) (q : BitVec 3) (x : Cx),
    let k := x.graceCopy
    let free := x.l.paired = false ∨ x.w.passed = true
    (s.ready (.rdenter c) = some x →
      (x.w.depth = 255 → exec (.rdenter c) s = .next (s.takeTrap x.ref x.w 1 1 x.sp.pc)) ∧
      let e := if k.seen = k.cur then s
        else (s.invalidate x.core).modGrace x.l.ctx fun g => g.modCopy x.core fun k => { k with seen := k.cur }
      (x.w.depth ≠ 255 → x.w.depth ≠ 0 → s.issues (.rdenter c) x e (x.next { x.w with depth := x.w.depth + 1 }) true [] none) ∧
      (x.w.depth = 0 → s.issues (.rdenter c) x
        (e.modGrace x.l.ctx fun g => { g with depths := g.depths ++ [.depth x.ref (some k.cur) [] 0] })
        (x.next { x.w with depth := 1, tag := k.cur }) true [] none)) ∧
    (s.ready (.rdexit c) = some x →
      (x.w.depth = 0 → exec (.rdexit c) s = .next (s.takeTrap x.ref x.w 1 1 x.sp.pc)) ∧
      (x.w.depth ≠ 0 → free → s.issues (.rdexit c) x
        (if x.w.depth = 1 then s.modGrace x.l.ctx fun g => { g with depths := g.depths ++ [.depth x.ref none (s.storing x.core x.ref) x.w.stores] } else s)
        (x.next { x.w with depth := x.w.depth - 1 }) false [] none)) ∧
    (s.ready (.gstart c dst) = some x → free → s.issues (.gstart c dst) x
      (s.modGrace x.l.ctx fun g => { g with starts := g.starts ++ [.start x.ref none] }) (x.next x.w) true [] none) ∧
    (s.ready (.gsync c dst) = some x →
      (x.w.depth ≠ 0 → exec (.gsync c dst) s = .next (s.takeTrap x.ref x.w 1 1 x.sp.pc)) ∧
      (x.w.depth = 0 → x.w.graceSent = false → free → exec (.gsync c dst) s =
        .next (((s.modGrace x.l.ctx fun g => { g with starts := g.starts ++ [.start x.ref none] }).modWarp x.ref fun w =>
          { w with graceSent := true }).blockWarp x.ref (.grace 0))) ∧
      (x.w.depth = 0 → x.w.graceSent = true → ∀ n, x.w.graceWait = some n →
        if n.toNat ≤ k.done.toNat then
          s.issues (.gsync c dst) x (s.invalidate x.core) (x.next (x.writeScal64 x.w dst n)) true [] none
        else exec (.gsync c dst) s = .next (s.blockWarp x.ref (.grace n))) ∧
      (x.w.depth = 0 → x.w.graceSent = true → x.w.graceWait = none →
        exec (.gsync c dst) s = .next (s.blockWarp x.ref (.grace 0)))) ∧
    (s.ready (.dfree c a len q) = some x →
      match x.w.binding q with
      | none => exec (.dfree c a len q) s = .next (s.takeTrap x.ref x.w 1 1 x.sp.pc)
      | some b =>
        (x.grace.freeCount < 4096 → free → s.issues (.dfree c a len q) x
          (s.modGrace x.l.ctx fun g => { g with starts := g.starts ++
            [.start x.ref (some (x.scal64 a, x.scal len, ⟨x.ref.crew, b.queue⟩))] }) (x.next x.w) true [] none) ∧
        (x.grace.freeCount < 4096 → ¬ free → exec (.dfree c a len q) s = .next (Claims.atPoint x)) ∧
        (4096 ≤ x.grace.freeCount → exec (.dfree c a len q) s =
          .next (s.blockWarp x.ref (.grace (((x.grace.frees.head?).map (·.entry.num)).getD 0))))) ∧
    (¬ free →
      (s.ready (.rdexit c) = some x → x.w.depth ≠ 0 → exec (.rdexit c) s = .next (Claims.atPoint x)) ∧
      (s.ready (.gstart c dst) = some x → exec (.gstart c dst) s = .next (Claims.atPoint x)) ∧
      (s.ready (.gsync c dst) = some x → x.w.depth = 0 → x.w.graceSent = false →
        exec (.gsync c dst) s = .next (Claims.atPoint x)))

/-! # Copies -/

namespace Sys2Proof.Claims

open Sys2Proof.Machine

/-- R297: the form of a copy instruction and its operands. -/
def copyOf : Instr → Option (CopyArgs × CopyForm)
  | .cpyLoad _ a => some (a, .linear true)
  | .cpyStore _ a => some (a, .linear false)
  | .cpytLoad _ a => some (a, .rect true)
  | .cpytStore _ a => some (a, .rect false)
  | .cpym _ a sp => some (a, .multicast sp)
  | .cpyfLoad _ a => some (a, .fabric true)
  | .cpyfStore _ a => some (a, .fabric false)
  | _ => none

/-- R298, R299, R308: the copy that is handed over. -/
def newCopy (x : Cx) (a : CopyArgs) (f : CopyForm) (gi : Nat) (g : Group) : Copy :=
  let o := x.octet a.oct
  { crew := x.ref.crew, warp := x.ref.warp, ctx := x.l.ctx, group := gi, bar := a.bar.bar.toNat
    handle := BitVec.ofNat 32 (gi + g.serial.toNat * 256), kind := f.kind o, glob := o.g, win := o.s, len := o.total f
    mark := if a.pm then some (o.po, o.pv) else none
    receivers := copyReceivers f o x.ref.crew, suspended := none, aperture := none, store := none }

/-- R310, R311: the barrier of a copy in a crew can take what a cancellation subtracts: the crew stands and its barrier is valid. -/
def takes (s : State) (k : Copy) (r : CrewRef) : Prop := ∃ c b, s.crew? r = some c ∧ k.barrierIn c = some b ∧ b.inv = false

/-- R304, R311: what a cancellation takes off the pending count of a copy's barrier in a crew: the bytes of the units that the crew, as
a receiver, has not counted, and in the sender of a multicast one for every receiver that has not been acknowledged. -/
def takenOff (k : Copy) (r : CrewRef) : Nat :=
  let left := k.receivers.filter fun v => !v.finished
  ((left.filter (·.crew == r)).map fun v =>
    (((List.range k.units).filter fun u => !v.counted.contains u).map fun u => min 128 (k.len - 128 * u)).sum).sum +
    (if k.multicasts && r == k.crew then left.length else 0)

end Sys2Proof.Claims

/-- R297 to R301, R423: a copy is checked in order — its barrier operand (code 1), its producer (11, 0), the barrier's validity
(12), a confirmed launch for a multicast (11, 1), its octet (1) — waits while the core's 64 places are taken, and is then handed
over: its handle reaches the destination and the group's serial number advances. What of a store copy enters the signature of a paired
warp is the model's reading (log 32). Of `cpy.load`, `cpy.store`, `cpyt.load`,
`cpyt.store`, `cpym`, `cpyf.load`, `cpyf.store`. -/
def Obligations.CopiesHandedOver : Prop :=
  ∀ (s : State) (i : Instr) (x : Cx) (a : CopyArgs) (f : CopyForm),
    s.ready i = some x → Claims.copyOf i = some (a, f) →
      match x.c.barrierOf x.w a.bar, x.c.slotGroup x.w a.bar.slot.toNat with
      | some (gi, b), some (_, g) =>
        if g.producer ≠ some x.ref.warp then exec i s = .next (s.takeTrap x.ref x.w 11 0 x.sp.pc)
        else if b.inv = true then exec i s = .next (s.takeTrap x.ref x.w 12 (barByte a.bar false) x.sp.pc)
        else if f.multi = true ∧ x.l.confirmed = false then exec i s = .next (s.takeTrap x.ref x.w 11 1 x.sp.pc)
        else if (x.octet a.oct).legal f a.pm x.c g x.l.count = false then
          exec i s = .next (s.takeTrap x.ref x.w 1 1 x.sp.pc)
        else if 64 ≤ (s.coreAt x.core).copies.length then exec i s = .next s
        else
          let c := Claims.newCopy x a f gi g
          let signs := x.l.paired && f.store
          let w := if signs then { s.copySign c x.w with stores := x.w.stores + 1 } else x.w
          let c := if signs then { c with store := some (w.stores, w.sig) } else c
          s.issues i x
            (((s.modCore x.core fun k => { k with copies := k.copies ++ [c] }).modWarp x.ref fun _ =>
              x.writeScal w a.dst c.handle).modCrew x.ref.crew fun k => k.modGroup gi fun g => { g with serial := g.serial + 1 })
            (x.next (x.writeScal w a.dst c.handle)) true [] none
      | _, _ => exec i s = .next (s.takeTrap x.ref x.w 1 1 x.sp.pc)

/-- R304, R311: `cpycan` answers 0 for a copy that is not in progress, and else cancels it and answers 1: the copy is off its core,
none of its units that were not counted is counted any more, and each barrier that the copy counts on loses what was still to be
counted there: the bytes, and the acknowledgements of a multicast. A barrier that is gone or invalid drops the subtraction: an entry
goes to the log of the die, or is counted as lost, and the launch ends with status 22; that R310 and R313 hold for a cancellation is
the model's reading (log 40), and so is whose die it is (log 37). What the bytes of the uncounted units hold then is log 12. -/
def Obligations.CopyCancelled : Prop :=
  ∀ (s : State) (c : Ctl) (dst h : Spec) (x : Cx), s.ready (.cpycan c dst h) = some x →
    let handle := x.scal h
    match x.c.groups[(handle.extractLsb' 0 8).toNat]? with
    | none => exec (.cpycan c dst h) s = .next (s.takeTrap x.ref x.w 1 1 x.sp.pc)
    | some g =>
      if g.producer ≠ some x.ref.warp then exec (.cpycan c dst h) s = .next (s.takeTrap x.ref x.w 11 0 x.sp.pc)
      else match (s.coreAt x.core).copies.find? fun k => k.crew == x.ref.crew && k.handle == handle with
        | none => s.issues (.cpycan c dst h) x s (x.next (x.writeScal x.w dst 0)) true [] none
        | some k =>
          let e := (x.put (x.writeScal x.w dst 1)).cancelCopy x.core k
          ((e.warp? x.ref).isSome → s.issues (.cpycan c dst h) x e (x.next (x.writeScal x.w dst 1)) true [] none) ∧
          (e.warp? x.ref = none → exec (.cpycan c dst h) s = .next { e with turn := none }) ∧
          (x.l.done = none → (∀ v ∈ k.receivers, v.finished = false → Claims.takes s k v.crew) →
            (k.multicasts = true → Claims.takes s k k.crew) →
              s.issues (.cpycan c dst h) x e (x.next (x.writeScal x.w dst 1)) true [] none ∧
              (e.coreAt x.core).copies = (s.coreAt x.core).copies.filter (fun j => !(j.crew == k.crew && j.handle == k.handle)) ∧
              ∀ r f b, s.crew? r = some f → k.barrierIn f = some b → ∃ g d, e.crew? r = some g ∧ k.barrierIn g = some d ∧
                d.pend = b.pend - BitVec.ofNat 48 (Claims.takenOff k r) ∧ d.inv = b.inv ∧ d.expect = b.expect) ∧
          (x.l.done = none → (∃ v ∈ k.receivers, v.finished = false ∧
              ((¬ Claims.takes s k v.crew ∧ k.uncounted v ≠ 0) ∨ (k.multicasts = true ∧ ¬ Claims.takes s k k.crew))) →
            s.launchEnds (.cpycan c dst h) x.l.id 22) ∧
          (∀ v d, x.l.done = none → k.multicasts = false → k.receivers = [v] → v.finished = false → ¬ Claims.takes s k v.crew →
            k.uncounted v ≠ 0 → s.dies[dieOfCore x.core]? = some d → ∃ f, e.dies[dieOfCore x.core]? = some f ∧
              if 524288 ≤ (d.deadHead - d.deadTail).toNat then f.deadLost = d.deadLost + 1 ∧ f.deadHead = d.deadHead
              else f.deadHead = d.deadHead + 1 ∧ f.deadLost = d.deadLost)

/-! # Tiles and the matrix unit -/

namespace Sys2Proof.Claims

open Sys2Proof.Machine

/-- R336, R345: the crew offset of an image of `n` bytes in the window of a group, if it is aligned and inside. -/
def imageOf (x : Cx) (g : Group) (a : Spec) (off : BitVec 20) (align n : Nat) : Option Nat :=
  let o : Int := ((x.scal a).toNat : Int) + off.toInt
  if 0 ≤ o ∧ o % (align : Int) = 0 ∧ o + n ≤ g.size then some (g.base + o.toNat) else none

/-- R336, R339, R344 to R353: the operation that a tile or matrix instruction hands over once its operands are legal, whether
to the tile-load path, the row it pushes, and the scratchpad bytes that it writes. -/
def matrixWork (x : Cx) : Instr → Option (MatOp × Bool × Option Push × Option (Nat × Nat))
  | .tld _ a => do
    let g ← x.c.slotGroup x.w a.slot.toNat
    let n := a.tile.toNat
    let w := x.c.tileShape n
    let sh := shapeOf w
    if tileOk x.c g.2 n && useOk x.c g.2 sh n && srcLegal sh a.src.toNat then
      (imageOf x g.2 a.a a.off 16 ((planeTiles sh n).length * planeImage sh a.src.toNat)).map fun off =>
        ({ x.matOp with shapes := [w], tiles := planeTiles sh n, off }, true, none, none)
    else none
  | .tst _ a => do
    let g ← x.c.slotGroup x.w a.slot.toNat
    let n := a.tile.toNat
    let w := x.c.tileShape n
    let sh := shapeOf w
    let bytes := (planeTiles sh n).length * planeImage sh 0
    if tileOk x.c g.2 n && useOk x.c g.2 sh n then
      (imageOf x g.2 a.a a.off 16 bytes).map fun off =>
        ({ x.matOp with shapes := [w], tiles := planeTiles sh n, off }, true, none, some (off, bytes))
    else none
  | .mma _ a | .mdist _ a => do
    let g ← x.c.slotGroup x.w a.slot.toNat
    let wa := x.c.tileShape a.ta.toNat
    let wb := x.c.tileShape a.tb.toNat
    let sa := shapeOf wa
    let sb := shapeOf wb
    if accOk x.c g.2 a.acc.toNat && tileOk x.c g.2 a.ta.toNat && tileOk x.c g.2 a.tb.toNat && (!sa.pl || x.triple) &&
        useOk x.c g.2 sa a.ta.toNat && sb.legal && !sb.pl && fmtClass sa.fmt == fmtClass sb.fmt then
      some ({ x.matOp with shapes := [wa, wb], tiles := planeTiles sa a.ta.toNat ++ [a.tb.toNat], acc := a.acc.toNat },
        false, none, none)
    else none
  | .azero _ slot acc => do
    let g ← x.c.slotGroup x.w slot.toNat
    if accOk x.c g.2 acc.toNat then some ({ x.matOp with acc := acc.toNat }, false, none, none) else none
  | .ard _ dst e slot acc _ _ => do
    let g ← x.c.slotGroup x.w slot.toNat
    let op := { x.matOp with acc := acc.toNat, elems := x.src e, rows := laneList.map (x.rowOf dst) }
    if accOk x.c g.2 acc.toNat then
      match dst with
      | .q n => (x.bound n.val).map fun b =>
          ({ op with queue := some b.1.queue, landSlot := b.2.tail }, false, some ⟨n.val, [], x.act, 0⟩, none)
      | _ => some (op, false, none, none)
    else none
  | .acvt _ slot tile acc psel => do
    let g ← x.c.slotGroup x.w slot.toNat
    let n := tile.toNat
    let w := x.c.tileShape n
    let sh := shapeOf w
    let target := ((sh.fmt == 10 || sh.fmt == 11 || sh.fmt == 12) && sh.scl == 1) || ((sh.fmt == 8 || sh.fmt == 9) && sh.scl == 0)
    if accOk x.c g.2 acc.toNat && tileOk x.c g.2 n && (!sh.pl || (x.triple && psel == 0)) && useOk x.c g.2 sh n && target &&
        sh.rows == 64 && 64 ≤ sh.elems then
      some ({ x.matOp with acc := acc.toNat, shapes := [w], tiles := planeTiles sh n }, false, none, none)
    else none
  | .atopk _ slot acc a _ _ _ => do
    let g ← x.c.slotGroup x.w slot.toNat
    if accOk x.c g.2 acc.toNat then some ({ x.matOp with acc := acc.toNat, base := x.scal a }, false, none, none) else none
  | .asave _ a => do
    let g ← x.c.slotGroup x.w a.slot.toNat
    if accOk x.c g.2 a.acc.toNat then
      (imageOf x g.2 a.a a.off 64 (accImage a.all)).map fun off =>
        ({ x.matOp with acc := a.acc.toNat, off }, false, none, some (off, accImage a.all))
    else none
  | .arest _ a => do
    let g ← x.c.slotGroup x.w a.slot.toNat
    if accOk x.c g.2 a.acc.toNat then
      (imageOf x g.2 a.a a.off 64 (accImage a.all)).map fun off => ({ x.matOp with acc := a.acc.toNat, off }, false, none, none)
    else none
  | _ => none

def matrixInstr : Instr → Bool
  | .tld _ _ | .tst _ _ | .mma _ _ | .mdist _ _ | .azero _ _ _ | .ard _ _ _ _ _ _ _ | .acvt _ _ _ _ _
  | .atopk _ _ _ _ _ _ _ | .asave _ _ | .arest _ _ => true
  | _ => false

end Sys2Proof.Claims

/-- R336, R339 to R341: a tile or matrix instruction with illegal operands traps with code 1; a legal one is held back while its
tiles are in use or the unit's queue of 16 is full, and else issues: its operation joins the queue or the tile-load path, and the
tiles that it reads and writes are counted. The race record of a store to the scratchpad is log 33, the size of a tile image log 41.
Of `tld`, `tst`, `mma`, `mdist`, `azero`, `ard`, `acvt`, `atopk`, `asave`, `arest`. -/
def Obligations.MatrixHandedOver : Prop :=
  ∀ (s : State) (i : Instr) (x : Cx), s.ready i = some x → Claims.matrixInstr i = true →
    match Claims.matrixWork x i with
    | none => exec i s = .next (s.takeTrap x.ref x.w 1 1 x.sp.pc)
    | some (op, path, push, writes) =>
      if x.c.tilesReady op.uses.1 op.uses.2 = false ∨ (path = false ∧ 16 ≤ (s.coreAt x.core).matQueue.length) then
        exec i s = .next s
      else
        let e := ((s.modCore x.core fun k =>
          if path then { k with tilePath := k.tilePath ++ [op], nextOp := k.nextOp + 1 }
          else { k with matQueue := k.matQueue ++ [op], nextOp := k.nextOp + 1 }).modWarp x.ref fun _ => x.w).modCrew x.ref.crew
            fun c => c.countTiles op 1
        s.issues i x
          (match writes with
            | some (off, n) => x.raceCheck e true [((maskLanes x.act).headD 0, off)] n
            | none => e) (x.next x.w) true [] push

/-! # System -/

namespace Sys2Proof.Claims

open Sys2Proof.Machine

/-- R128, R137, R138, R181, R230, R359, R364, R365: the warp after a write of a control register other than `WINCTL` and the tile
shapes; registers that are read only keep their value. -/
def written (x : Cx) (creg : Word) (a : Spec) : Warp :=
  let v := x.scal a
  if creg = 0x00 then { x.w with numctl := v &&& (if x.triple then 0x1F1F else 0x0F1F) }
  else if creg = 0x01 then { x.w with numstat := x.w.numstat &&& ~~~(v &&& 0x1F) }
  else if creg = 0x02 then
    let f := x.w.fpctl &&& ~~~(v &&& 0x1F0)
    { x.w with fpctl := if v &&& 7 = 0 then f else (f &&& ~~~7) ||| (v &&& 7) }
  else if creg = 0x04 then
    { x.w with opcount := laneList.map fun l =>
        if x.act.getLsbD l then (wordAt (x.srcWide a 1) l ++ wordAt (x.srcWide a 0) l).setWidth 48 else x.w.opcount.getD l 0 }
  else if creg = 0x08 then { x.w with laneFault := x.w.laneFault &&& ~~~(x.scal64 a &&& 0x0000_FFFF_FFFF_FFFF) }
  else if creg = 0x09 then { x.w with trapBase := (x.w.trapBase &&& 0x7800_0000) ||| (v &&& 0x87FF_FFFF) }
  else if creg = 0x0B then { x.w with trapPc := v }
  else x.w

end Sys2Proof.Claims

/-- R364, R365: `ctlwr`. A write of a tile that the crew does not declare traps with code 1; `WINCTL` has its own
statement. R171, R173, R181: a write of `WINCTL`: bit 19 clears `REJ` first, and a `REACH` of 1 to 24 whose windows fit the
ring and the limit is accepted; one that does not fit sets `REJ`. A window that must move blocks the warp first, and once it has
moved the write issues over the moved band (log 22). R316, R344: `tctl` sets the 19 bits of a tile's shape. -/
def Obligations.ControlWrites : Prop :=
  (∀ (s : State) (c : Ctl) (creg : Word) (a : Spec) (x : Cx), s.ready (.ctlwr c creg a) = some x → creg ≠ 0x05 →
    if 0x10 ≤ creg.toNat ∧ x.c.tiles.length ≤ creg.toNat - 0x10 then
      exec (.ctlwr c creg a) s = .next (s.takeTrap x.ref x.w 1 1 x.sp.pc)
    else if 0x10 ≤ creg.toNat then
      s.issues (.ctlwr c creg a) x
        ((x.put x.w).modCrew x.ref.crew fun k => k.modTile (creg.toNat - 0x10) fun t => { t with shape := x.scal a &&& 0x7FFFF })
        (x.next x.w) false [] none
    else s.issues (.ctlwr c creg a) x s (x.next (Claims.written x creg a)) false [] none) ∧
  (∀ (s : State) (c : Ctl) (a : Spec) (x : Cx), s.ready (.ctlwr c 0x05 a) = some x →
    let v := x.scal a
    let rej := if v.getLsbD 19 then false else x.w.rej
    let reach := (v.extractLsb' 0 5).toNat
    let fits := 1 ≤ reach ∧ reach ≤ 24 ∧ spanOk x.w.ring reach x.w.lo x.w.hi = true ∧ limitOk x.w.spillLim reach x.w.hi = true
    (¬ fits → s.issues (.ctlwr c 0x05 a) x s (x.next { x.w with rej := true }) false [] none) ∧
    (fits → match coverTo x.w.bot x.w.ring reach x.w.lo x.w.hi with
      | none => s.issues (.ctlwr c 0x05 a) x s (x.next { x.w with reach, rej }) false [] none
      | some b =>
        (x.w.moved ≠ some b → exec (.ctlwr c 0x05 a) s = .next (s.blockWarp x.ref (.move b false))) ∧
        ∀ y, x.overMoved b x.w.ring y → s.issues (.ctlwr c 0x05 a) x y.s (x.next { y.w with reach, rej }) false [] none)) ∧
  (∀ (s : State) (c : Ctl) (slot : BitVec 2) (tile : BitVec 3) (a : Spec) (imm : BitVec 20) (x : Cx),
    s.ready (.tctl c slot tile a imm) = some x →
      match x.c.slotGroup x.w slot.toNat with
      | none => exec (.tctl c slot tile a imm) s = .next (s.takeTrap x.ref x.w 1 1 x.sp.pc)
      | some (_, g) =>
        if tileOk x.c g tile.toNat = false then exec (.tctl c slot tile a imm) s = .next (s.takeTrap x.ref x.w 1 1 x.sp.pc)
        else
          let v : Word := if a = .zero then imm.setWidth 32 else x.scal a
          s.issues (.tctl c slot tile a imm) x
            ((x.put x.w).modCrew x.ref.crew fun c => c.modTile tile.toNat fun t => { t with shape := v &&& 0x7FFFF })
            (x.next x.w) false [] none)

/-- R357: taking a trap. With a handler, and outside one, the issuing split goes to the handler's PC; its mask, base and
lay-by stay. `TRAPCAUSE` holds the code, its argument and the split's slot, `TRAPPC` the PC, and the warp is in its
handler; its other registers stay. R358, R363: a trap that no handler takes, or that arises inside one, ends the launch
with status 17, unless another cause of that cycle stands before it (R449) — that the launch ends at the end of the cycle is the
model's choice (log 63) — after a record of kind 5 with
its cause, its PC, the warp and its active lanes; the launch keeps the warp as the trap left it (log 68). -/
def Obligations.TrapEntry : Prop :=
  (∀ (s : State) (r : WarpRef) (u w : Warp) (code arg : Nat) (pc : Word),
    s.warp? r = some u → w.trapBase.getLsbD 31 = true → w.trapBase.getLsbD 30 = false → w.stepping = false →
    (w.splitAt w.cur).isSome →
      ∃ v, (s.takeTrap r w code arg pc).warp? r = some v ∧ (s.takeTrap r w code arg pc).turn = none ∧
        v.trapCause = BitVec.ofNat 32 (code + arg % 256 * 256 + w.cur * 65536) ∧ v.trapPc = pc ∧
        v.trapBase = w.trapBase ||| 0x4000_0000 ∧ v.cur = w.cur ∧
        v.split = { w.split with pc := (w.trapBase.extractLsb' 0 27).setWidth 32 } ∧
        (∀ n, n ≠ w.cur → v.splitAt n = w.splitAt n) ∧
        v.bank = { w.bank with trapCause := v.trapCause, trapPc := v.trapPc, trapBase := v.trapBase } ∧ v.flags = w.flags) ∧
  (∀ (s : State) (r : WarpRef) (w : Warp) (c : Crew) (l : Launch) (code arg : Nat) (pc : Word),
    s.launch? r.crew.launch = some l → s.crew? r.crew = some c → l.done = none →
    (w.trapBase.getLsbD 31 = false ∨ w.trapBase.getLsbD 30 = true) →
      let core := c.core.getD 0
      let cause := leBytes 4 (BitVec.ofNat 32 (code + arg % 256 * 256 + w.cur * 65536) : Word).toNat ++ leBytes 4 pc.toNat ++
        leBytes 1 (if w.trapBase.getLsbD 30 then 1 else 0) ++ leBytes 1 0 ++ leBytes 2 core ++ leBytes 2 (4 * core + w.quarter) ++
        leBytes 1 w.num ++ leBytes 1 0 ++ leBytes 4 r.crew.crew ++ leBytes 6 w.split.mask.toNat
      s.takeTrap r w code arg pc = (((({ s with turn := none } : State).event l.ctx
        (recordBytes 5 0 l.queue.q l.seq s.clock.tick l.tag cause)).modLaunch l.id fun l =>
          { l with fallen := some w }).endLaunch l.id 17) ∧
      ∃ t, (s.takeTrap r w code arg pc).launch? l.id = some t ∧ t.status = some (s.endsAs l.id 17) ∧ t.fallen = some w ∧
        ∃ e, ((s.takeTrap r w code arg pc).settleEnd l.id).launch? l.id = some e ∧ e.done = t.status ∧ e.fallen = some w ∧
          ∀ k ∈ ((s.takeTrap r w code arg pc).settleEnd l.id).crews, k.ref.launch ≠ l.id)

namespace Sys2Proof.Claims

open Sys2Proof.Machine

/-- R377: the warps that a stop at warp `r` halts: the warp alone, its crew, or its context, as the debugger's scope says. -/
def halts (s : State) (scope : StopScope) (r : WarpRef) (ctx : CtxRef) (c : Crew) (v : Warp) : Bool :=
  !v.retired && match scope with
    | .warp => c.ref == r.crew && v.num == r.warp
    | .crew => c.ref == r.crew
    | .context => (s.launch? c.ref.launch).any (·.ctx == ctx)

/-- R377, R378: warp `r`, which stands as `w`, stops with the warps of the scope, and the stop is recorded with reason 1. The layout of
the record is the model's (log 56). -/
def brokenAt (s : State) (scope : StopScope) (l : Launch) (c : Crew) (r : WarpRef) (w : Warp) : State :=
  let t := s.modWarp r fun _ => w
  let halt (c : Crew) (v : Warp) : Warp := if halts t scope r l.ctx c v then { v with stopped := true, stepping := false } else v
  ({ t with crews := t.crews.map fun (c : Crew) => { c with warps := c.warps.map (halt c) } } : State).event l.ctx
    (recordBytes 10 0 l.queue.q l.seq s.clock.tick l.tag
      (Config.debugStopBody (c.core.getD 0) r.crew.crew r.warp w.cur w.split.pc 1))

end Sys2Proof.Claims

/-- R358, R386 to R388, R378, R390: `trap` raises code 13 with its number, and `brk` without a debugger code 14, each once it has
acted, so that `TRAPPC` is the next instruction; `brk` with one stops at the next instruction; `rtt` returns the whole split to
`TRAPPC` and leaves the handler, and outside one traps with code 1; `mark` writes a sampling record of type 1 where the context
samples, as the warp's quarter, slot and PC, with its value. -/
def Obligations.SystemInstructions : Prop :=
  ∀ (s : State) (c : Ctl) (n : Word) (a : Spec) (sr : Bool) (x : Cx),
    let debugger := (s.context? x.l.ctx).bind (·.debugger)
    let acted (stall : Nat) : Warp :=
      { x.w.modSplit x.w.cur (fun sp => { sp with issued := min 64 (sp.issued + 1) }) with
        stall := stall + 1, issuedAt := some s.clock.cycle }
    (s.ready (.trap c n) = some x →
      exec (.trap c n) s = .next (s.takeTrap x.ref (acted c.stall.toNat) 13 (n.toNat % 256) (x.sp.pc + 1))) ∧
    (s.ready (.brk c) = some x → debugger = none →
      exec (.brk c) s = .next (s.takeTrap x.ref (acted c.stall.toNat) 14 0 (x.sp.pc + 1))) ∧
    (∀ scope, s.ready (.brk c) = some x → debugger = some scope → x.w.num = x.ref.warp → x.w.retired = false → ∃ v w,
      exec (.brk c) s = .next (x.leaves (Claims.brokenAt s scope x.l x.c x.ref v) w [] none none) ∧ v.bank = x.w.bank ∧
        v.samePlaces (x.next x.w) ∧ w.bank = { x.w.bank with stopped := true } ∧ w.samePlaces (x.next x.w)) ∧
    (s.ready (.rtt c) = some x → x.w.trapBase.getLsbD 30 = false →
      exec (.rtt c) s = .next (s.takeTrap x.ref x.w 1 3 x.sp.pc)) ∧
    (s.ready (.rtt c) = some x → x.w.trapBase.getLsbD 30 = true →
      s.sends (.rtt c) x s { x.w with trapBase := x.w.trapBase &&& 0xBFFF_FFFF } fun _ => (x.w.trapPc, x.sp.base)) ∧
    (s.ready (.mark c a sr n) = some x → s.issues (.mark c a sr n) x
      (if (s.context? x.l.ctx).bind (·.sampling) = none then s
        else (s.modWarp x.ref fun _ => x.w).sample x.l.ctx
          (leBytes 8 s.clock.tick.toNat ++ leBytes 4 x.l.seq.toNat ++ leBytes 4 x.sp.pc.toNat ++
            leBytes 2 (4 * x.core + x.w.quarter) ++ leBytes 1 x.w.slot ++ leBytes 1 0 ++ leBytes 4 x.ref.crew.crew ++
            leBytes 1 1 ++ leBytes 1 x.ref.warp ++ leBytes 2 0 ++ leBytes 4 (if sr then x.scal a else n).toNat))
      (x.next x.w) false [] none)

/-! # The issue attempt -/

/-- R65, R174: an instruction whose guard leaves no lane active issues: its split moves on and it does nothing further. The rows and
index registers that it names are checked first, the model's order (log 20). -/
def Obligations.NoActiveLane : Prop :=
  ∀ (s : State) (i : Instr) (x : Cx), s.begin i = .go x → i.hasWord = true → x.act = 0 →
    x.rowCheck x.named x.act = .ok → x.w.owed = none → (x.w.splitAt x.w.cur).isSome → x.w.stepping = false →
      s.issues i x s (x.next x.w) false [] none

/-- R80, R136, R174, R188, R201, R268, R342: what holds an attempt back, in order (log 20): siblings that disagree on the guard
(code 3 when it is enabled), a trap that the warp woke to take, rows and index registers that the operands may not name, rows that
the band must move for, and, with a lane active, queues that trap or are waited for, a poisoned word, which ends or replays the
launch, and a release or an access of the scratchpad whose warp has stores of `tst` or `asave` on their way. R174, R188: the rows
that the operands of an instruction name. An index register above its limit in a selected lane traps with code 6 and its number,
that of the first such operand (log 20); a row at or above the limit traps with code 7 and WOC 1; a row above the band moves it, but
never past the lowest window in use. Once the band has moved, the rows of the same attempt stand in it. -/
def Obligations.AttemptOrder : Prop :=
  (∀ (s : State) (i : Instr), i.hasWord = true →
    match s.begin i with
    | .absent => exec i s = .fault .noIssuingWarp
    | .trap r w => exec i s = .next (s.takeTrap r w 3 0 w.split.pc)
    | .go x =>
      match x.w.owed with
      | some (code, arg) => exec i s = .next (s.takeTrap x.ref x.w code arg x.sp.pc)
      | none => match x.rowCheck x.named x.act with
      | .trap w code arg => exec i s = .next (s.takeTrap x.ref w code arg x.sp.pc)
      | .move b => exec i s = .next (s.blockWarp x.ref (.move b true))
      | .ok => x.act ≠ 0 → match x.queueTest (transfersOf i) with
        | .trap code arg => exec i s = .next (s.takeTrap x.ref x.w code arg x.sp.pc)
        | .wait name => ∃ e q, x.queueBlock (transfersOf i) name = .block e q ∧ exec i s = .next (e.blockWarp x.ref q)
        | .go =>
          let y := { x with pops := x.popped (transfersOf i) }
          (y.poisonedSource = true →
            exec i s = .next { s.consumedError x.ref.crew.launch none .warp x.core x.ref.warp with turn := none }) ∧
          (y.poisonedSource = false → y.storesFirst = true → exec i s = .next s)) ∧
  (∀ (x : Cx) (pre post : List Opnd) (k : Fin 4) (n : Nat) (m : Mask) (l : Nat), l < 48 → m.getLsbD l = true →
    x.w.limit k.val < x.w.index k.val l → (∀ o ∈ pre, x.indexOk o m = true) →
      x.rowCheck (pre ++ ⟨.vx k, n⟩ :: post) m = .trap x.w 6 k.val) ∧
  (∀ (x : Cx) (os : List Opnd) (m : Mask) (b : Nat), x.rowCheck os m = .move b →
    { x with w := { x.w with bot := b } }.rowCheck os m = .ok) ∧
  (∀ (x : Cx) (n : Fin 192) (m : Mask),
    let top := x.sp.base + n.val + 1
    x.rowCheck [⟨.v n, 1⟩] m =
      if x.w.spillLim < top then .trap { x.w with woc := 1 } 7 0
      else if top ≤ x.w.bot + x.w.ring then .ok
      else
        let b := (top - 1 + 8 - x.w.ring) / 8 * 8
        if b ≤ x.w.lo then .move b else .trap { x.w with woc := 4 } 7 0)

/-- R79, R83, R169: a write of a row is read back in its lanes, and every other lane and row stays; so does every other predicate
under a predicate write, which `p7` discards, and every other scalar under a scalar write. -/
def Obligations.RegisterWrites : Prop :=
  (∀ (w : Warp) (r q l : Nat) (m : Mask) (row : Row) (bad : Mask), w.bot ≤ r → r < w.bot + w.rows.length → l < 48 →
    (w.writeRow r m row bad).laneWord q l = (if q = r ∧ m.getLsbD l = true then wordAt row l else w.laneWord q l) ∧
    (w.writeRow r m row bad).poisoned q l = (if q = r ∧ m.getLsbD l = true then bad.getLsbD l else w.poisoned q l)) ∧
  (∀ (x : Cx) (w : Warp) (p q : BitVec 3) (m v : Mask) (l : Nat), w.preds.length = 7 → l < 48 →
    ((x.writePred w p m v).pred q).getLsbD l = (if q = p ∧ p ≠ 7 ∧ m.getLsbD l = true then v.getLsbD l else (w.pred q).getLsbD l)) ∧
  (∀ (w : Warp) (n k : Nat) (v : Word), n < w.scalars.length → (w.setScalar n v).scalar k = if k = n then v else w.scalar k)

/-! # Events of a core -/

namespace Sys2Proof.Claims

open Sys2Proof.Machine

/-- No pushed row lands with the flight `id` of the warp `r` (R44, R123). -/
def landsNothing (s : State) (r : WarpRef) (id : Nat) : Prop :=
  ∀ c ∈ s.crews, c.ref = r.crew → ∀ q ∈ c.queues, ∀ l ∈ q.landing, l.flight ≠ some (r.warp, id)

end Sys2Proof.Claims

/-- R12, R43, R44, R45, R110, R123, R164, R192: time and completions. An event that ends a count lets its cycles pass: every count of
a warp runs down by them, and nothing else of it changes; nothing passes without power. An instruction completes, with the landing of
its register writes and of the row it pushed, when nothing but time, or an empty spill buffer, stands before its completion: its flag
counts one less, its `FPCTL` flags are set, and a warp whose next instruction it held back is eligible 2 cycles later, not before. -/
def Obligations.CountsAndCompletions : Prop :=
  (∀ (s : State) (r : WarpRef) (c : Crew) (w : Warp), s.resident r = some (c, w) →
    exec (.stallCountExpiry r) s = .next (s.elapse w.stall) ∧
    exec (.fetchRedirectExpiry r) s = .next (s.elapse w.redirect) ∧
    exec (.splitSwitchExpiry r) s = .next (s.elapse w.switch) ∧
    (s.device.powered = false → ∀ n, s.elapse n = s) ∧
    (s.device.powered = true → ∀ n, (s.elapse n).mem = s.mem ∧ (s.elapse n).clock.cycle = s.clock.cycle + n ∧ ∃ v,
      (s.elapse n).warp? r = some v ∧
      v.stall = w.stall - n ∧ v.redirect = w.redirect - n ∧ v.switch = w.switch - n ∧ v.wake = w.wake - n ∧
      v.landed = w.landed - n ∧ v.bank = w.bank ∧ v.flags = w.flags ∧ v.splits = w.splits ∧ v.cur = w.cur ∧ v.flights = w.flights ∧ v.block = w.block) ∧
    ∀ k f, w.flights[k]? = some f → (∀ j g, w.flights[j]? = some g → g.id = f.id → j = k) →
      let done := f.kind = .timed ∨ (f.kind = .flush ∧ ∀ g ∈ (s.coreAt c.coreNo).spillBuf, g.warp ≠ r)
      let held := ∃ x, s.nextAttempt r = some (.inl x) ∧ ∃ g ∈ touched x, g ∈ f.regs
      ∀ i, i = .instructionCompletion r k ∨ i = .registerWriteLands r k →
        let completed (v : Warp) : Prop := v.flights = w.flights.eraseIdx k ∧ v.flags = (w.modFlag f.setf (· - 1)).flags ∧
          v.bank = { w.bank with fpctl := w.fpctl ||| f.raise.getD 0 } ∧ v.splits = w.splits ∧
          (held → v.landed = 2) ∧ (¬ held → v.landed = w.landed)
        (done → Claims.landsNothing s r f.id → s.warpBecomes i r w fun v => completed v ∧ v.wake = w.wake) ∧
        (done → ∃ (t : State) (v : Warp) (d : Crew), exec i s = .next t ∧ t.warp? r = some v ∧ t.crew? r.crew = some d ∧ completed v ∧
          ∀ (n : Nat) (q : Queue), c.queues[n]? = some q → ∃ p : Queue, d.queues[n]? = some p ∧
            p.landing = q.landing.filter fun (l : Landing) => l.flight != some (r.warp, f.id)) ∧
        (¬ done → exec i s = .next s)) ∧
  (∀ (s : State) (r : WarpRef) (w : Warp), s.warp? r = some w →
    0 < w.stall ∨ 0 < w.redirect ∨ 0 < w.switch ∨ 0 < w.wake ∨ 0 < w.landed ∨ w.block ≠ none ∨ w.retired = true ∨ w.stopped = true →
      s.eligible r = false)

/-- R172, R175, R176, R179, R185: window moves, spills and claims. A move waits for the rows that an engine still writes; then the
band stands at its new bottom, its granules that stay keep their rows, and rows that were never written are zero. A `wflush` that
found no room goes on once there is some. The spill engine writes the granules of one warp and place in order, those of a crew that
has taken the spill slot of one that ended after that one's (log 75); a write that faults suspends its granule, or ends the launch
with status 16 when the fault is fatal. The oldest claim is served once the reserve holds its rows. That the band moves before its
instruction acts is log 22, and when a claim is done log 28. -/
def Obligations.WindowAndClaimEvents : Prop :=
  (∀ (s : State) (r : WarpRef) (c : Crew) (w : Warp) (b : Nat),
    s.resident r = some (c, w) →
    (∀ f ∈ w.flights, ∀ id, f.kind = .engine id → ∀ n, Reg.row n ∉ f.regs) →
      (w.block = some (.move b false) →
        s.warpBecomes (.windowMoveDone r) r w fun v => v = { w with block := none, wake := 2, moved := some b }) ∧
      (∀ t, w.block = some (.move b true) → s.moveBand r b w.ring = .ok t →
        exec (.windowMoveDone r) s = .next (t.modWarp r fun m => { m with block := none, wake := 2 }))) ∧
  (∀ (s : State) (r : WarpRef) (c : Crew) (w : Warp), s.resident r = some (c, w) → w.block = some .flush →
    if s.spillRoom c.coreNo then s.warpBecomes (.windowMoveDone r) r w fun v => v = { w with block := none, wake := 2 }
    else exec (.windowMoveDone r) s = .next s) ∧
  (∀ (s t : State) (r : WarpRef) (w : Warp) (b ring : Nat), s.warp? r = some w → s.moveBand r b ring = .ok t →
    ∃ v, t.warp? r = some v ∧ v.bot = b ∧ v.ring = ring ∧ v.rows.length = ring ∧
      (w.bot % 8 = 0 → w.ring % 8 = 0 → ∀ k, b ≤ k → k < b + ring →
        if w.bot ≤ k ∧ k < w.bot + w.ring then v.rowAt k = w.rowAt k
        else min w.high w.spillLim ≤ k / 8 * 8 → ∀ l, v.laneWord k l = 0)) ∧
  (∀ (s t : State) (core k : Nat) (g : Granule), (s.coreAt core).spillBuf[k]? = some g → g.suspended = none →
    (∀ j h, j < k → (s.coreAt core).spillBuf[j]? = some h → h.warp = g.warp → h.index ≠ g.index) →
    (∀ c ∈ s.cores, ∀ h ∈ c.spillBuf, h.before g = false) → s.writeGranule g = .ok t →
      exec (.spillWrite core k) s = .next ((t.modCore core fun c => { c with spillBuf := c.spillBuf.erase g }).wakeFlush core)) ∧
  (∀ (s : State) (core k : Nat) (g : Granule) (v : VFault) (l : Launch), (s.coreAt core).spillBuf[k]? = some g → g.suspended = none →
    (∀ j h, j < k → (s.coreAt core).spillBuf[j]? = some h → h.warp = g.warp → h.index ≠ g.index) →
    (∀ c ∈ s.cores, ∀ h ∈ c.spillBuf, h.before g = false) → s.writeGranule g = .error v → s.launch? g.warp.crew.launch = some l →
      (v.fatal = true → l.done = none → v.code < 16 → s.launchEnds (.spillWrite core k) l.id 16) ∧
      (v.fatal = false → ∃ t num, exec (.spillWrite core k) s = .next t ∧ (t.coreAt core).spillBuf =
        (s.coreAt core).spillBuf.map fun x => if x = g then { x with suspended := some num, faulted := true } else x)) ∧
  (∀ (s : State) (r : CrewRef) (q : Nat) (c : Crew) (k : Claim), s.crew? r = some c → c.core.isSome →
    (c.claims.getD q []).find? (fun k => !k.served) = some k → k.rows ≤ c.reserve.getD q 0 →
      s.crewBecomes (.claimServed r q) r c fun d =>
        d.reserve = c.reserve.modify q (· - k.rows) ∧
        d.claims.getD q [] = (c.claims.getD q []).map (fun j => if j.warp = k.warp then { j with served := true } else j) ∧
        d.warps = c.warps.modify k.warp (fun w => { w with block := none, wake := 2 }) ∧ d.queues = c.queues)

/-- R187, R210, R367, R368: what ends a launch for want of progress. Every warp of a quarter blocked on claims that the
reserve cannot serve: status 19. Every warp of a crew blocked on queues, claims and barriers with nothing on its way that could
wake one: status 18. A warp blocked on a barrier, a `wait` or grace for the ticks of the context's limit: every launch of the
context ends with status 20. R449: of two causes in one cycle the lower status stands, those of the watchdog and of the context's
destruction before all others; the launch ends with it at the end of the cycle (log 63). -/
def Obligations.DeadlocksEndLaunches : Prop :=
  (∀ (s : State) (id n : Nat) (l : Launch), s.launch? id = some l → l.done = none → n ≠ 0 →
    (l.ending = none → (s.endLaunch id n).launch? id = some { l with ending := some (n, s.clock.cycle) }) ∧
    (∀ old, l.ending = some (old, s.clock.cycle) → ∃ best,
      (s.endLaunch id n).launch? id = some { l with ending := some (best, s.clock.cycle) } ∧ (best = old ∨ best = n) ∧
      ((old = 20 ∨ old = 26 ↔ n = 20 ∨ n = 26) → best = min old n) ∧ (old = 20 ∨ old = 26 ∨ n = 20 ∨ n = 26 → best = 20 ∨ best = 26)) ∧
    (∀ old at_, l.ending = some (old, at_) →
      ∃ m, (s.settleEnd id).launch? id = some m ∧ m.done = some old ∧ ∀ k ∈ (s.settleEnd id).crews, k.ref.launch ≠ id)) ∧
  ∀ (s : State) (r : CrewRef) (c : Crew) (l : Launch),
    s.crew? r = some c → c.core.isSome → s.launch? r.launch = some l → l.done = none →
      (∀ q k, (∃ w ∈ c.warps, w.quarter = q ∧ w.retired = false) →
        (∀ w ∈ c.warps, w.quarter = q → w.retired = false → w.stopped = false ∧ ∃ n, w.block = some (.claim n)) →
        (c.claims.getD q []).find? (fun k => !k.served) = some k → c.reserve.getD q 0 < k.rows →
          s.launchEnds (.claimDeadlock r q) l.id 19) ∧
      ((∃ w ∈ c.warps, w.retired = false) →
        (∀ w ∈ c.warps, w.retired = false → w.stopped = false ∧
          ((∃ q n, w.block = some (.queue q n)) ∨ (∃ n, w.block = some (.claim n)) ∨ ∃ b ph, w.block = some (.barrier b ph))) →
        s.crewPending c = false → (∀ q, q < 4 → c.claimsStuck q = false) →
          s.launchEnds (.crewDeadlock r) l.id 18) ∧
      (∀ n w k, s.warp? ⟨r, n⟩ = some w → w.retired = false → s.context? l.ctx = some k →
        ((∃ b ph, w.block = some (.barrier b ph)) ∨ (∃ m all, w.block = some (.wait m all)) ∨ ∃ g, w.block = some (.grace g)) →
        (k.wdogctl.extractLsb' 0 24).toNat ≠ 0 →
        w.since.toNat + w.paused + (k.wdogctl.extractLsb' 0 24).toNat * 1000 ≤ s.clock.tick.toNat →
        s.anyStopped l.ctx = false →
          ∀ m, s.launch? m.id = some m → m.ctx = l.ctx → m.done = none → s.launchEnds (.watchdog ⟨r, n⟩) m.id 20)

namespace Sys2Proof.Claims

open Sys2Proof.Machine

/-- Two queues with the same rows: what a settling of waiters leaves alone (R202). -/
def sameRows (p q : Queue) : Prop :=
  p.head = q.head ∧ p.tail = q.tail ∧ p.count = q.count ∧ p.pushed = q.pushed ∧ p.popped = q.popped ∧ p.state = q.state ∧
    p.prod = q.prod ∧ p.cap = q.cap

end Sys2Proof.Claims

/-- R197, R202, R203, R209, R212, R218, R266, R268, R273, R277, R342: the queue unit, barriers and waits. A pushed row reaches its
slot, lane by lane with its valid mask, as its instruction completes (R123); a warp blocked on queues wakes when one of them breaks,
when one that it pushes closes, and when one that it pops is closed and empty (R202); a head is staged; deliveries that wait take
the slots that are free, ahead of the warps that wait to push (log 29), and each is a row of five words; a queue whose state errs
breaks, with 127 in FAULTW (log 38), and its deliveries are discarded. An arrival waits for the stores of `tst` and `asave` before
it, sets its warp's bit and is then gone. A `wait` whose conditions hold, or whose deadline has passed, lets its warp go on 2 cycles
later; so does one for a phase of an invalidated barrier, which then traps with code 12. A queue serves a row to the warp that it is
reserved for or, free, to any (log 65). -/
def Obligations.QueueBarrierWaitEvents : Prop :=
  (∀ (s : State) (r : CrewRef) (n : Nat) (c : Crew) (q : Queue),
    s.crew? r = some c → c.core.isSome → c.queues[n]? = some q →
      (∀ k l j id w f, q.landing[k]? = some l → s.rowDue ⟨r, n⟩ l.slot = false → l.flight = some (j, id) →
        c.warps[j]? = some w → w.flights.find? (fun f => f.id == id) = some f →
          exec (.queueRowLands ⟨r, n⟩ k) s = .next (s.completeFlight ⟨r, j⟩ f)) ∧
      (∀ k l, q.pending = [] → q.landing[k]? = some l → s.rowDue ⟨r, n⟩ l.slot = false →
        (∀ j id w, l.flight = some (j, id) → c.warps[j]? = some w → ∀ f ∈ w.flights, f.id ≠ id) →
        s.crewBecomes (.queueRowLands ⟨r, n⟩ k) r c fun d => ∃ p, d.queues[n]? = some p ∧ Claims.sameRows p q ∧
          p.landing = q.landing.filter (fun m => m != l) ∧
          (l.slot = q.head → Memory.wf c.scratch = true → (d.headRow n).2.1 = l.valid ∧
            (d.headRow n).1 = laneList.map fun i => if l.valid.getLsbD i then wordAt l.words i else 0)) ∧
      (q.pending = [] → q.headReady = true → q.staged = false →
        s.crewBecomes (.queueHeadStaged ⟨r, n⟩) r c fun d => ∃ p, d.queues[n]? = some p ∧ Claims.sameRows p q ∧
          p.staged = true ∧ p.landing = q.landing) ∧
      s.crewBecomes (.deliveryPendingSlot ⟨r, n⟩) r c (fun d => ∃ p, d.queues[n]? = some p ∧
        (q.state ≠ 2 → p.pending = q.pending.drop (q.cap - q.count) ∧
          p.count = q.count + min q.pending.length (q.cap - q.count)) ∧
        (q.state = 2 → p.pending = q.pending ∧ p.count = q.count) ∧
        (∀ v, q.state ≠ 2 → q.pending = [v] → q.count < q.cap → p.fresh = q.fresh ++ [q.tail] ∧ p.tail = (q.tail + 1) % q.cap ∧
          p.pushed = q.pushed + 1 ∧ (q.tail = q.head → Memory.wf c.scratch = true → (d.headRow n).2.1 = 0x1F ∧
            (d.headRow n).1 = [v.addr.extractLsb' 0 32, v.addr.extractLsb' 32 32, v.len, v.num.extractLsb' 0 32,
              v.num.extractLsb' 32 32] ++ List.replicate 43 0)) ∧
        p.head = q.head ∧ p.popped = q.popped ∧ p.state = q.state) ∧
      (∃ t d p, exec (.queueStateError ⟨r, n⟩) s = .next t ∧ t.crew? r = some d ∧ d.queues[n]? = some p ∧ p.state = 2 ∧
        p.faultw = (if q.state = 2 then q.faultw else 0x7F) ∧ ((s.launch? r.launch).isSome → p.pending = []) ∧
        t.launches = s.launches)) ∧
  (∀ (c : Crew) (n m p g : Nat) (q : Queue) (w : Warp), c.queues[n]? = some q → c.warps[m]? = some w →
    w.block = some (.queue p g) → q.pending = [] →
    (∃ push, (n, push) ∈ w.awaits ∧ (q.state = 2 ∨ (q.state = 1 ∧ (push = true ∨ q.count = 0)))) →
      (c.settleQueue n).warps[m]? = some { w with block := none, wake := 2 }) ∧
  (∀ (q : Queue) (w : Nat),
    (q.readyFor w = true ↔ 0 < q.count ∧ (∀ k ∈ q.landing, k.slot ≠ q.head) ∧
      ∀ p, q.poppers.find? (fun p => p.row == some q.head) = some p → p.warp = w) ∧
    (q.freeFor w = true ↔ (∃ p ∈ q.pushers, p.warp = w ∧ p.held = true) ∨ q.count + q.pushers.countP (·.held) < q.cap)) ∧
  (∀ (s : State) (r : CrewRef) (c : Crew) (g b n : Nat) (gr : Group) (x : Barrier) (a : Arrival),
    s.crew? r = some c → c.core.isSome → c.groups[g]? = some gr → gr.bars[b]? = some x →
    c.arrivals.find? (fun a => a.group == g && a.bar == b && a.warp == n) = some a →
      ((∃ k ∈ s.storing c.coreNo ⟨r, n⟩, k ∈ a.after) → exec (.arrivalApplied r g b n) s = .next s) ∧
      ((∀ k ∈ s.storing c.coreNo ⟨r, n⟩, k ∉ a.after) → s.crewBecomes (.arrivalApplied r g b n) r c fun d =>
        d.arrivals = c.arrivals.erase a ∧ d.queues = c.queues ∧
        (d.groups[g]?).bind (fun gr => gr.bars[b]?) =
          some (Claims.settled { x with arrived := x.arrived ||| (1#64 <<< n) }))) ∧
  (∀ (s : State) (r : WarpRef) (k : Watch) (a : WaitArgs), s.watch r = some k → s.waitAt r k.w = some a →
    let ends (i : Instr) : Prop := ∀ hit, k.evaluate a k.w.deadline.join = some hit →
      s.warpBecomes i r k.w fun v => v = { k.w with block := none, wake := 2, waitHit := some hit }
    match (WaitArgs.slots a).findSome? fun t => k.stale t.2 with
    | some arg => s.warpBecomes (.waitEvaluation r) r k.w fun v =>
        v = { k.w with block := none, wake := 2, owed := some (12, arg) }
    | none =>
      ends (.waitEvaluation r) ∧
      (k.evaluate a k.w.deadline.join = none → exec (.waitEvaluation r) s = .next s) ∧
      ∀ d, k.w.deadline = some (some d) → d.toNat ≤ s.clock.tick.toNat → ends (.waitDeadline r))

namespace Sys2Proof.Claims

open Sys2Proof.Machine

/-- R285: the value that DONE comes to after a change: it never falls, and stays below the oldest section. -/
def doneOf (g : Grace) : Nat := max g.done.toNat (g.sections.foldl (fun m x => min m x.tag.toNat) g.ack.toNat)

/-- The context `x` has the grace record `g` after event `i`, and the memory is as it was. -/
def graceBecomes (s : State) (i : Instr) (x : CtxRef) (p : State → Grace → Prop) : Prop :=
  ∃ t c, exec i s = .next t ∧ t.context? x = some c ∧ t.mem = s.mem ∧ p t c.grace

end Sys2Proof.Claims

/-- R209, R282 to R285, R288, R289, R293, R296: the grace home. A start takes the next number, which goes to its warp and to its deferred
free; a depth change sets or ends the warp's section; a core's copy takes the next CUR and acknowledges it once none of its
depth changes is on its way, and the end of a section waits for the stores of its warp that it follows (R292), and later changes of
the warp for it; DONE reaches a core's copy and
wakes the warps there whose period is complete; the oldest entry that DONE has reached is delivered to its queue, and a warp that
found the list full wakes. The order in which numbers reach the cores is log 36. -/
def Obligations.GraceHome : Prop :=
  (∀ (s : State) (x : CtxRef) (c : Context), s.context? x = some c →
    let g := c.grace
    (∀ r free rest, g.starts = GraceMsg.start r free :: rest →
      Claims.graceBecomes s (.graceStartAtHome x) x fun t h =>
        h.cur = g.cur + 1 ∧ h.starts = rest ∧ h.sections = g.sections ∧ h.copies = g.copies ∧ h.done.toNat = Claims.doneOf g ∧
        h.frees = g.frees ++ (match free with
          | some (a, len, q) => [⟨⟨a, len, g.cur + 1⟩, q⟩]
          | none => []) ∧
        t.warp? r = (s.warp? r).map (·.takeNumber (g.cur + 1))) ∧
    (∀ r tag after stores pre post, g.depths = pre ++ GraceMsg.depth r tag after stores :: post →
      (∀ p m q, pre = p ++ m :: q → ∃ v t a k, m = GraceMsg.depth v t a k ∧ v ≠ r ∧
        (s.storesDone v a k = false ∨ ∃ t a k, GraceMsg.depth v t a k ∈ p)) → s.storesDone r after stores = true →
      let sections := g.sections.filter (·.warp != r) ++ (match tag with
        | some v => [⟨r, v, false⟩]
        | none => [])
      Claims.graceBecomes s (.depthChangeAtHome x) x fun t h =>
        h.depths = pre ++ post ∧ h.sections = sections ∧ h.cur = g.cur ∧ h.frees = g.frees ∧ t.crews = s.crews ∧
        h.done.toNat = Claims.doneOf { g with sections }) ∧
    ((∀ v t a k, GraceMsg.depth v t a k ∈ g.depths → s.storesDone v a k = false) → exec (.depthChangeAtHome x) s = .next s) ∧
    (∀ core, Claims.graceBecomes s (.curReceived x core) x fun t h =>
      h = { g with copies := g.copies.map fun k =>
        if k.core = core ∧ k.cur.toNat < g.cur.toNat then { k with cur := k.cur + 1 } else k } ∧ t.crews = s.crews) ∧
    (∀ core, s.depthsFrom g core = false → g.copies ≠ [] →
      Claims.graceBecomes s (.curAcknowledged x core) x fun t h =>
        h.copies = g.copies.map (fun k => if k.core = core then { k with acked := k.cur } else k) ∧ t.crews = s.crews ∧
        ∃ low, (∀ k ∈ h.copies, low ≤ k.acked.toNat) ∧ (∃ k ∈ h.copies, k.acked.toNat = low) ∧
          h.ack.toNat = max g.ack.toNat low ∧ h.done.toNat = Claims.doneOf { g with ack := h.ack }) ∧
    (∀ core, Claims.graceBecomes s (.doneReceived x core) x fun t h =>
      h = { g with copies := g.copies.map fun k =>
        if k.core = core ∧ k.done.toNat < g.done.toNat then { k with done := g.done } else k } ∧
      ∀ r d w l, s.crew? r.crew = some d → s.warp? r = some w → s.launch? r.crew.launch = some l →
        (d.core = some core → l.ctx = x → w.graceSent = true → ∀ m n, w.block = some (.grace m) → w.graceWait = some n →
          n.toNat ≤ g.done.toNat → t.warp? r = some { w with block := none, wake := 2 }) ∧
        ((d.core ≠ some core ∨ l.ctx ≠ x ∨ w.graceSent = false) → t.warp? r = some w)) ∧
    (∀ f, g.frees.find? (fun f => decide (f.entry.num.toNat ≤ g.done.toNat)) = some f →
      ∃ t d, exec (.graceDelivery x) s = .next t ∧ t.context? x = some d ∧ d.grace = { g with frees := g.frees.erase f } ∧
        (∀ r k w l n, s.crew? r.crew = some k → s.warp? r = some w → s.launch? r.crew.launch = some l → k.core.isSome →
          l.ctx = x → w.block = some (.grace n) → w.graceSent = false → t.warp? r = some { w with block := none, wake := 2 }) ∧
        ∀ k q, s.crew? f.queue.crew = some k → k.core.isSome → k.queues[f.queue.q]? = some q → q.state ≠ 2 → q.pending = [] →
          q.count < q.cap → ∃ k' p, t.crew? f.queue.crew = some k' ∧ k'.queues[f.queue.q]? = some p ∧ p.pending = [] ∧
            p.count = q.count + 1 ∧ p.pushed = q.pushed + 1 ∧ p.tail = (q.tail + 1) % q.cap ∧ p.state = q.state)) ∧
  (∀ (s : State) (r : WarpRef) (c : Crew) (w : Warp), s.resident r = some (c, w) →
    let back (f : Flight) : Bool := match f.kind with
      | .grace (some _) => true
      | _ => false
    (∀ f n a b, w.flights.find? back = some f → (∀ g ∈ w.flights, g.id = f.id → g = f) → f.kind = .grace (some n) →
      f.regs = [.scalar a, .scalar b] → Claims.landsNothing s r f.id →
        s.warpBecomes (.graceNumberReturned r) r w fun v =>
          v.flights = w.flights.filter (fun g => g.id != f.id) ∧ v.flags = (w.modFlag f.setf (· - 1)).flags ∧
          v.scalars = ((w.setScalar a (n.extractLsb' 0 32)).setScalar b (n.extractLsb' 32 32)).scalars ∧
          v.rows = w.rows ∧ v.splits = w.splits) ∧
    (∀ l n, w.flights.find? back = none → w.block = some (.grace 0) → w.graceWait = some n →
      s.launch? r.crew.launch = some l →
        let done := ((s.context? l.ctx).map fun k => (k.grace.copy c.coreNo).done).getD 0
        s.warpBecomes (.graceNumberReturned r) r w fun v =>
          v = if n.toNat ≤ done.toNat then { w with block := none, wake := 2 } else { w with block := some (.grace n) }))

/-! # Engines -/

namespace Sys2Proof.Claims

open Sys2Proof.Machine

/-- R325, R328, R348, R349, R352, R353: what a matrix operation makes of its accumulator. -/
def accAfter (c : Crew) (l : Launch) (op : MatOp) : Option Acc :=
  let a := c.accs.getD op.acc Acc.zero
  let by_ : Drawer := ⟨l.rndkey, c.ref.crew, op.acc⟩
  let shape (k : Nat) : Shape := shapeOf (op.shapes.getD k 0)
  let plane (k n : Nat) : List PlaneRow := (c.tiles.getD n newTile).plane (shape k)
  let as := (op.tiles.take (op.tiles.length - 1)).map (plane 0)
  let b := plane 1 (op.tiles.getLastD 0)
  match op.instr with
  | .mma _ _ => some (a.matrixOp by_ false l.triple op.near as b (classRuns (fmtClass (shape 0).fmt)))
  | .mdist _ _ => some (a.matrixOp by_ true l.triple op.near as b (classRuns (fmtClass (shape 0).fmt)))
  | .azero _ _ _ => some ⟨[], [], 0⟩
  | .atopk _ _ _ _ k init min => some (a.topk by_ k.toNat init min op.base)
  | .arest _ x => some (a.restore c x.all op.off)
  | _ => none

/-- The matrix unit of a core or, for `tld` and `tst`, the tile path completes an operation (R344, R346, R347). -/
def completing (s : State) (core : Nat) (op : MatOp) (i : Instr) : Prop :=
  (i = .matrixOpCompletion core ∧ (s.coreAt core).matUnit = some op) ∨
    (i = .tilePathCompletion core ∧ ∃ l, (s.coreAt core).tilePath = op :: l)

end Sys2Proof.Claims

/-- R298, R302 to R305, R310, R325, R328, R340, R344 to R353, R355: the copy engine and the matrix unit. A unit that nothing
holds back lands; that of a load puts its bytes into the window and is counted on the barrier. A fault of a unit suspends its
copy, or stops it and ends the launch with status 16 when it is fatal. The matrix unit takes the oldest instruction of its queue. An
operation that completes leaves the accumulator that the spec gives, its tiles are counted no longer, and its instruction
completes. Poison under `atopk` is log 42; that `tld` and `arest` read the scratchpad as they complete is log 43. -/
def Obligations.EngineEvents : Prop :=
  (∀ (s : State) (core k n u : Nat) (c : Copy) (r : Receiver) (rs ws : List Leaf),
    (s.coreAt core).copies[k]? = some c → c.receivers[n]? = some r → c.suspended = none → u < c.units → u ∉ r.counted →
    r.finished = false → s.unitHeld ((s.coreAt core).copies.take k) c r.crew u = false → s.copyCheck c (s.unitReplay c) u = .ok (rs, ws) →
    (c.multicasts = true → (s.crew? r.crew).isSome) → s.copyRoom core c u = some true →
      exec (.copyUnitLanded core k u n) s = .next (s.landUnit core k c n u r rs ws) ∧
      ∀ f d b v, c.kind = .linear true f → s.crew? r.crew = some d → c.barrierIn d = some b → b.inv = false →
        v < c.units → v ≠ u → v ∉ r.counted → c.len % 16 = 0 → Memory.wf d.scratch = true →
          let t := s.landUnit core k c n u r rs ws
          let at_ := d.windowBase c.group + c.win + 128 * u
          ∃ c' d', (t.coreAt core).copies[k]? = some c' ∧
            c'.receivers[n]? = some { r with counted := u :: r.counted } ∧ t.crew? r.crew = some d' ∧
            c.barrierIn d' = some (Claims.settled { b with pend := b.pend - BitVec.ofNat 48 (c.unitBytes u) }) ∧
            (∀ a, outside a at_ (c.unitBytes u) → Memory.read d'.scratch a = Memory.read d.scratch a) ∧
            ∀ j, j < c.unitBytes u → Memory.read d'.scratch (at_ + j) =
              ((((s.copyData c rs u).getD (j / 16) []).getD (j % 16 / 4) ([], false)).1).getD (j % 4) 0) ∧
  (∀ (s : State) (core k u : Nat) (c : Copy) (l : Launch) (v : VFault) (a : Acc4),
    (s.coreAt core).copies[k]? = some c → c.suspended = none → u < c.units →
    (∃ r ∈ c.receivers, r.finished = false ∧ u ∉ r.counted) → s.copyCheck c (s.unitReplay c) u = .error (v, a) →
    (∀ q i d, c.kind ≠ .packet q i d) → s.launch? c.crew.launch = some l →
      (v.fatal = true → l.done = none → v.code < 16 → s.launchEnds (.copyUnitFault core k u) l.id 16 ∧
        ∃ t, exec (.copyUnitFault core k u) s = .next t ∧
          (t.coreAt core).copies = (s.coreAt core).copies.filter fun j => !(j.crew == c.crew && j.handle == c.handle)) ∧
      (v.fatal = true → l.done = none → 16 ≤ v.code → l.armed = false → s.launchEnds (.copyUnitFault core k u) l.id 23) ∧
      (v.fatal = false → ∃ t num, exec (.copyUnitFault core k u) s = .next t ∧ t.crews = s.crews ∧
        (t.coreAt core).copies[k]? = some { c with suspended := some num })) ∧
  (∀ (s : State) (core : Nat) (op : MatOp) (l : List MatOp),
    (s.coreAt core).matUnit = none → (s.coreAt core).matQueue = op :: l →
      ∃ f, exec (.matrixUnitTake core) s = .next (s.modCore core f) ∧
        f (s.coreAt core) = { s.coreAt core with matUnit := some op, matQueue := l }) ∧
  (∀ (s : State) (core : Nat) (op : MatOp) (i : Instr) (c : Crew) (w : Warp) (l : Launch), Claims.completing s core op i →
    s.crew? op.warp.crew = some c → s.warp? op.warp = some w → s.launch? op.warp.crew.launch = some l →
      let flight := w.flights.find? fun f => f.kind == .engine op.id
      let quiet := ∀ f, flight = some f → Claims.landsNothing s op.warp f.id
      ∃ t d, exec i s = .next t ∧ t.crew? op.warp.crew = some d ∧ t.mem = s.mem ∧
        ((t.coreAt core).matUnit = if i = .matrixOpCompletion core then none else (s.coreAt core).matUnit) ∧
        (quiet → (∀ c dst e slot acc psel raw, op.instr ≠ .ard c dst e slot acc psel raw) →
          ∃ v, d = ((c.perform l op).countTiles op (-1)).modWarp op.warp.warp (fun _ => v) ∧
            match flight with
            | some f => v.flights = w.flights.filter (fun g => g.id != f.id) ∧ v.flags = (w.modFlag f.setf (· - 1)).flags ∧
                v.bank = { w.bank with fpctl := w.fpctl ||| f.raise.getD 0 } ∧ v.splits = w.splits
            | none => v = w) ∧
        (quiet → ∀ a, Claims.accAfter c l op = some a → d.accs = c.accs.set op.acc a ∧ d.scratch = c.scratch) ∧
        (quiet → ∀ ct x, op.instr = .asave ct x → d.accs = c.accs ∧
          d.scratch = (c.saveAcc (c.accs.getD op.acc Acc.zero) x.all op.off).scratch) ∧
        (∀ ct dst e slot acc psel raw q k x f, op.instr = .ard ct dst e slot acc psel raw → op.queue = some q →
          c.queues[q]? = some k → flight = some f → k.pending = [] → k.landing = [x] → x.slot = op.landSlot →
          x.flight = some (op.warp.warp, f.id) →
          (∀ j m, j ≠ q → c.queues[j]? = some m → ∀ y ∈ m.landing, y.flight ≠ some (op.warp.warp, f.id)) →
            ∃ k', d.queues[q]? = some k' ∧ Claims.sameRows k' k ∧ k'.landing = [] ∧ d.accs = c.accs ∧
              (x.slot = k.head → Memory.wf c.scratch = true → (d.headRow q).2.1 = x.valid ∧
                (d.headRow q).1 = laneList.map fun i =>
                  if x.valid.getLsbD i then wordAt (c.readAcc l op psel raw).1 i else 0)) ∧
        (quiet → ∀ ct dst e slot acc psel raw, op.instr = .ard ct dst e slot acc psel raw → d.accs = c.accs ∧ d.scratch = c.scratch ∧
          (∀ q, op.queue = some q → ∀ k, c.queues[q]? = some k → ∃ k', d.queues[q]? = some k' ∧
            k'.landing = k.landing.map fun x =>
              if x.slot = op.landSlot then { x with words := (c.readAcc l op psel raw).1, poison := (c.readAcc l op psel raw).2 } else x) ∧
          (op.queue = none → ((∃ n, dst = .v n) ∨ ∃ n, dst = .vx n) → ∀ w, c.warps[op.warp.warp]? = some w →
            ∃ v, d.warps[op.warp.warp]? = some v ∧ v.splits = w.splits ∧ v.scalars = w.scalars ∧
              ∀ i, i < 48 → op.lanes.getLsbD i = true → w.bot ≤ op.rows.getD i 0 →
                op.rows.getD i 0 < w.bot + w.rows.length → v.laneWord (op.rows.getD i 0) i = wordAt (c.readAcc l op psel raw).1 i)))

/-! # Errors, lines, samples and compare points -/

/-- R80, R212, R257, R334, R427, R428: an uncorrectable error poisons the 64 bits that it strikes in a memory, a cache line, the
scratchpad, a tile or a scale store, and the word that it strikes in a register, the spill buffer or an accumulator (log 61), and
nothing else changes; one in a core's control state ends every launch of the contexts on the core, with status 23 (the model's
reading, log 39), and takes the core out of service; a corrected one is counted. A cache line is dropped once 65,536 cycles have
passed since it was filled. In what unit poison is kept is log 14, where an error strikes log 61, and how the age of a line is
counted log 62. -/
def Obligations.ErrorsAndLines : Prop :=
  let pair (off : Nat) (ps : List Nat) : List Nat := setInsert (off / 8 * 2 + 1) (setInsert (off / 8 * 2) ps)
  let four (n : Nat) (ps : List Nat) : List Nat :=
    setInsert (n / 4 * 4 + 3) (setInsert (n / 4 * 4 + 2) (setInsert (n / 4 * 4 + 1) (setInsert (n / 4 * 4) ps)))
  (∀ (s : State) (pa : Nat), exec (.uncorrectableError (.memory pa)) s = .next { s with memPoison := pair pa s.memPoison }) ∧
  (∀ (s : State), exec (.uncorrectableError .corrected) s =
    .next { s with device := { s.device with corrected := s.device.corrected + 1 } }) ∧
  (∀ (s : State) (n k off : Nat) (ln : Line), off < 128 →
    let struck (ls : List Line) : List Line := ls.set k { ln with poison := pair (ln.addr * 128 + off) ln.poison }
    ((s.coreAt n).l1[k]? = some ln → ∃ f, exec (.uncorrectableError (.cacheLine (.l1 n) k off)) s = .next (s.modCore n f) ∧
      f (s.coreAt n) = { s.coreAt n with l1 := struck (s.coreAt n).l1 }) ∧
    ((s.dieAt n).rdc[k]? = some ln → ∃ f, exec (.uncorrectableError (.cacheLine (.rdc n) k off)) s = .next (s.modDie n f) ∧
      f (s.dieAt n) = { s.dieAt n with rdc := struck (s.dieAt n).rdc })) ∧
  (∀ (s : State) (n k row lane : Nat) (g : Granule), (s.coreAt n).spillBuf[k]? = some g → row < 8 → lane < 48 →
    ∃ f, exec (.uncorrectableError (.spillBuffer n k row lane)) s = .next (s.modCore n f) ∧
      ∃ h, f (s.coreAt n) = { s.coreAt n with spillBuf := (s.coreAt n).spillBuf.set k h } ∧ h = { g with poison := h.poison } ∧
        ∀ p, p ∈ h.poison ↔ p ∈ g.poison ∨ p = (8 * g.index + row, lane)) ∧
  (∀ (s : State) (r : WarpRef) (c : Crew) (w : Warp) (n : Nat), s.resident r = some (c, w) → n < w.scalars.length →
    s.warpBecomes (.uncorrectableError (.scalar r n)) r w fun v =>
      v = { w with scalarPoison := v.scalarPoison } ∧ ∀ m, m ∈ v.scalarPoison ↔ m ∈ w.scalarPoison ∨ m = n) ∧
  (∀ (s : State) (r : WarpRef) (c : Crew) (w : Warp) (row lane : Nat), s.resident r = some (c, w) →
    w.bot ≤ row → row < w.bot + w.ring → lane < 48 →
      s.warpBecomes (.uncorrectableError (.register r row lane)) r w fun v =>
        (∀ q l, v.poisoned q l = (w.poisoned q l || (q == row && l == lane))) ∧ v.rows = w.rows ∧ v.splits = w.splits) ∧
  (∀ (s : State) (r : CrewRef) (c : Crew) (n off : Nat), s.crew? r = some c → c.core.isSome →
    (off < c.scratchSize → s.crewBecomes (.uncorrectableError (.scratch r off)) r c fun d =>
      d = { c with scratchPoison := pair off c.scratchPoison }) ∧
    (off < 32768 → s.crewBecomes (.uncorrectableError (.tile r n off)) r c fun d =>
      d = { c with tiles := c.tiles.modify n fun t => { t with poison := pair off t.poison } }) ∧
    (off < 2048 → s.crewBecomes (.uncorrectableError (.scale r n off)) r c fun d =>
      d = { c with tiles := c.tiles.modify n fun t => { t with scalePoison := four off t.scalePoison } }) ∧
    (∀ plane i j, plane < 3 → i < 64 → j < 64 → s.crewBecomes (.uncorrectableError (.accumulator r n plane i j)) r c fun d =>
      d = { c with accs := c.accs.modify n fun a => { a with poison := setInsert (4096 * plane + 64 * i + j) a.poison } }) ∧
    (∀ l, s.launch? r.launch = some l → c.core = some n →
      (∀ m, s.launch? m.id = some m → m.ctx = l.ctx → m.done = none →
        s.launchEnds (.uncorrectableError (.coreControl n)) m.id 23) ∧
      ∃ t, exec (.uncorrectableError (.coreControl n)) s = .next t ∧ n ∈ t.device.outOfService)) ∧
  (∀ (s : State) (n k : Nat) (ln : Line),
    let old := ln.filled + 65536 < s.clock.cycle
    ((s.coreAt n).l1[k]? = some ln → ∃ f, exec (.lineAgeExpiry (.l1 n) k) s = .next (s.modCore n f) ∧
      f (s.coreAt n) = { s.coreAt n with l1 := if old then (s.coreAt n).l1.eraseIdx k else (s.coreAt n).l1 }) ∧
    ((s.dieAt n).rdc[k]? = some ln → ∃ f, exec (.lineAgeExpiry (.rdc n) k) s = .next (s.modDie n f) ∧
      f (s.dieAt n) = { s.dieAt n with rdc := if old then (s.dieAt n).rdc.eraseIdx k else (s.dieAt n).rdc }))

/-- R380 to R382, R422 to R426: a sample of a quarter takes the next resident slot after the one last sampled, of those whose period
ends in the cycle (log 57), and writes a record of type 0 with the warp's PC and its stall code, 128 when it has issued; a ring that
is full drops it, and so does, by the model's choice (log 17), a write that faults. At a compare point both copies of a paired warp
go on, and the primary's held stores drain, when their counts and signatures agree, or one of the signatures took in a poisoned word
(R335); if they differ, or one has ended and the other has not, a record of kind 9 is written and the launch is replayed or ends
with status 24; a point waits for the store copies before it and for the other copy. -/
def Obligations.SamplesAndComparePoints : Prop :=
  (∀ (s : State) (core q : Nat) (r : WarpRef) (w : Warp) (l : Launch),
    let takes (v : WarpRef) : Prop := ∀ n, s.samplingOf v.crew.launch = some n → s.clock.cycle % 2 ^ n = 0
    let far (v : Warp) : Nat := (v.slot + 16 - ((s.coreAt core).sampled.getD q 15 + 1) % 16) % 16
    (r, w) ∈ s.quarterWarps core q → takes r → (∀ v ∈ s.quarterWarps core q, takes v.1 → v = (r, w) ∨ far w < far v.2) →
    s.launch? r.crew.launch = some l →
      let e := s.modCore core fun k => { k with sampled := k.sampled.set q w.slot }
      let reason := e.stallReason r w
      ((s.context? l.ctx).bind (·.sampling) = none → exec (.pcSampling core q) s = .next e) ∧
      (((s.context? l.ctx).bind (·.sampling)).isSome → exec (.pcSampling core q) s = .next (e.sample l.ctx
        (leBytes 8 s.clock.tick.toNat ++ leBytes 4 l.seq.toNat ++ leBytes 4 w.split.pc.toNat ++ leBytes 2 (4 * core + q) ++
          leBytes 1 w.slot ++ leBytes 1 (if reason = 0 then 128 else reason) ++ leBytes 4 r.crew.crew ++ leBytes 1 0 ++
          leBytes 1 r.warp ++ leBytes 2 0 ++ leBytes 4 0))) ∧
      (w.issuedAt = some s.clock.cycle → reason = 0) ∧
      (w.issuedAt ≠ some s.clock.cycle → w.stopped = true → reason = 1) ∧
      (w.issuedAt ≠ some s.clock.cycle → w.stopped = false → ∀ b, w.block = some b → reason = b.reason)) ∧
  (∀ (s : State) (core q : Nat), s.quarterWarps core q = [] → exec (.pcSampling core q) s = .next s) ∧
  (∀ (s : State) (x : CtxRef) (rec : Record) (c : Context) (g : Ring), s.context? x = some c → c.sampleRing = some g →
    let ringAs (t : State) (f : Ring → Ring) : State := t.modContext x fun c => { c with sampleRing := c.sampleRing.map f }
    let put := s.vWrite x (g.base + 32 * (g.write.toNat % g.size)) rec
    (g.full = true → s.sample x rec = ringAs s fun g => { g with dropped := g.dropped + 1 }) ∧
    (g.full = false → ∀ v, put = .error v → s.sample x rec = ringAs s fun g => { g with dropped := g.dropped + 1 }) ∧
    (g.full = false → ∀ t, put = .ok t → s.sample x rec = ringAs t fun g => { g with write := g.write + 1 })) ∧
  (∀ (s : State) (cr n m : Nat) (l : Launch) (id : Nat) (c d : Crew) (a b : Warp),
    let p : WarpRef := ⟨⟨id, cr, false⟩, n⟩
    let q : WarpRef := ⟨⟨id, cr, true⟩, n⟩
    s.launch? id = some l → l.paired = true → s.crew? p.crew = some c → s.crew? q.crew = some d → c.core.isSome → d.core.isSome →
    s.warp? p = some a → s.warp? q = some b → a.compare = some m →
    let report := s.event l.ctx (recordBytes 9 0 l.queue.q l.seq s.clock.tick l.tag
      (leBytes 4 cr ++ leBytes 1 n ++ leBytes 4 m ++ leBytes 8 a.sig.toNat ++ leBytes 8 b.sig.toNat))
    let same := b.compare = some m ∧ (a.sig = b.sig ∨ a.spoiled = true ∨ b.spoiled = true) ∧ a.retired = b.retired
    let due := ∃ k, b.compare = some k ∧ (s.copiesDue p m = true ∨ s.copiesDue q k = true)
    let differs := (b.compare.isSome ∧ ¬ same) ∨ (b.compare = none ∧ b.retired = true ∧ b.holdFull = false)
    ∀ r, r = p ∨ r = q →
      (due → exec (.comparePoint r) s = .next s) ∧
      (¬ due → same →
        exec (.comparePoint r) s = .next (((s.drainMatched id p q m).modWarp p Warp.passPoint).modWarp q Warp.passPoint) ∧
        (l.replay = false → ∃ u, (s.drainMatched id p q m).launch? id = some u ∧ u.hold = l.hold.filter fun h =>
          !((h.crew == p.crew || h.crew == q.crew) && h.warp == n && h.store != 0 && decide (h.store ≤ m)))) ∧
      (¬ due → differs → l.armed = true → exec (.comparePoint r) s = .next (report.replayLaunch id 2)) ∧
      (¬ due → differs → l.armed = false → exec (.comparePoint r) s = .next (report.endLaunch id 24) ∧
        (l.done = none → s.launchEnds (.comparePoint r) id 24)) ∧
      (b.compare = none → b.retired = false → b.holdFull = false → exec (.comparePoint r) s = .next s)) ∧
  (∀ (w : Warp) (m : Nat), w.compare = some m →
    w.passPoint = if w.retired then { w with compare := none }
      else { w with block := none, wake := 2, compare := none, passed := !w.passed })

/-! # Command queues, packets and placement -/

namespace Sys2Proof.Claims

open Sys2Proof.Machine

/-- R401, R405, R413 to R415: the queue whose packets an event takes, their kind, and when one of them is legal. -/
def officeOf : Instr → Option (QueueRef × Nat × (CmdQueue → List Byte → Bool))
  | .launch r => some (r, 1, launchLegal)
  | .waitOnValue r => some (r, 2, waitLegal)
  | .writeValue r => some (r, 3, writeLegal)
  | .copy r => some (r, 4, copyLegal)
  | .faultAcknowledgement r => some (r, 6, ackLegal)
  | .createContext r => some (r, 5, fun q b => byteAt b 16 == 1 && createLegal q b)
  | .destroyContext r => some (r, 5, fun q b => byteAt b 16 == 2 && destroyLegal q b)
  | .queueCreate r => some (r, 5, fun q b => byteAt b 16 == 3 && byteAt b 17 == 0 && queueCreateLegal q b)
  | .queueStop r false => some (r, 5, fun q b => byteAt b 16 == 3 && byteAt b 17 == 1 && queueFrame 1 [] q b)
  | .queueRestart r none => some (r, 5, fun q b => byteAt b 16 == 3 && byteAt b 17 == 2 && queueFrame 2 [(40, 4)] q b)
  | .translationInvalidation r => some (r, 5, fun q b => byteAt b 16 == 4 && invalLegal q b)
  | .swapOut r => some (r, 5, fun q b => byteAt b 16 == 5 && byteAt b 17 == 0 && swapLegal 0 q b)
  | .resume r => some (r, 5, fun q b => byteAt b 16 == 5 && byteAt b 17 == 1 && swapLegal 1 q b)
  | .partitionSave r => some (r, 5, fun q b => byteAt b 16 == 6 && byteAt b 17 == 0 && saveLegal 0 q b)
  | .partitionRestore r => some (r, 5, fun q b => byteAt b 16 == 6 && byteAt b 17 == 1 && saveLegal 1 q b)
  | .setWdogctl r => some (r, 5, fun q b => byteAt b 16 == 7 && wdogLegal q b)
  | .setApertureEntry r => some (r, 5, fun q b => byteAt b 16 == 8 && apertureLegal q b)
  | .sampling r => some (r, 5, fun q b => byteAt b 16 == 9 && samplingLegal q b)
  | _ => none

/-- R414: a partition-control packet that is another's to take: its subkind, and its operation where the subkind has several, name
another event than `i`. -/
def elsewhere (i : Instr) (b : List Byte) : Bool :=
  let sub := byteAt b 16
  let op := byteAt b 17
  let mine := match i with
    | .createContext _ => sub == 1
    | .destroyContext _ => sub == 2
    | .queueCreate _ => sub == 3 && op == 0
    | .queueStop _ _ => sub == 3 && op == 1
    | .queueRestart _ _ => sub == 3 && op == 2
    | .translationInvalidation _ => sub == 4
    | .swapOut _ => sub == 5 && op == 0
    | .resume _ => sub == 5 && op == 1
    | .partitionSave _ => sub == 6 && op == 0
    | .partitionRestore _ => sub == 6 && op == 1
    | .setWdogctl _ => sub == 7
    | .setApertureEntry _ => sub == 8
    | .sampling _ => sub == 9
    | _ => false
  byteAt b 0 == 5 && 1 ≤ sub && sub ≤ 9 && !(sub == 3 && 2 < op) && !((sub == 5 || sub == 6) && 1 < op) && !mine

/-- The packet at the head is taken: it is pending until it completes, and the head is the next one (R400, R403). -/
def accepted (s : State) (r : QueueRef) (p : Pending) : State :=
  s.modCmdQueue r fun c => { c with head := c.head + 1, rereads := 0, fetched := none, pending := c.pending ++ [p] }

/-- R239, R372 to R376, R398 to R402, R413 to R416: what an accepted packet of each kind but a launch does; `finishPacket` ends
it with a status of R449. -/
def packetEffect (s : State) (q : CmdQueue) (p : Pending) (i : Instr) : State :=
  let b := p.body
  let own : CtxRef := ⟨q.ref.part, q.ctx.getD 0⟩
  let x : CtxRef := ⟨q.ref.part, byteAt b 18⟩
  let named : QueueRef := ⟨q.ref.part, byteAt b 19⟩
  let there := (s.context? x).isSome
  let ours := (s.cmdQueue? named).any fun c => c.ctx == some x.ctx
  let onContext (f : Context → Context) : State :=
    if there then (s.modContext x f).finishPacket q p 0 else s.finishPacket q p 2
  match i with
  | .waitOnValue _ => s.pollValue q p
  | .writeValue _ =>
    let va := fieldAt b 16 8
    let n := byteAt b 32
    match s.checkAccess own .packet va n false none with
    | .error (code, f) => s.packetFault q p .packet ⟨va, code, f⟩
    | .ok l =>
      if l.spill then s.packetFault q p .packet ⟨va, 4, true⟩
      else if l.ro then s.packetFault q p .packet ⟨va, 8, true⟩
      else if l.poison then s.packetFault q p .packet ⟨va, 9, true⟩
      else ((l.writeSingle (va - l.va) (leBytes n (fieldAt b 24 n)) false).foldl
        (fun s w => s.physWrite ⟨own, none, none⟩ w.pa w.data w.bad) s).finishPacket q p 0
  | .copy _ =>
    if fieldAt b 32 8 = 0 then s.finishPacket q p 0
    else s.modCore (s.officeCore own) fun k => { k with copies := k.copies ++
      [{ crew := noCrew, warp := 0, ctx := own, group := 0, bar := 0, handle := 0
         kind := .packet q.ref p.index (fieldAt b 24 8), glob := fieldAt b 16 8, win := 0, len := fieldAt b 32 8, mark := none
         receivers := [⟨noCrew, [], false⟩], suspended := none, aperture := none, store := none }] }
  | .faultAcknowledgement _ => (s.ackFault ⟨q.ref.part, byteAt b 20⟩ (fieldAt b 16 4)).finishPacket q p 0
  | .createContext _ =>
    if 16 ≤ (s.contexts.filter fun c => c.ref.part == x.part).length then s.finishPacket q p 1
    else if there then s.finishPacket q p 2
    else ({ s with contexts := s.contexts ++ [newContext x b (s.coresOf x)] } : State).finishPacket q p 0
  | .destroyContext _ => if there then (s.destroyContext x).finishPacket q p 0 else s.finishPacket q p 2
  | .queueCreate _ =>
    if there && (s.cmdQueue? named).isNone then
      ({ s with queues := s.queues ++
        [newCmdQueue named (some x.ctx) (fieldAt b 24 8) (fieldAt b 32 4) (byteAt b 20) (BitVec.ofNat 32 (fieldAt b 36 4))] } :
        State).finishPacket q p 0
    else s.finishPacket q p 2
  | .queueStop _ false =>
    if ours then (s.modCmdQueue named fun c => { c with stopped := true, rereads := 0, fetched := none }).finishPacket q p 0
    else s.finishPacket q p 2
  | .queueRestart _ none =>
    if ours && (s.cmdQueue? named).any (·.stopped) then
      (s.restartQueue named (BitVec.ofNat 32 (fieldAt b 40 4))).finishPacket q p 0
    else s.finishPacket q p 2
  | .translationInvalidation _ =>
    if there then (s.invalidateRange x (fieldAt b 24 8) (fieldAt b 32 8)).finishPacket q p 0 else s.finishPacket q p 2
  | .swapOut _ =>
    let cs := s.swapTarget x p true
    if cs = [] then s.finishPacket q p 2 else (s.swapOut x cs).getD (s.finishPacket q p 1)
  | .resume _ =>
    let cs := s.swapTarget x p false
    if cs = [] then s.finishPacket q p 2 else s.queueResume x.part cs
  | .partitionSave _ =>
    if !there then s.finishPacket q p 2
    else if (s.partition? x.part).any (·.slotFree (byteAt b 19)) then s.saveContext x (byteAt b 19) else s.finishPacket q p 1
  | .partitionRestore _ =>
    match (s.partition? x.part).bind fun k => k.saved.find? (·.slot == byteAt b 19) with
    | some m => if there then s.restoreContext x m (fieldAt b 24 8) else s.finishPacket q p 2
    | none => s.finishPacket q p 2
  | .setWdogctl _ => onContext fun c => { c with wdogctl := BitVec.ofNat 32 (fieldAt b 20 4 % 2 ^ 24) }
  | .setApertureEntry _ => onContext fun c =>
      { c with apertures := (byteAt b 19,
          if byteAt b 27 = 1 then some ⟨fieldAt b 24 2, byteAt b 26, fieldAt b 32 8⟩ else none) ::
        c.apertures.filter fun a => a.1 != byteAt b 19 }
  | .sampling _ => onContext fun c => { c with sampling := if byteAt b 17 = 1 then some (byteAt b 19) else none }
  | _ => s

end Sys2Proof.Claims

/-- R400 to R407, R413 to R416: the sorting office takes the packet at the head of a queue and does what its kind asks. A launch
starts under the template and the code as they stand, or ends with status 21 by a wrong template. A packet whose sequence number is
not the expected one is read again; a bad one stops its queue, after a record of kind 3 with status 2, its index, sequence number
and Tag; one that FENCE holds stays; poison in a packet or a template is consumed (R428; log 18 for a packet). The model's readings
here: faults of the office (log 45), bytes that a kind does not name (46), stopping a stopped queue (47), code that cannot be
translated (52), small points of packets (53), what an access from outside answers (56), mean-digits pages (67), a partition that is
full (81). A partition-control packet that another event takes is left to it. -/
def Obligations.OfficePackets : Prop :=
  ∀ (s : State) (i : Instr) (r : QueueRef) (q : CmdQueue) (p : Pending) (kind : Nat) (legal : CmdQueue → List Byte → Bool),
    Claims.officeOf i = some (r, kind, legal) → s.cmdQueue? r = some q →
      let t := Claims.accepted s r p
      let own := kind = 5 → Claims.elsewhere i (q.fetched.getD (s.headBytes q)) = false
      (¬ own → exec i s = .next s) ∧
      (s.lookAt q kind legal = .packet p → kind ≠ 1 → exec i s = .next (Claims.packetEffect t q p i)) ∧
      (s.lookAt q kind legal = .packet p → kind = 1 →
        let x : CtxRef := ⟨q.ref.part, q.ctx.getD 0⟩
        let va := fieldAt p.body 16 8
        let none_ := ∀ m ∈ s.launches, m.id ≠ s.nextLaunch
        (∀ v, t.vRead ⟨x, none, none⟩ .packet va 64 = .error v → exec i s = .next (t.packetFault q p .packet v)) ∧
        ∀ b bad head, t.vRead ⟨x, none, none⟩ .packet va 64 = .ok head →
          t.vRead ⟨x, none, none⟩ .packet va (templateBytes head.1) = .ok (b, bad) →
          let code := t.codeImage x (templateOf b)
          let l := { newLaunch s.nextLaunch q p (templateOf b) code.1 with badCode := code.2 }
          let wrongs := (templateOf b).wrongs b l.race l.spillBase l.spillW l.spillSlots
            (l.aff.any fun a => !((t.diesOf x).contains a.1))
          let fits := l.coloc = true → t.fitsEmpty x.part l = true
          (bad = false → wrongs = [] → fits →
            exec i s = .next { t with launches := t.launches ++ [l], nextLaunch := t.nextLaunch + 1 }) ∧
          (bad = false → wrongs ≠ [] ∨ ¬ fits → none_ → s.launchEnds i s.nextLaunch 21) ∧
          (bad = true → l.replay = false → none_ → s.launchEnds i s.nextLaunch 23)) ∧
      (own → s.lookAt q kind legal = .stale →
        exec i s = .next (s.modCmdQueue r fun c => { c with rereads := 1, readTick := s.clock.tick })) ∧
      (own → s.lookAt q kind legal = .bad →
        let b := q.fetched.getD (s.headBytes q)
        exec i s = .next ((s.queueEvent q (recordBytes 3 2 q.ref.q (packetSeq b) s.clock.tick (packetTag b)
          (leBytes 4 q.head.toNat ++ leBytes 4 (packetSeq b).toNat))).modCmdQueue r fun c =>
            { c with stopped := true, rereads := 0, fetched := none })) ∧
      (own → s.lookAt q kind legal = .poisoned → ∃ t d, exec i s = .next t ∧ t.cmdQueue? r = some d ∧ d.stopped = true ∧
        d.head = q.head ∧ d.pending = q.pending) ∧
      (s.lookAt q kind legal = .held → exec i s = .next s)

/-- R402, R404, R413, R374: command queues. A kick announces packets; one that steps back or past the queue's size stops the queue,
and one of a stopped queue is remembered. A stale packet is read again every 250 ns, eight times, and then stops the queue. A
wait-on-value ends when its word compares true, and stops its queue where the word is poisoned (R428; log 18). A save, restore,
swap-out or resume reports once it is complete. The management interface stops the control queue and restarts it at a head index
(R401; log 53). -/
def Obligations.CommandQueues : Prop :=
  (∀ (s : State) (r : QueueRef) (v : BitVec 32),
    s.cmdQueue? r = none → exec (.kick r v) s =
      .next (if s.device.powered then { s with device := { s.device with errorCount := s.device.errorCount + 1 } } else s)) ∧
  (∀ (s : State) (r : QueueRef) (q : CmdQueue), s.cmdQueue? r = some q →
    (∀ v, if q.stopped then exec (.kick r v) s = .next (s.modCmdQueue r fun c => { c with remembered := some v })
      else if (v - q.last).toNat < 2 ^ 31 ∧ (v - q.head).toNat ≤ q.size then
        exec (.kick r v) s = .next (s.modCmdQueue r fun c => { c with last := v })
      else ∃ t d, exec (.kick r v) s = .next t ∧ t.cmdQueue? r = some d ∧ d.stopped = true ∧ d.last = q.last) ∧
    (q.stopped = false → q.rereads ≠ 0 → q.readTick.toNat + 250 ≤ s.clock.tick.toNat → (s.headRead q).2 = false →
      if packetSeq (s.headBytes q) = q.seqbase + q.head then
        exec (.packetReread r) s = .next (s.modCmdQueue r fun c => { c with rereads := 0, fetched := some (s.headBytes q) })
      else if q.rereads = 8 then ∃ t d, exec (.packetReread r) s = .next t ∧ t.cmdQueue? r = some d ∧ d.stopped = true
      else exec (.packetReread r) s =
        .next (s.modCmdQueue r fun c => { c with rereads := c.rereads + 1, readTick := s.clock.tick })) ∧
    (∀ p, q.waiting = some p → q.stopped = false →
      let b := p.body
      let x : CtxRef := ⟨q.ref.part, q.ctx.getD 0⟩
      let n := byteAt b 40
      let va := fieldAt b 16 8
      ∀ l, s.checkAccess x .packet va n false none = .ok l →
        let read := s.readSingle ⟨x, none, none⟩ l (va - l.va) n
        let word := leNat read.1 &&& fieldAt b 32 n
        let value := fieldAt b 24 n &&& fieldAt b 32 n
        let holds := (byteAt b 41 = 0 ∧ word = value) ∨ (byteAt b 41 = 1 ∧ word ≠ value) ∨ (byteAt b 41 = 2 ∧ value ≤ word) ∨
          (2 < byteAt b 41 ∧ word < value)
        (read.2 = true → ∃ t d, exec (.waitOnValuePoll r) s = .next t ∧ t.cmdQueue? r = some d ∧ d.stopped = true ∧
          d.waiting = none) ∧
        (read.2 = false → holds → exec (.waitOnValuePoll r) s =
          .next ((s.finishPacket q p 0).modCmdQueue r fun c => { c with waiting := none })) ∧
        (read.2 = false → ¬ holds → exec (.waitOnValuePoll r) s = .next (s.modCmdQueue r fun c => { c with waiting := some p }))) ∧
    (∀ p, (q.pending.find? fun p => p.kind == 5 && (byteAt p.body 16 == 5 || byteAt p.body 16 == 6) &&
        !s.stillWaits ⟨r.part, byteAt p.body 18⟩ p) = some p →
      exec (.preemptionComplete r) s = .next (s.finishPacket q p 0) ∧
        ∃ d, (s.finishPacket q p 0).cmdQueue? r = some d ∧ d.pending = q.pending.filter (·.seq != p.seq)) ∧
    (r.q = 0 → q.stopped = false → exec (.queueStop r true) s =
      .next (s.modCmdQueue r fun c => { c with stopped := true, rereads := 0, fetched := none })) ∧
    (∀ head, r.q = 0 → q.stopped = true → q.remembered = none → q.waiting = none →
      ∃ f, exec (.queueRestart r (some head)) s = .next (s.modCmdQueue r f) ∧
        f q = { q with stopped := false, head := head, last := head, rereads := 0, fetched := none }))

namespace Sys2Proof.Claims

open Sys2Proof.Machine

/-- R408: a crew of the launch as it is placed: on its core, every warp at PC 0 with all lanes, and with its crew and warp numbers. -/
def placed (l : Launch) (r : CrewRef) (core : Nat) (c : Crew) : Prop :=
  c.core = some core ∧ c.warps.length = l.tmpl.warps.length ∧ ∀ n w, c.warps[n]? = some w → w.num = n ∧ w.split.pc = 0 ∧
    w.split.mask = BitVec.allOnes 48 ∧ w.scalar 20 = BitVec.ofNat 32 r.crew ∧ w.scalar 21 = BitVec.ofNat 32 n

/-- R410: the dies that a crew may stand on, in order: that of its affinity, or those of the partition from the pointer on. -/
def diesFor (p : Partition) (l : Launch) (crew : Nat) : List Nat :=
  match l.affine crew with
  | some d => [d]
  | none => p.diesFrom

end Sys2Proof.Claims

/-- R18, R372, R373, R400, R408 to R412, R422: a decision of the sorting office. It places the next crew of a launch on a core that
has room, on the die of its affinity or on one from the pointer on, which moves past that die; the shadow of a paired crew stands on
another core, and another die where the partition has one (the order of the dies is log 48). A co-resident launch is placed as a whole
or not at all. A crew that was swapped out and awaits its resume is placed before any new one: with its registers, its copies behind
those of the core (log 80) and the core's L1 and the translations empty. R18, R180: a crew whose warps have retired and whose copies and
operations are over ends, whatever spill writes it has left; the last one ends its launch, with status 0, but a spill write of the
context that waits on a fault holds that back (log 75). -/
def Obligations.PlacementAndEnd : Prop :=
  (∀ (s : State) (part : Nat) (p : Partition) (l : Launch) (core k : Nat),
    s.partition? part = some p → p.resumes = [] → s.placeable part = [l] → s.launch? l.id = some l → l.coloc = false →
    (if l.paired then 2 else 1) ≤ s.slotsLeft l → s.placeOn (Claims.diesFor p l l.next) (l.tmpl.need l.race) = some core →
    (l.paired = true → s.shadowCore p core (l.tmpl.need l.race) = some k) → (∀ b, s.crew? ⟨l.id, l.next, b⟩ = none) →
      ∃ t c d, exec (.dispatchDecision part) s = .next t ∧ t.crew? ⟨l.id, l.next, false⟩ = some c ∧
        Claims.placed l ⟨l.id, l.next, false⟩ core c ∧ t.launch? l.id = some { l with next := l.next + 1 } ∧
        t.partition? part = some d ∧ t.mem = s.mem ∧
        d.rotation = (if (l.affine l.next).isSome then p.rotation
          else (p.dies.findIdx (· == dieOfCore core) + 1) % max 1 p.dies.length) ∧
        (l.paired = true → k ≠ core ∧ (1 < p.dies.length → dieOfCore k ≠ dieOfCore core) ∧
          ∃ e, t.crew? ⟨l.id, l.next, true⟩ = some e ∧ Claims.placed l ⟨l.id, l.next, true⟩ k e)) ∧
  (∀ (s : State) (part : Nat) (p : Partition) (l : Launch),
    s.partition? part = some p → p.resumes = [] → s.placeable part = [l] → s.launch? l.id = some l → l.coloc = true →
    (∀ n b, s.crew? ⟨l.id, n, b⟩ = none) →
      let all := State.placeAll part l (l.count - l.next) l.next s
      (all = none → exec (.dispatchDecision part) s = .next s) ∧
      (all.isSome → ∃ t, exec (.dispatchDecision part) s = .next t ∧
        t.launch? l.id = some { l with next := l.count, confirmed := true } ∧
        ∀ n, l.next ≤ n → n < l.count → ∃ core c, t.crew? ⟨l.id, n, false⟩ = some c ∧ Claims.placed l ⟨l.id, n, false⟩ core c)) ∧
  (∀ (s : State) (part : Nat) (p : Partition) (l : Launch) (r : CrewRef) (c : Crew) (core : Nat) (rest : List CrewRef),
    s.partition? part = some p → p.resumes = r :: rest → s.crew? r = some c → c.core = none → s.launch? r.launch = some l →
    l.coloc = false → r.shadow = false →
    s.crews.filter (fun k => k.ref.launch == r.launch && k.ref.crew == r.crew) = [c] →
    s.placeOn (Claims.diesFor p l r.crew) (l.tmpl.need l.race) = some core → core < s.cores.length →
      ∃ t d q, exec (.dispatchDecision part) s = .next t ∧ t.crew? r = some d ∧ d.core = some core ∧ d.resuming = false ∧
        d.warps.map (fun w => { w.bank with slot := 0 }) = c.warps.map (fun w => { w.bank with slot := 0 }) ∧
        t.partition? part = some q ∧ q.resumes = rest.filter (· != r) ∧
        (t.coreAt core).copies = (s.coreAt core).copies ++ c.savedCopies ∧ (t.coreAt core).l1 = [] ∧
        ∀ k, t.context? l.ctx = some k → k.tlb = []) ∧
  (∀ (s : State) (r : CrewRef) (c : Crew) (l : Launch),
    s.crew? r = some c → c.core.isSome → s.launch? r.launch = some l → s.crewOver c = true →
      (∃ t, exec (.crewEnd r) s = .next t ∧ t.crew? r = none) ∧
      (l.done = none → r.shadow = false → l.ended + 1 = l.count → s.crewsOf l.id = [r] → (∀ x ∈ l.sigs, x.1.shadow = false) →
        ((∀ k ∈ s.cores, ∀ g ∈ k.spillBuf, g.ctx ≠ l.ctx) → (∀ k ∈ s.crews, ∀ g ∈ k.savedSpills, g.ctx ≠ l.ctx) →
          s.launchEnds (.crewEnd r) l.id 0) ∧
        ((∃ k ∈ s.cores, ∃ g ∈ k.spillBuf, g.ctx = l.ctx) →
          (∀ k ∈ s.cores, ∀ g ∈ k.spillBuf, g.ctx = l.ctx → g.suspended.isSome) →
          (∀ k ∈ s.crews, ∀ g ∈ k.savedSpills, g.ctx = l.ctx → g.suspended.isSome) →
            ∃ t m, exec (.crewEnd r) s = .next t ∧ t.launch? l.id = some m ∧ m.done = none ∧ m.ending = l.ending ∧
              t.cores.map (·.spillBuf) = s.cores.map (·.spillBuf))))

/-! # Host, time, start-up and the debugger -/

namespace Sys2Proof.Claims

open Sys2Proof.Machine

/-- R238, R240, R396, R413: what becomes of `s` when the access that the user `u` makes next faults at `addr` with this kind, and, of
a warp's, in the other lanes that `also` tells. -/
def refused (s : State) (u : FabricUser) (addr code : Nat) (also : Nat → Bool) (t : State) : Prop :=
  match u with
  | .warp r =>
    if addr ∈ s.fetchWords r then t = (s.fetchFails r (.fault addr code)).modWarp r fun w => { w with stall := w.stall + 1 }
    else ∃ f, s.fabricAccess r = some f ∧ t = s.refuseAccess f code (f.parts.filter fun a => a.2.2 == addr || also a.2.2)
  | .copy r => ∃ n c, (s.fabricCopies r.crew).find? (fun c => c.2.warp == r.warp && c.2.addressesDue.contains addr) = some (n, c) ∧
    t = s.fabricFault n c addr code
  | .spill core k => ∃ g, (s.coreAt core).spillBuf[k]? = some g ∧
    t = (s.modSpills (.buffer core) (·.erase g)).fatal g.warp.crew.launch (s.spillFault core g.warp .spillWrite ⟨addr, code, true⟩)
  | .refill r => ∃ c, s.crew? r.crew = some c ∧ t = s.fatal r.crew.launch (s.spillFault c.coreNo r .refill ⟨addr, code, true⟩)
  | .packet q => ∃ c p, s.cmdQueue? q = some c ∧ c.waiting = some p ∧
    t = (s.packetFault c p .packet ⟨addr, code, true⟩).modCmdQueue c.ref fun c => { c with waiting := none }

end Sys2Proof.Claims

/-- R309, R395, R396, R413, R417, R427, R430: the host's and the peers' accesses and the fabric. An access to device memory through
BAR2, and one of a peer, reads, writes or acts atomically at the home, and poison travels with its words; a die that is not up answers
nothing, nor does the device to a peer while no port is up, and a peer does not see the stores that a launch holds (R419); read indices
and tails are set; a flit that is sent again and a register without a function change nothing, and the mailbox answers (its requests are
log 10). A link that does not recover, and a fault that a peer reports, meet the access that a user of the fabric makes next: of a warp
(which lanes a peer refuses is log 79, and what happens to that access in what is left of the cycle log 82), of its fetch, its copies, a
spill, a refill, or of the sorting office, whose packet stops its queue. All others end the launch with status 16 and a record of kind
12 or 11 (the aperture of a `cpyf` copy is log 49, and what an access from outside answers log 56). -/
def Obligations.HostAccesses : Prop :=
  (∀ (s : State) (off : Nat) (a : ExtAccess), isDram off = false ∨ s.device.dieUp (off / dieSlot) = false →
    exec (.hostBar2Access off a) s = .next s) ∧
  (∀ (s : State) (off : Nat), isDram off = true → s.device.dieUp (off / dieSlot) = true → s.memOk →
    (∀ n, exec (.hostBar2Access off (.read n)) s =
      .next { s with device := { s.device with answer := (List.range n).map fun k => Memory.read s.mem (off + k)
                                               answerBad := anyPoison s.memPoison off n } }) ∧
    (∀ data bad, ∃ t, exec (.hostBar2Access off (.write data bad)) s = .next t ∧ t = { s with mem := t.mem, memPoison := t.memPoison } ∧
      (∀ k, k < data.length → Memory.read t.mem (off + k) = data.getD k 0) ∧
      (∀ a, outside a off data.length → Memory.read t.mem a = Memory.read s.mem a) ∧
      ∀ w, w ∈ t.memPoison ↔ w ∈ s.memPoison ∧ ¬ (off ≤ 4 * w ∧ 4 * w + 4 ≤ off + data.length)) ∧
    (∀ aop sz d cmp, let n := 2 ^ min sz.toNat 3
      let old := (List.range n).map fun k => Memory.read s.mem (off + k)
      ∃ t, exec (.hostBar2Access off (.atomic aop sz d cmp)) s = .next t ∧
        t.device = { s.device with answer := old, answerBad := anyPoison s.memPoison off n } ∧
        (∀ k, k < n → Memory.read t.mem (off + k) =
          (leBytes n (atomNew aop n (leNat old) d.toNat cmp.toNat)).getD k 0) ∧
        (∀ a, outside a off n → Memory.read t.mem a = Memory.read s.mem a) ∧ t.crews = s.crews ∧
        (anyPoison s.memPoison off n = true → aop ≠ 9 → ∀ w ∈ wordsOf off n, w ∈ t.memPoison) ∧
        (anyPoison s.memPoison off n = false ∨ aop = 9 →
          ∀ w, w ∈ t.memPoison ↔ w ∈ s.memPoison ∧ ¬ (off ≤ 4 * w ∧ 4 * w + 4 ≤ off + n)))) ∧
  (∀ (s : State) (x : CtxRef) (va : Nat) (a : ExtAccess), s.device.fabricUp = false →
    exec (.peerAccess x va a) s = .next { s with device := { s.device with answer := [], answerBad := false } }) ∧
  (∀ (s : State) (x : CtxRef) (va : Nat) (l : Leaf), s.device.fabricUp = true →
    let out : State := { s with launches := s.launches.map fun l => { l with hold := [] } }
    (∀ n, s.checkAccess x .load va n false none = .ok l → exec (.peerAccess x va (.read n)) s =
      .next { s with device := { s.device with answer := (out.readSingle ⟨x, none, none⟩ l (va - l.va) n).1
                                               answerBad := (out.readSingle ⟨x, none, none⟩ l (va - l.va) n).2 } }) ∧
    (∀ data bad, s.checkAccess x .store va data.length false none = .ok l → exec (.peerAccess x va (.write data bad)) s =
      .next ((l.writeSingle (va - l.va) data bad).foldl (fun s w => s.physWrite ⟨x, none, none⟩ w.pa w.data w.bad) s)) ∧
    (∀ aop sz d cmp, let n := 2 ^ min sz.toNat 3
      s.checkAccess x .atomic va n false none = .ok l → l.layout ≠ .triple →
        let pa := l.phys l.frame (va - l.va)
        let old := out.physRead ⟨x, none, none⟩ pa n
        let t := s.physWrite ⟨x, none, none⟩ pa (leBytes n (atomNew aop n (leNat old.1) d.toNat cmp.toNat)) (old.2 && aop != 9)
        exec (.peerAccess x va (.atomic aop sz d cmp)) s =
          .next { t with device := { t.device with answer := old.1, answerBad := old.2 } })) ∧
  (∀ (s : State) (part c : Nat) (v : BitVec 32) (k : Context), s.context? ⟨part, c⟩ = some k →
    (k.ring.held = [] → ∃ t, exec (.eventRingReadIndex part (some c) v) s = .next t ∧ t.mem = s.mem ∧ t.crews = s.crews ∧
      t.context? ⟨part, c⟩ = some { k with ring := { k.ring with read := v } }) ∧
    ∃ t, exec (.samplingRingReadIndex ⟨part, c⟩ v) s = .next t ∧ t.mem = s.mem ∧ t.crews = s.crews ∧
      t.context? ⟨part, c⟩ = some { k with sampleRing := k.sampleRing.map fun g => { g with read := v } }) ∧
  (∀ (s : State) (part : Nat) (v : BitVec 32) (p : Partition), s.partition? part = some p → p.ring.held = [] →
    ∃ t, exec (.eventRingReadIndex part none v) s = .next t ∧ t.mem = s.mem ∧ t.crews = s.crews ∧
      t.partition? part = some { p with ring := { p.ring with read := v } }) ∧
  (∀ (s : State) (die off port : Nat) (v : BitVec 32),
    (∃ f, exec (.deadLetterTail die v) s = .next (s.modDie die f) ∧ f (s.dieAt die) = { s.dieAt die with deadTail := v }) ∧
    (off < 0x1000 ∨ 0x2000 ≤ off → exec (.registerWriteOther off v) s = .next s) ∧
    (0x1000 ≤ off → off < 0x2000 → s.device.powered = true → 1 ≤ s.device.stage → Config.mailAsks (off - 0x1000) v = 3 →
      exec (.registerWriteOther off v) s = .next { s with device := { s.device with
        mailbox := s.device.mailbox ++ [⟨.counters, [s.device.errorCount, s.device.corrected]⟩] } }) ∧
    exec (.flitRetry port) s = .next s) ∧
  (∀ (s : State) (port : Nat) (u : FabricUser) (victims : List FabricUser),
    let down (t : State) : State := { t with device := { t.device with
      linkDown := if t.device.linkDown.contains port then t.device.linkDown else port :: t.device.linkDown } }
    (port ∉ s.device.settings.ports → exec (.linkFailure port victims) s = .next s) ∧
    (port ∈ s.device.settings.ports →
      exec (.linkFailure port []) s = .next (down s) ∧
      (s.fabricAddrs u = [] → exec (.linkFailure port [u]) s = .next (down s)) ∧
      ∀ a as t, s.fabricAddrs u = a :: as → Claims.refused s u a 12 (fun _ => true) t →
        exec (.linkFailure port [u]) s = .next (down t))) ∧
  (∀ (s : State) (u : FabricUser) (addr : BitVec 64),
    (addr.toNat ∉ s.fabricAddrs u → exec (.peerFault u addr) s = .next s) ∧
    (addr.toNat ∈ s.fabricAddrs u → ∀ t, Claims.refused s u addr.toNat 11 (Config.peerRefuses s.fresh) t →
      exec (.peerFault u addr) s = .next { t with fresh := t.fresh + 1 })) ∧
  (∀ (s : State) (l : Launch) (r : WarpRef) (addr : BitVec 64), s.launch? r.crew.launch = some l → l.done = none →
    (addr.toNat ∈ s.fabricAddrs (.warp r) → addr.toNat ∉ s.fetchWords r → s.launchEnds (.peerFault (.warp r) addr) l.id 16) ∧
    (addr.toNat ∈ s.fabricAddrs (.copy r) → s.launchEnds (.peerFault (.copy r) addr) l.id 16) ∧
    (addr.toNat ∈ s.fabricAddrs (.refill r) → s.launchEnds (.peerFault (.refill r) addr) l.id 16))

/-- R12, R389, R392, R393, R397, R401, R431 to R434: the tick and the clock, start-up, limits, partitions and attestation. The device
follows the best of the clocks it has heard of unless its own is better, which is of class 6 with a valid timing input (log 3 says for
how long a pulse is valid, and when a clock is heard of no more), and a holdover ends after 10 s. The SHA3-512 measurements, the nonce
and the signature over them, whose value is free (log 13), are what attestation answers. The clock is lowered above the thermal limit and
power goes at the upper limit of the configuration; what a lowered clock comes to, what the temperature is and what a record may fix are
log 10, what the outside reads log 56, the values of a clock that starts log 58, and what a shutdown leaves log 59. -/
def Obligations.ClockAndStartUp : Prop :=
  ∀ (s : State),
    (∀ n, s.device.powered = true → s.clock.hold = 0 → 0 < s.clock.khz → -1000000 ≤ s.clock.slewPpm →
      ∃ k, (s.elapse n).clock.tick = s.clock.tick + BitVec.ofNat 64 k ∧ (s.elapse n).clock.cycle = s.clock.cycle + n ∧
        ((k * (s.clock.khz * 1000000) + (s.elapse n).clock.phase : Nat) : Int) =
          s.clock.phase + n * (1000000 * (1000000 + s.clock.slewPpm))) ∧
    (∀ n t, 0 < n → s.device.powered = true → s.clock.holdover = some t →
      10000000000 < ((s.elapse n).clock.tick - t).toNat →
        (s.elapse n).clock.locked = false ∧ (s.elapse n).clock.holdover = none) ∧
    (∀ m, s.device.fabricUp = false → exec (.ptpMessage m) s = .next s) ∧
    (∀ m, s.device.fabricUp = true → ∃ c, exec (.ptpMessage m) s = .next { s with clock := c } ∧
      c.heard = m.clock :: s.clock.heard.filter (·.identity != m.clock.identity) ∧
      c = { s.clock with heard := c.heard, slewPpm := c.slewPpm } ∧
      c.slewPpm = if s.clock.locked = true ∧ c.master = some m.clock then max (-100) (min 100 m.slewPpm) else s.clock.slewPpm) ∧
    (∀ k, s.clock.master = some k → k ∈ s.clock.heard ∧ clockBeats k s.clock.own = true ∧
      ∀ o ∈ s.clock.heard, clockBeats o k = false) ∧
    (s.clock.master = none → ∀ o ∈ s.clock.heard, clockBeats o s.clock.own = false) ∧
    (s.device.timingUp = false → exec .pulsePerSecond s = .next s ∧ ∀ m, exec (.offsetRemoval m) s = .next s) ∧
    (s.device.timingUp = true → exec .pulsePerSecond s = .next { s with clock := { s.clock with pps := some s.clock.tick } }) ∧
    (∀ t, s.clock.pps = some t → (s.clock.tick - t).toNat < 2000000000 → s.clock.own.class_ = 6) ∧
    (∀ m : DWord, s.device.timingUp = true → s.clock.master.isSome → (s.clock.locked = false ∨ s.clock.holdover.isSome) →
      s.clock.removing = false → exec (.offsetRemoval m) s = .next { s with clock :=
        if s.clock.tick.toNat ≤ m.toNat then
          { s.clock with tick := m, locked := true, removing := false, holdover := none, slewPpm := 0 }
        else { s.clock with locked := false, removing := true, holdover := none, slewPpm := 0
                            hold := s.clock.tick.toNat - m.toNat } }) ∧
    (s.clock.master = none → ∀ m, exec (.offsetRemoval m) s = .next s) ∧
    (s.clock.removing = true → s.clock.hold = 0 →
      exec .offsetRemoved s = .next { s with clock := { s.clock with removing := false, locked := true } }) ∧
    (s.clock.master = none → exec .masterLoss s = .next s) ∧
    (∀ k, s.clock.master = some k →
      let c := { s.clock with heard := s.clock.heard.filter (·.identity != k.identity) }
      exec .masterLoss s = .next { s with clock :=
        if c.master = none ∧ s.clock.locked = true ∧ s.clock.holdover = none then { c with holdover := some s.clock.tick } else c }) ∧
    (s.clock.holdover.isSome → exec .holdoverExpiry s =
      .next { s with clock := { s.clock with holdover := none, locked := false, slewPpm := 0 } }) ∧
    (∀ image record, (s.device.powered = false ∨ s.device.stage = 0) →
      let fixed := record.settings.filter settingsLegal
      ∃ t, exec (.powerGood image record) s = .next t ∧ t.crews = s.crews ∧ t.mem = s.mem ∧
        t.clock = { Clock.reset with khz := (fixed.getD defaultSettings).khz } ∧
        t.device = { s.device with
          powered := true, stage := 1, failed := !image.verifies, image := image.image, firmware := image.firmware
          record := record.bytes, settings := fixed.getD defaultSettings, defaults := fixed.isNone
          mailbox := s.device.mailbox ++ if image.verifies then [] else [⟨.failure, [1]⟩] }) ∧
    (s.device.powered = true → s.device.failed = false → 1 ≤ s.device.stage → s.device.stage < 4 →
      exec .stageComplete s = .next { s with device := { s.device with stage := s.device.stage + 1 } }) ∧
    (Config.celsius s.fresh ≤ s.device.settings.lowerAt → exec .thermalLimit s = .next s) ∧
    (Config.celsius s.fresh < s.device.settings.offAt → exec .thermalShutdown s = .next s) ∧
    (s.device.powered = true → s.device.settings.lowerAt < Config.celsius s.fresh → 1 < s.clock.khz → ∃ t, exec .thermalLimit s = .next t ∧ t.device = { s.device with hot := true } ∧
      t.crews = s.crews ∧ t.mem = s.mem ∧ 1 ≤ t.clock.khz ∧ t.clock.khz < s.clock.khz ∧ t.clock.tick = s.clock.tick) ∧
    (s.device.powered = true → s.device.settings.offAt ≤ Config.celsius s.fresh → ∃ t, exec .thermalShutdown s = .next t ∧ t.device.powered = false ∧ t.device.stage = 0 ∧ t.crews = [] ∧ t.launches = [] ∧
      t.contexts = [] ∧ t.partitions = []) ∧
    (∀ a, FormArgs.legal a = true → (∀ d ∈ a.dies, s.device.dieUp d = true) → (∀ c ∈ s.contexts, ∀ p ∈ s.partitions, p.id = c.ref.part → ∀ d ∈ p.dies, d ∉ a.dies) →
      let k := a.dies.foldl min (a.dies.headD 0)
      let hit (p : Partition) : Bool := p.dies.any a.dies.contains
      ∃ t, exec (.partitionFormation a) s = .next t ∧
        t.partitions = s.partitions.filter (fun p => !hit p) ++ [newPartition a k] ∧
        newCmdQueue ⟨k, 0⟩ none a.queueBase a.queueSize 3 a.seqBase ∈ t.queues ∧ t.contexts = s.contexts ∧ t.mem = s.mem) ∧
    (∀ nonce,
      let said := [s.device.image, s.device.firmware, s.device.record].flatMap sha3 ++ nonce
      exec (.attestation nonce) s = .next { s with device := { s.device with
        answer := if s.device.stage = 4 then said ++ Config.signature said else [], answerBad := false } })

namespace Sys2Proof.Claims

open Sys2Proof.Machine

/-- R377: the debugger reads these bytes of the stopped warp `r`. -/
def shows (s : State) (r : WarpRef) (p : DebugPlace) (bs : List Byte) : Prop :=
  exec (.debugStateAccess r (.read p)) s = .next { s with device := { s.device with answer := bs, answerBad := false } }

/-- R172, R377: the debugger sets a place of the stopped warp `r`, which is `w`, and makes it `u`; where the splits of `u` then ask for
another band, it blocks for the move. -/
def sets (s : State) (r : WarpRef) (w : Warp) (p : DebugPlace) (v : BitVec 64) (u : Warp) : Prop :=
  s.warpBecomes (.debugStateAccess r (.write p v)) r w fun k => k = match coverTo u.bot u.ring u.reach u.lo u.hi with
    | none => u
    | some b => u.blockOn (.move b true) s.clock.tick

end Sys2Proof.Claims

/-- R377 to R379: the debugger of a context. It attaches with a scope, stops a warp at a breakpoint before it issues there or
when it asks, lets it go on or issue one instruction, and reads and writes the state of a stopped warp: lane words in the band, scalars,
predicates, index registers, the paths of its splits with their PCs, masks and bases, join-wait bits and counts, the issuing split,
vacant lanes, control registers, bindings, flags, stall and section. A write that no program could bring about leaves the warp as it was
or keeps the reserved bits 0, and what the template and the crew's rows fix stands (log 56). -/
def Obligations.Debugger : Prop :=
  (∀ (s : State) (x : CtxRef) (c : Context), s.context? x = some c →
    (∀ scope, ∃ f, exec (.debuggerAttach x scope) s = .next (s.modContext x f) ∧ f c = { c with debugger := some scope }) ∧
    (∀ k pc, c.debugger.isSome → k < 8 → ∃ f, exec (.setBreakpoint x k (some pc)) s = .next (s.modContext x f) ∧
      f c = { c with breakpoints := (k, pc) :: c.breakpoints.filter fun b => b.1 != k }) ∧
    (∀ k, c.debugger.isSome → k < 8 → ∃ f, exec (.setBreakpoint x k none) s = .next (s.modContext x f) ∧
      f c = { c with breakpoints := c.breakpoints.filter fun b => b.1 != k })) ∧
  (∀ (s : State) (r : WarpRef) (c : Crew) (w : Warp) (l : Launch) (k : Context) (scope : StopScope),
    s.resident r = some (c, w) → w.num = r.warp → s.launch? r.crew.launch = some l → s.context? l.ctx = some k →
    k.debugger = some scope →
      (∃ t v, exec (.debugStop r) s = .next t ∧ t.warp? r = some v ∧ v.bank = { w.bank with stopped := true, stepping := false } ∧
        v.splits = w.splits) ∧
      (∃ t v, exec (.debugResume r) s = .next t ∧ t.warp? r = some v ∧ v = { w with stopped := false }) ∧
      (w.stopped = false → w.stopPc ≠ some w.split.pc → (∃ n, (n, w.split.pc) ∈ k.breakpoints) →
        ∃ t v, exec (.breakpointHit r) s = .next t ∧ t.warp? r = some v ∧ v.splits = w.splits ∧
          v.bank = { w.bank with stopped := true, stepping := false } ∧ v.stopPc = some w.split.pc) ∧
      (w.stopped = true →
        s.warpBecomes (.singleStep r) r w (fun v =>
          v = { w with stopped := false, stepping := true, stopPc := some w.split.pc }) ∧
        (∀ row i, w.bot ≤ row → row < w.bot + w.ring → i < 48 →
          Claims.shows s r (.lane row i) (leBytes 4 (w.laneWord row i).toNat) ∧
          ∀ v, s.warpBecomes (.debugStateAccess r (.write (.lane row i) v)) r w fun u => u.splits = w.splits ∧
            u.scalars = w.scalars ∧ (w.rows.length = w.ring → ∀ q j, j < 48 →
              u.laneWord q j = if q = row ∧ j = i then v.setWidth 32 else w.laneWord q j)) ∧
        (∀ n, Claims.shows s r (.scalar n) (leBytes 4 (w.scalar n).toNat) ∧
          Claims.shows s r (.pred n) (leBytes 6 (w.pred (BitVec.ofNat 3 n)).toNat) ∧
          Claims.shows s r (.limit n) [w.limit n] ∧ Claims.shows s r (.opcount n) (leBytes 6 (w.opcount.getD n 0).toNat) ∧
          Claims.shows s r (.flag n) [BitVec.ofNat 8 (w.flag n)] ∧ ∀ i, Claims.shows s r (.index n i) [w.index n i]) ∧
        (∀ n e p, w.pathAt n e = some p → Claims.shows s r (.path n e .pc) (leBytes 4 p.pc.toNat) ∧
          Claims.shows s r (.path n e .mask) (leBytes 6 p.mask.toNat) ∧ Claims.shows s r (.path n e .base) (leBytes 4 p.base)) ∧
        (∀ n sp, w.splitAt n = some sp → Claims.shows s r (.joinWait n) [if sp.joinWait then 1 else 0] ∧
          Claims.shows s r (.issued n) [BitVec.ofNat 8 sp.issued]) ∧
        Claims.shows s r .vacant (leBytes 6 w.vacant.toNat) ∧ Claims.shows s r .issuing [BitVec.ofNat 8 w.cur] ∧
        Claims.shows s r .depth [BitVec.ofNat 8 w.depth] ∧ Claims.shows s r .tag (leBytes 8 w.tag.toNat) ∧
        Claims.shows s r .stall [BitVec.ofNat 8 w.stall] ∧ Claims.shows s r .band (leBytes 4 w.bot) ∧
        Claims.shows s r .high (leBytes 4 w.high) ∧ Claims.shows s r .reason [BitVec.ofNat 8 w.reason] ∧
        Claims.shows s r .priority [BitVec.ofNat 8 w.prio] ∧
        (∀ n g, w.groups[n]? = some g → Claims.shows s r (.group n) [BitVec.ofNat 8 g]) ∧
        Claims.shows s r (.control 0x00) (leBytes 4 w.numctl.toNat) ∧
        Claims.shows s r (.control 0x01) (leBytes 4 w.numstat.toNat) ∧
        Claims.shows s r (.control 0x02) (leBytes 4 w.fpctl.toNat) ∧
        Claims.shows s r (.control 0x06) (leBytes 8 w.spillBase.toNat) ∧
        Claims.shows s r (.control 0x08) (leBytes 8 w.laneFault.toNat) ∧
        Claims.shows s r (.control 0x09) (leBytes 4 w.trapBase.toNat) ∧
        Claims.shows s r (.control 0x0A) (leBytes 4 w.trapCause.toNat) ∧
        Claims.shows s r (.control 0x0B) (leBytes 4 w.trapPc.toNat) ∧
        (∀ n b, w.bindings[n]? = some (some b) → Claims.shows s r (.binding n)
          [BitVec.ofNat 8 b.queue, if b.pop then 1 else 0, if b.push then 1 else 0, if b.closed then 1 else 0]) ∧
        (∀ n v, Claims.sets s r w (.scalar n) v
          { w with scalars := w.scalars.set n (v.setWidth 32), scalarPoison := w.scalarPoison.filter (· != n) }) ∧
        (∀ n v, n < 7 → Claims.sets s r w (.pred n) v { w with preds := w.preds.set n (v.setWidth 48) }) ∧
        (∀ n i v, Claims.sets s r w (.index n i) v { w with xregs := w.xregs.modify n fun x => x.set i (v.setWidth 8) }) ∧
        (∀ n v, Claims.sets s r w (.limit n) v { w with xlim := w.xlim.set n (v.setWidth 8) }) ∧
        (∀ n v, Claims.sets s r w (.opcount n) v { w with opcount := w.opcount.set n (v.setWidth 48) }) ∧
        (∀ n v, Claims.sets s r w (.flag n) v (w.modFlag n fun _ => v.toNat % 64)) ∧
        (∀ v, Claims.sets s r w .stall v { w with stall := v.toNat % 16 }) ∧
        (∀ n v, Claims.sets s r w (.issued n) v (w.modSplit n fun sp => { sp with issued := min 64 v.toNat })) ∧
        (∀ n sp v, w.splitAt n = some sp → v.toNat = n →
          Claims.sets s r w .issuing v (if sp.joinWait then w else { w with cur := n })) ∧
        (∀ n e p v, w.pathAt n e = some p →
          Claims.sets s r w (.path n e .pc) v (w.setPath n e { p with pc := v.setWidth 32 }) ∧
          (∀ u, u = w.setPath n e { p with base := v.toNat } → Claims.sets s r w (.path n e .base) v
            (if v.toNat % 8 = 0 ∧ limitOk w.spillLim w.reach v.toNat = true ∧ u.finished = false ∧
              spanOk u.ring u.reach u.lo u.hi = true ∧ limitOk u.spillLim u.reach u.hi = true then u else w)) ∧
          ∃ u, Claims.sets s r w (.path n e .mask) v u ∧ (u = w ∨ u.bank = w.bank ∧
            u.vacant = (w.vacant &&& ~~~(v.setWidth 48)) ||| (p.mask &&& ~~~(v.setWidth 48)) ∧
            ∀ i pc base, u.stands i pc base ↔ ((v.setWidth 48).getLsbD i = true ∧ p.pc = pc ∧ p.base = base) ∨
              ((v.setWidth 48).getLsbD i = false ∧ p.mask.getLsbD i = false ∧ w.stands i pc base))) ∧
        (∀ v, (w.splitAt w.cur).isSome → ∃ u, Claims.sets s r w .vacant v u ∧ (u = w ∨ u.bank = w.bank ∧ u.vacant = v.setWidth 48 ∧
          ∀ i pc base, u.stands i pc base ↔ (v.setWidth 48).getLsbD i = false ∧
            (w.stands i pc base ∨ (w.vacant.getLsbD i = true ∧ w.split.pc = pc ∧ w.split.base = base)))) ∧
        (∀ v, Claims.sets s r w (.control 0x00) v
          { w with numctl := v.setWidth 32 &&& if l.triple then 0x0000_1F1F else 0x0000_0F1F }) ∧
        (∀ v, Claims.sets s r w (.control 0x01) v { w with numstat := v.setWidth 32 &&& 0xFFFF_F71F }) ∧
        (∀ v, Claims.sets s r w (.control 0x06) v { w with spillBase := v &&& 0x0001_FFFF_FFFF_FFC0 }) ∧
        (∀ v, Claims.sets s r w (.control 0x08) v { w with laneFault := v &&& 0x0007_FFFF_FFFF_FFFF }) ∧
        (∀ v, Claims.sets s r w (.control 0x09) v { w with trapBase := v.setWidth 32 &&& 0xC7FF_FFFF }) ∧
        (∀ v, Claims.sets s r w (.control 0x0A) v { w with trapCause := v.setWidth 32 &&& 0x0003_FF1F }) ∧
        (∀ v, Claims.sets s r w (.control 0x0B) v { w with trapPc := v.setWidth 32 }) ∧
        (∀ n v, n < w.bindings.length → v.toNat % 256 < c.queues.length → v ≠ BitVec.allOnes 64 →
          let b : Binding := ⟨v.toNat % 256, v.getLsbD 8, v.getLsbD 16, v.getLsbD 24⟩
          Claims.sets s r w (.binding n) v { w with bindings := w.bindings.set n (some b) }) ∧
        (∀ n, Claims.sets s r w (.binding n) (BitVec.allOnes 64) { w with bindings := w.bindings.set n none }) ∧
        (∀ v, let u := s.modWarp r fun _ => { w with depth := v.toNat % 256 }
          exec (.debugStateAccess r (.write .depth v)) s = .next (if w.depth = 0 ↔ v.toNat % 256 = 0 then u
            else u.modGrace l.ctx (·.sendDepth r (if v.toNat % 256 = 0 then none else some w.tag)))) ∧
        ∀ p v, (p = .band ∨ p = .high ∨ p = .reason ∨ p = .priority ∨ ∃ n, p = .group n) → Claims.sets s r w p v w))

/-! ## Steps, words and memory -/

namespace Sys2Proof.Claims

open Sys2Proof.Machine

/-- R167: how the cycle of quarter `q` goes on after the attempt of the warp `r` that it selected in `u`. An attempt that
took its turn has issued or trapped; one that is held back leaves the turn, and the quarter tries another warp. -/
def afterAttempt (u : State) (core q : Nat) (r : WarpRef) (slot : Nat) : Host.Outcome State Fault Refusal →
    Host.Outcome State Fault Refusal
  | .next t =>
    if t.turn.isSome then
      match State.runQuarter exec core q 15 [r] { t with turn := none } with
      | .next v => .next v.afterMove
      | o => o
    else .next (t.noteIssue core q r slot ((u.candidates core q [r]).map (·.1))).afterMove
  | o => o

/-- The words that the encoding tables of 02 give, field by field, in whole nibbles from bit 95 down, with what they stand
for. -/
def specWords : List (Bool × BitVec 96 × Instr) := [
  -- SETF 1, WAIT 0, STALL 2; IMM12 5 under IB; `iadd.i32 v3, v4, 5` under p7 (format L, class 0x0)
  (false, 0x1_000_2_005_0083_00_00_04_7_03_000, .iadd ⟨⟨false, 7⟩, 2, 0, 1⟩ ⟨.i32, false, .v ⟨3, by decide⟩, .v ⟨4, by decide⟩,
    .imm 5, .v ⟨0, by decide⟩⟩),
  -- `movi v0, 0xDEADBEEF` (format I)
  (false, 0x0000_0000_DEADBEEF_00_7_00_016, .movi ⟨⟨false, 7⟩, 0, 0, 0⟩ (.v ⟨0, by decide⟩) 0xDEADBEEF),
  -- `bra p2, +0x10` under !p1 (format B)
  (true, 0x0000_0000_00000010_02_9_00_400, .bra ⟨⟨true, 1⟩, 0, 0, 0⟩ ⟨false, 2⟩ 0x10),
  -- `nop`
  (true, 0x0000_0000_00000000_00_7_00_409, .nop ⟨⟨false, 7⟩, 0, 0, 0⟩),
  -- `smovi s1, 7`
  (false, 0x0000_0000_00000007_00_7_C1_109, .smovi ⟨⟨false, 7⟩, 0, 0, 0⟩ (.s ⟨1, by decide⟩) 7),
  -- SETF 2; a relaxed 32-bit load of v8 from s2 plus 4 times v5 plus 4 (format M)
  (false, 0x2_000_0_00004_22_05_00_C2_7_08_700, .ld ⟨⟨false, 7⟩, 0, 0, 2⟩ ⟨.v ⟨8, by decide⟩, .glob (.s ⟨2, by decide⟩),
    .v ⟨0, by decide⟩, .v ⟨5, by decide⟩, 2, false, 2, 0, .wide 4⟩),
  -- `mma` of the tiles 5 and 3 of slot 1 into accumulator 2 (format T)
  (true, 0x0_000_0_00000_0001_9D_00_7_00_B03, .mma ⟨⟨false, 7⟩, 0, 0, 0⟩ ⟨1, 2, 5, 3⟩)]

end Sys2Proof.Claims

open Sys2Proof Sys2Proof.Machine

/-- A step runs the decoded instruction (R38 to R40, R167). Where a quarter's turn is planned, the cycles before it pass,
and the warp that the quarter selects attempts what the twelve bytes at its PC decode to; a PC past the code is the
illegal-instruction trap with ARG 2, a word that is no instruction the trap with ARG 0, and poisoned code is consumed (R428). Where an
event is planned, the step is that event; a move that comes too late in its cycle waits for the next, and each move ends as
`State.afterMove` says (log 1; log 52 for what the code of a launch holds). -/
def Obligations.StepRunsFetchedInstruction : Prop :=
  (∀ s : State, s.planned = [] → step s = .next (s.elapse 1)) ∧
  (∀ (s u : State) (n : Nat) (i : Instr) (ts : List Turn), s.planned = ⟨n, .event i⟩ :: ts →
    u = { (({ s with agenda := ts } : State).elapse n).inPlace (.event i) with turn := none } →
      step s = match exec i u with
        | .next t => .next t.afterMove
        | o => o) ∧
  (∀ (s u : State) (n core q : Nat) (ts : List Turn), s.planned = ⟨n, .quarter core q⟩ :: ts →
    u = { (({ s with agenda := ts } : State).elapse n).inPlace (.quarter core q) with turn := none } →
      (u.select core q [] = none → step s = .next u.afterMove) ∧
      ∀ (r : WarpRef) (l : Launch) (w : Warp), u.select core q [] = some r → u.launch? r.crew.launch = some l →
        u.warp? r = some w →
          let pc := w.split.pc
          let a : State := { u with turn := some r }
          (l.tmpl.codeSize ≤ pc.toNat →
            step s = Claims.afterAttempt u core q r w.slot (.next (a.takeTrap r w 1 2 pc))) ∧
          (∀ m, pc.toNat < l.tmpl.codeSize →
            a.checkRange l.ctx .fetch 4 (l.blockBytes pc.toNat).1 (l.blockBytes pc.toNat).2 false none = .ok m →
              let bad := l.badCode.find? fun b => 3 * pc.toNat ≤ b.1 && b.1 < 3 * pc.toNat + 3
              (∀ i, bad = none → decodeBytes l.triple (l.codeBytes pc.toNat) = .ok i →
                step s = Claims.afterAttempt u core q r w.slot (exec i a)) ∧
              (∀ e, bad = none → decodeBytes l.triple (l.codeBytes pc.toNat) = .error e →
                step s = Claims.afterAttempt u core q r w.slot (.next (a.takeTrap r w 1 0 pc))) ∧
              (∀ b c, bad = some b → u.crew? r.crew = some c → step s = Claims.afterAttempt u core q r w.slot (.next
                { a.consumedError r.crew.launch (some b.2) .fetch c.coreNo r.warp with turn := none }))))

/-- R41, R46 to R48, R50, R51: words written out from the encoding tables decode to what they stand for. -/
def Obligations.SpecWordsDecode : Prop :=
  ∀ x ∈ Claims.specWords, (decodeBytes x.1 (bytesOfWord x.2.1)).toOption = some x.2.2

/-- R38 to R65: decoding the word of a legal instruction gives it back, with every operand. -/
def Obligations.DecodeEncode : Prop :=
  ∀ (triple : Bool) (i : Instr), i.hasWord = true → i.wf = true → i.modeOk triple = true →
    decodeIn triple (encode i) = .ok i

/-- R62, R63: a word that decodes is the word of its instruction, which is legal, so unused fields are zero; the classes 0xD
to 0xF are unassigned. -/
def Obligations.DecodeAcceptsOnlyEncodings : Prop :=
  (∀ (triple : Bool) (w : BitVec 96) (i : Instr), decodeIn triple w = .ok i →
    encode i = w ∧ i.wf = true ∧ i.modeOk triple = true) ∧
  (∀ (triple : Bool) (w : BitVec 96), 13 ≤ (fld w 8 4).toNat → decodeIn triple w = .error .opcode)

/-- Every step keeps the machine's memory in its canonical form: addresses rising, and no entry that says what an unlisted
address reads (log 2). -/
def Obligations.StepKeepsMemory : Prop :=
  ∀ s t : State, s.memOk → step s = .next t → t.memOk

/-- Every step keeps the split tables: the masks of a warp's splits, of their lay-by entries and of its vacant lanes are disjoint and
cover its 48 lanes (R148), and the windows of its splits stay within its ring (R171). The limit of R171 is no part of it: R173 checks
the span alone where a parked path resumes, and REACH can have grown since it was parked. -/
def Obligations.StepKeepsSplitTables : Prop :=
  ∀ s t : State, s.tablesOk → step s = .next t → t.tablesOk

/-- The memory after reset is in its canonical form, and it lists nothing (log 2). The split table of a warp is in order from its launch
on: all lanes in one split (R169, R408). -/
def Obligations.ResetMemory : Prop :=
  (State.reset.memOk ∧ ∀ a, State.reset.rawByte a = 0) ∧ State.reset.tablesOk ∧
    ∀ (l : Launch) (crew z k slot : Nat) (e : WarpEntry), (newWarp l crew z k slot e).tabled

/-- R191: `rpool` writes the value that sel selects, as it stands at issue: the crew's free reserve on the warp's quarter, the warp's
RING, the crew's row budget on the quarter, the rows requested by the claims blocked there, or the number of warps blocked in `rclaim`
there. `wdepth` writes the issuing split's base, BOT, HIGH, lo or hi. -/
def Obligations.PoolAndDepth : Prop :=
  ∀ (s : State) (c : Ctl) (dst : Spec) (sel : Word) (x : Cx),
    let q := x.w.quarter
    let blocked := (x.c.claims.getD q []).filter fun k => !k.served
    let gives (i : Instr) (v : Nat) : Prop := s.issues i x s (x.next (x.writeScal x.w dst (BitVec.ofNat 32 v))) true [] none
    (s.ready (.rpool c dst sel) = some x →
      (sel = 0 → gives (.rpool c dst sel) (x.c.reserve.getD q 0)) ∧ (sel = 1 → gives (.rpool c dst sel) x.w.ring) ∧
      (sel = 2 → gives (.rpool c dst sel) (x.c.budget.getD q 0)) ∧
      (sel = 3 → gives (.rpool c dst sel) (blocked.map (·.rows)).sum) ∧ (sel = 4 → gives (.rpool c dst sel) blocked.length)) ∧
    (s.ready (.wdepth c dst sel) = some x →
      (sel = 0 → gives (.wdepth c dst sel) x.sp.base) ∧ (sel = 1 → gives (.wdepth c dst sel) x.w.bot) ∧
      (sel = 2 → gives (.wdepth c dst sel) x.w.high) ∧ (sel = 3 → gives (.wdepth c dst sel) x.w.lo) ∧
      (sel = 4 → gives (.wdepth c dst sel) x.w.hi))
end

