-- ==== Sys2Proof/Laws/Codes.lean ====
section
/-! SUPPORT. The fields of an encoded word and the codes of the operands in them: what is read back is what was written
(02 R38 to R65). -/

set_option linter.unusedSimpArgs false

namespace Sys2Proof

/-! ## Fields -/

theorem fld_high {w v : Nat} (x : BitVec w) (y : BitVec v) (lo n : Nat) (h : v ≤ lo) :
    (x ++ y).extractLsb' lo n = x.extractLsb' (lo - v) n := BitVec.extractLsb'_append_eq_of_le h

theorem fld_low {w v : Nat} (x : BitVec w) (y : BitVec v) (lo n : Nat) (h : lo + n ≤ v) :
    (x ++ y).extractLsb' lo n = y.extractLsb' lo n := BitVec.extractLsb'_append_eq_of_add_le h

theorem fld_cast {w : Nat} (h : w = 96) (x : BitVec w) (lo n : Nat) :
    fld (BitVec.cast h x) lo n = x.extractLsb' lo n := by subst h; rfl

theorem bit_cast {w : Nat} (h : w = 96) (x : BitVec w) (k : Nat) :
    (BitVec.cast h x).getLsbD k = (x.extractLsb' k 1).getLsbD 0 := by subst h; simp

theorem bit_high {w v : Nat} (x : BitVec w) (y : BitVec v) (k : Nat) (h : v ≤ k) :
    (x ++ y).getLsbD k = x.getLsbD (k - v) := by
  rw [BitVec.getLsbD_append, if_neg (by omega)]

theorem bit_low {w v : Nat} (x : BitVec w) (y : BitVec v) (k : Nat) (h : k < v) :
    (x ++ y).getLsbD k = y.getLsbD k := by
  rw [BitVec.getLsbD_append, if_pos h]

theorem wordL_append (op : BitVec 12) (c : Ctl) (dst a b r : BitVec 8) (ty : BitVec 4) (rm : BitVec 3) (ops : BitVec 9)
    (imm : BitVec 12) : wordL op c dst a b r ty rm ops imm = BitVec.cast (by decide)
      (c.setf ++ c.wait ++ c.stall ++ imm ++ ops ++ rm ++ ty ++ r ++ b ++ a ++ c.guard.code ++ dst ++ op) := rfl

theorem wordI_append (op : BitVec 12) (c : Ctl) (dst a : BitVec 8) (imm : BitVec 32) (ty : BitVec 4) (scrm : BitVec 3)
    (ops : BitVec 5) : wordI op c dst a imm ty scrm ops = BitVec.cast (by decide)
      (c.setf ++ c.wait ++ c.stall ++ ops ++ scrm ++ ty ++ imm ++ a ++ c.guard.code ++ dst ++ op) := rfl

theorem wordM_append (op : BitVec 12) (c : Ctl) (dst base data index : BitVec 8) (sz : BitVec 3) (sx : Bool)
    (scl sem : BitVec 2) (tail : BitVec 20) : wordM op c dst base data index sz sx scl sem tail = BitVec.cast (by decide)
      (c.setf ++ c.wait ++ c.stall ++ tail ++ sem ++ scl ++ bit1 sx ++ sz ++ index ++ data ++ base ++ c.guard.code ++ dst ++
        op) := rfl

theorem wordB_append (op : BitVec 12) (c : Ctl) (ct : BitVec 8) (off : BitVec 32) (shift : BitVec 5) :
    wordB op c ct off shift = BitVec.cast (by decide)
      (c.setf ++ c.wait ++ c.stall ++ (0 : BitVec 7) ++ shift ++ off ++ ct ++ c.guard.code ++ (0 : BitVec 8) ++ op) := rfl

theorem wordT_append (op : BitVec 12) (c : Ctl) (dst areg : BitVec 8) (ta tb : BitVec 3) (ac gs : BitVec 2)
    (mod : BitVec 14) (off : BitVec 20) : wordT op c dst areg ta tb ac gs mod off = BitVec.cast (by decide)
      (c.setf ++ c.wait ++ c.stall ++ off ++ mod ++ gs ++ ac ++ tb ++ ta ++ areg ++ c.guard.code ++ dst ++ op) := rfl

theorem wordS_append (op : BitVec 12) (c : Ctl) (dst : BitVec 8) (c0 c1 c2 c3 : BitVec 11) (all : Bool) (ts : BitVec 4)
    (tp : BitVec 3) : wordS op c dst c0 c1 c2 c3 all ts tp = BitVec.cast (by decide)
      (c.setf ++ c.wait ++ c.stall ++ tp ++ ts ++ bit1 all ++ c3 ++ c2 ++ c1 ++ c0 ++ c.guard.code ++ dst ++ op) := rfl

/-! ## Codes -/

@[simp] theorem bit1_get (b : Bool) : (bit1 b).getLsbD 0 = b := by cases b <;> rfl

theorem Spec.ofCode_code (r : Spec) : Spec.ofCode r.code = .ok r := by
  cases r with
  | v n =>
    have := n.isLt
    simp [Spec.code, Spec.ofCode, Nat.mod_eq_of_lt (show n.val < 256 by omega)]
  | s n =>
    have := n.isLt
    simp [Spec.code, Spec.ofCode, Nat.mod_eq_of_lt (show 192 + n.val < 256 by omega)]
  | q n =>
    have := n.isLt
    simp only [Spec.code, Spec.ofCode, BitVec.toNat_ofNat, Nat.mod_eq_of_lt (show 0xE0 + n.val < 2 ^ 8 by omega)]
    rw [dif_neg (by omega), dif_neg (by omega), dif_pos (by omega)]; simp
  | vx n =>
    have := n.isLt
    simp only [Spec.code, Spec.ofCode, BitVec.toNat_ofNat, Nat.mod_eq_of_lt (show 0xE8 + n.val < 2 ^ 8 by omega)]
    rw [dif_neg (by omega), dif_neg (by omega), dif_neg (by omega), dif_pos (by omega)]; simp
  | zero => simp [Spec.code, Spec.ofCode]
  | laneid => simp [Spec.code, Spec.ofCode]
  | sib => simp [Spec.code, Spec.ofCode]
  | tid => simp [Spec.code, Spec.ofCode]

theorem Ty.ofCode_code (t : Ty) : Ty.ofCode t.code = .ok t := by cases t <;> rfl
theorem Rm.ofCode_code (t : Rm) : Rm.ofCode t.code = t := by cases t <;> rfl
theorem Scope.ofCode_code (t : Scope) : Scope.ofCode t.code = .ok t := by cases t <;> rfl
theorem Cc.ofCode_code (t : Cc) : Cc.ofCode t.code = .ok t := by cases t <;> rfl
theorem Fcc.ofCode_code (t : Fcc) : Fcc.ofCode t.code = .ok t := by cases t <;> rfl
theorem Shuf.ofCode_code (t : Shuf) : Shuf.ofCode t.code = t := by cases t <;> rfl

theorem Pred.ofCode_code (t : Pred) : Pred.ofCode t.code = t := by
  obtain ⟨n, p⟩ := t
  simp (disch := decide) only [Pred.ofCode, Pred.code, fld_low, bit_high, Nat.reduceSub, bit1_get,
    BitVec.extractLsb'_eq_self]

theorem BarName.code_cast (b : BarName) (ph : Bool) :
    b.code ph = BitVec.cast (by decide) (b.slot ++ b.bar ++ bit1 ph ++ (0 : BitVec 1)) := rfl

theorem Cond.ofCode_cast {w : Nat} (h : w = 11) (x : BitVec w) (k : Nat) (hk : (x.extractLsb' 0 3).toNat = k) :
    Cond.ofCode (BitVec.cast h x) = match (generalizing := false) k with
      | 0 => .ok .none
      | 1 => .ok (.flag (x.extractLsb' 3 4))
      | 2 => .ok (.phase ⟨x.extractLsb' 9 2, x.extractLsb' 5 4⟩ (x.getLsbD 4))
      | 3 => .ok (.word (x.extractLsb' 9 2) (x.extractLsb' 6 3) (x.extractLsb' 4 2) (x.getLsbD 3))
      | 4 => .ok (.queue (x.extractLsb' 3 3) (x.getLsbD 6))
      | 5 => .ok (.grace (x.extractLsb' 3 5))
      | 6 => .ok (.tick (x.extractLsb' 3 4))
      | _ => .error .condition := by
  subst h hk; rfl

theorem Cond.ofCode_code (t : Cond) : Cond.ofCode t.code = .ok t := by
  have hx {w : Nat} (x : BitVec w) (n : BitVec 3) : ((x ++ n).extractLsb' 0 3).toNat = n.toNat := by
    rw [fld_low _ _ _ _ (by decide), BitVec.extractLsb'_eq_self]
  cases t with
  | none => rfl
  | flag k =>
    refine (Cond.ofCode_cast (by decide) ((0 : BitVec 4) ++ k ++ (1 : BitVec 3)) 1 (hx _ _)).trans ?_
    simp (disch := decide) only [fld_high, fld_low, Nat.reduceSub, BitVec.extractLsb'_eq_self]
  | phase b ph =>
    refine (Cond.ofCode_cast (by decide) (b.code ph ++ (2 : BitVec 3)) 2 (hx _ _)).trans ?_
    simp (disch := decide) only [BarName.code_cast, fld_high, fld_low, bit_high, bit_low, BitVec.extractLsb'_cast,
      BitVec.getLsbD_cast, Nat.reduceSub, BitVec.extractLsb'_eq_self, bit1_get]
  | word cmp quad slot sp =>
    refine (Cond.ofCode_cast (by decide) (cmp ++ quad ++ slot ++ bit1 sp ++ (3 : BitVec 3)) 3 (hx _ _)).trans ?_
    simp (disch := decide) only [fld_high, fld_low, bit_high, bit_low, Nat.reduceSub,
      BitVec.extractLsb'_eq_self, bit1_get]
  | queue q push =>
    refine (Cond.ofCode_cast (by decide) ((0 : BitVec 4) ++ bit1 push ++ q ++ (4 : BitVec 3)) 4 (hx _ _)).trans ?_
    simp (disch := decide) only [fld_high, fld_low, bit_high, bit_low, Nat.reduceSub,
      BitVec.extractLsb'_eq_self, bit1_get]
  | grace k =>
    refine (Cond.ofCode_cast (by decide) ((0 : BitVec 3) ++ k ++ (5 : BitVec 3)) 5 (hx _ _)).trans ?_
    simp (disch := decide) only [fld_high, fld_low, Nat.reduceSub, BitVec.extractLsb'_eq_self]
  | tick n =>
    refine (Cond.ofCode_cast (by decide) ((0 : BitVec 4) ++ n ++ (6 : BitVec 3)) 6 (hx _ _)).trans ?_
    simp (disch := decide) only [fld_high, fld_low, Nat.reduceSub, BitVec.extractLsb'_eq_self]

theorem except_bind {ε α β : Type} (x : α) (f : α → Except ε β) : (Except.ok x >>= f) = f x := rfl
theorem except_map {ε α β : Type} (x : α) (f : α → β) : (Except.ok x : Except ε α).map f = .ok (f x) := rfl

theorem parseCtl_fields (w : BitVec 96) (c : Ctl) (h : fld w 20 4 = c.guard.code) (h1 : fld w 76 4 = c.stall)
    (h2 : fld w 80 12 = c.wait) (h3 : fld w 92 4 = c.setf) : parseCtl w = c := by
  simp only [parseCtl, h, h1, h2, h3, Pred.ofCode_code]

/-! ## Opcode and shared fields of each format -/

theorem wordL_op (op : BitVec 12) (c : Ctl) (dst a b r : BitVec 8) (ty : BitVec 4) (rm : BitVec 3) (ops : BitVec 9)
    (imm : BitVec 12) :
    fld (wordL op c dst a b r ty rm ops imm) 0 12 = op := by
  simp (disch := decide) only [wordL_append, fld_cast, fld_low, BitVec.extractLsb'_eq_self]

theorem wordL_ctl (op : BitVec 12) (c : Ctl) (dst a b r : BitVec 8) (ty : BitVec 4) (rm : BitVec 3) (ops : BitVec 9)
    (imm : BitVec 12) :
    parseCtl (wordL op c dst a b r ty rm ops imm) = c := by
  apply parseCtl_fields <;>
    simp (disch := decide) only [wordL_append, fld_cast, fld_high, fld_low, BitVec.extractLsb'_eq_self, Nat.reduceSub]

theorem wordI_op (op : BitVec 12) (c : Ctl) (dst a : BitVec 8) (imm : BitVec 32) (ty : BitVec 4) (scrm : BitVec 3)
    (ops : BitVec 5) :
    fld (wordI op c dst a imm ty scrm ops) 0 12 = op := by
  simp (disch := decide) only [wordI_append, fld_cast, fld_low, BitVec.extractLsb'_eq_self]

theorem wordI_ctl (op : BitVec 12) (c : Ctl) (dst a : BitVec 8) (imm : BitVec 32) (ty : BitVec 4) (scrm : BitVec 3)
    (ops : BitVec 5) :
    parseCtl (wordI op c dst a imm ty scrm ops) = c := by
  apply parseCtl_fields <;>
    simp (disch := decide) only [wordI_append, fld_cast, fld_high, fld_low, BitVec.extractLsb'_eq_self, Nat.reduceSub]

theorem wordM_op (op : BitVec 12) (c : Ctl) (dst base data index : BitVec 8) (sz : BitVec 3) (sx : Bool)
    (scl sem : BitVec 2) (tail : BitVec 20) :
    fld (wordM op c dst base data index sz sx scl sem tail) 0 12 = op := by
  simp (disch := decide) only [wordM_append, fld_cast, fld_low, BitVec.extractLsb'_eq_self]

theorem wordM_ctl (op : BitVec 12) (c : Ctl) (dst base data index : BitVec 8) (sz : BitVec 3) (sx : Bool)
    (scl sem : BitVec 2) (tail : BitVec 20) :
    parseCtl (wordM op c dst base data index sz sx scl sem tail) = c := by
  apply parseCtl_fields <;>
    simp (disch := decide) only [wordM_append, fld_cast, fld_high, fld_low, BitVec.extractLsb'_eq_self, Nat.reduceSub]

theorem wordB_op (op : BitVec 12) (c : Ctl) (ct : BitVec 8) (off : BitVec 32) (shift : BitVec 5) :
    fld (wordB op c ct off shift) 0 12 = op := by
  simp (disch := decide) only [wordB_append, fld_cast, fld_low, BitVec.extractLsb'_eq_self]

theorem wordB_ctl (op : BitVec 12) (c : Ctl) (ct : BitVec 8) (off : BitVec 32) (shift : BitVec 5) :
    parseCtl (wordB op c ct off shift) = c := by
  apply parseCtl_fields <;>
    simp (disch := decide) only [wordB_append, fld_cast, fld_high, fld_low, BitVec.extractLsb'_eq_self, Nat.reduceSub]

theorem wordT_op (op : BitVec 12) (c : Ctl) (dst areg : BitVec 8) (ta tb : BitVec 3) (ac gs : BitVec 2)
    (mod : BitVec 14) (off : BitVec 20) :
    fld (wordT op c dst areg ta tb ac gs mod off) 0 12 = op := by
  simp (disch := decide) only [wordT_append, fld_cast, fld_low, BitVec.extractLsb'_eq_self]

theorem wordT_ctl (op : BitVec 12) (c : Ctl) (dst areg : BitVec 8) (ta tb : BitVec 3) (ac gs : BitVec 2)
    (mod : BitVec 14) (off : BitVec 20) :
    parseCtl (wordT op c dst areg ta tb ac gs mod off) = c := by
  apply parseCtl_fields <;>
    simp (disch := decide) only [wordT_append, fld_cast, fld_high, fld_low, BitVec.extractLsb'_eq_self, Nat.reduceSub]

theorem wordS_op (op : BitVec 12) (c : Ctl) (dst : BitVec 8) (c0 c1 c2 c3 : BitVec 11) (all : Bool) (ts : BitVec 4)
    (tp : BitVec 3) :
    fld (wordS op c dst c0 c1 c2 c3 all ts tp) 0 12 = op := by
  simp (disch := decide) only [wordS_append, fld_cast, fld_low, BitVec.extractLsb'_eq_self]

theorem wordS_ctl (op : BitVec 12) (c : Ctl) (dst : BitVec 8) (c0 c1 c2 c3 : BitVec 11) (all : Bool) (ts : BitVec 4)
    (tp : BitVec 3) :
    parseCtl (wordS op c dst c0 c1 c2 c3 all ts tp) = c := by
  apply parseCtl_fields <;>
    simp (disch := decide) only [wordS_append, fld_cast, fld_high, fld_low, BitVec.extractLsb'_eq_self, Nat.reduceSub]

/-! ## Operands -/

theorem src2_word (op : BitVec 12) (c : Ctl) (dst a r : BitVec 8) (ty : BitVec 4) (rm : BitVec 3) (b : Src2)
    (rest : BitVec 8) : src2 (wordL op c dst a b.regCode r ty rm (opsIb b rest) b.immCode) = .ok b := by
  cases b <;>
    simp (disch := decide) only [src2, imm12, srcB, opsIb, Src2.isImm, Src2.regCode, Src2.immCode, wordL_append, bit_cast,
      fld_cast, fld_high, fld_low, Nat.reduceSub, BitVec.extractLsb'_eq_self, bit1_get, Spec.ofCode_code, except_map,
      if_true, Bool.false_eq_true, if_false]
  simp (disch := decide) only [Nat.reduceAdd, Nat.reduceSub, BitVec.extractLsb'_eq_self]

theorem parseInt_word (op : BitVec 12) (c : Ctl) (x : IntArgs) : parseInt (x.word op c) = .ok x := by
  unfold parseInt IntArgs.word
  rw [src2_word]
  simp (disch := decide) only [wordL_append, tyL, dst, srcA, srcB, srcC, imm12, imm32, predC, barI, predDst, Pred.code8,
    bit_cast, fld_cast, fld_high, fld_low, bit_high, bit_low, BitVec.extractLsb'_cast, BitVec.getLsbD_cast, Nat.reduceSub,
    BitVec.extractLsb'_eq_self, opsIb, bit1_get, Spec.ofCode_code, Ty.ofCode_code, Rm.ofCode_code, Cc.ofCode_code,
    Fcc.ofCode_code, Scope.ofCode_code, Shuf.ofCode_code, Pred.ofCode_code, Cond.ofCode_code, except_bind, except_map]
  rfl

theorem FieldArgs.imm_cast (x : FieldArgs) : (0 : BitVec 1) ++ x.wid ++ x.pos =
    BitVec.cast (show 1 + 6 + 5 = 12 from rfl) ((0 : BitVec 1) ++ x.wid ++ x.pos) := rfl

theorem parseField_word (op : BitVec 12) (c : Ctl) (x : FieldArgs) : parseField (x.word op c) = .ok x := by
  unfold parseField FieldArgs.word
  rw [FieldArgs.imm_cast]
  simp (disch := decide) only [wordL_append, tyL, dst, srcA, srcB, srcC, imm12, imm32, predC, barI, predDst, Pred.code8,
    bit_cast, fld_cast, fld_high, fld_low, bit_high, bit_low, BitVec.extractLsb'_cast, BitVec.getLsbD_cast, Nat.reduceSub,
    BitVec.extractLsb'_eq_self, opsIb, bit1_get, Spec.ofCode_code, Ty.ofCode_code, Rm.ofCode_code, Cc.ofCode_code,
    Fcc.ofCode_code, Scope.ofCode_code, Shuf.ofCode_code, Pred.ofCode_code, Cond.ofCode_code, except_bind, except_map]
  rfl

theorem parseUn_word (op : BitVec 12) (c : Ctl) (x : UnArgs) : parseUn (x.word op c) = .ok x := by
  unfold parseUn UnArgs.word
  simp (disch := decide) only [wordL_append, tyL, dst, srcA, srcB, srcC, imm12, imm32, predC, barI, predDst, Pred.code8,
    bit_cast, fld_cast, fld_high, fld_low, bit_high, bit_low, BitVec.extractLsb'_cast, BitVec.getLsbD_cast, Nat.reduceSub,
    BitVec.extractLsb'_eq_self, opsIb, bit1_get, Spec.ofCode_code, Ty.ofCode_code, Rm.ofCode_code, Cc.ofCode_code,
    Fcc.ofCode_code, Scope.ofCode_code, Shuf.ofCode_code, Pred.ofCode_code, Cond.ofCode_code, except_bind, except_map]
  rfl

theorem CmpArgs.ops_cast (x : CmpArgs) : (0 : BitVec 3) ++ x.cc.code ++ bit1 x.w64 =
    BitVec.cast (show 3 + 4 + 1 = 8 from rfl) ((0 : BitVec 3) ++ x.cc.code ++ bit1 x.w64) := rfl

theorem parseCmp_word (op : BitVec 12) (c : Ctl) (x : CmpArgs) : parseCmp (x.word op c) = .ok x := by
  unfold parseCmp CmpArgs.word
  rw [src2_word]
  rw [CmpArgs.ops_cast]
  simp (disch := decide) only [wordL_append, tyL, dst, srcA, srcB, srcC, imm12, imm32, predC, barI, predDst, Pred.code8,
    bit_cast, fld_cast, fld_high, fld_low, bit_high, bit_low, BitVec.extractLsb'_cast, BitVec.getLsbD_cast, Nat.reduceSub,
    BitVec.extractLsb'_eq_self, opsIb, bit1_get, Spec.ofCode_code, Ty.ofCode_code, Rm.ofCode_code, Cc.ofCode_code,
    Fcc.ofCode_code, Scope.ofCode_code, Shuf.ofCode_code, Pred.ofCode_code, Cond.ofCode_code, except_bind, except_map]
  simp (disch := decide) only [Nat.reduceAdd, Nat.reduceSub, BitVec.extractLsb'_eq_self, bit1_get, Spec.ofCode_code,
    Ty.ofCode_code, Rm.ofCode_code, Cc.ofCode_code, Fcc.ofCode_code, Scope.ofCode_code, except_bind, except_map]
  rfl

theorem parseLea_word (op : BitVec 12) (c : Ctl) (x : LeaArgs) : parseLea (x.word op c) = .ok x := by
  unfold parseLea LeaArgs.word
  simp (disch := decide) only [wordL_append, tyL, dst, srcA, srcB, srcC, imm12, imm32, predC, barI, predDst, Pred.code8,
    bit_cast, fld_cast, fld_high, fld_low, bit_high, bit_low, BitVec.extractLsb'_cast, BitVec.getLsbD_cast, Nat.reduceSub,
    BitVec.extractLsb'_eq_self, opsIb, bit1_get, Spec.ofCode_code, Ty.ofCode_code, Rm.ofCode_code, Cc.ofCode_code,
    Fcc.ofCode_code, Scope.ofCode_code, Shuf.ofCode_code, Pred.ofCode_code, Cond.ofCode_code, except_bind, except_map]
  simp (disch := decide) only [Nat.reduceAdd, Nat.reduceSub, BitVec.extractLsb'_eq_self, bit1_get, Spec.ofCode_code,
    Ty.ofCode_code, Rm.ofCode_code, Cc.ofCode_code, Fcc.ofCode_code, Scope.ofCode_code, except_bind, except_map]
  rfl

theorem parseScal_word (op : BitVec 12) (c : Ctl) (x : ScalArgs) : parseScal (x.word op c) = .ok x := by
  unfold parseScal ScalArgs.word
  rw [src2_word]
  simp (disch := decide) only [wordL_append, tyL, dst, srcA, srcB, srcC, imm12, imm32, predC, barI, predDst, Pred.code8,
    bit_cast, fld_cast, fld_high, fld_low, bit_high, bit_low, BitVec.extractLsb'_cast, BitVec.getLsbD_cast, Nat.reduceSub,
    BitVec.extractLsb'_eq_self, opsIb, bit1_get, Spec.ofCode_code, Ty.ofCode_code, Rm.ofCode_code, Cc.ofCode_code,
    Fcc.ofCode_code, Scope.ofCode_code, Shuf.ofCode_code, Pred.ofCode_code, Cond.ofCode_code, except_bind, except_map]
  rfl

theorem FArgs.ops_cast (x : FArgs) : (0 : BitVec 6) ++ bit1 x.nc ++ bit1 x.nb ++ bit1 x.na =
    BitVec.cast (show 6 + 1 + 1 + 1 = 9 from rfl) ((0 : BitVec 6) ++ bit1 x.nc ++ bit1 x.nb ++ bit1 x.na) := rfl

theorem parseF_word (op : BitVec 12) (c : Ctl) (x : FArgs) : parseF (x.word op c) = .ok x := by
  unfold parseF FArgs.word
  rw [FArgs.ops_cast]
  simp (disch := decide) only [wordL_append, tyL, dst, srcA, srcB, srcC, imm12, imm32, predC, barI, predDst, Pred.code8,
    bit_cast, fld_cast, fld_high, fld_low, bit_high, bit_low, BitVec.extractLsb'_cast, BitVec.getLsbD_cast, Nat.reduceSub,
    BitVec.extractLsb'_eq_self, opsIb, bit1_get, Spec.ofCode_code, Ty.ofCode_code, Rm.ofCode_code, Cc.ofCode_code,
    Fcc.ofCode_code, Scope.ofCode_code, Shuf.ofCode_code, Pred.ofCode_code, Cond.ofCode_code, except_bind, except_map]
  rfl

theorem parseFcmp_word (op : BitVec 12) (c : Ctl) (x : FcmpArgs) : parseFcmp (x.word op c) = .ok x := by
  unfold parseFcmp FcmpArgs.word
  simp (disch := decide) only [wordL_append, tyL, dst, srcA, srcB, srcC, imm12, imm32, predC, barI, predDst, Pred.code8,
    bit_cast, fld_cast, fld_high, fld_low, bit_high, bit_low, BitVec.extractLsb'_cast, BitVec.getLsbD_cast, Nat.reduceSub,
    BitVec.extractLsb'_eq_self, opsIb, bit1_get, Spec.ofCode_code, Ty.ofCode_code, Rm.ofCode_code, Cc.ofCode_code,
    Fcc.ofCode_code, Scope.ofCode_code, Shuf.ofCode_code, Pred.ofCode_code, Cond.ofCode_code, except_bind, except_map]
  simp (disch := decide) only [Nat.reduceAdd, Nat.reduceSub, BitVec.extractLsb'_eq_self, bit1_get, Spec.ofCode_code,
    Ty.ofCode_code, Rm.ofCode_code, Cc.ofCode_code, Fcc.ofCode_code, Scope.ofCode_code, except_bind, except_map]
  rfl

theorem parseCvt_word (op : BitVec 12) (c : Ctl) (x : CvtArgs) : parseCvt (x.word op c) = .ok x := by
  unfold parseCvt CvtArgs.word
  simp (disch := decide) only [wordL_append, tyL, dst, srcA, srcB, srcC, imm12, imm32, predC, barI, predDst, Pred.code8,
    bit_cast, fld_cast, fld_high, fld_low, bit_high, bit_low, BitVec.extractLsb'_cast, BitVec.getLsbD_cast, Nat.reduceSub,
    BitVec.extractLsb'_eq_self, opsIb, bit1_get, Spec.ofCode_code, Ty.ofCode_code, Rm.ofCode_code, Cc.ofCode_code,
    Fcc.ofCode_code, Scope.ofCode_code, Shuf.ofCode_code, Pred.ofCode_code, Cond.ofCode_code, except_bind, except_map]
  simp (disch := decide) only [Nat.reduceAdd, Nat.reduceSub, BitVec.extractLsb'_eq_self, bit1_get, Spec.ofCode_code,
    Ty.ofCode_code, Rm.ofCode_code, Cc.ofCode_code, Fcc.ofCode_code, Scope.ofCode_code, except_bind, except_map]
  rfl

theorem parseWait_word (op : BitVec 12) (c : Ctl) (x : WaitArgs) : parseWait (x.word op c) = .ok x := by
  unfold parseWait WaitArgs.word
  simp (disch := decide) only [wordS_append, tyL, dst, srcA, srcB, srcC, imm12, imm32, predC, barI, predDst, Pred.code8,
    bit_cast, fld_cast, fld_high, fld_low, bit_high, bit_low, BitVec.extractLsb'_cast, BitVec.getLsbD_cast, Nat.reduceSub,
    BitVec.extractLsb'_eq_self, opsIb, bit1_get, Spec.ofCode_code, Ty.ofCode_code, Rm.ofCode_code, Cc.ofCode_code,
    Fcc.ofCode_code, Scope.ofCode_code, Shuf.ofCode_code, Pred.ofCode_code, Cond.ofCode_code, except_bind, except_map]
  rfl

theorem parseTile_word (op : BitVec 12) (c : Ctl) (x : TileMemArgs) : parseTile (x.word op c) = .ok x := by
  unfold parseTile TileMemArgs.word
  simp (disch := decide) only [wordT_append, tyL, dst, srcA, srcB, srcC, imm12, imm32, predC, barI, predDst, Pred.code8,
    bit_cast, fld_cast, fld_high, fld_low, bit_high, bit_low, BitVec.extractLsb'_cast, BitVec.getLsbD_cast, Nat.reduceSub,
    BitVec.extractLsb'_eq_self, opsIb, bit1_get, Spec.ofCode_code, Ty.ofCode_code, Rm.ofCode_code, Cc.ofCode_code,
    Fcc.ofCode_code, Scope.ofCode_code, Shuf.ofCode_code, Pred.ofCode_code, Cond.ofCode_code, except_bind, except_map]
  simp (disch := decide) only [Nat.reduceAdd, Nat.reduceSub, BitVec.extractLsb'_eq_self, bit1_get, Spec.ofCode_code,
    Ty.ofCode_code, Rm.ofCode_code, Cc.ofCode_code, Fcc.ofCode_code, Scope.ofCode_code, except_bind, except_map]
  rfl

theorem CopyArgs.ops_cast (x : CopyArgs) (sp dir : Bool) : (0 : BitVec 6) ++ bit1 sp ++ bit1 x.pm ++ bit1 dir =
    BitVec.cast (show 6 + 1 + 1 + 1 = 9 from rfl) ((0 : BitVec 6) ++ bit1 sp ++ bit1 x.pm ++ bit1 dir) := rfl

theorem parseCopy_word (op : BitVec 12) (c : Ctl) (x : CopyArgs) (dir sp : Bool) :
    parseCopy (x.word op c dir sp) = .ok x ∧ (x.word op c dir sp).getLsbD 55 = dir ∧
      (x.word op c dir sp).getLsbD 57 = sp := by
  unfold parseCopy CopyArgs.word
  rw [CopyArgs.ops_cast, BarName.code_cast]
  simp (disch := decide) only [wordL_append, tyL, dst, srcA, srcB, srcC, imm12, imm32, predC, barI, predDst, Pred.code8,
    bit_cast, fld_cast, fld_high, fld_low, bit_high, bit_low, BitVec.extractLsb'_cast, BitVec.getLsbD_cast, Nat.reduceSub,
    BitVec.extractLsb'_eq_self, opsIb, bit1_get, Spec.ofCode_code, Ty.ofCode_code, Rm.ofCode_code, Cc.ofCode_code,
    Fcc.ofCode_code, Scope.ofCode_code, Shuf.ofCode_code, Pred.ofCode_code, Cond.ofCode_code, except_bind, except_map]
  exact ⟨rfl, trivial, trivial⟩

theorem MemTail.code_cast (off : BitVec 13) (aop : BitVec 4) (sc : Scope) : (MemTail.narrow off aop sc).code =
    BitVec.cast (show 3 + 4 + 13 = 20 from rfl) (sc.code ++ aop ++ off) := rfl

theorem parseMem_word (op : BitVec 12) (c : Ctl) (x : MemArgs) (scratch narrow : Bool)
    (hb : match x.base with | .glob _ => scratch = false | .slot _ => scratch = true)
    (ht : match x.tail with | .wide _ => narrow = false ∧ x.sem = 0 | .narrow _ _ _ => narrow = true ∨ x.sem ≠ 0) :
    parseMem (x.word op c) scratch narrow = .ok x := by
  obtain ⟨dst', base, data, index, sz, sx, scl, sem, tail⟩ := x
  have hs : fld (MemArgs.word op c ⟨dst', base, data, index, sz, sx, scl, sem, tail⟩) 54 2 = sem := by
    unfold MemArgs.word
    simp (disch := decide) only [wordM_append, tyL, dst, srcA, srcB, srcC, imm12, imm32, predC, barI, predDst, Pred.code8,
    bit_cast, fld_cast, fld_high, fld_low, bit_high, bit_low, BitVec.extractLsb'_cast, BitVec.getLsbD_cast, Nat.reduceSub,
    BitVec.extractLsb'_eq_self, opsIb, bit1_get, Spec.ofCode_code, Ty.ofCode_code, Rm.ofCode_code, Cc.ofCode_code,
    Fcc.ofCode_code, Scope.ofCode_code, Shuf.ofCode_code, Pred.ofCode_code, Cond.ofCode_code, except_bind, except_map]
  have h2 : parseTail (MemArgs.word op c ⟨dst', base, data, index, sz, sx, scl, sem, tail⟩) narrow = .ok tail := by
    unfold parseTail
    rw [hs]
    cases tail with
    | wide off =>
      obtain ⟨hn, hz⟩ := ht
      simp only at hz
      subst hn hz
      unfold MemArgs.word MemTail.code
      simp (disch := decide) only [wordM_append, tyL, dst, srcA, srcB, srcC, imm12, imm32, predC, barI, predDst, Pred.code8,
    bit_cast, fld_cast, fld_high, fld_low, bit_high, bit_low, BitVec.extractLsb'_cast, BitVec.getLsbD_cast, Nat.reduceSub,
    BitVec.extractLsb'_eq_self, opsIb, bit1_get, Spec.ofCode_code, Ty.ofCode_code, Rm.ofCode_code, Cc.ofCode_code,
    Fcc.ofCode_code, Scope.ofCode_code, Shuf.ofCode_code, Pred.ofCode_code, Cond.ofCode_code, except_bind, except_map]
      rfl
    | narrow off aop sc =>
      rw [if_pos (by rcases ht with h | h <;> simp_all)]
      unfold MemArgs.word
      rw [MemTail.code_cast]
      simp (disch := decide) only [wordM_append, tyL, dst, srcA, srcB, srcC, imm12, imm32, predC, barI, predDst, Pred.code8,
    bit_cast, fld_cast, fld_high, fld_low, bit_high, bit_low, BitVec.extractLsb'_cast, BitVec.getLsbD_cast, Nat.reduceSub,
    BitVec.extractLsb'_eq_self, opsIb, bit1_get, Spec.ofCode_code, Ty.ofCode_code, Rm.ofCode_code, Cc.ofCode_code,
    Fcc.ofCode_code, Scope.ofCode_code, Shuf.ofCode_code, Pred.ofCode_code, Cond.ofCode_code, except_bind, except_map]
  unfold parseMem
  rw [h2, hs]
  unfold MemArgs.word
  cases base with
  | glob r =>
    simp only at hb
    subst hb
    simp only [MemBase.code, Bool.false_eq_true, if_false]
    simp (disch := decide) only [wordM_append, tyL, dst, srcA, srcB, srcC, imm12, imm32, predC, barI, predDst, Pred.code8,
    bit_cast, fld_cast, fld_high, fld_low, bit_high, bit_low, BitVec.extractLsb'_cast, BitVec.getLsbD_cast, Nat.reduceSub,
    BitVec.extractLsb'_eq_self, opsIb, bit1_get, Spec.ofCode_code, Ty.ofCode_code, Rm.ofCode_code, Cc.ofCode_code,
    Fcc.ofCode_code, Scope.ofCode_code, Shuf.ofCode_code, Pred.ofCode_code, Cond.ofCode_code, except_bind, except_map]
    rfl
  | slot g =>
    simp only at hb
    subst hb
    simp only [MemBase.code, if_true]
    simp (disch := decide) only [wordM_append, tyL, dst, srcA, srcB, srcC, imm12, imm32, predC, barI, predDst, Pred.code8,
    bit_cast, fld_cast, fld_high, fld_low, bit_high, bit_low, BitVec.extractLsb'_cast, BitVec.getLsbD_cast, Nat.reduceSub,
    BitVec.extractLsb'_eq_self, opsIb, bit1_get, Spec.ofCode_code, Ty.ofCode_code, Rm.ofCode_code, Cc.ofCode_code,
    Fcc.ofCode_code, Scope.ofCode_code, Shuf.ofCode_code, Pred.ofCode_code, Cond.ofCode_code, except_bind, except_map]
    simp (disch := decide) only [Nat.reduceAdd, Nat.reduceSub, BitVec.extractLsb'_eq_self, bit1_get, Spec.ofCode_code,
    Ty.ofCode_code, Rm.ofCode_code, Cc.ofCode_code, Fcc.ofCode_code, Scope.ofCode_code, except_bind, except_map]
    rfl

theorem Instr.wf_args {i : Instr} (h : i.wf = true) : i.argsWf = true := by
  unfold Instr.wf at h
  exact (Bool.and_eq_true_iff.mp h).2

/-- A legal memory operand reads back, in the two forms of its tail (R49). -/
theorem parseMem_wf (op : BitVec 12) (c : Ctl) (x : MemArgs) (k : MemKind) (scratch : Bool) (h : x.wf k scratch = true) :
    parseMem (x.word op c) scratch (k != .load && k != .store && k != .loadU) = .ok x := by
  obtain ⟨dst', base, data, index, sz, sx, scl, sem, tail⟩ := x
  unfold MemArgs.wf at h
  simp only [Bool.and_eq_true] at h
  obtain ⟨⟨⟨⟨hb, ht⟩, -⟩, -⟩, -⟩ := h
  apply parseMem_word
  · cases base <;> simp_all
  · cases tail <;> cases k <;> simp_all [MemArgs.tailOk]

end Sys2Proof
end

