-- ==== Sys2Proof/Laws/State.lean ====
section
/-! SUPPORT. What each named update leaves of each field, so that no proof unfolds a record update. -/

namespace Sys2Proof.Machine

/-! ## Fields of the state under the named updates -/

@[simp] theorem State.modCrew_clock (s : State) (r : CrewRef) (f : Crew → Crew) : (s.modCrew r f).clock = s.clock := rfl
@[simp] theorem State.modCrew_device (s : State) (r : CrewRef) (f : Crew → Crew) : (s.modCrew r f).device = s.device := rfl
@[simp] theorem State.modCrew_mem (s : State) (r : CrewRef) (f : Crew → Crew) : (s.modCrew r f).mem = s.mem := rfl
@[simp] theorem State.modCrew_memPoison (s : State) (r : CrewRef) (f : Crew → Crew) : (s.modCrew r f).memPoison = s.memPoison := rfl
@[simp] theorem State.modCrew_peers (s : State) (r : CrewRef) (f : Crew → Crew) : (s.modCrew r f).peers = s.peers := rfl
@[simp] theorem State.modCrew_dies (s : State) (r : CrewRef) (f : Crew → Crew) : (s.modCrew r f).dies = s.dies := rfl
@[simp] theorem State.modCrew_cores (s : State) (r : CrewRef) (f : Crew → Crew) : (s.modCrew r f).cores = s.cores := rfl
@[simp] theorem State.modCrew_partitions (s : State) (r : CrewRef) (f : Crew → Crew) : (s.modCrew r f).partitions = s.partitions := rfl
@[simp] theorem State.modCrew_queues (s : State) (r : CrewRef) (f : Crew → Crew) : (s.modCrew r f).queues = s.queues := rfl
@[simp] theorem State.modCrew_contexts (s : State) (r : CrewRef) (f : Crew → Crew) : (s.modCrew r f).contexts = s.contexts := rfl
@[simp] theorem State.modCrew_launches (s : State) (r : CrewRef) (f : Crew → Crew) : (s.modCrew r f).launches = s.launches := rfl
@[simp] theorem State.modCrew_nextLaunch (s : State) (r : CrewRef) (f : Crew → Crew) : (s.modCrew r f).nextLaunch = s.nextLaunch := rfl
@[simp] theorem State.modCrew_turn (s : State) (r : CrewRef) (f : Crew → Crew) : (s.modCrew r f).turn = s.turn := rfl
@[simp] theorem State.modCrew_agenda (s : State) (r : CrewRef) (f : Crew → Crew) : (s.modCrew r f).agenda = s.agenda := rfl
@[simp] theorem State.modCrew_fresh (s : State) (r : CrewRef) (f : Crew → Crew) : (s.modCrew r f).fresh = s.fresh := rfl

@[simp] theorem State.modWarp_clock (s : State) (r : WarpRef) (f : Warp → Warp) : (s.modWarp r f).clock = s.clock := rfl
@[simp] theorem State.modWarp_device (s : State) (r : WarpRef) (f : Warp → Warp) : (s.modWarp r f).device = s.device := rfl
@[simp] theorem State.modWarp_mem (s : State) (r : WarpRef) (f : Warp → Warp) : (s.modWarp r f).mem = s.mem := rfl
@[simp] theorem State.modWarp_memPoison (s : State) (r : WarpRef) (f : Warp → Warp) : (s.modWarp r f).memPoison = s.memPoison := rfl
@[simp] theorem State.modWarp_peers (s : State) (r : WarpRef) (f : Warp → Warp) : (s.modWarp r f).peers = s.peers := rfl
@[simp] theorem State.modWarp_dies (s : State) (r : WarpRef) (f : Warp → Warp) : (s.modWarp r f).dies = s.dies := rfl
@[simp] theorem State.modWarp_cores (s : State) (r : WarpRef) (f : Warp → Warp) : (s.modWarp r f).cores = s.cores := rfl
@[simp] theorem State.modWarp_partitions (s : State) (r : WarpRef) (f : Warp → Warp) : (s.modWarp r f).partitions = s.partitions := rfl
@[simp] theorem State.modWarp_queues (s : State) (r : WarpRef) (f : Warp → Warp) : (s.modWarp r f).queues = s.queues := rfl
@[simp] theorem State.modWarp_contexts (s : State) (r : WarpRef) (f : Warp → Warp) : (s.modWarp r f).contexts = s.contexts := rfl
@[simp] theorem State.modWarp_launches (s : State) (r : WarpRef) (f : Warp → Warp) : (s.modWarp r f).launches = s.launches := rfl
@[simp] theorem State.modWarp_nextLaunch (s : State) (r : WarpRef) (f : Warp → Warp) : (s.modWarp r f).nextLaunch = s.nextLaunch := rfl
@[simp] theorem State.modWarp_turn (s : State) (r : WarpRef) (f : Warp → Warp) : (s.modWarp r f).turn = s.turn := rfl
@[simp] theorem State.modWarp_agenda (s : State) (r : WarpRef) (f : Warp → Warp) : (s.modWarp r f).agenda = s.agenda := rfl
@[simp] theorem State.modWarp_fresh (s : State) (r : WarpRef) (f : Warp → Warp) : (s.modWarp r f).fresh = s.fresh := rfl

@[simp] theorem State.modLaunch_clock (s : State) (k : Nat) (f : Launch → Launch) : (s.modLaunch k f).clock = s.clock := rfl
@[simp] theorem State.modLaunch_device (s : State) (k : Nat) (f : Launch → Launch) : (s.modLaunch k f).device = s.device := rfl
@[simp] theorem State.modLaunch_mem (s : State) (k : Nat) (f : Launch → Launch) : (s.modLaunch k f).mem = s.mem := rfl
@[simp] theorem State.modLaunch_memPoison (s : State) (k : Nat) (f : Launch → Launch) : (s.modLaunch k f).memPoison = s.memPoison := rfl
@[simp] theorem State.modLaunch_peers (s : State) (k : Nat) (f : Launch → Launch) : (s.modLaunch k f).peers = s.peers := rfl
@[simp] theorem State.modLaunch_dies (s : State) (k : Nat) (f : Launch → Launch) : (s.modLaunch k f).dies = s.dies := rfl
@[simp] theorem State.modLaunch_cores (s : State) (k : Nat) (f : Launch → Launch) : (s.modLaunch k f).cores = s.cores := rfl
@[simp] theorem State.modLaunch_partitions (s : State) (k : Nat) (f : Launch → Launch) : (s.modLaunch k f).partitions = s.partitions := rfl
@[simp] theorem State.modLaunch_queues (s : State) (k : Nat) (f : Launch → Launch) : (s.modLaunch k f).queues = s.queues := rfl
@[simp] theorem State.modLaunch_contexts (s : State) (k : Nat) (f : Launch → Launch) : (s.modLaunch k f).contexts = s.contexts := rfl
@[simp] theorem State.modLaunch_crews (s : State) (k : Nat) (f : Launch → Launch) : (s.modLaunch k f).crews = s.crews := rfl
@[simp] theorem State.modLaunch_nextLaunch (s : State) (k : Nat) (f : Launch → Launch) : (s.modLaunch k f).nextLaunch = s.nextLaunch := rfl
@[simp] theorem State.modLaunch_turn (s : State) (k : Nat) (f : Launch → Launch) : (s.modLaunch k f).turn = s.turn := rfl
@[simp] theorem State.modLaunch_agenda (s : State) (k : Nat) (f : Launch → Launch) : (s.modLaunch k f).agenda = s.agenda := rfl
@[simp] theorem State.modLaunch_fresh (s : State) (k : Nat) (f : Launch → Launch) : (s.modLaunch k f).fresh = s.fresh := rfl

@[simp] theorem State.modContext_clock (s : State) (r : CtxRef) (f : Context → Context) : (s.modContext r f).clock = s.clock := rfl
@[simp] theorem State.modContext_device (s : State) (r : CtxRef) (f : Context → Context) : (s.modContext r f).device = s.device := rfl
@[simp] theorem State.modContext_mem (s : State) (r : CtxRef) (f : Context → Context) : (s.modContext r f).mem = s.mem := rfl
@[simp] theorem State.modContext_memPoison (s : State) (r : CtxRef) (f : Context → Context) : (s.modContext r f).memPoison = s.memPoison := rfl
@[simp] theorem State.modContext_peers (s : State) (r : CtxRef) (f : Context → Context) : (s.modContext r f).peers = s.peers := rfl
@[simp] theorem State.modContext_dies (s : State) (r : CtxRef) (f : Context → Context) : (s.modContext r f).dies = s.dies := rfl
@[simp] theorem State.modContext_cores (s : State) (r : CtxRef) (f : Context → Context) : (s.modContext r f).cores = s.cores := rfl
@[simp] theorem State.modContext_partitions (s : State) (r : CtxRef) (f : Context → Context) : (s.modContext r f).partitions = s.partitions := rfl
@[simp] theorem State.modContext_queues (s : State) (r : CtxRef) (f : Context → Context) : (s.modContext r f).queues = s.queues := rfl
@[simp] theorem State.modContext_launches (s : State) (r : CtxRef) (f : Context → Context) : (s.modContext r f).launches = s.launches := rfl
@[simp] theorem State.modContext_crews (s : State) (r : CtxRef) (f : Context → Context) : (s.modContext r f).crews = s.crews := rfl
@[simp] theorem State.modContext_nextLaunch (s : State) (r : CtxRef) (f : Context → Context) : (s.modContext r f).nextLaunch = s.nextLaunch := rfl
@[simp] theorem State.modContext_turn (s : State) (r : CtxRef) (f : Context → Context) : (s.modContext r f).turn = s.turn := rfl
@[simp] theorem State.modContext_agenda (s : State) (r : CtxRef) (f : Context → Context) : (s.modContext r f).agenda = s.agenda := rfl
@[simp] theorem State.modContext_fresh (s : State) (r : CtxRef) (f : Context → Context) : (s.modContext r f).fresh = s.fresh := rfl

@[simp] theorem State.modPartition_clock (s : State) (k : Nat) (f : Partition → Partition) : (s.modPartition k f).clock = s.clock := rfl
@[simp] theorem State.modPartition_device (s : State) (k : Nat) (f : Partition → Partition) : (s.modPartition k f).device = s.device := rfl
@[simp] theorem State.modPartition_mem (s : State) (k : Nat) (f : Partition → Partition) : (s.modPartition k f).mem = s.mem := rfl
@[simp] theorem State.modPartition_memPoison (s : State) (k : Nat) (f : Partition → Partition) : (s.modPartition k f).memPoison = s.memPoison := rfl
@[simp] theorem State.modPartition_peers (s : State) (k : Nat) (f : Partition → Partition) : (s.modPartition k f).peers = s.peers := rfl
@[simp] theorem State.modPartition_dies (s : State) (k : Nat) (f : Partition → Partition) : (s.modPartition k f).dies = s.dies := rfl
@[simp] theorem State.modPartition_cores (s : State) (k : Nat) (f : Partition → Partition) : (s.modPartition k f).cores = s.cores := rfl
@[simp] theorem State.modPartition_queues (s : State) (k : Nat) (f : Partition → Partition) : (s.modPartition k f).queues = s.queues := rfl
@[simp] theorem State.modPartition_contexts (s : State) (k : Nat) (f : Partition → Partition) : (s.modPartition k f).contexts = s.contexts := rfl
@[simp] theorem State.modPartition_launches (s : State) (k : Nat) (f : Partition → Partition) : (s.modPartition k f).launches = s.launches := rfl
@[simp] theorem State.modPartition_crews (s : State) (k : Nat) (f : Partition → Partition) : (s.modPartition k f).crews = s.crews := rfl
@[simp] theorem State.modPartition_nextLaunch (s : State) (k : Nat) (f : Partition → Partition) : (s.modPartition k f).nextLaunch = s.nextLaunch := rfl
@[simp] theorem State.modPartition_turn (s : State) (k : Nat) (f : Partition → Partition) : (s.modPartition k f).turn = s.turn := rfl
@[simp] theorem State.modPartition_agenda (s : State) (k : Nat) (f : Partition → Partition) : (s.modPartition k f).agenda = s.agenda := rfl
@[simp] theorem State.modPartition_fresh (s : State) (k : Nat) (f : Partition → Partition) : (s.modPartition k f).fresh = s.fresh := rfl

@[simp] theorem State.modCmdQueue_clock (s : State) (r : QueueRef) (f : CmdQueue → CmdQueue) : (s.modCmdQueue r f).clock = s.clock := rfl
@[simp] theorem State.modCmdQueue_device (s : State) (r : QueueRef) (f : CmdQueue → CmdQueue) : (s.modCmdQueue r f).device = s.device := rfl
@[simp] theorem State.modCmdQueue_mem (s : State) (r : QueueRef) (f : CmdQueue → CmdQueue) : (s.modCmdQueue r f).mem = s.mem := rfl
@[simp] theorem State.modCmdQueue_memPoison (s : State) (r : QueueRef) (f : CmdQueue → CmdQueue) : (s.modCmdQueue r f).memPoison = s.memPoison := rfl
@[simp] theorem State.modCmdQueue_peers (s : State) (r : QueueRef) (f : CmdQueue → CmdQueue) : (s.modCmdQueue r f).peers = s.peers := rfl
@[simp] theorem State.modCmdQueue_dies (s : State) (r : QueueRef) (f : CmdQueue → CmdQueue) : (s.modCmdQueue r f).dies = s.dies := rfl
@[simp] theorem State.modCmdQueue_cores (s : State) (r : QueueRef) (f : CmdQueue → CmdQueue) : (s.modCmdQueue r f).cores = s.cores := rfl
@[simp] theorem State.modCmdQueue_partitions (s : State) (r : QueueRef) (f : CmdQueue → CmdQueue) : (s.modCmdQueue r f).partitions = s.partitions := rfl
@[simp] theorem State.modCmdQueue_contexts (s : State) (r : QueueRef) (f : CmdQueue → CmdQueue) : (s.modCmdQueue r f).contexts = s.contexts := rfl
@[simp] theorem State.modCmdQueue_launches (s : State) (r : QueueRef) (f : CmdQueue → CmdQueue) : (s.modCmdQueue r f).launches = s.launches := rfl
@[simp] theorem State.modCmdQueue_crews (s : State) (r : QueueRef) (f : CmdQueue → CmdQueue) : (s.modCmdQueue r f).crews = s.crews := rfl
@[simp] theorem State.modCmdQueue_nextLaunch (s : State) (r : QueueRef) (f : CmdQueue → CmdQueue) : (s.modCmdQueue r f).nextLaunch = s.nextLaunch := rfl
@[simp] theorem State.modCmdQueue_turn (s : State) (r : QueueRef) (f : CmdQueue → CmdQueue) : (s.modCmdQueue r f).turn = s.turn := rfl
@[simp] theorem State.modCmdQueue_agenda (s : State) (r : QueueRef) (f : CmdQueue → CmdQueue) : (s.modCmdQueue r f).agenda = s.agenda := rfl
@[simp] theorem State.modCmdQueue_fresh (s : State) (r : QueueRef) (f : CmdQueue → CmdQueue) : (s.modCmdQueue r f).fresh = s.fresh := rfl

@[simp] theorem State.modCore_clock (s : State) (k : Nat) (f : CoreState → CoreState) : (s.modCore k f).clock = s.clock := rfl
@[simp] theorem State.modCore_device (s : State) (k : Nat) (f : CoreState → CoreState) : (s.modCore k f).device = s.device := rfl
@[simp] theorem State.modCore_mem (s : State) (k : Nat) (f : CoreState → CoreState) : (s.modCore k f).mem = s.mem := rfl
@[simp] theorem State.modCore_memPoison (s : State) (k : Nat) (f : CoreState → CoreState) : (s.modCore k f).memPoison = s.memPoison := rfl
@[simp] theorem State.modCore_peers (s : State) (k : Nat) (f : CoreState → CoreState) : (s.modCore k f).peers = s.peers := rfl
@[simp] theorem State.modCore_dies (s : State) (k : Nat) (f : CoreState → CoreState) : (s.modCore k f).dies = s.dies := rfl
@[simp] theorem State.modCore_partitions (s : State) (k : Nat) (f : CoreState → CoreState) : (s.modCore k f).partitions = s.partitions := rfl
@[simp] theorem State.modCore_queues (s : State) (k : Nat) (f : CoreState → CoreState) : (s.modCore k f).queues = s.queues := rfl
@[simp] theorem State.modCore_contexts (s : State) (k : Nat) (f : CoreState → CoreState) : (s.modCore k f).contexts = s.contexts := rfl
@[simp] theorem State.modCore_launches (s : State) (k : Nat) (f : CoreState → CoreState) : (s.modCore k f).launches = s.launches := rfl
@[simp] theorem State.modCore_crews (s : State) (k : Nat) (f : CoreState → CoreState) : (s.modCore k f).crews = s.crews := rfl
@[simp] theorem State.modCore_nextLaunch (s : State) (k : Nat) (f : CoreState → CoreState) : (s.modCore k f).nextLaunch = s.nextLaunch := rfl
@[simp] theorem State.modCore_turn (s : State) (k : Nat) (f : CoreState → CoreState) : (s.modCore k f).turn = s.turn := rfl
@[simp] theorem State.modCore_agenda (s : State) (k : Nat) (f : CoreState → CoreState) : (s.modCore k f).agenda = s.agenda := rfl
@[simp] theorem State.modCore_fresh (s : State) (k : Nat) (f : CoreState → CoreState) : (s.modCore k f).fresh = s.fresh := rfl

@[simp] theorem State.modDie_clock (s : State) (k : Nat) (f : DieState → DieState) : (s.modDie k f).clock = s.clock := rfl
@[simp] theorem State.modDie_device (s : State) (k : Nat) (f : DieState → DieState) : (s.modDie k f).device = s.device := rfl
@[simp] theorem State.modDie_mem (s : State) (k : Nat) (f : DieState → DieState) : (s.modDie k f).mem = s.mem := rfl
@[simp] theorem State.modDie_memPoison (s : State) (k : Nat) (f : DieState → DieState) : (s.modDie k f).memPoison = s.memPoison := rfl
@[simp] theorem State.modDie_peers (s : State) (k : Nat) (f : DieState → DieState) : (s.modDie k f).peers = s.peers := rfl
@[simp] theorem State.modDie_cores (s : State) (k : Nat) (f : DieState → DieState) : (s.modDie k f).cores = s.cores := rfl
@[simp] theorem State.modDie_partitions (s : State) (k : Nat) (f : DieState → DieState) : (s.modDie k f).partitions = s.partitions := rfl
@[simp] theorem State.modDie_queues (s : State) (k : Nat) (f : DieState → DieState) : (s.modDie k f).queues = s.queues := rfl
@[simp] theorem State.modDie_contexts (s : State) (k : Nat) (f : DieState → DieState) : (s.modDie k f).contexts = s.contexts := rfl
@[simp] theorem State.modDie_launches (s : State) (k : Nat) (f : DieState → DieState) : (s.modDie k f).launches = s.launches := rfl
@[simp] theorem State.modDie_crews (s : State) (k : Nat) (f : DieState → DieState) : (s.modDie k f).crews = s.crews := rfl
@[simp] theorem State.modDie_nextLaunch (s : State) (k : Nat) (f : DieState → DieState) : (s.modDie k f).nextLaunch = s.nextLaunch := rfl
@[simp] theorem State.modDie_turn (s : State) (k : Nat) (f : DieState → DieState) : (s.modDie k f).turn = s.turn := rfl
@[simp] theorem State.modDie_agenda (s : State) (k : Nat) (f : DieState → DieState) : (s.modDie k f).agenda = s.agenda := rfl
@[simp] theorem State.modDie_fresh (s : State) (k : Nat) (f : DieState → DieState) : (s.modDie k f).fresh = s.fresh := rfl

/-! ## Fields of a crew -/

@[simp] theorem Crew.modWarp_ref (c : Crew) (n : Nat) (f : Warp → Warp) : (c.modWarp n f).ref = c.ref := rfl
@[simp] theorem Crew.modWarp_core (c : Crew) (n : Nat) (f : Warp → Warp) : (c.modWarp n f).core = c.core := rfl
@[simp] theorem Crew.modWarp_resuming (c : Crew) (n : Nat) (f : Warp → Warp) : (c.modWarp n f).resuming = c.resuming := rfl
@[simp] theorem Crew.modWarp_spillSlot (c : Crew) (n : Nat) (f : Warp → Warp) : (c.modWarp n f).spillSlot = c.spillSlot := rfl
@[simp] theorem Crew.modWarp_groups (c : Crew) (n : Nat) (f : Warp → Warp) : (c.modWarp n f).groups = c.groups := rfl
@[simp] theorem Crew.modWarp_queues (c : Crew) (n : Nat) (f : Warp → Warp) : (c.modWarp n f).queues = c.queues := rfl
@[simp] theorem Crew.modWarp_arrivals (c : Crew) (n : Nat) (f : Warp → Warp) : (c.modWarp n f).arrivals = c.arrivals := rfl
@[simp] theorem Crew.modWarp_scratch (c : Crew) (n : Nat) (f : Warp → Warp) : (c.modWarp n f).scratch = c.scratch := rfl
@[simp] theorem Crew.modWarp_scratchPoison (c : Crew) (n : Nat) (f : Warp → Warp) : (c.modWarp n f).scratchPoison = c.scratchPoison := rfl
@[simp] theorem Crew.modWarp_scratchSize (c : Crew) (n : Nat) (f : Warp → Warp) : (c.modWarp n f).scratchSize = c.scratchSize := rfl
@[simp] theorem Crew.modWarp_budget (c : Crew) (n : Nat) (f : Warp → Warp) : (c.modWarp n f).budget = c.budget := rfl
@[simp] theorem Crew.modWarp_reserve (c : Crew) (n : Nat) (f : Warp → Warp) : (c.modWarp n f).reserve = c.reserve := rfl
@[simp] theorem Crew.modWarp_claims (c : Crew) (n : Nat) (f : Warp → Warp) : (c.modWarp n f).claims = c.claims := rfl
@[simp] theorem Crew.modWarp_tiles (c : Crew) (n : Nat) (f : Warp → Warp) : (c.modWarp n f).tiles = c.tiles := rfl
@[simp] theorem Crew.modWarp_accs (c : Crew) (n : Nat) (f : Warp → Warp) : (c.modWarp n f).accs = c.accs := rfl
@[simp] theorem Crew.modWarp_gen (c : Crew) (n : Nat) (f : Warp → Warp) : (c.modWarp n f).gen = c.gen := rfl
@[simp] theorem Crew.modWarp_races (c : Crew) (n : Nat) (f : Warp → Warp) : (c.modWarp n f).races = c.races := rfl
@[simp] theorem Crew.modWarp_savedCopies (c : Crew) (n : Nat) (f : Warp → Warp) : (c.modWarp n f).savedCopies = c.savedCopies := rfl
@[simp] theorem Crew.modWarp_savedSpills (c : Crew) (n : Nat) (f : Warp → Warp) : (c.modWarp n f).savedSpills = c.savedSpills := rfl

@[simp] theorem Crew.modQueue_ref (c : Crew) (n : Nat) (f : Queue → Queue) : (c.modQueue n f).ref = c.ref := rfl
@[simp] theorem Crew.modQueue_core (c : Crew) (n : Nat) (f : Queue → Queue) : (c.modQueue n f).core = c.core := rfl
@[simp] theorem Crew.modQueue_resuming (c : Crew) (n : Nat) (f : Queue → Queue) : (c.modQueue n f).resuming = c.resuming := rfl
@[simp] theorem Crew.modQueue_spillSlot (c : Crew) (n : Nat) (f : Queue → Queue) : (c.modQueue n f).spillSlot = c.spillSlot := rfl
@[simp] theorem Crew.modQueue_warps (c : Crew) (n : Nat) (f : Queue → Queue) : (c.modQueue n f).warps = c.warps := rfl
@[simp] theorem Crew.modQueue_groups (c : Crew) (n : Nat) (f : Queue → Queue) : (c.modQueue n f).groups = c.groups := rfl
@[simp] theorem Crew.modQueue_arrivals (c : Crew) (n : Nat) (f : Queue → Queue) : (c.modQueue n f).arrivals = c.arrivals := rfl
@[simp] theorem Crew.modQueue_scratch (c : Crew) (n : Nat) (f : Queue → Queue) : (c.modQueue n f).scratch = c.scratch := rfl
@[simp] theorem Crew.modQueue_scratchPoison (c : Crew) (n : Nat) (f : Queue → Queue) : (c.modQueue n f).scratchPoison = c.scratchPoison := rfl
@[simp] theorem Crew.modQueue_scratchSize (c : Crew) (n : Nat) (f : Queue → Queue) : (c.modQueue n f).scratchSize = c.scratchSize := rfl
@[simp] theorem Crew.modQueue_budget (c : Crew) (n : Nat) (f : Queue → Queue) : (c.modQueue n f).budget = c.budget := rfl
@[simp] theorem Crew.modQueue_reserve (c : Crew) (n : Nat) (f : Queue → Queue) : (c.modQueue n f).reserve = c.reserve := rfl
@[simp] theorem Crew.modQueue_claims (c : Crew) (n : Nat) (f : Queue → Queue) : (c.modQueue n f).claims = c.claims := rfl
@[simp] theorem Crew.modQueue_tiles (c : Crew) (n : Nat) (f : Queue → Queue) : (c.modQueue n f).tiles = c.tiles := rfl
@[simp] theorem Crew.modQueue_accs (c : Crew) (n : Nat) (f : Queue → Queue) : (c.modQueue n f).accs = c.accs := rfl
@[simp] theorem Crew.modQueue_gen (c : Crew) (n : Nat) (f : Queue → Queue) : (c.modQueue n f).gen = c.gen := rfl
@[simp] theorem Crew.modQueue_races (c : Crew) (n : Nat) (f : Queue → Queue) : (c.modQueue n f).races = c.races := rfl
@[simp] theorem Crew.modQueue_savedCopies (c : Crew) (n : Nat) (f : Queue → Queue) : (c.modQueue n f).savedCopies = c.savedCopies := rfl
@[simp] theorem Crew.modQueue_savedSpills (c : Crew) (n : Nat) (f : Queue → Queue) : (c.modQueue n f).savedSpills = c.savedSpills := rfl

@[simp] theorem Crew.modGroup_ref (c : Crew) (n : Nat) (f : Group → Group) : (c.modGroup n f).ref = c.ref := rfl
@[simp] theorem Crew.modGroup_core (c : Crew) (n : Nat) (f : Group → Group) : (c.modGroup n f).core = c.core := rfl
@[simp] theorem Crew.modGroup_resuming (c : Crew) (n : Nat) (f : Group → Group) : (c.modGroup n f).resuming = c.resuming := rfl
@[simp] theorem Crew.modGroup_spillSlot (c : Crew) (n : Nat) (f : Group → Group) : (c.modGroup n f).spillSlot = c.spillSlot := rfl
@[simp] theorem Crew.modGroup_warps (c : Crew) (n : Nat) (f : Group → Group) : (c.modGroup n f).warps = c.warps := rfl
@[simp] theorem Crew.modGroup_queues (c : Crew) (n : Nat) (f : Group → Group) : (c.modGroup n f).queues = c.queues := rfl
@[simp] theorem Crew.modGroup_arrivals (c : Crew) (n : Nat) (f : Group → Group) : (c.modGroup n f).arrivals = c.arrivals := rfl
@[simp] theorem Crew.modGroup_scratch (c : Crew) (n : Nat) (f : Group → Group) : (c.modGroup n f).scratch = c.scratch := rfl
@[simp] theorem Crew.modGroup_scratchPoison (c : Crew) (n : Nat) (f : Group → Group) : (c.modGroup n f).scratchPoison = c.scratchPoison := rfl
@[simp] theorem Crew.modGroup_scratchSize (c : Crew) (n : Nat) (f : Group → Group) : (c.modGroup n f).scratchSize = c.scratchSize := rfl
@[simp] theorem Crew.modGroup_budget (c : Crew) (n : Nat) (f : Group → Group) : (c.modGroup n f).budget = c.budget := rfl
@[simp] theorem Crew.modGroup_reserve (c : Crew) (n : Nat) (f : Group → Group) : (c.modGroup n f).reserve = c.reserve := rfl
@[simp] theorem Crew.modGroup_claims (c : Crew) (n : Nat) (f : Group → Group) : (c.modGroup n f).claims = c.claims := rfl
@[simp] theorem Crew.modGroup_tiles (c : Crew) (n : Nat) (f : Group → Group) : (c.modGroup n f).tiles = c.tiles := rfl
@[simp] theorem Crew.modGroup_accs (c : Crew) (n : Nat) (f : Group → Group) : (c.modGroup n f).accs = c.accs := rfl
@[simp] theorem Crew.modGroup_gen (c : Crew) (n : Nat) (f : Group → Group) : (c.modGroup n f).gen = c.gen := rfl
@[simp] theorem Crew.modGroup_races (c : Crew) (n : Nat) (f : Group → Group) : (c.modGroup n f).races = c.races := rfl
@[simp] theorem Crew.modGroup_savedCopies (c : Crew) (n : Nat) (f : Group → Group) : (c.modGroup n f).savedCopies = c.savedCopies := rfl
@[simp] theorem Crew.modGroup_savedSpills (c : Crew) (n : Nat) (f : Group → Group) : (c.modGroup n f).savedSpills = c.savedSpills := rfl

@[simp] theorem Crew.modTile_ref (c : Crew) (n : Nat) (f : Tile → Tile) : (c.modTile n f).ref = c.ref := rfl
@[simp] theorem Crew.modTile_core (c : Crew) (n : Nat) (f : Tile → Tile) : (c.modTile n f).core = c.core := rfl
@[simp] theorem Crew.modTile_resuming (c : Crew) (n : Nat) (f : Tile → Tile) : (c.modTile n f).resuming = c.resuming := rfl
@[simp] theorem Crew.modTile_spillSlot (c : Crew) (n : Nat) (f : Tile → Tile) : (c.modTile n f).spillSlot = c.spillSlot := rfl
@[simp] theorem Crew.modTile_warps (c : Crew) (n : Nat) (f : Tile → Tile) : (c.modTile n f).warps = c.warps := rfl
@[simp] theorem Crew.modTile_groups (c : Crew) (n : Nat) (f : Tile → Tile) : (c.modTile n f).groups = c.groups := rfl
@[simp] theorem Crew.modTile_queues (c : Crew) (n : Nat) (f : Tile → Tile) : (c.modTile n f).queues = c.queues := rfl
@[simp] theorem Crew.modTile_arrivals (c : Crew) (n : Nat) (f : Tile → Tile) : (c.modTile n f).arrivals = c.arrivals := rfl
@[simp] theorem Crew.modTile_scratch (c : Crew) (n : Nat) (f : Tile → Tile) : (c.modTile n f).scratch = c.scratch := rfl
@[simp] theorem Crew.modTile_scratchPoison (c : Crew) (n : Nat) (f : Tile → Tile) : (c.modTile n f).scratchPoison = c.scratchPoison := rfl
@[simp] theorem Crew.modTile_scratchSize (c : Crew) (n : Nat) (f : Tile → Tile) : (c.modTile n f).scratchSize = c.scratchSize := rfl
@[simp] theorem Crew.modTile_budget (c : Crew) (n : Nat) (f : Tile → Tile) : (c.modTile n f).budget = c.budget := rfl
@[simp] theorem Crew.modTile_reserve (c : Crew) (n : Nat) (f : Tile → Tile) : (c.modTile n f).reserve = c.reserve := rfl
@[simp] theorem Crew.modTile_claims (c : Crew) (n : Nat) (f : Tile → Tile) : (c.modTile n f).claims = c.claims := rfl
@[simp] theorem Crew.modTile_accs (c : Crew) (n : Nat) (f : Tile → Tile) : (c.modTile n f).accs = c.accs := rfl
@[simp] theorem Crew.modTile_gen (c : Crew) (n : Nat) (f : Tile → Tile) : (c.modTile n f).gen = c.gen := rfl
@[simp] theorem Crew.modTile_races (c : Crew) (n : Nat) (f : Tile → Tile) : (c.modTile n f).races = c.races := rfl
@[simp] theorem Crew.modTile_savedCopies (c : Crew) (n : Nat) (f : Tile → Tile) : (c.modTile n f).savedCopies = c.savedCopies := rfl
@[simp] theorem Crew.modTile_savedSpills (c : Crew) (n : Nat) (f : Tile → Tile) : (c.modTile n f).savedSpills = c.savedSpills := rfl

@[simp] theorem Crew.modAcc_ref (c : Crew) (n : Nat) (f : Acc → Acc) : (c.modAcc n f).ref = c.ref := rfl
@[simp] theorem Crew.modAcc_core (c : Crew) (n : Nat) (f : Acc → Acc) : (c.modAcc n f).core = c.core := rfl
@[simp] theorem Crew.modAcc_resuming (c : Crew) (n : Nat) (f : Acc → Acc) : (c.modAcc n f).resuming = c.resuming := rfl
@[simp] theorem Crew.modAcc_spillSlot (c : Crew) (n : Nat) (f : Acc → Acc) : (c.modAcc n f).spillSlot = c.spillSlot := rfl
@[simp] theorem Crew.modAcc_warps (c : Crew) (n : Nat) (f : Acc → Acc) : (c.modAcc n f).warps = c.warps := rfl
@[simp] theorem Crew.modAcc_groups (c : Crew) (n : Nat) (f : Acc → Acc) : (c.modAcc n f).groups = c.groups := rfl
@[simp] theorem Crew.modAcc_queues (c : Crew) (n : Nat) (f : Acc → Acc) : (c.modAcc n f).queues = c.queues := rfl
@[simp] theorem Crew.modAcc_arrivals (c : Crew) (n : Nat) (f : Acc → Acc) : (c.modAcc n f).arrivals = c.arrivals := rfl
@[simp] theorem Crew.modAcc_scratch (c : Crew) (n : Nat) (f : Acc → Acc) : (c.modAcc n f).scratch = c.scratch := rfl
@[simp] theorem Crew.modAcc_scratchPoison (c : Crew) (n : Nat) (f : Acc → Acc) : (c.modAcc n f).scratchPoison = c.scratchPoison := rfl
@[simp] theorem Crew.modAcc_scratchSize (c : Crew) (n : Nat) (f : Acc → Acc) : (c.modAcc n f).scratchSize = c.scratchSize := rfl
@[simp] theorem Crew.modAcc_budget (c : Crew) (n : Nat) (f : Acc → Acc) : (c.modAcc n f).budget = c.budget := rfl
@[simp] theorem Crew.modAcc_reserve (c : Crew) (n : Nat) (f : Acc → Acc) : (c.modAcc n f).reserve = c.reserve := rfl
@[simp] theorem Crew.modAcc_claims (c : Crew) (n : Nat) (f : Acc → Acc) : (c.modAcc n f).claims = c.claims := rfl
@[simp] theorem Crew.modAcc_tiles (c : Crew) (n : Nat) (f : Acc → Acc) : (c.modAcc n f).tiles = c.tiles := rfl
@[simp] theorem Crew.modAcc_gen (c : Crew) (n : Nat) (f : Acc → Acc) : (c.modAcc n f).gen = c.gen := rfl
@[simp] theorem Crew.modAcc_races (c : Crew) (n : Nat) (f : Acc → Acc) : (c.modAcc n f).races = c.races := rfl
@[simp] theorem Crew.modAcc_savedCopies (c : Crew) (n : Nat) (f : Acc → Acc) : (c.modAcc n f).savedCopies = c.savedCopies := rfl
@[simp] theorem Crew.modAcc_savedSpills (c : Crew) (n : Nat) (f : Acc → Acc) : (c.modAcc n f).savedSpills = c.savedSpills := rfl

@[simp] theorem Crew.scratchWrite_ref (c : Crew) (o : Nat) (d : List Byte) (b : Bool) : (c.scratchWrite o d b).ref = c.ref := rfl
@[simp] theorem Crew.scratchWrite_core (c : Crew) (o : Nat) (d : List Byte) (b : Bool) : (c.scratchWrite o d b).core = c.core := rfl
@[simp] theorem Crew.scratchWrite_resuming (c : Crew) (o : Nat) (d : List Byte) (b : Bool) : (c.scratchWrite o d b).resuming = c.resuming := rfl
@[simp] theorem Crew.scratchWrite_spillSlot (c : Crew) (o : Nat) (d : List Byte) (b : Bool) : (c.scratchWrite o d b).spillSlot = c.spillSlot := rfl
@[simp] theorem Crew.scratchWrite_warps (c : Crew) (o : Nat) (d : List Byte) (b : Bool) : (c.scratchWrite o d b).warps = c.warps := rfl
@[simp] theorem Crew.scratchWrite_groups (c : Crew) (o : Nat) (d : List Byte) (b : Bool) : (c.scratchWrite o d b).groups = c.groups := rfl
@[simp] theorem Crew.scratchWrite_queues (c : Crew) (o : Nat) (d : List Byte) (b : Bool) : (c.scratchWrite o d b).queues = c.queues := rfl
@[simp] theorem Crew.scratchWrite_arrivals (c : Crew) (o : Nat) (d : List Byte) (b : Bool) : (c.scratchWrite o d b).arrivals = c.arrivals := rfl
@[simp] theorem Crew.scratchWrite_scratchSize (c : Crew) (o : Nat) (d : List Byte) (b : Bool) : (c.scratchWrite o d b).scratchSize = c.scratchSize := rfl
@[simp] theorem Crew.scratchWrite_budget (c : Crew) (o : Nat) (d : List Byte) (b : Bool) : (c.scratchWrite o d b).budget = c.budget := rfl
@[simp] theorem Crew.scratchWrite_reserve (c : Crew) (o : Nat) (d : List Byte) (b : Bool) : (c.scratchWrite o d b).reserve = c.reserve := rfl
@[simp] theorem Crew.scratchWrite_claims (c : Crew) (o : Nat) (d : List Byte) (b : Bool) : (c.scratchWrite o d b).claims = c.claims := rfl
@[simp] theorem Crew.scratchWrite_tiles (c : Crew) (o : Nat) (d : List Byte) (b : Bool) : (c.scratchWrite o d b).tiles = c.tiles := rfl
@[simp] theorem Crew.scratchWrite_accs (c : Crew) (o : Nat) (d : List Byte) (b : Bool) : (c.scratchWrite o d b).accs = c.accs := rfl
@[simp] theorem Crew.scratchWrite_gen (c : Crew) (o : Nat) (d : List Byte) (b : Bool) : (c.scratchWrite o d b).gen = c.gen := rfl
@[simp] theorem Crew.scratchWrite_races (c : Crew) (o : Nat) (d : List Byte) (b : Bool) : (c.scratchWrite o d b).races = c.races := rfl
@[simp] theorem Crew.scratchWrite_savedCopies (c : Crew) (o : Nat) (d : List Byte) (b : Bool) : (c.scratchWrite o d b).savedCopies = c.savedCopies := rfl
@[simp] theorem Crew.scratchWrite_savedSpills (c : Crew) (o : Nat) (d : List Byte) (b : Bool) : (c.scratchWrite o d b).savedSpills = c.savedSpills := rfl

@[simp] theorem Crew.clearShadow_ref (c : Crew) (o n : Nat) : (c.clearShadow o n).ref = c.ref := rfl
@[simp] theorem Crew.clearShadow_core (c : Crew) (o n : Nat) : (c.clearShadow o n).core = c.core := rfl
@[simp] theorem Crew.clearShadow_resuming (c : Crew) (o n : Nat) : (c.clearShadow o n).resuming = c.resuming := rfl
@[simp] theorem Crew.clearShadow_spillSlot (c : Crew) (o n : Nat) : (c.clearShadow o n).spillSlot = c.spillSlot := rfl
@[simp] theorem Crew.clearShadow_warps (c : Crew) (o n : Nat) : (c.clearShadow o n).warps = c.warps := rfl
@[simp] theorem Crew.clearShadow_groups (c : Crew) (o n : Nat) : (c.clearShadow o n).groups = c.groups := rfl
@[simp] theorem Crew.clearShadow_queues (c : Crew) (o n : Nat) : (c.clearShadow o n).queues = c.queues := rfl
@[simp] theorem Crew.clearShadow_arrivals (c : Crew) (o n : Nat) : (c.clearShadow o n).arrivals = c.arrivals := rfl
@[simp] theorem Crew.clearShadow_scratch (c : Crew) (o n : Nat) : (c.clearShadow o n).scratch = c.scratch := rfl
@[simp] theorem Crew.clearShadow_scratchPoison (c : Crew) (o n : Nat) : (c.clearShadow o n).scratchPoison = c.scratchPoison := rfl
@[simp] theorem Crew.clearShadow_scratchSize (c : Crew) (o n : Nat) : (c.clearShadow o n).scratchSize = c.scratchSize := rfl
@[simp] theorem Crew.clearShadow_budget (c : Crew) (o n : Nat) : (c.clearShadow o n).budget = c.budget := rfl
@[simp] theorem Crew.clearShadow_reserve (c : Crew) (o n : Nat) : (c.clearShadow o n).reserve = c.reserve := rfl
@[simp] theorem Crew.clearShadow_claims (c : Crew) (o n : Nat) : (c.clearShadow o n).claims = c.claims := rfl
@[simp] theorem Crew.clearShadow_tiles (c : Crew) (o n : Nat) : (c.clearShadow o n).tiles = c.tiles := rfl
@[simp] theorem Crew.clearShadow_accs (c : Crew) (o n : Nat) : (c.clearShadow o n).accs = c.accs := rfl
@[simp] theorem Crew.clearShadow_gen (c : Crew) (o n : Nat) : (c.clearShadow o n).gen = c.gen := rfl
@[simp] theorem Crew.clearShadow_savedCopies (c : Crew) (o n : Nat) : (c.clearShadow o n).savedCopies = c.savedCopies := rfl
@[simp] theorem Crew.clearShadow_savedSpills (c : Crew) (o n : Nat) : (c.clearShadow o n).savedSpills = c.savedSpills := rfl

end Sys2Proof.Machine
end

