-- ==== Sys2Proof/Laws/Splits.lean ====
section
/-! SUPPORT. What the split machinery leaves of a warp: its registers, and that a live split stays live. -/

namespace Sys2Proof.Machine

/-! ## What the split table leaves alone -/

/-- A warp apart from its split table: all but its splits, which of them issues, and the cycles of a change. -/
def Warp.rest (w : Warp) : Warp := { w with splits := [], cur := 0, switch := 0 }

@[simp] theorem Warp.rest_setSplit (w : Warp) (n x) : (w.setSplit n x).rest = w.rest := rfl
@[simp] theorem Warp.rest_modSplit (w : Warp) (n f) : (w.modSplit n f).rest = w.rest := rfl

@[simp] theorem Warp.rest_mergeSplits (w : Warp) (n s q) : (w.mergeSplits n s q).1.rest = w.rest := by
  unfold Warp.mergeSplits
  extract_lets lo hi low high count one u
  show Warp.rest (if _ then _ else _) = _
  split <;> rfl

/-- What a merge with one other split comes to: nothing, or the two become one. -/
theorem Warp.mergeWith_cases (w : Warp) (n m : Nat) :
    w.mergeWith n m = (w, n) ∨ ∃ s u, w.splitAt n = some s ∧ w.splitAt m = some u ∧ m ≠ n ∧ u.pc = s.pc ∧ u.base = s.base ∧
      w.mergeWith n m = w.mergeSplits n s (m, u) := by
  unfold Warp.mergeWith
  split
  · rename_i s u hs hu
    split
    · rename_i hc
      simp only [Bool.and_eq_true, bne_iff_ne, beq_iff_eq] at hc
      exact .inr ⟨s, u, hs, hu, hc.1.1.1, hc.1.1.2, hc.1.2, rfl⟩
    · exact .inl rfl
  · exact .inl rfl

/-- What taking the parked path at the top comes to. -/
theorem Warp.takeTop_cases (w : Warp) (n : Nat) :
    w.takeTop n = w ∨ ∃ s e l, w.splitAt n = some s ∧ s.layby = e :: l ∧ e.pc = s.pc ∧ e.base = s.base ∧
      w.takeTop n = w.setSplit n (some { s with mask := s.mask ||| e.mask, layby := l }) := by
  unfold Warp.takeTop
  split
  · rename_i s hs
    split
    · rename_i e l hl
      split
      · rename_i hc
        simp only [Bool.and_eq_true, beq_iff_eq] at hc
        exact .inr ⟨s, e, l, hs, hl, hc.1, hc.2, rfl⟩
      · exact .inl rfl
    · exact .inl rfl
  · exact .inl rfl

/-- What holds of a warp and survives both actions of merge_check survives merge_check. -/
theorem Warp.mergeFrom_keeps {P : Warp → Prop} (ht : ∀ w n, P w → P (w.takeTop n)) (hm : ∀ w n m, P w → P (w.mergeWith n m).1)
    (slots : List Nat) (k : Nat) (w : Warp) (n : Nat) (h : P w) : P (Warp.mergeFrom slots k w n) := by
  have round : ∀ (l : List Nat) (p : Warp × Nat), P p.1 → P (l.foldl (fun p m => p.1.mergeWith p.2 m) p).1 := by
    intro l
    induction l with
    | nil => exact fun _ h => h
    | cons m l ih => exact fun p h => ih _ (hm _ _ _ h)
  induction k generalizing w n with
  | zero => exact h
  | succ k ih =>
    have hr : P (w.mergeRound slots n).1 := round slots _ (ht _ _ h)
    simp only [Warp.mergeFrom]
    split
    · exact hr
    · exact ih _ _ hr

@[simp] theorem Warp.rest_mergeFrom (slots k) (w : Warp) (n : Nat) : (Warp.mergeFrom slots k w n).rest = w.rest :=
  Warp.mergeFrom_keeps (P := fun u => u.rest = w.rest)
    (fun u n h => by rcases u.takeTop_cases n with e | ⟨s, x, l, -, -, -, -, e⟩ <;> rw [e] <;> exact h)
    (fun u n m h => by rcases u.mergeWith_cases n m with e | ⟨s, v, -, -, -, -, -, e⟩ <;> rw [e] <;> simpa using h)
    slots k w n rfl

@[simp] theorem Warp.rest_mergeCheck (w : Warp) (n : Nat) : (w.mergeCheck n).rest = w.rest := Warp.rest_mergeFrom ..

@[simp] theorem Warp.rest_placeAmong (w : Warp) (l m pc b) : (w.placeAmong l m pc b).rest = w.rest := by
  unfold Warp.placeAmong; split <;> simp

@[simp] theorem Warp.rest_endSplit (w : Warp) (n : Nat) : (w.endSplit n).rest = w.rest := by
  unfold Warp.endSplit; split
  · rfl
  · split <;> simp

@[simp] theorem Warp.rest_unwait (w : Warp) : w.unwait.rest = w.rest := by
  unfold Warp.unwait
  generalize [0, 1, 2, 3] = l at *
  suffices ∀ (k : List Nat) (u : Warp), (List.foldl (fun w n =>
      match w.splitAt n with
      | some s =>
        let held := l.any fun m => m != n && (w.splitAt m).any fun u => u.base == s.base && !u.joinWait
        if s.joinWait && !held then w.setSplit n (some { s with joinWait := false }) else w
      | none => w) u k).rest = u.rest from this l w
  intro k
  induction k with
  | nil => intro u; rfl
  | cons n k ih =>
    intro u
    simp only [List.foldl_cons]
    rw [ih]
    split
    · split <;> rfl
    · rfl

@[simp] theorem Warp.rest_switchSplit (w : Warp) : w.switchSplit.rest = w.rest := by
  unfold Warp.switchSplit; split <;> rfl

@[simp] theorem Warp.rest_advancePc (w : Warp) (pc d) : (w.advancePc pc d).rest = w.rest := by
  unfold Warp.advancePc; split <;> rfl

@[simp] theorem Warp.rest_countIssue (w : Warp) (d) : (w.countIssue d).rest = w.rest := by
  unfold Warp.countIssue
  split
  · rfl
  · extract_lets u stands
    split
    · exact (Warp.rest_switchSplit u)
    · rfl

/-! ## Registers -/

@[simp] theorem Warp.bank_setSplit (w : Warp) (n x) : (w.setSplit n x).bank = w.bank := rfl
@[simp] theorem Warp.bank_modSplit (w : Warp) (n f) : (w.modSplit n f).bank = w.bank := rfl
@[simp] theorem Warp.bank_clearAttempt (w : Warp) : w.clearAttempt.bank = w.bank := rfl
@[simp] theorem Warp.bank_wakeUp (w : Warp) : w.wakeUp.bank = w.bank := rfl

/-- A part of a warp that its split table does not hold. -/
theorem Warp.of_rest {α : Type} (f : Warp → α) (hf : ∀ w : Warp, f w.rest = f w) {v w : Warp} (h : v.rest = w.rest) : f v = f w := by
  rw [← hf v, ← hf w, h]

theorem Warp.bank_of_rest {v w : Warp} (h : v.rest = w.rest) : v.bank = w.bank := Warp.of_rest _ (fun _ => rfl) h

@[simp] theorem Warp.bank_modFlag (w : Warp) (k f) : (w.modFlag k f).bank = w.bank := by
  unfold Warp.modFlag; split <;> rfl

@[simp] theorem Warp.bank_blockOn (w : Warp) (b t) : (w.blockOn b t).bank = w.bank := by
  unfold Warp.blockOn; split <;> rfl

@[simp] theorem Warp.bank_mergeCheck (w : Warp) (n : Nat) : (w.mergeCheck n).bank = w.bank := Warp.bank_of_rest (by simp)
@[simp] theorem Warp.bank_placeAmong (w : Warp) (l m pc b) : (w.placeAmong l m pc b).bank = w.bank :=
  Warp.bank_of_rest (by simp)
@[simp] theorem Warp.bank_place (w : Warp) (m pc b) : (w.place m pc b).bank = w.bank := Warp.bank_placeAmong ..
@[simp] theorem Warp.bank_endSplit (w : Warp) (n : Nat) : (w.endSplit n).bank = w.bank := Warp.bank_of_rest (by simp)

@[simp] theorem Warp.bank_dropLanes (w : Warp) (m : Mask) : (w.dropLanes m).bank = w.bank := by
  unfold Warp.dropLanes
  extract_lets u v
  split
  · exact Warp.bank_endSplit ..
  · rfl

@[simp] theorem Warp.bank_unwait (w : Warp) : w.unwait.bank = w.bank := Warp.bank_of_rest (by simp)
@[simp] theorem Warp.bank_switchSplit (w : Warp) : w.switchSplit.bank = w.bank := Warp.bank_of_rest (by simp)

@[simp] theorem Warp.bank_launchFlight (w : Warp) (i k rs ra) : (w.launchFlight i k rs ra).bank = w.bank := by
  unfold Warp.launchFlight
  split
  · rfl
  · dsimp only
    split
    · rfl
    · exact (Warp.bank_modFlag w _ _)

@[simp] theorem Warp.bank_advancePc (w : Warp) (pc d) : (w.advancePc pc d).bank = w.bank := Warp.bank_of_rest (by simp)

@[simp] theorem Warp.bank_settleSplits (w : Warp) (d) : (w.settleSplits d).bank = w.bank := by
  unfold Warp.settleSplits; repeat' split
  all_goals simp

@[simp] theorem Warp.bank_startCounts (w : Warp) (st pc d) : (w.startCounts st pc d).bank = w.bank := by
  unfold Warp.startCounts; split <;> rfl

@[simp] theorem Warp.bank_countIssue (w : Warp) (d) : (w.countIssue d).bank = w.bank := Warp.bank_of_rest (by simp)

@[simp] theorem Warp.bank_afterIssue (w : Warp) (st pc d) : (w.afterIssue st pc d).bank = w.bank := by
  simp [Warp.afterIssue]

/-! ## A live split -/

/-- Some split of the warp has not ended. -/
def Warp.live (w : Warp) : Prop := ∃ n s, w.splitAt n = some s

theorem Warp.live_of_isSome {w : Warp} {n : Nat} (h : (w.splitAt n).isSome) : w.live :=
  ⟨n, _, (Option.isSome_iff_exists.1 h).choose_spec⟩

theorem Warp.lt_of_splitAt {w : Warp} {n : Nat} {s : Split} (h : w.splitAt n = some s) : n < w.splits.length := by
  unfold Warp.splitAt at h
  refine Nat.lt_of_not_le fun hn => ?_
  rw [List.getElem?_eq_none hn] at h
  cases h

theorem Warp.not_finished {w : Warp} (h : w.live) : w.finished = false := by
  obtain ⟨n, s, h⟩ := h
  have hn := Warp.lt_of_splitAt h
  unfold Warp.splitAt at h
  rw [List.getElem?_eq_getElem hn] at h
  simp only [Warp.finished, List.all_eq_false, Option.isNone_iff_eq_none]
  refine ⟨_, List.getElem_mem hn, ?_⟩
  have : w.splits[n] = some s := h
  rw [this]; simp

theorem Warp.splitAt_setSplit_same {w : Warp} {n : Nat} {x} (h : n < w.splits.length) : (w.setSplit n x).splitAt n = x := by
  simp [Warp.splitAt, Warp.setSplit, h]

theorem Warp.splitAt_setSplit_other {w : Warp} {n m : Nat} {x} (h : m ≠ n) : (w.setSplit n x).splitAt m = w.splitAt m := by
  simp [Warp.splitAt, Warp.setSplit, Ne.symm h]

theorem Warp.splitAt_modSplit (w : Warp) (n m : Nat) (f) :
    (w.modSplit n f).splitAt m = if n = m then (w.splitAt m).map f else w.splitAt m := by
  simp only [Warp.splitAt, Warp.modSplit, List.getElem?_modify]
  split <;> cases w.splits[m]? with
  | none => rfl
  | some x => cases x <;> rfl

theorem Warp.live_setSplit {w : Warp} {n s t} (h : w.splitAt n = some s) : (w.setSplit n (some t)).live :=
  ⟨n, t, Warp.splitAt_setSplit_same (Warp.lt_of_splitAt h)⟩

theorem Warp.live_modSplit {w : Warp} {n f} (h : w.live) : (w.modSplit n f).live := by
  obtain ⟨m, s, h⟩ := h
  refine ⟨m, if n = m then f s else s, ?_⟩
  rw [Warp.splitAt_modSplit, h]; split <;> rfl

theorem Warp.live_mergeSplits {w : Warp} {n s q} (hn : w.splitAt n = some s) (h1 : w.splitAt q.1 = some q.2) (h2 : q.1 ≠ n) :
    (w.mergeSplits n s q).1.live := by
  have l1 := Warp.lt_of_splitAt hn
  have l2 := Warp.lt_of_splitAt h1
  unfold Warp.mergeSplits
  extract_lets lo hi low high count one u
  have hu : u.splitAt lo = some one := by
    have hne : lo ≠ hi := by simp only [lo, hi]; omega
    simp only [u]
    rw [Warp.splitAt_setSplit_other hne, Warp.splitAt_setSplit_same (by simp only [lo]; omega)]
  show Warp.live (if _ then _ else _)
  split
  · exact ⟨lo, one, hu⟩
  · exact ⟨lo, one, hu⟩

theorem Warp.live_mergeFrom {l : List Nat} {k : Nat} {w : Warp} {n : Nat} (h : w.live) : (Warp.mergeFrom l k w n).live :=
  Warp.mergeFrom_keeps (P := Warp.live)
    (fun w n h => by
      rcases w.takeTop_cases n with e | ⟨s, x, l, hs, -, -, -, e⟩ <;> rw [e]
      · exact h
      · exact Warp.live_setSplit hs)
    (fun w n m h => by
      rcases w.mergeWith_cases n m with e | ⟨s, v, hs, hv, hne, -, -, e⟩ <;> rw [e]
      · exact h
      · exact Warp.live_mergeSplits hs hv hne) l k w n h

theorem Warp.live_mergeCheck {w : Warp} {n : Nat} (h : w.live) : (w.mergeCheck n).live := Warp.live_mergeFrom h

theorem Warp.live_unwait {w : Warp} (h : w.live) : w.unwait.live := by
  unfold Warp.unwait
  generalize [0, 1, 2, 3] = l at *
  suffices ∀ (k : List Nat) (u : Warp), u.live → (List.foldl (fun w n =>
      match w.splitAt n with
      | some s =>
        let held := l.any fun m => m != n && (w.splitAt m).any fun u => u.base == s.base && !u.joinWait
        if s.joinWait && !held then w.setSplit n (some { s with joinWait := false }) else w
      | none => w) u k).live from this l w h
  intro k
  induction k with
  | nil => intro u hu; exact hu
  | cons n k ih =>
    intro u hu
    simp only [List.foldl_cons]
    apply ih
    split
    · rename_i hs
      split
      · exact Warp.live_setSplit hs
      · exact hu
    · exact hu

theorem Warp.live_switchSplit {w : Warp} (h : w.live) : w.switchSplit.live := by
  unfold Warp.switchSplit
  split
  · rename_i n _; exact Warp.live_modSplit (n := n) h
  · exact h

theorem Warp.live_clearAttempt {w : Warp} (h : w.live) : w.clearAttempt.live := h

theorem Warp.live_startCounts {w : Warp} {st pc d} (h : w.live) : (w.startCounts st pc d).live := by
  unfold Warp.startCounts
  split
  · exact h
  · exact h

theorem Warp.live_countIssue {w : Warp} {d} (h : w.live) : (w.countIssue d).live := by
  unfold Warp.countIssue
  split
  · exact h
  · extract_lets u stands
    have hu : u.live := Warp.live_modSplit h
    split
    · exact Warp.live_switchSplit hu
    · exact hu

theorem Warp.live_advancePc {w : Warp} {pc d} (h : w.live) : (w.advancePc pc d).live := by
  unfold Warp.advancePc
  split
  · exact h
  · exact Warp.live_modSplit h

theorem Warp.live_settleSplits {w : Warp} {d} (h : w.live) (ho : d.off = 0) : (w.settleSplits d).live := by
  unfold Warp.settleSplits
  rw [ho]
  split
  · split
    · exact h
    · exact Warp.live_mergeCheck h
  · rename_i hn; exact absurd rfl hn

theorem Warp.live_afterIssue {w : Warp} {st pc d} (h : w.live) (ho : d.off = 0) : (w.afterIssue st pc d).live := by
  unfold Warp.afterIssue
  have h1 := Warp.live_unwait (Warp.live_settleSplits (Warp.live_advancePc (pc := pc) (d := d) h) ho)
  exact Warp.live_countIssue (Warp.live_startCounts (Warp.live_clearAttempt h1))

theorem Warp.live_launchFlight {w : Warp} {i k rs ra} (h : w.live) : (w.launchFlight i k rs ra).live := by
  unfold Warp.launchFlight
  split
  · exact h
  · dsimp only
    split
    · exact h
    · unfold Warp.modFlag
      split <;> exact h

theorem Warp.live_blockOn {w : Warp} {b t} (h : w.live) : (w.blockOn b t).live := by
  unfold Warp.blockOn
  split <;> exact h

/-! ## Where lanes stand -/

theorem Warp.samePlaces_refl (w : Warp) : w.samePlaces w := fun _ _ _ => Iff.rfl

theorem Warp.samePlaces.trans {u v w : Warp} (h : u.samePlaces v) (k : v.samePlaces w) : u.samePlaces w :=
  fun l p b => (h l p b).trans (k l p b)

theorem Warp.samePlaces.symm {v w : Warp} (h : v.samePlaces w) : w.samePlaces v := fun l p b => (h l p b).symm

theorem Warp.samePlaces_of_splits {v w : Warp} (h : w.splits = v.splits) : w.samePlaces v := by
  intro l p b
  unfold Warp.stands Warp.splitAt
  rw [h]

/-- A lane of one split stands at a place. -/
def Split.holds (s : Split) (l : Nat) (pc : Word) (base : Nat) : Prop :=
  (s.mask.getLsbD l = true ∧ s.pc = pc ∧ s.base = base) ∨
    ∃ e ∈ s.layby, e.mask.getLsbD l = true ∧ e.pc = pc ∧ e.base = base

theorem Warp.stands_iff {w : Warp} {l pc base} : w.stands l pc base ↔ ∃ n s, w.splitAt n = some s ∧ s.holds l pc base :=
  Iff.rfl

/-- A split replaced by one that holds the same lanes at the same places. -/
theorem Warp.samePlaces_setSplit {w : Warp} {n : Nat} {s t : Split} (h : w.splitAt n = some s)
    (ht : ∀ l pc b, t.holds l pc b ↔ s.holds l pc b) : (w.setSplit n (some t)).samePlaces w := by
  intro l pc b
  rw [Warp.stands_iff, Warp.stands_iff]
  constructor
  · rintro ⟨m, u, hu, hh⟩
    by_cases hm : m = n
    · subst hm
      rw [Warp.splitAt_setSplit_same (Warp.lt_of_splitAt h)] at hu
      cases hu
      exact ⟨m, s, h, (ht ..).1 hh⟩
    · rw [Warp.splitAt_setSplit_other hm] at hu
      exact ⟨m, u, hu, hh⟩
  · rintro ⟨m, u, hu, hh⟩
    by_cases hm : m = n
    · subst hm
      rw [h] at hu
      cases hu
      exact ⟨m, t, Warp.splitAt_setSplit_same (Warp.lt_of_splitAt h), (ht ..).2 hh⟩
    · exact ⟨m, u, by rw [Warp.splitAt_setSplit_other hm]; exact hu, hh⟩

/-- A change of a split that keeps its mask, place and lay-by. -/
theorem Warp.samePlaces_modSplit {w : Warp} {n : Nat} {f : Split → Split} (hf : ∀ s l pc b, (f s).holds l pc b ↔ s.holds l pc b) :
    (w.modSplit n f).samePlaces w := by
  intro l pc b
  rw [Warp.stands_iff, Warp.stands_iff]
  constructor
  · rintro ⟨m, u, hu, hh⟩
    rw [Warp.splitAt_modSplit] at hu
    split at hu
    · obtain ⟨s, hs, rfl⟩ := Option.map_eq_some_iff.1 hu
      exact ⟨m, s, hs, (hf ..).1 hh⟩
    · exact ⟨m, u, hu, hh⟩
  · rintro ⟨m, u, hu, hh⟩
    by_cases hm : n = m
    · exact ⟨m, f u, by rw [Warp.splitAt_modSplit, if_pos hm, hu]; rfl, (hf ..).2 hh⟩
    · exact ⟨m, u, by rw [Warp.splitAt_modSplit, if_neg hm]; exact hu, hh⟩

theorem Warp.samePlaces_mergeSplits {w : Warp} {n s q} (hn : w.splitAt n = some s) (h1 : w.splitAt q.1 = some q.2)
    (h2 : q.1 ≠ n) (hp : q.2.pc = s.pc ∧ q.2.base = s.base) : (w.mergeSplits n s q).1.samePlaces w := by
  have l1 := Warp.lt_of_splitAt hn
  have l2 := Warp.lt_of_splitAt h1
  have key : ∀ (u : Warp) (lo hi : Nat) (low high : Split) (one : Split), lo ≠ hi → w.splitAt lo = some low →
      w.splitAt hi = some high → u = (w.setSplit lo (some one)).setSplit hi none →
      (∀ l pc b, one.holds l pc b ↔ low.holds l pc b ∨ high.holds l pc b) → u.samePlaces w := by
    intro u lo hi low high one hne hlo hhi hu ho l pc b
    subst hu
    rw [Warp.stands_iff, Warp.stands_iff]
    have g1 : ((w.setSplit lo (some one)).setSplit hi none).splitAt lo = some one := by
      rw [Warp.splitAt_setSplit_other hne, Warp.splitAt_setSplit_same (Warp.lt_of_splitAt hlo)]
    have g2 : ((w.setSplit lo (some one)).setSplit hi none).splitAt hi = none :=
      Warp.splitAt_setSplit_same (by
        have := Warp.lt_of_splitAt hhi
        simpa [Warp.setSplit] using this)
    have g3 : ∀ m, m ≠ lo → m ≠ hi → ((w.setSplit lo (some one)).setSplit hi none).splitAt m = w.splitAt m := by
      intro m a b
      rw [Warp.splitAt_setSplit_other b, Warp.splitAt_setSplit_other a]
    constructor
    · rintro ⟨m, v, hv, hh⟩
      by_cases a : m = lo
      · subst a
        rw [g1] at hv; cases hv
        rcases (ho ..).1 hh with k | k
        · exact ⟨_, _, hlo, k⟩
        · exact ⟨_, _, hhi, k⟩
      · by_cases c : m = hi
        · subst c; rw [g2] at hv; cases hv
        · rw [g3 m a c] at hv; exact ⟨m, v, hv, hh⟩
    · rintro ⟨m, v, hv, hh⟩
      by_cases a : m = lo
      · subst a
        rw [hlo] at hv; cases hv
        exact ⟨_, _, g1, (ho ..).2 (.inl hh)⟩
      · by_cases c : m = hi
        · subst c
          rw [hhi] at hv; cases hv
          exact ⟨_, _, g1, (ho ..).2 (.inr hh)⟩
        · exact ⟨m, v, by rw [g3 m a c]; exact hv, hh⟩
  have both : ∀ (low high : Split) (c : Nat), low.pc = high.pc → low.base = high.base → ∀ l pc b,
      ({ low with mask := low.mask ||| high.mask, layby := high.layby ++ low.layby, joinWait := false, issued := c } : Split).holds
        l pc b ↔ low.holds l pc b ∨ high.holds l pc b := by
    intro low high c e1 e2 l pc b
    simp only [Split.holds, BitVec.getLsbD_or, Bool.or_eq_true, List.mem_append]
    rw [← e1, ← e2]
    constructor
    · rintro (⟨a | a, c⟩ | ⟨e, a | a, c⟩)
      · exact .inl (.inl ⟨a, c⟩)
      · exact .inr (.inl ⟨a, c⟩)
      · exact .inr (.inr ⟨e, a, c⟩)
      · exact .inl (.inr ⟨e, a, c⟩)
    · rintro ((⟨a, c⟩ | ⟨e, a, c⟩) | (⟨a, c⟩ | ⟨e, a, c⟩))
      · exact .inl ⟨.inl a, c⟩
      · exact .inr ⟨e, .inr a, c⟩
      · exact .inl ⟨.inr a, c⟩
      · exact .inr ⟨e, .inl a, c⟩
  unfold Warp.mergeSplits
  extract_lets lo hi low high count one u
  have hne : lo ≠ hi := by simp only [lo, hi]; omega
  have hlo : w.splitAt lo = some low := by
    simp only [lo, low]
    split
    · rw [Nat.min_eq_left (by omega)]; exact hn
    · rw [Nat.min_eq_right (by omega)]; exact h1
  have hhi : w.splitAt hi = some high := by
    simp only [hi, high]
    split
    · rw [Nat.max_eq_right (by omega)]; exact h1
    · rw [Nat.max_eq_left (by omega)]; exact hn
  have hu : u.samePlaces w := by
    refine key u lo hi low high one hne hlo hhi rfl ?_
    refine both low high count ?_ ?_
    · simp only [low, high]; split
      · exact hp.1.symm
      · exact hp.1
    · simp only [low, high]; split
      · exact hp.2.symm
      · exact hp.2
  show Warp.samePlaces (if _ then _ else _) w
  split
  · exact (Warp.samePlaces_of_splits rfl).trans hu
  · exact hu

theorem Warp.samePlaces_takeTop (w : Warp) (n : Nat) : (w.takeTop n).samePlaces w := by
  rcases w.takeTop_cases n with e | ⟨s, x, r, hs, hl, h1, h2, e⟩ <;> rw [e]
  · exact w.samePlaces_refl
  · refine Warp.samePlaces_setSplit hs fun k pc b => ?_
    simp only [Split.holds, BitVec.getLsbD_or, Bool.or_eq_true, hl, List.mem_cons, exists_eq_or_imp]
    rw [h1, h2]
    constructor
    · rintro (⟨a | a, c⟩ | a)
      · exact .inl ⟨a, c⟩
      · exact .inr (.inl ⟨a, c⟩)
      · exact .inr (.inr a)
    · rintro (⟨a, c⟩ | ⟨a, c⟩ | a)
      · exact .inl ⟨.inl a, c⟩
      · exact .inl ⟨.inr a, c⟩
      · exact .inr a

theorem Warp.samePlaces_mergeFrom (l : List Nat) (k : Nat) (w : Warp) (n : Nat) : (Warp.mergeFrom l k w n).samePlaces w :=
  Warp.mergeFrom_keeps (P := fun u => u.samePlaces w)
    (fun u n h => (u.samePlaces_takeTop n).trans h)
    (fun u n m h => by
      rcases u.mergeWith_cases n m with e | ⟨s, v, hs, hv, hne, h1, h2, e⟩ <;> rw [e]
      · exact h
      · exact (Warp.samePlaces_mergeSplits hs hv hne ⟨h1, h2⟩).trans h) l k w n w.samePlaces_refl

theorem Warp.samePlaces_mergeCheck (w : Warp) (n : Nat) : (w.mergeCheck n).samePlaces w := Warp.samePlaces_mergeFrom _ _ _ _

theorem Warp.samePlaces_unwait (w : Warp) : w.unwait.samePlaces w := by
  unfold Warp.unwait
  generalize [0, 1, 2, 3] = l at *
  suffices ∀ (k : List Nat) (u : Warp), (List.foldl (fun w n =>
      match w.splitAt n with
      | some s =>
        let held := l.any fun m => m != n && (w.splitAt m).any fun u => u.base == s.base && !u.joinWait
        if s.joinWait && !held then w.setSplit n (some { s with joinWait := false }) else w
      | none => w) u k).samePlaces u from this l w
  intro k
  induction k with
  | nil => intro u; exact u.samePlaces_refl
  | cons n k ih =>
    intro u
    simp only [List.foldl_cons]
    refine (ih _).trans ?_
    split
    · rename_i hs
      split
      · exact Warp.samePlaces_setSplit hs fun _ _ _ => Iff.rfl
      · exact u.samePlaces_refl
    · exact u.samePlaces_refl

theorem Warp.samePlaces_switchSplit (w : Warp) : w.switchSplit.samePlaces w := by
  unfold Warp.switchSplit
  split
  · rename_i n _
    exact (Warp.samePlaces_of_splits rfl).trans (Warp.samePlaces_modSplit (n := n) (f := fun s => { s with issued := 0 })
      fun _ _ _ _ => Iff.rfl)
  · exact w.samePlaces_refl

theorem Warp.samePlaces_startCounts (w : Warp) (st pc d) : (w.startCounts st pc d).samePlaces w := by
  apply Warp.samePlaces_of_splits
  unfold Warp.startCounts
  split <;> rfl

theorem Warp.samePlaces_countIssue (w : Warp) (d) : (w.countIssue d).samePlaces w := by
  unfold Warp.countIssue
  split
  · exact w.samePlaces_refl
  · extract_lets u stands
    have hu : u.samePlaces w := Warp.samePlaces_modSplit fun _ _ _ _ => Iff.rfl
    split
    · exact u.samePlaces_switchSplit.trans hu
    · exact hu

theorem Warp.splits_modFlag (w : Warp) (k f) : (w.modFlag k f).splits = w.splits := by
  unfold Warp.modFlag; split <;> rfl

theorem Warp.splits_launchFlight (w : Warp) (i k rs ra) : (w.launchFlight i k rs ra).splits = w.splits := by
  unfold Warp.launchFlight
  split
  · rfl
  · dsimp only
    split
    · rfl
    · exact Warp.splits_modFlag ..

theorem Warp.splits_blockOn (w : Warp) (b t) : (w.blockOn b t).splits = w.splits := by
  unfold Warp.blockOn; split <;> rfl

/-! ## What is left of the flags, the flights, the vacant lanes and the stall -/

/-- The parts of a warp that splits do not touch: flags, its flights and their next number, and vacant lanes. -/
def Warp.marks (w : Warp) : List Nat × (List Flight × Nat) × Mask := (w.flags, (w.flights, w.nextFlight), w.vacant)

theorem Warp.marks_of_rest {v w : Warp} (h : v.rest = w.rest) : v.marks = w.marks := Warp.of_rest _ (fun _ => rfl) h
theorem Warp.stall_of_rest {v w : Warp} (h : v.rest = w.rest) : v.stall = w.stall := Warp.of_rest _ (fun _ => rfl) h

@[simp] theorem Warp.marks_clearAttempt (w : Warp) : w.clearAttempt.marks = w.marks := rfl

@[simp] theorem Warp.marks_blockOn (w : Warp) (b t) : (w.blockOn b t).marks = w.marks := by
  unfold Warp.blockOn; split <;> rfl

@[simp] theorem Warp.marks_mergeCheck (w : Warp) (n : Nat) : (w.mergeCheck n).marks = w.marks := Warp.marks_of_rest (by simp)
@[simp] theorem Warp.marks_unwait (w : Warp) : w.unwait.marks = w.marks := Warp.marks_of_rest (by simp)
@[simp] theorem Warp.marks_countIssue (w : Warp) (d) : (w.countIssue d).marks = w.marks := Warp.marks_of_rest (by simp)

@[simp] theorem Warp.marks_startCounts (w : Warp) (st pc d) : (w.startCounts st pc d).marks = w.marks := by
  unfold Warp.startCounts; split <;> rfl

theorem Warp.stall_startCounts (w : Warp) (st pc d) : (w.startCounts st pc d).stall = st + 1 := by
  unfold Warp.startCounts; split <;> rfl

theorem Warp.stall_countIssue (w : Warp) (d) : (w.countIssue d).stall = w.stall := Warp.stall_of_rest (by simp)

theorem Warp.stall_blockOn (w : Warp) (b t) : (w.blockOn b t).stall = w.stall := by
  unfold Warp.blockOn; split <;> rfl

/-- The flags after an instruction went into flight (R44). -/
theorem Warp.flags_launchFlight (w : Warp) (i k rs ra) :
    (w.launchFlight i k rs ra).flags = (if k.isSome then (w.modFlag i.ctl.setf.toNat (· + 1)).flags else w.flags) := by
  unfold Warp.launchFlight
  split
  · rfl
  · dsimp only
    split
    · rename_i hc
      simp only [Bool.and_eq_true, beq_iff_eq] at hc
      simp [Warp.modFlag, hc.1.1.1]
    · rfl

/-- What the instructions in flight set, once one more is (R110). -/
theorem Warp.raising_launchFlight (w : Warp) (i k rs ra) :
    (w.launchFlight i k rs ra).raising = w.raising ++ (if k.isSome then ra.toList else []) := by
  unfold Warp.launchFlight Warp.raising
  split
  · simp
  · dsimp only
    split
    · rename_i hc
      simp only [Bool.and_eq_true, Option.isNone_iff_eq_none] at hc
      simp [hc.2]
    · cases ra <;> simp

/-- What the instruction added to the flights, by the number that its pushed row lands with (R44, R123). -/
theorem Warp.flies_launchFlight (w : Warp) (i k rs ra) :
    w.flies (w.launchFlight i k rs ra) (w.newFlight (w.launchFlight i k rs ra)) := by
  unfold Warp.launchFlight
  split
  · simp [Warp.newFlight, Warp.flies]
  · dsimp only
    split
    · simp [Warp.newFlight, Warp.flies]
    · simp [Warp.newFlight, Warp.flies]

theorem Warp.flies_congr {v w u z : Warp} {k} (h : v.flies w k) (hv : u.flights = v.flights) (hw : z.flights = w.flights) :
    u.flies z k := by
  unfold Warp.flies at *
  split at h <;> simp_all

theorem Warp.stall_launchFlight (w : Warp) (i k rs ra) : (w.launchFlight i k rs ra).stall = w.stall := by
  unfold Warp.launchFlight
  split
  · rfl
  · dsimp only
    split
    · rfl
    · show (Warp.modFlag w _ _).stall = _
      unfold Warp.modFlag; split <;> rfl

theorem Warp.vacant_launchFlight (w : Warp) (i k rs ra) : (w.launchFlight i k rs ra).vacant = w.vacant := by
  unfold Warp.launchFlight
  split
  · rfl
  · dsimp only
    split
    · rfl
    · show (Warp.modFlag w _ _).vacant = _
      unfold Warp.modFlag; split <;> rfl

/-! ## What an issue leaves -/

/-- The warp whose splits an instruction that is done leaves, before they merge: moved on, and without the lanes it
switches off. -/
def Warp.stepped (w : Warp) (pc : Word) (d : Done) : Warp :=
  if d.off == 0 then w.advancePc pc d else (w.advancePc pc d).dropLanes d.off

theorem Warp.flights_dropLanes (w : Warp) (m : Mask) :
    (w.dropLanes m).flags = w.flags ∧ (w.dropLanes m).flights = w.flights ∧ (w.dropLanes m).nextFlight = w.nextFlight := by
  unfold Warp.dropLanes
  extract_lets u v
  split
  · have h : (v.endSplit v.cur).rest = v.rest := v.rest_endSplit v.cur
    exact ⟨(Warp.of_rest (v := v.endSplit v.cur) (w := v) Warp.flags (fun _ => rfl) h), (Warp.of_rest (v := v.endSplit v.cur) (w := v) Warp.flights (fun _ => rfl) h), (Warp.of_rest (v := v.endSplit v.cur) (w := v) Warp.nextFlight (fun _ => rfl) h)⟩
  · exact ⟨rfl, rfl, rfl⟩

theorem Warp.flags_dropLanes (w : Warp) (m : Mask) : (w.dropLanes m).flags = w.flags := (w.flights_dropLanes m).1

theorem Warp.flights_stepped (w : Warp) (pc d) :
    (w.stepped pc d).flags = w.flags ∧ (w.stepped pc d).flights = w.flights ∧ (w.stepped pc d).nextFlight = w.nextFlight := by
  have h := w.rest_advancePc pc d
  unfold Warp.stepped
  split
  · exact ⟨Warp.of_rest Warp.flags (fun _ => rfl) h, Warp.of_rest Warp.flights (fun _ => rfl) h,
      Warp.of_rest Warp.nextFlight (fun _ => rfl) h⟩
  · obtain ⟨a, b, c⟩ := (w.advancePc pc d).flights_dropLanes d.off
    exact ⟨a.trans (Warp.of_rest Warp.flags (fun _ => rfl) h), b.trans (Warp.of_rest Warp.flights (fun _ => rfl) h),
      c.trans (Warp.of_rest Warp.nextFlight (fun _ => rfl) h)⟩

theorem Warp.flags_stepped (w : Warp) (pc d) : (w.stepped pc d).flags = w.flags := (w.flights_stepped pc d).1
theorem Warp.raising_stepped (w : Warp) (pc d) : (w.stepped pc d).raising = w.raising :=
  congrArg (fun l => l.filterMap Flight.raise) (w.flights_stepped pc d).2.1

theorem Warp.settleSplits_stepped (w : Warp) (pc : Word) (d : Done) :
    ((w.advancePc pc d).settleSplits d).samePlaces (w.stepped pc d) ∧
      ((w.advancePc pc d).settleSplits d).marks = (w.stepped pc d).marks := by
  unfold Warp.settleSplits Warp.stepped
  split
  · split
    · exact ⟨Warp.samePlaces_refl _, rfl⟩
    · exact ⟨Warp.samePlaces_mergeCheck _ _, by simp⟩
  · split
    · exact ⟨Warp.samePlaces_mergeCheck _ _, by simp⟩
    · exact ⟨Warp.samePlaces_refl _, rfl⟩

theorem Warp.afterIssue_facts (w : Warp) (st : Nat) (pc : Word) (d : Done) :
    (w.afterIssue st pc d).samePlaces (w.stepped pc d) ∧ (w.afterIssue st pc d).marks = (w.stepped pc d).marks ∧
      (w.afterIssue st pc d).stall = st + 1 := by
  obtain ⟨h1, h2⟩ := w.settleSplits_stepped pc d
  refine ⟨?_, ?_, ?_⟩
  · unfold Warp.afterIssue
    refine (Warp.samePlaces_countIssue _ _).trans ((Warp.samePlaces_startCounts _ _ _ _).trans ?_)
    refine (Warp.samePlaces_of_splits (v := ((w.advancePc pc d).settleSplits d).unwait) rfl).trans ?_
    exact (Warp.samePlaces_unwait _).trans h1
  · unfold Warp.afterIssue
    simp [h2]
  · unfold Warp.afterIssue
    rw [Warp.stall_countIssue, Warp.stall_startCounts]

/-- A live split of the stepped warp stays. -/
theorem Warp.live_afterIssue_stepped {w : Warp} {st pc d} (h : (w.stepped pc d).live) : (w.afterIssue st pc d).live := by
  have hs : ((w.advancePc pc d).settleSplits d).live := by
    unfold Warp.settleSplits
    unfold Warp.stepped at h
    split
    · rename_i ho
      rw [if_pos ho] at h
      split
      · exact h
      · exact Warp.live_mergeCheck h
    · rename_i ho
      rw [if_neg ho] at h
      split
      · exact Warp.live_mergeCheck h
      · exact h
  unfold Warp.afterIssue
  exact Warp.live_countIssue (Warp.live_startCounts (Warp.live_clearAttempt (Warp.live_unwait hs)))

end Sys2Proof.Machine
end

