-- ==== Sys2Proof/Laws/Issue.lean ====
section
/-! SUPPORT. The issue of an instruction, said once: how an attempt begins, and what an instruction that is done leaves. -/

namespace Sys2Proof.Machine

/-! ## Looking up what was replaced -/

theorem find?_updWhere {α : Type} {p : α → Bool} {f : α → α} (hf : ∀ a, p a = true → p (f a) = true) (l : List α) :
    (updWhere p f l).find? p = (l.find? p).map f := by
  induction l with
  | nil => rfl
  | cons a l ih =>
    unfold updWhere at ih ⊢
    simp only [List.map_cons, List.find?_cons]
    by_cases h : p a = true
    · simp [h, hf a h]
    · simp [h, ih]

theorem State.crew?_modCrew {s : State} {r : CrewRef} {f : Crew → Crew} (hf : ∀ c, (f c).ref = c.ref) :
    (s.modCrew r f).crew? r = (s.crew? r).map f := by
  apply find?_updWhere
  intro c hc
  simp only [beq_iff_eq] at hc ⊢
  rw [hf, hc]

theorem State.warp?_modWarp (s : State) (r : WarpRef) (f : Warp → Warp) :
    (s.modWarp r f).warp? r = (s.warp? r).map f := by
  unfold State.warp? State.modWarp
  rw [State.crew?_modCrew (f := fun c => c.modWarp r.warp f) (fun _ => rfl)]
  cases s.crew? r.crew with
  | none => rfl
  | some c => simp [Crew.modWarp]

theorem Crew.modWarp_modWarp (c : Crew) (n : Nat) (w : Warp) (f : Warp → Warp) :
    (c.modWarp n f).modWarp n (fun _ => w) = c.modWarp n fun _ => w := by
  unfold Crew.modWarp
  congr 1
  exact List.modify_modify_eq f (fun _ => w) n c.warps

theorem State.modWarp_modWarp (s : State) (r : WarpRef) (w : Warp) (f : Warp → Warp) :
    (s.modWarp r f).modWarp r (fun _ => w) = s.modWarp r fun _ => w := by
  unfold State.modWarp State.modCrew updWhere
  congr 1
  simp only [List.map_map]
  apply List.map_congr_left
  intro c _
  simp only [Function.comp]
  by_cases h : (c.ref == r.crew) = true
  · have h' : ((c.modWarp r.warp f).ref == r.crew) = true := h
    rw [if_pos h, if_pos h', if_pos h]
    exact Crew.modWarp_modWarp ..
  · rw [if_neg h, if_neg h]

/-! ## How an attempt begins -/

theorem State.begin_go {s : State} {i : Instr} {x : Cx} (h : s.begin i = .go x) :
    x.s = s ∧ x.i = i ∧ s.turn = some x.ref ∧ s.crew? x.ref.crew = some x.c ∧ (s.warp? x.ref).isSome ∧
      s.launch? x.ref.crew.launch = some x.l ∧ x.pops = [] := by
  unfold State.begin at h
  split at h
  · cases h
  · rename_i r hr
    split at h
    · rename_i c w l hc hw hl
      dsimp only at h
      split at h
      · cases h
      · cases h
        exact ⟨rfl, rfl, hr, hc, by rw [hw]; rfl, hl, rfl⟩
    · cases h

/-- Everything a ready attempt says. -/
structure Cx.Ready (s : State) (i : Instr) (x : Cx) : Prop where
  state : x.s = s
  instr : x.i = i
  turn : s.turn = some x.ref
  crew : s.crew? x.ref.crew = some x.c
  warp : (s.warp? x.ref).isSome
  launch : s.launch? x.ref.crew.launch = some x.l
  live : x.w.live
  stepping : x.w.stepping = false
  active : x.act ≠ 0

theorem State.ready_elim {s : State} {i : Instr} {x : Cx} (h : s.ready i = some x) :
    x.Ready s i ∧ ∀ body, issue i s body = .next (x.finish (x.guardDrop body)) := by
  unfold State.ready at h
  split at h
  · rename_i y hy
    split at h
    · rename_i hc
      cases h
      obtain ⟨h1, h2, h3, h4, h5, h6, h7⟩ := State.begin_go hy
      unfold Cx.clear at hc
      simp only [Bool.and_eq_true, Bool.not_eq_true', bne_iff_ne, ne_eq] at hc
      obtain ⟨⟨⟨⟨⟨⟨⟨c1, c2⟩, c3⟩, c4⟩, c7⟩, c8⟩, c5⟩, c6⟩ := hc
      have e2 : (y.act == 0) = false := by simpa using c2
      have ht : y.taking = { y with pops := y.popped (transfersOf y.i) } := by
        unfold Cx.taking
        simp only [e2, Bool.false_eq_true, if_false]
      have hw : y.taking.w = y.w := by rw [ht]
      refine ⟨by rw [ht]; exact ⟨h1, h2, h3, h4, h5, h6, Warp.live_of_isSome c5, c6, c2⟩, fun body => ?_⟩
      unfold issue
      rw [hy]
      subst h2
      rw [Option.isNone_iff_eq_none] at c8
      simp only [c8]
      unfold Cx.run Cx.answer
      have e1 : y.rowCheck y.named y.act = .ok := by
        revert c1; cases y.rowCheck y.named y.act <;> simp
      have e3 : y.queueTest (transfersOf y.i) = .go := by
        revert c3; cases y.queueTest (transfersOf y.i) <;> simp
      simp only [e1, e2, e3, c4, c7, Bool.false_eq_true, if_false]
    · cases h
  · cases h

/-! ## What a done instruction leaves -/

theorem Cx.guardDrop_done {x : Cx} {body : Cx → Attempt} {e : State} {d : Done} (hb : body x = .done e d) (ho : d.off = 0) :
    x.guardDrop body = .done e d := by
  unfold Cx.guardDrop
  rw [hb]
  simp [ho]

theorem Cx.bank_issued (x : Cx) (e : State) (w : Warp) (d : Done) : (x.issued e w d).bank = w.bank := by
  unfold Cx.issued
  extract_lets u v
  have hv : v.bank = w.bank := (show v.bank = u.bank from rfl).trans (by simp [u])
  split
  · exact (Warp.bank_blockOn v _ _).trans hv
  · exact hv

/-- A live split of the stepped warp stays. -/
theorem Cx.live_issued {x : Cx} {e : State} {w : Warp} {d : Done} (h : (w.stepped x.sp.pc d).live) : (x.issued e w d).live := by
  unfold Cx.issued
  extract_lets u v
  have hv : v.live := show u.live from Warp.live_launchFlight (Warp.live_afterIssue_stepped h)
  split
  · exact Warp.live_blockOn hv
  · exact hv

/-- What the issue leaves of the warp, against the stepped warp. -/
theorem Cx.issued_issuedAs {x : Cx} {e : State} {w v : Warp} {d : Done} (hp : (w.stepped x.sp.pc d).samePlaces v)
    (hb : v.bank = w.bank) (hv : v.vacant = (w.stepped x.sp.pc d).vacant) (hf : v.flags = w.flags) (hr : v.flights = w.flights) :
    v.issuedAs x.i d.flight.isSome (x.issued e w d) (if d.flight.isSome then d.raise else none) ∧
      v.flies (x.issued e w d) (w.newFlight (x.issued e w d)) := by
  obtain ⟨a1, a2, a3⟩ := w.afterIssue_facts x.i.ctl.stall.toNat x.sp.pc d
  have m1 : (w.afterIssue x.i.ctl.stall.toNat x.sp.pc d).flags = w.flags :=
    (congrArg (·.1) a2).trans (w.flags_stepped x.sp.pc d)
  have m2 : (w.afterIssue x.i.ctl.stall.toNat x.sp.pc d).raising = w.raising :=
    (congrArg (fun m => m.2.1.1.filterMap Flight.raise) a2).trans (w.raising_stepped x.sp.pc d)
  have m4 : (w.afterIssue x.i.ctl.stall.toNat x.sp.pc d).flights = w.flights :=
    (congrArg (·.2.1.1) a2).trans (w.flights_stepped x.sp.pc d).2.1
  have m5 : (w.afterIssue x.i.ctl.stall.toNat x.sp.pc d).nextFlight = w.nextFlight :=
    (congrArg (·.2.1.2) a2).trans (w.flights_stepped x.sp.pc d).2.2
  have hg : v.raising = w.raising := congrArg (·.filterMap Flight.raise) hr
  have m3 : (w.afterIssue x.i.ctl.stall.toNat x.sp.pc d).vacant = v.vacant := (congrArg (·.2.2) a2).trans hv.symm
  have same : ∀ (p q : Warp), p.flags = q.flags → (p.modFlag x.i.ctl.setf.toNat (· + 1)).flags =
      (q.modFlag x.i.ctl.setf.toNat (· + 1)).flags := by
    intro p q hpq
    unfold Warp.modFlag
    split
    · exact hpq
    · simp [hpq]
  unfold Warp.issuedAs
  refine and_assoc.2 ⟨(Cx.bank_issued x e w d).trans hb.symm, ?_⟩
  unfold Cx.issued
  extract_lets u z
  have b1 : z.vacant = v.vacant := (Warp.vacant_launchFlight ..).trans m3
  have b2 : z.stall = x.i.ctl.stall.toNat + 1 := (Warp.stall_launchFlight ..).trans a3
  have b3 : z.flags = (if d.flight.isSome then (v.modFlag x.i.ctl.setf.toNat (· + 1)).flags else v.flags) := by
    refine (Warp.flags_launchFlight ..).trans ?_
    rw [same _ v (m1.trans hf.symm), m1, hf]
  have b4 : z.raising = v.raising ++ (if d.flight.isSome then d.raise else none).toList := by
    refine (Warp.raising_launchFlight ..).trans ?_
    rw [m2, hg]
    split <;> rfl
  have b6 : v.flies z (w.newFlight z) := by
    have h := Warp.flies_launchFlight (w.afterIssue x.i.ctl.stall.toNat x.sp.pc d) x.i d.flight (d.regs.getD (written x)) d.raise
    rw [show ∀ u, (w.afterIssue x.i.ctl.stall.toNat x.sp.pc d).newFlight u = w.newFlight u by
      intro u; unfold Warp.newFlight; rw [m5]] at h
    exact Warp.flies_congr h (hr.trans m4.symm) rfl
  have b5 : z.samePlaces v := (Warp.samePlaces_of_splits (Warp.splits_launchFlight ..)).trans (a1.trans hp)
  split
  · have k := Warp.marks_blockOn z .fence e.clock.tick
    refine ⟨⟨(congrArg (·.2.2) k).trans b1, (Warp.stall_blockOn z _ _).trans b2, (congrArg (·.1) k).trans b3,
      (congrArg (fun m => m.2.1.1.filterMap Flight.raise) k).trans b4,
      (Warp.samePlaces_of_splits (Warp.splits_blockOn z .fence e.clock.tick)).trans b5⟩, ?_⟩
    have hk : w.newFlight (z.blockOn .fence e.clock.tick) = w.newFlight z := by
      unfold Warp.newFlight; rw [show (z.blockOn .fence e.clock.tick).nextFlight = z.nextFlight from congrArg (·.2.1.2) k]
    exact Warp.flies_congr (k := w.newFlight (z.blockOn .fence e.clock.tick)) (hk ▸ b6) rfl (congrArg (·.2.1.1) k)
  · exact ⟨⟨b1, b2, b3, b4, b5⟩, b6⟩

/-! ## The queue side -/

/-- A warp apart from what blocks it: the whole of it but the block and the cycles until it is eligible again. -/
def Warp.calm (w : Warp) : Warp := { w with block := none, wake := 0 }

/-- Who a crew is and what its warps hold: queue traffic and barriers leave both. -/
def Crew.skel (c : Crew) : CrewRef × List Warp := (c.ref, c.warps.map Warp.calm)

@[simp] theorem Crew.skel_modQueue (c : Crew) (n f) : (c.modQueue n f).skel = c.skel := rfl
@[simp] theorem Crew.skel_scratchWrite (c : Crew) (o d b) : (c.scratchWrite o d b).skel = c.skel := rfl
@[simp] theorem Crew.skel_poisonScratch (c : Crew) (ws) : (c.poisonScratch ws).skel = c.skel := rfl
@[simp] theorem Crew.skel_clearShadow (c : Crew) (o n) : (c.clearShadow o n).skel = c.skel := rfl

@[simp] theorem Crew.skel_writeSlot (c : Crew) (q s w v b) : (c.writeSlot q s w v b).skel = c.skel := by
  simp only [Crew.writeSlot, Crew.skel_clearShadow, Crew.skel_poisonScratch, Crew.skel_scratchWrite]

theorem Crew.skel_map {c : Crew} {f : Warp → Warp} (hf : ∀ w, (f w).calm = w.calm) :
    ({ c with warps := c.warps.map f } : Crew).skel = c.skel := by
  unfold Crew.skel
  simp only [List.map_map]
  congr 1
  exact List.map_congr_left fun w _ => hf w

@[simp] theorem Crew.skel_wakeOnQueue (c : Crew) (p) : (c.wakeOnQueue p).skel = c.skel := by
  unfold Crew.wakeOnQueue
  refine Crew.skel_map fun w => ?_
  split
  · split <;> rfl
  · rfl

@[simp] theorem Crew.skel_syncQueue (c : Crew) (n) : (c.syncQueue n).skel = c.skel := by
  unfold Crew.syncQueue
  split
  · rfl
  · split
    · rfl
    · exact (Crew.skel_clearShadow ..).trans (Crew.skel_scratchWrite ..)

@[simp] theorem Crew.skel_deliverPending (c : Crew) (n k) : (c.deliverPending n k).skel = c.skel := by
  induction k generalizing c with
  | zero => rfl
  | succ k ih =>
    unfold Crew.deliverPending
    split
    · rfl
    · split
      · rfl
      · split
        · rfl
        · rw [ih, Crew.skel_modQueue, Crew.skel_writeSlot]

@[simp] theorem Crew.skel_settleQueue (c : Crew) (n) : (c.settleQueue n).skel = c.skel := by
  unfold Crew.settleQueue
  extract_lets d
  have hd : d.skel = c.skel := by
    simp only [d]
    split
    · split <;> simp
    · rfl
  split
  · exact hd
  · simp [hd]

@[simp] theorem Crew.skel_leaveQueue (c : Crew) (w n) : (c.leaveQueue w n).skel = c.skel := by
  unfold Crew.leaveQueue
  split
  · rfl
  · split <;> simp

@[simp] theorem Crew.skel_leaveQueues (c : Crew) (n) : (c.leaveQueues n).skel = c.skel := by
  unfold Crew.leaveQueues
  generalize List.range c.queues.length = l
  induction l generalizing c with
  | nil => rfl
  | cons k l ih => simp only [List.foldl_cons]; rw [ih]; simp

@[simp] theorem Crew.skel_takeRow (c : Crew) (n w) : (c.takeRow n w).skel = c.skel := rfl
@[simp] theorem Crew.skel_putRow (c : Crew) (n w a b d k) : (c.putRow n w a b d k).skel = c.skel := rfl

theorem Crew.skel_foldl {α : Type} {f : Crew → α → Crew} (hf : ∀ c a, (f c a).skel = c.skel) (l : List α) (c : Crew) :
    (l.foldl f c).skel = c.skel := by
  induction l generalizing c with
  | nil => rfl
  | cons a l ih => simp only [List.foldl_cons]; rw [ih, hf]

@[simp] theorem Crew.skel_transfer (c : Crew) (w ps p k) : (c.transfer w ps p k).skel = c.skel := by
  unfold Crew.transfer
  extract_lets d e
  have hd : d.skel = c.skel := Crew.skel_foldl (fun c q => Crew.skel_takeRow c q w) _ c
  have he : e.skel = d.skel := by simp only [e]; split <;> simp
  rw [Crew.skel_leaveQueues, Crew.skel_foldl fun c q => Crew.skel_settleQueue c q, he, hd]

theorem Crew.skel_warp {c d : Crew} (h : d.skel = c.skel) (n : Nat) :
    (d.warps[n]?).map Warp.calm = (c.warps[n]?).map Warp.calm := by
  have := congrArg (fun x => x.2[n]?) h
  simpa [Crew.skel] using this

theorem Warp.bank_of_calm {w v : Warp} (h : w.calm = v.calm) : w.bank = v.bank := by
  have : w.calm.bank = v.calm.bank := by rw [h]
  exact this

/-- A change of the crew that leaves its warps but for what blocks them leaves the warp so. -/
theorem State.calm_modCrew {s : State} {r : WarpRef} {f : Crew → Crew} (hf : ∀ c, (f c).skel = c.skel) :
    ((s.modCrew r.crew f).warp? r).map Warp.calm = (s.warp? r).map Warp.calm := by
  unfold State.warp?
  rw [State.crew?_modCrew fun c => congrArg (·.1) (hf c)]
  cases s.crew? r.crew with
  | none => rfl
  | some c => simpa using Crew.skel_warp (hf c) r.warp

theorem State.bank_modCrew {s : State} {r : WarpRef} {f : Crew → Crew} (hf : ∀ c, (f c).skel = c.skel) :
    ((s.modCrew r.crew f).warp? r).map Warp.bank = (s.warp? r).map Warp.bank := by
  have h := congrArg (Option.map Warp.bank) (State.calm_modCrew (s := s) (r := r) hf)
  simp only [Option.map_map] at h
  exact h

theorem State.endStep_none {s : State} {r : WarpRef} {w : Warp} (h : (s.warp? r).map Warp.bank = some w.bank)
    (hs : w.stepping = false) : s.endStep r = s := by
  unfold State.endStep
  split
  · rename_i u hu
    rw [hu] at h
    have : u.stepping = w.stepping := congrArg Bank.stepping (Option.some.inj h)
    simp [this, hs]
  · rfl

/-! ## The issue of an instruction that is done -/

@[simp] theorem State.crews_invalidate (s : State) (n : Nat) : (s.invalidate n).crews = s.crews := rfl

theorem State.warp?_of_crews {s t : State} (h : s.crews = t.crews) (r : WarpRef) : s.warp? r = t.warp? r := by
  unfold State.warp? State.crew?
  rw [h]

theorem State.warp?_popAcquires (x : Cx) (s : State) (l : List Nat) (r : WarpRef) : (x.popAcquires s l).warp? r = s.warp? r := by
  unfold Cx.popAcquires; split
  · exact State.warp?_of_crews (State.crews_invalidate ..) r
  · rfl

/-- What `commit` leaves of an instruction whose effect is `e`, with the warp as `w`, and which leaves a split live. -/
theorem Cx.commit_eq {x : Cx} {e : State} {w : Warp} {d : Done} (hw : e.warp? x.ref = some w)
    (hl : (w.stepped x.sp.pc d).live) (hs : w.stepping = false) :
    x.commit e d = x.leaves e (x.issued { e with turn := none } w d) d.pops d.push
      (w.newFlight (x.issued { e with turn := none } w d)) := by
  have hw' : ({ e with turn := none } : State).warp? x.ref = some w := hw
  have hf : (x.issued { e with turn := none } w d).finished = false := Warp.not_finished (Cx.live_issued hl)
  unfold Cx.commit
  simp only [hw', hf]
  simp only [Bool.false_eq_true, if_false]
  split
  · rfl
  · show State.endStep _ _ = _
    unfold Cx.leaves
    apply State.endStep_none (w := x.issued { e with turn := none } w d)
    · rw [State.warp?_popAcquires, State.bank_modCrew (fun c => Crew.skel_transfer ..), State.warp?_modWarp, hw']
      rfl
    · rw [show (x.issued { e with turn := none } w d).stepping = w.stepping from congrArg Bank.stepping (Cx.bank_issued ..)]
      exact hs

/-- R65 apart, what a ready instruction does whose body is done with effect `e`. -/
theorem issue_done {s : State} {i : Instr} {x : Cx} {body : Cx → Attempt} {e : State} {w : Warp} {d : Done}
    (h : s.ready i = some x) (hb : x.guardDrop body = .done e d) (hw : e.warp? x.ref = some w)
    (hl : (w.stepped x.sp.pc d).live) (hs : w.stepping = false) :
    issue i s body = .next (x.leaves e (x.issued { e with turn := none } w d) d.pops d.push
      (w.newFlight (x.issued { e with turn := none } w d))) := by
  rw [(State.ready_elim h).2, hb]
  exact congrArg _ (Cx.commit_eq hw hl hs)

theorem Warp.stepped_live {w : Warp} {pc : Word} {d : Done} (h : w.live) (ho : d.off = 0) : (w.stepped pc d).live := by
  unfold Warp.stepped
  rw [ho]
  exact Warp.live_advancePc h

/-- The state of an effect on the issuing warp alone holds that warp. -/
theorem Cx.Ready.put_warp {s : State} {i : Instr} {x : Cx} (hr : x.Ready s i) (w : Warp) :
    (x.put w).warp? x.ref = some w := by
  unfold Cx.put
  rw [hr.state, State.warp?_modWarp]
  obtain ⟨u, hu⟩ := Option.isSome_iff_exists.1 hr.warp
  rw [hu]; rfl

/-- What the issue leaves does not depend on the warp in the effect. -/
theorem Cx.leaves_modWarp (x : Cx) (e : State) (v w : Warp) (pops push k) :
    x.leaves (e.modWarp x.ref fun _ => v) w pops push k = x.leaves e w pops push k := by
  unfold Cx.leaves
  congr 2
  exact State.modWarp_modWarp { e with turn := none } x.ref _ _

theorem Cx.leaves_put {s : State} {i : Instr} {x : Cx} (hr : x.Ready s i) (v w : Warp) (pops push k) :
    x.leaves (x.put v) w pops push k = x.leaves s w pops push k := by
  unfold Cx.put
  rw [hr.state]
  exact x.leaves_modWarp s v w pops push k

/-- A ready instruction that moves its split on, with effect `e` and its warp as `w`. -/
theorem issues_of_done {s : State} {i : Instr} {x : Cx} {body : Cx → Attempt} {e : State} {w : Warp} {d : Done}
    (h : s.ready i = some x) (hi : exec i s = issue i s body) (hb : body x = .done e d) (hw : e.warp? x.ref = some w)
    (hl : w.live) (hs : w.stepping = false) (ho : d.off = 0) (hp : d.setPc = false) :
    s.issues i x e (x.next w) d.flight.isSome d.pops d.push (if d.flight.isSome then d.raise else none) := by
  have hr := (State.ready_elim h).1
  have hst : w.stepped x.sp.pc d = x.next w := by
    unfold Warp.stepped Warp.advancePc
    rw [ho, hp]
    rfl
  refine ⟨x.issued { e with turn := none } w d, w.newFlight (x.issued { e with turn := none } w d), ?_, ?_⟩
  · rw [hi]
    exact issue_done h (Cx.guardDrop_done hb ho) hw (Warp.stepped_live hl ho) hs
  · have := Cx.issued_issuedAs (x := x) (e := { e with turn := none }) (w := w) (v := x.next w) (d := d)
      (hst ▸ Warp.samePlaces_refl _) rfl (by rw [hst]) rfl rfl
    rwa [hr.instr] at this

/-- A ready instruction that moves its split on and acts on its own warp alone. -/
theorem issues_of_put {s : State} {i : Instr} {x : Cx} {body : Cx → Attempt} {w : Warp} {d : Done}
    (h : s.ready i = some x) (hi : exec i s = issue i s body) (hb : body x = .done (x.put w) d)
    (hl : w.live) (hs : w.stepping = false) (ho : d.off = 0) (hp : d.setPc = false) :
    s.issues i x s (x.next w) d.flight.isSome d.pops d.push (if d.flight.isSome then d.raise else none) := by
  have hr := (State.ready_elim h).1
  obtain ⟨u, k, h1, h2⟩ := issues_of_done h hi hb (hr.put_warp w) hl hs ho hp
  exact ⟨u, k, by rw [h1, Cx.leaves_put hr], h2⟩

/-- A ready control-flow instruction, with its splits as in `w` before they merge (R151, R165). -/
theorem issues_of_flow {s : State} {i : Instr} {x : Cx} {body : Cx → Attempt} {w : Warp} {b : Bool}
    (h : s.ready i = some x) (hi : exec i s = issue i s body) (hb : body x = x.flow w b) (hl : w.live)
    (hs : w.stepping = false) : s.issues i x s w false [] none := by
  have hr := (State.ready_elim h).1
  unfold Cx.flow at hb
  have hst : (w.mergeCheck w.cur).stepped x.sp.pc { setPc := true, stay := b, flight := none } = w.mergeCheck w.cur := rfl
  let u := x.issued { x.put (w.mergeCheck w.cur) with turn := none } (w.mergeCheck w.cur)
    { setPc := true, stay := b, flight := none }
  refine ⟨u, (w.mergeCheck w.cur).newFlight u, ?_, ?_⟩
  · rw [hi, issue_done h (Cx.guardDrop_done hb rfl) (hr.put_warp _) (by rw [hst]; exact Warp.live_mergeCheck hl)
      ((congrArg Bank.stepping (Warp.bank_mergeCheck w w.cur)).trans hs)]
    exact congrArg _ (Cx.leaves_put hr ..)
  · have m := Warp.marks_mergeCheck w w.cur
    have := Cx.issued_issuedAs (x := x) (e := { x.put (w.mergeCheck w.cur) with turn := none }) (w := w.mergeCheck w.cur)
      (v := w) (d := { setPc := true, stay := b, flight := none }) (by rw [hst]; exact Warp.samePlaces_mergeCheck _ _)
      (Warp.bank_mergeCheck ..).symm (by rw [hst]; exact (congrArg (·.2.2) m).symm) (congrArg (·.1) m).symm
      (congrArg (·.2.1.1) m).symm
    rwa [hr.instr] at this

/-! ## Effects on the crew -/

theorem Warp.issuedAs_of_calm {x : Cx} {i : Instr} {u v w : Warp} {b : Bool} {ra} (h : (x.next w).issuedAs i b u ra)
    (hc : w.calm = v.calm) : (x.next v).issuedAs i b u ra := by
  have hn : (x.next w).calm = (x.next v).calm := congrArg (fun u => (x.next u)) hc
  have part : ∀ {α : Type} (f : Warp → α), f (x.next w).calm = f (x.next v).calm := fun f => by rw [hn]
  obtain ⟨h1, h2, h3, h4, h6, h5⟩ := h
  refine ⟨h1.trans (Warp.bank_of_calm hn), h2.trans (part Warp.vacant), h3, ?_, h6.trans ?_, ?_⟩
  · rw [h4]
    split
    · have : ∀ p : Warp, (p.modFlag i.ctl.setf.toNat (· + 1)).flags = (p.calm.modFlag i.ctl.setf.toNat (· + 1)).flags := by
        intro p; unfold Warp.modFlag; split <;> rfl
      rw [this, this (x.next v), hn]
    · exact part Warp.flags
  · rw [show (x.next w).raising = (x.next v).raising from part Warp.raising]
  · exact h5.trans (Warp.samePlaces_of_splits (part Warp.splits))

theorem Warp.live_of_calm {w v : Warp} (h : w.calm = v.calm) (hv : v.live) : w.live := by
  obtain ⟨n, s, hs⟩ := hv
  have : w.calm.splitAt n = v.calm.splitAt n := by rw [h]
  exact ⟨n, s, Eq.trans this hs⟩

/-- A ready instruction whose effect leaves its warp as `w` but for what blocks it. -/
theorem issues_of_calm {s : State} {i : Instr} {x : Cx} {body : Cx → Attempt} {e : State} {w : Warp} {d : Done}
    (h : s.ready i = some x) (hi : exec i s = issue i s body) (hb : body x = .done e d)
    (hw : (e.warp? x.ref).map Warp.calm = some w.calm)
    (hl : w.live) (hs : w.stepping = false) (ho : d.off = 0) (hp : d.setPc = false) :
    s.issues i x e (x.next w) d.flight.isSome d.pops d.push (if d.flight.isSome then d.raise else none) := by
  obtain ⟨v, hv, hc⟩ := Option.map_eq_some_iff.1 hw
  obtain ⟨u, k, h1, h2, h3⟩ := issues_of_done h hi hb hv (Warp.live_of_calm hc hl)
    ((show v.calm.stepping = w.calm.stepping by rw [hc]).trans hs) ho hp
  exact ⟨u, k, h1, Warp.issuedAs_of_calm h2 hc, Warp.flies_congr h3 (congrArg Warp.flights hc).symm rfl⟩

/-- The warp after an effect on it and then on its crew, which leaves the warps but for what blocks them. -/
theorem Cx.Ready.crew_warp {s : State} {i : Instr} {x : Cx} (hr : x.Ready s i) (w : Warp) {f : Crew → Crew}
    (hf : ∀ c, (f c).skel = c.skel) : (((x.put w).modCrew x.ref.crew f).warp? x.ref).map Warp.calm = some w.calm := by
  rw [State.calm_modCrew hf, hr.put_warp]
  rfl

end Sys2Proof.Machine
end

