-- ==== Sys2Proof/Laws/Memory.lean ====
section
/-! SUPPORT. Byte stores: the canonical form, reading after writing, and what every operation on the memory keeps. -/

namespace Sys2Proof.Machine

/-! ## The canonical form -/

theorem Memory.wfFrom_mono {lo lo' : Nat} {m : List Host.Cell} (h : Memory.wfFrom lo m = true) (hl : lo' ≤ lo) :
    Memory.wfFrom lo' m = true := by
  cases m with
  | nil => rfl
  | cons c m =>
    simp only [Memory.wfFrom, Bool.and_eq_true, decide_eq_true_eq] at h ⊢
    exact ⟨⟨Nat.le_trans hl h.1.1, h.1.2⟩, h.2⟩

theorem Memory.write_wfFrom {lo a : Nat} {b : Byte} {m : List Host.Cell} (h : Memory.wfFrom lo m = true) (ha : lo ≤ a) :
    Memory.wfFrom lo (Memory.write m a b) = true := by
  induction m generalizing lo with
  | nil =>
    simp only [Memory.write]
    split
    · rfl
    · simpa [Memory.wfFrom, ha] using ‹¬b = 0›
  | cons c m ih =>
    obtain ⟨k, d⟩ := c
    have h' := h
    simp only [Memory.wfFrom, Bool.and_eq_true, decide_eq_true_eq] at h
    simp only [Memory.write]
    split
    · split
      · exact h'
      · simp only [Memory.wfFrom, Bool.and_eq_true, decide_eq_true_eq, bne_iff_ne, ne_eq]
        exact ⟨⟨ha, by assumption⟩, ⟨⟨by omega, by simpa using h.1.2⟩, h.2⟩⟩
    · split
      · subst_vars
        split
        · exact Memory.wfFrom_mono h.2 (by omega)
        · simp only [Memory.wfFrom, Bool.and_eq_true, decide_eq_true_eq, bne_iff_ne, ne_eq]
          exact ⟨⟨ha, by assumption⟩, h.2⟩
      · simp only [Memory.wfFrom, Bool.and_eq_true, decide_eq_true_eq]
        exact ⟨h.1, ih h.2 (by omega)⟩

theorem Memory.write_wf {m : List Host.Cell} {a : Nat} {b : Byte} (h : Memory.wf m = true) :
    Memory.wf (Memory.write m a b) = true := Memory.write_wfFrom h (Nat.zero_le _)

theorem Memory.writeN_wf {m : List Host.Cell} {a : Nat} {bs : List Byte} (h : Memory.wf m = true) :
    Memory.wf (Memory.writeN m a bs) = true := by
  induction bs generalizing m a with
  | nil => exact h
  | cons b bs ih => exact ih (Memory.write_wf h)

theorem Memory.wfFrom_filter {lo : Nat} {m : List Host.Cell} {p : Host.Cell → Bool} (h : Memory.wfFrom lo m = true) :
    Memory.wfFrom lo (m.filter p) = true := by
  induction m generalizing lo with
  | nil => rfl
  | cons c m ih =>
    simp only [Memory.wfFrom, Bool.and_eq_true, decide_eq_true_eq] at h
    simp only [List.filter_cons]
    split
    · simp only [Memory.wfFrom, Bool.and_eq_true, decide_eq_true_eq]
      exact ⟨h.1, ih h.2⟩
    · exact Memory.wfFrom_mono (ih h.2) (by omega)

theorem Memory.filter_wf {m : List Host.Cell} {p : Host.Cell → Bool} (h : Memory.wf m = true) :
    Memory.wf (m.filter p) = true := Memory.wfFrom_filter h

theorem Memory.foldl_write_wf {α : Type} {m : List Host.Cell} {l : List α} {f : α → Nat} {g : α → Byte}
    (h : Memory.wf m = true) : Memory.wf (l.foldl (fun m c => Memory.write m (f c) (g c)) m) = true := by
  induction l generalizing m with
  | nil => exact h
  | cons c l ih => exact ih (Memory.write_wf h)

/-! ## Reading what was written -/

theorem Memory.read_of_wfFrom {lo a : Nat} {m : List Host.Cell} (h : Memory.wfFrom lo m = true) (ha : a < lo) :
    Memory.read m a = Memory.unlisted := by
  induction m generalizing lo with
  | nil => rfl
  | cons c m ih =>
    simp only [Memory.wfFrom, Bool.and_eq_true, decide_eq_true_eq] at h
    simp only [Memory.read]
    split
    · omega
    · exact ih h.2 (by omega)

theorem Memory.read_write_same {m : List Host.Cell} {a : Nat} {b : Byte} (h : Memory.wf m = true) :
    Memory.read (Memory.write m a b) a = b := by
  suffices ∀ lo, Memory.wfFrom lo m = true → Memory.read (Memory.write m a b) a = b from this 0 h
  clear h
  induction m with
  | nil => intro lo _; simp only [Memory.write]; split <;> simp [Memory.read, Memory.unlisted, *]
  | cons c m ih =>
    intro lo h
    obtain ⟨k, d⟩ := c
    have h' := h
    simp only [Memory.wfFrom, Bool.and_eq_true, decide_eq_true_eq] at h
    simp only [Memory.write]
    split
    · split
      · rename_i hk hb
        have : Memory.read ((k, d) :: m) a = Memory.unlisted :=
          Memory.read_of_wfFrom (lo := k) (by simp [Memory.wfFrom, h.2]; simpa using h.1.2) hk
        rw [this, hb]; rfl
      · simp [Memory.read]
    · split
      · subst_vars
        split
        · rename_i hb
          rw [Memory.read_of_wfFrom h.2 (by omega), hb]; rfl
        · simp [Memory.read]
      · simp only [Memory.read]
        split
        · omega
        · exact ih _ h.2

theorem Memory.read_write_other {m : List Host.Cell} {a x : Nat} {b : Byte} (hx : x ≠ a) :
    Memory.read (Memory.write m a b) x = Memory.read m x := by
  induction m with
  | nil =>
    simp only [Memory.write]
    split
    · rfl
    · simp [Memory.read, Ne.symm hx]
  | cons c m ih =>
    obtain ⟨k, d⟩ := c
    simp only [Memory.write]
    split
    · split
      · rfl
      · simp [Memory.read, Ne.symm hx]
    · split
      · subst_vars
        split <;> simp [Memory.read, Ne.symm hx]
      · simp only [Memory.read, ih]

theorem Memory.read_writeN_other {m : List Host.Cell} {a x : Nat} {bs : List Byte} (hx : x < a ∨ a + bs.length ≤ x) :
    Memory.read (Memory.writeN m a bs) x = Memory.read m x := by
  induction bs generalizing m a with
  | nil => rfl
  | cons b bs ih =>
    simp only [List.length_cons] at hx
    simp only [Memory.writeN]
    rw [ih (by omega), Memory.read_write_other (by omega)]

theorem Memory.read_writeN_at {m : List Host.Cell} {a k : Nat} {bs : List Byte} (h : Memory.wf m = true)
    (hk : k < bs.length) : Memory.read (Memory.writeN m a bs) (a + k) = bs.getD k 0 := by
  induction bs generalizing m a k with
  | nil => simp at hk
  | cons b bs ih =>
    simp only [Memory.writeN]
    cases k with
    | zero =>
      rw [Memory.read_writeN_other (by omega), Nat.add_zero, Memory.read_write_same h]
      rfl
    | succ k =>
      have := ih (m := Memory.write m a b) (a := a + 1) (k := k) (Memory.write_wf h) (by simpa using hk)
      rw [show a + (k + 1) = a + 1 + k by omega, this]
      rfl

/-! ## What the operations on the memory keep -/

theorem State.memOk_reset : State.reset.memOk := rfl

/-- An update that leaves the memory keeps its form. -/
theorem State.memOk_of_mem {s t : State} (h : s.memOk) (ht : t.mem = s.mem) : t.memOk := by
  unfold State.memOk; rw [ht]; exact h

@[simp] theorem State.memOk_modCrew {s : State} {r f} : (s.modCrew r f).memOk = s.memOk := rfl
@[simp] theorem State.memOk_modWarp {s : State} {r f} : (s.modWarp r f).memOk = s.memOk := rfl
@[simp] theorem State.memOk_modLaunch {s : State} {r f} : (s.modLaunch r f).memOk = s.memOk := rfl
@[simp] theorem State.memOk_modContext {s : State} {r f} : (s.modContext r f).memOk = s.memOk := rfl
@[simp] theorem State.memOk_modPartition {s : State} {r f} : (s.modPartition r f).memOk = s.memOk := rfl
@[simp] theorem State.memOk_modCmdQueue {s : State} {r f} : (s.modCmdQueue r f).memOk = s.memOk := rfl
@[simp] theorem State.memOk_modCore {s : State} {r f} : (s.modCore r f).memOk = s.memOk := rfl
@[simp] theorem State.memOk_modDie {s : State} {r f} : (s.modDie r f).memOk = s.memOk := rfl

theorem State.memOk_homeWrite {s : State} {core pa data bad} (h : s.memOk) : (s.homeWrite core pa data bad).memOk := by
  have : Memory.wf (Memory.writeN s.mem pa data) = true := Memory.writeN_wf h
  cases core <;> exact this

@[simp] theorem State.mem_setPeerByte {s : State} {p c a b d} : (s.setPeerByte p c a b d).mem = s.mem := rfl

theorem State.mem_setPeerBytes {α : Type} {s : State} {l : List α} {p c : Nat} {a : α → Nat} {b : α → Byte} {d : Bool} :
    (l.foldl (fun (s : State) k => s.setPeerByte p c (a k) (b k) d) s).mem = s.mem := by
  induction l generalizing s with
  | nil => rfl
  | cons k l ih => simp [ih]

/-- R394, R396: whatever region a physical write goes to. -/
theorem State.memOk_physWrite {s : State} {ag pa data bad} (h : s.memOk) : (s.physWrite ag pa data bad).memOk := by
  unfold State.physWrite
  split
  · split
    · exact State.memOk_of_mem h State.mem_setPeerBytes
    · exact h
  · exact h
  · exact State.memOk_homeWrite h
  · exact State.memOk_homeWrite h

theorem Crew.scratch_wf {c : Crew} {o d b} (h : Memory.wf c.scratch = true) : Memory.wf (c.scratchWrite o d b).scratch = true :=
  Memory.writeN_wf h

end Sys2Proof.Machine
end

