-- ==== Sys2Proof/Laws/PerInstr.lean ====
section
/-! SUPPORT. One lemma per instruction: reading its encoded word gives the instruction back (02 R38 to R65). An event has
no word. -/

set_option linter.unusedSimpArgs false

namespace Sys2Proof.Laws.RoundTrip

/-- The fields of the word of `i` give `i`. -/
def Statement (i : Instr) : Prop := i.hasWord = true → i.wf = true → parse (encode i) = .ok i

theorem iadd (c : Ctl) (x : IntArgs) : Statement (.iadd c x) := fun _ _ => by
  have ho : (fld (x.word 0x000 c) 0 12).toNat = 0x000 := by rw [IntArgs.word, wordL_op]; rfl
  have hc : parseCtl (x.word 0x000 c) = c := by rw [IntArgs.word, wordL_ctl]
  show parse (x.word 0x000 c) = _
  unfold parse
  rw [ho, hc]
  exact congrArg (fun e => e >>= fun y => pure (Instr.iadd c y)) (parseInt_word _ _ x)

theorem isub (c : Ctl) (x : IntArgs) : Statement (.isub c x) := fun _ _ => by
  have ho : (fld (x.word 0x001 c) 0 12).toNat = 0x001 := by rw [IntArgs.word, wordL_op]; rfl
  have hc : parseCtl (x.word 0x001 c) = c := by rw [IntArgs.word, wordL_ctl]
  show parse (x.word 0x001 c) = _
  unfold parse
  rw [ho, hc]
  exact congrArg (fun e => e >>= fun y => pure (Instr.isub c y)) (parseInt_word _ _ x)

theorem imul (c : Ctl) (x : IntArgs) : Statement (.imul c x) := fun _ _ => by
  have ho : (fld (x.word 0x002 c) 0 12).toNat = 0x002 := by rw [IntArgs.word, wordL_op]; rfl
  have hc : parseCtl (x.word 0x002 c) = c := by rw [IntArgs.word, wordL_ctl]
  show parse (x.word 0x002 c) = _
  unfold parse
  rw [ho, hc]
  exact congrArg (fun e => e >>= fun y => pure (Instr.imul c y)) (parseInt_word _ _ x)

theorem imulh (c : Ctl) (x : IntArgs) : Statement (.imulh c x) := fun _ _ => by
  have ho : (fld (x.word 0x003 c) 0 12).toNat = 0x003 := by rw [IntArgs.word, wordL_op]; rfl
  have hc : parseCtl (x.word 0x003 c) = c := by rw [IntArgs.word, wordL_ctl]
  show parse (x.word 0x003 c) = _
  unfold parse
  rw [ho, hc]
  exact congrArg (fun e => e >>= fun y => pure (Instr.imulh c y)) (parseInt_word _ _ x)

theorem imad (c : Ctl) (x : IntArgs) : Statement (.imad c x) := fun _ _ => by
  have ho : (fld (x.word 0x004 c) 0 12).toNat = 0x004 := by rw [IntArgs.word, wordL_op]; rfl
  have hc : parseCtl (x.word 0x004 c) = c := by rw [IntArgs.word, wordL_ctl]
  show parse (x.word 0x004 c) = _
  unfold parse
  rw [ho, hc]
  exact congrArg (fun e => e >>= fun y => pure (Instr.imad c y)) (parseInt_word _ _ x)

theorem imin (c : Ctl) (x : IntArgs) : Statement (.imin c x) := fun _ _ => by
  have ho : (fld (x.word 0x005 c) 0 12).toNat = 0x005 := by rw [IntArgs.word, wordL_op]; rfl
  have hc : parseCtl (x.word 0x005 c) = c := by rw [IntArgs.word, wordL_ctl]
  show parse (x.word 0x005 c) = _
  unfold parse
  rw [ho, hc]
  exact congrArg (fun e => e >>= fun y => pure (Instr.imin c y)) (parseInt_word _ _ x)

theorem imax (c : Ctl) (x : IntArgs) : Statement (.imax c x) := fun _ _ => by
  have ho : (fld (x.word 0x006 c) 0 12).toNat = 0x006 := by rw [IntArgs.word, wordL_op]; rfl
  have hc : parseCtl (x.word 0x006 c) = c := by rw [IntArgs.word, wordL_ctl]
  show parse (x.word 0x006 c) = _
  unfold parse
  rw [ho, hc]
  exact congrArg (fun e => e >>= fun y => pure (Instr.imax c y)) (parseInt_word _ _ x)

theorem iabs (c : Ctl) (x : IntArgs) : Statement (.iabs c x) := fun _ _ => by
  have ho : (fld (x.word 0x007 c) 0 12).toNat = 0x007 := by rw [IntArgs.word, wordL_op]; rfl
  have hc : parseCtl (x.word 0x007 c) = c := by rw [IntArgs.word, wordL_ctl]
  show parse (x.word 0x007 c) = _
  unfold parse
  rw [ho, hc]
  exact congrArg (fun e => e >>= fun y => pure (Instr.iabs c y)) (parseInt_word _ _ x)

theorem and (c : Ctl) (x : IntArgs) : Statement (.and c x) := fun _ _ => by
  have ho : (fld (x.word 0x008 c) 0 12).toNat = 0x008 := by rw [IntArgs.word, wordL_op]; rfl
  have hc : parseCtl (x.word 0x008 c) = c := by rw [IntArgs.word, wordL_ctl]
  show parse (x.word 0x008 c) = _
  unfold parse
  rw [ho, hc]
  exact congrArg (fun e => e >>= fun y => pure (Instr.and c y)) (parseInt_word _ _ x)

theorem or (c : Ctl) (x : IntArgs) : Statement (.or c x) := fun _ _ => by
  have ho : (fld (x.word 0x009 c) 0 12).toNat = 0x009 := by rw [IntArgs.word, wordL_op]; rfl
  have hc : parseCtl (x.word 0x009 c) = c := by rw [IntArgs.word, wordL_ctl]
  show parse (x.word 0x009 c) = _
  unfold parse
  rw [ho, hc]
  exact congrArg (fun e => e >>= fun y => pure (Instr.or c y)) (parseInt_word _ _ x)

theorem xor (c : Ctl) (x : IntArgs) : Statement (.xor c x) := fun _ _ => by
  have ho : (fld (x.word 0x00A c) 0 12).toNat = 0x00A := by rw [IntArgs.word, wordL_op]; rfl
  have hc : parseCtl (x.word 0x00A c) = c := by rw [IntArgs.word, wordL_ctl]
  show parse (x.word 0x00A c) = _
  unfold parse
  rw [ho, hc]
  exact congrArg (fun e => e >>= fun y => pure (Instr.xor c y)) (parseInt_word _ _ x)

theorem andn (c : Ctl) (x : IntArgs) : Statement (.andn c x) := fun _ _ => by
  have ho : (fld (x.word 0x00B c) 0 12).toNat = 0x00B := by rw [IntArgs.word, wordL_op]; rfl
  have hc : parseCtl (x.word 0x00B c) = c := by rw [IntArgs.word, wordL_ctl]
  show parse (x.word 0x00B c) = _
  unfold parse
  rw [ho, hc]
  exact congrArg (fun e => e >>= fun y => pure (Instr.andn c y)) (parseInt_word _ _ x)

theorem shl (c : Ctl) (x : IntArgs) : Statement (.shl c x) := fun _ _ => by
  have ho : (fld (x.word 0x00C c) 0 12).toNat = 0x00C := by rw [IntArgs.word, wordL_op]; rfl
  have hc : parseCtl (x.word 0x00C c) = c := by rw [IntArgs.word, wordL_ctl]
  show parse (x.word 0x00C c) = _
  unfold parse
  rw [ho, hc]
  exact congrArg (fun e => e >>= fun y => pure (Instr.shl c y)) (parseInt_word _ _ x)

theorem shr (c : Ctl) (x : IntArgs) : Statement (.shr c x) := fun _ _ => by
  have ho : (fld (x.word 0x00D c) 0 12).toNat = 0x00D := by rw [IntArgs.word, wordL_op]; rfl
  have hc : parseCtl (x.word 0x00D c) = c := by rw [IntArgs.word, wordL_ctl]
  show parse (x.word 0x00D c) = _
  unfold parse
  rw [ho, hc]
  exact congrArg (fun e => e >>= fun y => pure (Instr.shr c y)) (parseInt_word _ _ x)

theorem sar (c : Ctl) (x : IntArgs) : Statement (.sar c x) := fun _ _ => by
  have ho : (fld (x.word 0x00E c) 0 12).toNat = 0x00E := by rw [IntArgs.word, wordL_op]; rfl
  have hc : parseCtl (x.word 0x00E c) = c := by rw [IntArgs.word, wordL_ctl]
  show parse (x.word 0x00E c) = _
  unfold parse
  rw [ho, hc]
  exact congrArg (fun e => e >>= fun y => pure (Instr.sar c y)) (parseInt_word _ _ x)

theorem rot (c : Ctl) (x : IntArgs) : Statement (.rot c x) := fun _ _ => by
  have ho : (fld (x.word 0x00F c) 0 12).toNat = 0x00F := by rw [IntArgs.word, wordL_op]; rfl
  have hc : parseCtl (x.word 0x00F c) = c := by rw [IntArgs.word, wordL_ctl]
  show parse (x.word 0x00F c) = _
  unfold parse
  rw [ho, hc]
  exact congrArg (fun e => e >>= fun y => pure (Instr.rot c y)) (parseInt_word _ _ x)

theorem popc (c : Ctl) (x : IntArgs) : Statement (.popc c x) := fun _ _ => by
  have ho : (fld (x.word 0x010 c) 0 12).toNat = 0x010 := by rw [IntArgs.word, wordL_op]; rfl
  have hc : parseCtl (x.word 0x010 c) = c := by rw [IntArgs.word, wordL_ctl]
  show parse (x.word 0x010 c) = _
  unfold parse
  rw [ho, hc]
  exact congrArg (fun e => e >>= fun y => pure (Instr.popc c y)) (parseInt_word _ _ x)

theorem clz (c : Ctl) (x : IntArgs) : Statement (.clz c x) := fun _ _ => by
  have ho : (fld (x.word 0x011 c) 0 12).toNat = 0x011 := by rw [IntArgs.word, wordL_op]; rfl
  have hc : parseCtl (x.word 0x011 c) = c := by rw [IntArgs.word, wordL_ctl]
  show parse (x.word 0x011 c) = _
  unfold parse
  rw [ho, hc]
  exact congrArg (fun e => e >>= fun y => pure (Instr.clz c y)) (parseInt_word _ _ x)

theorem bfx (c : Ctl) (x : FieldArgs) : Statement (.bfx c x) := fun _ _ => by
  have ho : (fld (x.word 0x012 c) 0 12).toNat = 0x012 := by rw [FieldArgs.word, wordL_op]; rfl
  have hc : parseCtl (x.word 0x012 c) = c := by rw [FieldArgs.word, wordL_ctl]
  show parse (x.word 0x012 c) = _
  unfold parse
  rw [ho, hc]
  exact congrArg (fun e => e >>= fun y => pure (Instr.bfx c y)) (parseField_word _ _ x)

theorem bfi (c : Ctl) (x : FieldArgs) : Statement (.bfi c x) := fun _ _ => by
  have ho : (fld (x.word 0x013 c) 0 12).toNat = 0x013 := by rw [FieldArgs.word, wordL_op]; rfl
  have hc : parseCtl (x.word 0x013 c) = c := by rw [FieldArgs.word, wordL_ctl]
  show parse (x.word 0x013 c) = _
  unfold parse
  rw [ho, hc]
  exact congrArg (fun e => e >>= fun y => pure (Instr.bfi c y)) (parseField_word _ _ x)

theorem sel (c : Ctl) (x : SelArgs) : Statement (.sel c x) := fun _ _ => by
  have ho : (fld (x.word 0x014 c) 0 12).toNat = 0x014 := by rw [SelArgs.word, wordL_op]; rfl
  have hc : parseCtl (x.word 0x014 c) = c := by rw [SelArgs.word, wordL_ctl]
  show parse (x.word 0x014 c) = _
  unfold parse
  rw [ho, hc]
  show (fun w : BitVec 96 => (do return .sel c ⟨← dst w, ← srcA w, ← src2 w, predC w⟩ : Except Reject Instr)) (x.word 0x014 c) = _
  unfold SelArgs.word
  dsimp only
  rw [src2_word]
  simp (disch := decide) only [wordL_append, tyL, dst, srcA, srcB, srcC, imm12, imm32, predC, barI, predDst, Pred.code8,
    bit_cast, fld_cast, fld_high, fld_low, bit_high, bit_low, BitVec.extractLsb'_cast, BitVec.getLsbD_cast, Nat.reduceSub,
    BitVec.extractLsb'_eq_self, opsIb, qCode, bit1_get, Spec.ofCode_code, Ty.ofCode_code, Scope.ofCode_code, Shuf.ofCode_code,
    BitVec.ofNat_eq_ofNat, BitVec.reduceGetLsb, BitVec.reduceExtractLsb', BitVec.reduceToNat,
    Pred.ofCode_code, except_bind, except_map, Bool.false_eq_true, if_true, if_false]
  rfl

theorem mov (c : Ctl) (d a : Spec) : Statement (.mov c d a) := fun _ _ => by
  have ho : (fld (wordL 0x015 c d.code a.code 0 0 0 0 0 0) 0 12).toNat = 0x015 := by rw [wordL_op]; rfl
  have hc : parseCtl (wordL 0x015 c d.code a.code 0 0 0 0 0 0) = c := by rw [wordL_ctl]
  show parse (wordL 0x015 c d.code a.code 0 0 0 0 0 0) = _
  unfold parse
  rw [ho, hc]
  show (fun w : BitVec 96 => (do return .mov c (← dst w) (← srcA w) : Except Reject Instr)) (wordL 0x015 c d.code a.code 0 0 0 0 0 0) = _
  simp (disch := decide) only [wordL_append, tyL, dst, srcA, srcB, srcC, imm12, imm32, predC, barI, predDst, Pred.code8,
    bit_cast, fld_cast, fld_high, fld_low, bit_high, bit_low, BitVec.extractLsb'_cast, BitVec.getLsbD_cast, Nat.reduceSub,
    BitVec.extractLsb'_eq_self, opsIb, qCode, bit1_get, Spec.ofCode_code, Ty.ofCode_code, Scope.ofCode_code, Shuf.ofCode_code,
    BitVec.ofNat_eq_ofNat, BitVec.reduceGetLsb, BitVec.reduceExtractLsb', BitVec.reduceToNat,
    Pred.ofCode_code, except_bind, except_map, Bool.false_eq_true, if_true, if_false]
  rfl

theorem movi (c : Ctl) (d : Spec) (imm : Word) : Statement (.movi c d imm) := fun _ _ => by
  have ho : (fld (wordI 0x016 c d.code 0 imm 0 0 0) 0 12).toNat = 0x016 := by rw [wordI_op]; rfl
  have hc : parseCtl (wordI 0x016 c d.code 0 imm 0 0 0) = c := by rw [wordI_ctl]
  show parse (wordI 0x016 c d.code 0 imm 0 0 0) = _
  unfold parse
  rw [ho, hc]
  show (fun w : BitVec 96 => (do return .movi c (← dst w) (imm32 w) : Except Reject Instr)) (wordI 0x016 c d.code 0 imm 0 0 0) = _
  simp (disch := decide) only [wordI_append, tyL, dst, srcA, srcB, srcC, imm12, imm32, predC, barI, predDst, Pred.code8,
    bit_cast, fld_cast, fld_high, fld_low, bit_high, bit_low, BitVec.extractLsb'_cast, BitVec.getLsbD_cast, Nat.reduceSub,
    BitVec.extractLsb'_eq_self, opsIb, qCode, bit1_get, Spec.ofCode_code, Ty.ofCode_code, Scope.ofCode_code, Shuf.ofCode_code,
    BitVec.ofNat_eq_ofNat, BitVec.reduceGetLsb, BitVec.reduceExtractLsb', BitVec.reduceToNat,
    Pred.ofCode_code, except_bind, except_map, Bool.false_eq_true, if_true, if_false]
  rfl

theorem icmp (c : Ctl) (x : CmpArgs) : Statement (.icmp c x) := fun _ _ => by
  have ho : (fld (x.word 0x017 c) 0 12).toNat = 0x017 := by rw [CmpArgs.word, wordL_op]; rfl
  have hc : parseCtl (x.word 0x017 c) = c := by rw [CmpArgs.word, wordL_ctl]
  show parse (x.word 0x017 c) = _
  unfold parse
  rw [ho, hc]
  exact congrArg (fun e => e >>= fun y => pure (Instr.icmp c y)) (parseCmp_word _ _ x)

theorem lea (c : Ctl) (x : LeaArgs) : Statement (.lea c x) := fun _ _ => by
  have ho : (fld (x.word 0x018 c) 0 12).toNat = 0x018 := by rw [LeaArgs.word, wordL_op]; rfl
  have hc : parseCtl (x.word 0x018 c) = c := by rw [LeaArgs.word, wordL_ctl]
  show parse (x.word 0x018 c) = _
  unfold parse
  rw [ho, hc]
  exact congrArg (fun e => e >>= fun y => pure (Instr.lea c y)) (parseLea_word _ _ x)

theorem sxt (c : Ctl) (x : UnArgs) : Statement (.sxt c x) := fun _ _ => by
  have ho : (fld (x.word 0x019 c) 0 12).toNat = 0x019 := by rw [UnArgs.word, wordL_op]; rfl
  have hc : parseCtl (x.word 0x019 c) = c := by rw [UnArgs.word, wordL_ctl]
  show parse (x.word 0x019 c) = _
  unfold parse
  rw [ho, hc]
  exact congrArg (fun e => e >>= fun y => pure (Instr.sxt c y)) (parseUn_word _ _ x)

theorem sadd (c : Ctl) (x : ScalArgs) : Statement (.sadd c x) := fun _ _ => by
  have ho : (fld (x.word 0x100 c) 0 12).toNat = 0x100 := by rw [ScalArgs.word, wordL_op]; rfl
  have hc : parseCtl (x.word 0x100 c) = c := by rw [ScalArgs.word, wordL_ctl]
  show parse (x.word 0x100 c) = _
  unfold parse
  rw [ho, hc]
  exact congrArg (fun e => e >>= fun y => pure (Instr.sadd c y)) (parseScal_word _ _ x)

theorem ssub (c : Ctl) (x : ScalArgs) : Statement (.ssub c x) := fun _ _ => by
  have ho : (fld (x.word 0x101 c) 0 12).toNat = 0x101 := by rw [ScalArgs.word, wordL_op]; rfl
  have hc : parseCtl (x.word 0x101 c) = c := by rw [ScalArgs.word, wordL_ctl]
  show parse (x.word 0x101 c) = _
  unfold parse
  rw [ho, hc]
  exact congrArg (fun e => e >>= fun y => pure (Instr.ssub c y)) (parseScal_word _ _ x)

theorem smul (c : Ctl) (x : ScalArgs) : Statement (.smul c x) := fun _ _ => by
  have ho : (fld (x.word 0x102 c) 0 12).toNat = 0x102 := by rw [ScalArgs.word, wordL_op]; rfl
  have hc : parseCtl (x.word 0x102 c) = c := by rw [ScalArgs.word, wordL_ctl]
  show parse (x.word 0x102 c) = _
  unfold parse
  rw [ho, hc]
  exact congrArg (fun e => e >>= fun y => pure (Instr.smul c y)) (parseScal_word _ _ x)

theorem sand (c : Ctl) (x : ScalArgs) : Statement (.sand c x) := fun _ _ => by
  have ho : (fld (x.word 0x103 c) 0 12).toNat = 0x103 := by rw [ScalArgs.word, wordL_op]; rfl
  have hc : parseCtl (x.word 0x103 c) = c := by rw [ScalArgs.word, wordL_ctl]
  show parse (x.word 0x103 c) = _
  unfold parse
  rw [ho, hc]
  exact congrArg (fun e => e >>= fun y => pure (Instr.sand c y)) (parseScal_word _ _ x)

theorem sor (c : Ctl) (x : ScalArgs) : Statement (.sor c x) := fun _ _ => by
  have ho : (fld (x.word 0x104 c) 0 12).toNat = 0x104 := by rw [ScalArgs.word, wordL_op]; rfl
  have hc : parseCtl (x.word 0x104 c) = c := by rw [ScalArgs.word, wordL_ctl]
  show parse (x.word 0x104 c) = _
  unfold parse
  rw [ho, hc]
  exact congrArg (fun e => e >>= fun y => pure (Instr.sor c y)) (parseScal_word _ _ x)

theorem sxor (c : Ctl) (x : ScalArgs) : Statement (.sxor c x) := fun _ _ => by
  have ho : (fld (x.word 0x105 c) 0 12).toNat = 0x105 := by rw [ScalArgs.word, wordL_op]; rfl
  have hc : parseCtl (x.word 0x105 c) = c := by rw [ScalArgs.word, wordL_ctl]
  show parse (x.word 0x105 c) = _
  unfold parse
  rw [ho, hc]
  exact congrArg (fun e => e >>= fun y => pure (Instr.sxor c y)) (parseScal_word _ _ x)

theorem sshl (c : Ctl) (x : ScalArgs) : Statement (.sshl c x) := fun _ _ => by
  have ho : (fld (x.word 0x106 c) 0 12).toNat = 0x106 := by rw [ScalArgs.word, wordL_op]; rfl
  have hc : parseCtl (x.word 0x106 c) = c := by rw [ScalArgs.word, wordL_ctl]
  show parse (x.word 0x106 c) = _
  unfold parse
  rw [ho, hc]
  exact congrArg (fun e => e >>= fun y => pure (Instr.sshl c y)) (parseScal_word _ _ x)

theorem sshr (c : Ctl) (x : ScalArgs) : Statement (.sshr c x) := fun _ _ => by
  have ho : (fld (x.word 0x107 c) 0 12).toNat = 0x107 := by rw [ScalArgs.word, wordL_op]; rfl
  have hc : parseCtl (x.word 0x107 c) = c := by rw [ScalArgs.word, wordL_ctl]
  show parse (x.word 0x107 c) = _
  unfold parse
  rw [ho, hc]
  exact congrArg (fun e => e >>= fun y => pure (Instr.sshr c y)) (parseScal_word _ _ x)

theorem smov (c : Ctl) (x : ScalArgs) : Statement (.smov c x) := fun _ _ => by
  have ho : (fld (x.word 0x108 c) 0 12).toNat = 0x108 := by rw [ScalArgs.word, wordL_op]; rfl
  have hc : parseCtl (x.word 0x108 c) = c := by rw [ScalArgs.word, wordL_ctl]
  show parse (x.word 0x108 c) = _
  unfold parse
  rw [ho, hc]
  exact congrArg (fun e => e >>= fun y => pure (Instr.smov c y)) (parseScal_word _ _ x)

theorem smovi (c : Ctl) (d : Spec) (imm : Word) : Statement (.smovi c d imm) := fun _ _ => by
  have ho : (fld (wordI 0x109 c d.code 0 imm 0 0 0) 0 12).toNat = 0x109 := by rw [wordI_op]; rfl
  have hc : parseCtl (wordI 0x109 c d.code 0 imm 0 0 0) = c := by rw [wordI_ctl]
  show parse (wordI 0x109 c d.code 0 imm 0 0 0) = _
  unfold parse
  rw [ho, hc]
  show (fun w : BitVec 96 => (do return .smovi c (← dst w) (imm32 w) : Except Reject Instr)) (wordI 0x109 c d.code 0 imm 0 0 0) = _
  simp (disch := decide) only [wordI_append, tyL, dst, srcA, srcB, srcC, imm12, imm32, predC, barI, predDst, Pred.code8,
    bit_cast, fld_cast, fld_high, fld_low, bit_high, bit_low, BitVec.extractLsb'_cast, BitVec.getLsbD_cast, Nat.reduceSub,
    BitVec.extractLsb'_eq_self, opsIb, qCode, bit1_get, Spec.ofCode_code, Ty.ofCode_code, Scope.ofCode_code, Shuf.ofCode_code,
    BitVec.ofNat_eq_ofNat, BitVec.reduceGetLsb, BitVec.reduceExtractLsb', BitVec.reduceToNat,
    Pred.ofCode_code, except_bind, except_map, Bool.false_eq_true, if_true, if_false]
  rfl

theorem scmp (c : Ctl) (x : CmpArgs) : Statement (.scmp c x) := fun _ _ => by
  have ho : (fld (x.word 0x10A c) 0 12).toNat = 0x10A := by rw [CmpArgs.word, wordL_op]; rfl
  have hc : parseCtl (x.word 0x10A c) = c := by rw [CmpArgs.word, wordL_ctl]
  show parse (x.word 0x10A c) = _
  unfold parse
  rw [ho, hc]
  exact congrArg (fun e => e >>= fun y => pure (Instr.scmp c y)) (parseCmp_word _ _ x)

theorem slea (c : Ctl) (x : LeaArgs) : Statement (.slea c x) := fun _ _ => by
  have ho : (fld (x.word 0x10B c) 0 12).toNat = 0x10B := by rw [LeaArgs.word, wordL_op]; rfl
  have hc : parseCtl (x.word 0x10B c) = c := by rw [LeaArgs.word, wordL_ctl]
  show parse (x.word 0x10B c) = _
  unfold parse
  rw [ho, hc]
  exact congrArg (fun e => e >>= fun y => pure (Instr.slea c y)) (parseLea_word _ _ x)

theorem bcast (c : Ctl) (d a : Spec) (k : Src2) : Statement (.bcast c d a k) := fun _ _ => by
  have ho : (fld (wordL 0x10C c d.code a.code k.regCode 0 0 0 (opsIb k 0) k.immCode) 0 12).toNat = 0x10C := by rw [wordL_op]; rfl
  have hc : parseCtl (wordL 0x10C c d.code a.code k.regCode 0 0 0 (opsIb k 0) k.immCode) = c := by rw [wordL_ctl]
  show parse (wordL 0x10C c d.code a.code k.regCode 0 0 0 (opsIb k 0) k.immCode) = _
  unfold parse
  rw [ho, hc]
  show (fun w : BitVec 96 => (do return .bcast c (← dst w) (← srcA w) (← src2 w) : Except Reject Instr)) (wordL 0x10C c d.code a.code k.regCode 0 0 0 (opsIb k 0) k.immCode) = _
  dsimp only
  rw [src2_word]
  simp (disch := decide) only [wordL_append, tyL, dst, srcA, srcB, srcC, imm12, imm32, predC, barI, predDst, Pred.code8,
    bit_cast, fld_cast, fld_high, fld_low, bit_high, bit_low, BitVec.extractLsb'_cast, BitVec.getLsbD_cast, Nat.reduceSub,
    BitVec.extractLsb'_eq_self, opsIb, qCode, bit1_get, Spec.ofCode_code, Ty.ofCode_code, Scope.ofCode_code, Shuf.ofCode_code,
    BitVec.ofNat_eq_ofNat, BitVec.reduceGetLsb, BitVec.reduceExtractLsb', BitVec.reduceToNat,
    Pred.ofCode_code, except_bind, except_map, Bool.false_eq_true, if_true, if_false]
  rfl

theorem rdlane (c : Ctl) (d a : Spec) (k : Src2) : Statement (.rdlane c d a k) := fun _ _ => by
  have ho : (fld (wordL 0x10D c d.code a.code k.regCode 0 0 0 (opsIb k 0) k.immCode) 0 12).toNat = 0x10D := by rw [wordL_op]; rfl
  have hc : parseCtl (wordL 0x10D c d.code a.code k.regCode 0 0 0 (opsIb k 0) k.immCode) = c := by rw [wordL_ctl]
  show parse (wordL 0x10D c d.code a.code k.regCode 0 0 0 (opsIb k 0) k.immCode) = _
  unfold parse
  rw [ho, hc]
  show (fun w : BitVec 96 => (do return .rdlane c (← dst w) (← srcA w) (← src2 w) : Except Reject Instr)) (wordL 0x10D c d.code a.code k.regCode 0 0 0 (opsIb k 0) k.immCode) = _
  dsimp only
  rw [src2_word]
  simp (disch := decide) only [wordL_append, tyL, dst, srcA, srcB, srcC, imm12, imm32, predC, barI, predDst, Pred.code8,
    bit_cast, fld_cast, fld_high, fld_low, bit_high, bit_low, BitVec.extractLsb'_cast, BitVec.getLsbD_cast, Nat.reduceSub,
    BitVec.extractLsb'_eq_self, opsIb, qCode, bit1_get, Spec.ofCode_code, Ty.ofCode_code, Scope.ofCode_code, Shuf.ofCode_code,
    BitVec.ofNat_eq_ofNat, BitVec.reduceGetLsb, BitVec.reduceExtractLsb', BitVec.reduceToNat,
    Pred.ofCode_code, except_bind, except_map, Bool.false_eq_true, if_true, if_false]
  rfl

theorem voteAny (c : Ctl) (p : BitVec 3) (q : Pred) : Statement (.voteAny c p q) := fun _ _ => by
  have ho : (fld (wordL 0x10E c (predDst p) q.code8 0 0 0 0 0 0) 0 12).toNat = 0x10E := by rw [wordL_op]; rfl
  have hc : parseCtl (wordL 0x10E c (predDst p) q.code8 0 0 0 0 0 0) = c := by rw [wordL_ctl]
  show parse (wordL 0x10E c (predDst p) q.code8 0 0 0 0 0 0) = _
  unfold parse
  rw [ho, hc]
  show (fun w : BitVec 96 => (do parseVote c w : Except Reject Instr)) (wordL 0x10E c (predDst p) q.code8 0 0 0 0 0 0) = _
  simp (disch := decide) only [wordL_append, tyL, dst, srcA, srcB, srcC, imm12, imm32, predC, barI, predDst, Pred.code8,
    bit_cast, fld_cast, fld_high, fld_low, bit_high, bit_low, BitVec.extractLsb'_cast, BitVec.getLsbD_cast, Nat.reduceSub,
    BitVec.extractLsb'_eq_self, opsIb, qCode, bit1_get, Spec.ofCode_code, Ty.ofCode_code, Scope.ofCode_code, Shuf.ofCode_code,
    BitVec.ofNat_eq_ofNat, BitVec.reduceGetLsb, BitVec.reduceExtractLsb', BitVec.reduceToNat,
    Pred.ofCode_code, except_bind, except_map, Bool.false_eq_true, if_true, if_false, parseVote]
  simp (disch := decide) only [Nat.reduceAdd, Nat.reduceSub, BitVec.extractLsb'_eq_self, bit1_get, Spec.ofCode_code,
    Ty.ofCode_code, Scope.ofCode_code, Pred.ofCode_code, BitVec.reduceExtractLsb', BitVec.reduceGetLsb, BitVec.reduceToNat,
    except_bind, except_map,
    Bool.false_eq_true, if_true, if_false]

theorem voteAll (c : Ctl) (p : BitVec 3) (q : Pred) : Statement (.voteAll c p q) := fun _ _ => by
  have ho : (fld (wordL 0x10E c (predDst p) q.code8 0 0 0 0 1 0) 0 12).toNat = 0x10E := by rw [wordL_op]; rfl
  have hc : parseCtl (wordL 0x10E c (predDst p) q.code8 0 0 0 0 1 0) = c := by rw [wordL_ctl]
  show parse (wordL 0x10E c (predDst p) q.code8 0 0 0 0 1 0) = _
  unfold parse
  rw [ho, hc]
  show (fun w : BitVec 96 => (do parseVote c w : Except Reject Instr)) (wordL 0x10E c (predDst p) q.code8 0 0 0 0 1 0) = _
  simp (disch := decide) only [wordL_append, tyL, dst, srcA, srcB, srcC, imm12, imm32, predC, barI, predDst, Pred.code8,
    bit_cast, fld_cast, fld_high, fld_low, bit_high, bit_low, BitVec.extractLsb'_cast, BitVec.getLsbD_cast, Nat.reduceSub,
    BitVec.extractLsb'_eq_self, opsIb, qCode, bit1_get, Spec.ofCode_code, Ty.ofCode_code, Scope.ofCode_code, Shuf.ofCode_code,
    BitVec.ofNat_eq_ofNat, BitVec.reduceGetLsb, BitVec.reduceExtractLsb', BitVec.reduceToNat,
    Pred.ofCode_code, except_bind, except_map, Bool.false_eq_true, if_true, if_false, parseVote]
  simp (disch := decide) only [Nat.reduceAdd, Nat.reduceSub, BitVec.extractLsb'_eq_self, bit1_get, Spec.ofCode_code,
    Ty.ofCode_code, Scope.ofCode_code, Pred.ofCode_code, BitVec.reduceExtractLsb', BitVec.reduceGetLsb, BitVec.reduceToNat,
    except_bind, except_map,
    Bool.false_eq_true, if_true, if_false]

theorem voteBallot (c : Ctl) (d : Spec) (q : Pred) : Statement (.voteBallot c d q) := fun _ _ => by
  have ho : (fld (wordL 0x10E c d.code q.code8 0 0 0 0 2 0) 0 12).toNat = 0x10E := by rw [wordL_op]; rfl
  have hc : parseCtl (wordL 0x10E c d.code q.code8 0 0 0 0 2 0) = c := by rw [wordL_ctl]
  show parse (wordL 0x10E c d.code q.code8 0 0 0 0 2 0) = _
  unfold parse
  rw [ho, hc]
  show (fun w : BitVec 96 => (do parseVote c w : Except Reject Instr)) (wordL 0x10E c d.code q.code8 0 0 0 0 2 0) = _
  simp (disch := decide) only [wordL_append, tyL, dst, srcA, srcB, srcC, imm12, imm32, predC, barI, predDst, Pred.code8,
    bit_cast, fld_cast, fld_high, fld_low, bit_high, bit_low, BitVec.extractLsb'_cast, BitVec.getLsbD_cast, Nat.reduceSub,
    BitVec.extractLsb'_eq_self, opsIb, qCode, bit1_get, Spec.ofCode_code, Ty.ofCode_code, Scope.ofCode_code, Shuf.ofCode_code,
    BitVec.ofNat_eq_ofNat, BitVec.reduceGetLsb, BitVec.reduceExtractLsb', BitVec.reduceToNat,
    Pred.ofCode_code, except_bind, except_map, Bool.false_eq_true, if_true, if_false, parseVote]
  rfl

theorem shfl (c : Ctl) (sm : Shuf) (d a : Spec) (b : Src2) : Statement (.shfl c sm d a b) := fun _ _ => by
  have ho : (fld (wordL 0x10F c d.code a.code b.regCode 0 0 0 (opsIb b ((0 : BitVec 6) ++ sm.code)) b.immCode) 0 12).toNat = 0x10F := by rw [wordL_op]; rfl
  have hc : parseCtl (wordL 0x10F c d.code a.code b.regCode 0 0 0 (opsIb b ((0 : BitVec 6) ++ sm.code)) b.immCode) = c := by rw [wordL_ctl]
  show parse (wordL 0x10F c d.code a.code b.regCode 0 0 0 (opsIb b ((0 : BitVec 6) ++ sm.code)) b.immCode) = _
  unfold parse
  rw [ho, hc]
  show (fun w : BitVec 96 => (do return .shfl c (Shuf.ofCode (fld w 56 2)) (← dst w) (← srcA w) (← src2 w) : Except Reject Instr)) (wordL 0x10F c d.code a.code b.regCode 0 0 0 (opsIb b ((0 : BitVec 6) ++ sm.code)) b.immCode) = _
  dsimp only
  rw [src2_word]
  simp (disch := decide) only [wordL_append, tyL, dst, srcA, srcB, srcC, imm12, imm32, predC, barI, predDst, Pred.code8,
    bit_cast, fld_cast, fld_high, fld_low, bit_high, bit_low, BitVec.extractLsb'_cast, BitVec.getLsbD_cast, Nat.reduceSub,
    BitVec.extractLsb'_eq_self, opsIb, qCode, bit1_get, Spec.ofCode_code, Ty.ofCode_code, Scope.ofCode_code, Shuf.ofCode_code,
    BitVec.ofNat_eq_ofNat, BitVec.reduceGetLsb, BitVec.reduceExtractLsb', BitVec.reduceToNat,
    Pred.ofCode_code, except_bind, except_map, Bool.false_eq_true, if_true, if_false]
  rfl

theorem elect (c : Ctl) (d : Spec) (ep : BitVec 3) : Statement (.elect c d ep) := fun _ _ => by
  have ho : (fld (wordL 0x110 c d.code 0 0 0 0 0 ((0 : BitVec 6) ++ ep) 0) 0 12).toNat = 0x110 := by rw [wordL_op]; rfl
  have hc : parseCtl (wordL 0x110 c d.code 0 0 0 0 0 ((0 : BitVec 6) ++ ep) 0) = c := by rw [wordL_ctl]
  show parse (wordL 0x110 c d.code 0 0 0 0 0 ((0 : BitVec 6) ++ ep) 0) = _
  unfold parse
  rw [ho, hc]
  show (fun w : BitVec 96 => (do return .elect c (← dst w) (fld w 55 3) : Except Reject Instr)) (wordL 0x110 c d.code 0 0 0 0 0 ((0 : BitVec 6) ++ ep) 0) = _
  simp (disch := decide) only [wordL_append, tyL, dst, srcA, srcB, srcC, imm12, imm32, predC, barI, predDst, Pred.code8,
    bit_cast, fld_cast, fld_high, fld_low, bit_high, bit_low, BitVec.extractLsb'_cast, BitVec.getLsbD_cast, Nat.reduceSub,
    BitVec.extractLsb'_eq_self, opsIb, qCode, bit1_get, Spec.ofCode_code, Ty.ofCode_code, Scope.ofCode_code, Shuf.ofCode_code,
    BitVec.ofNat_eq_ofNat, BitVec.reduceGetLsb, BitVec.reduceExtractLsb', BitVec.reduceToNat,
    Pred.ofCode_code, except_bind, except_map, Bool.false_eq_true, if_true, if_false]
  rfl

theorem fadd (c : Ctl) (x : FArgs) : Statement (.fadd c x) := fun _ _ => by
  have ho : (fld (x.word 0x200 c) 0 12).toNat = 0x200 := by rw [FArgs.word, wordL_op]; rfl
  have hc : parseCtl (x.word 0x200 c) = c := by rw [FArgs.word, wordL_ctl]
  show parse (x.word 0x200 c) = _
  unfold parse
  rw [ho, hc]
  exact congrArg (fun e => e >>= fun y => pure (Instr.fadd c y)) (parseF_word _ _ x)

theorem fsub (c : Ctl) (x : FArgs) : Statement (.fsub c x) := fun _ _ => by
  have ho : (fld (x.word 0x201 c) 0 12).toNat = 0x201 := by rw [FArgs.word, wordL_op]; rfl
  have hc : parseCtl (x.word 0x201 c) = c := by rw [FArgs.word, wordL_ctl]
  show parse (x.word 0x201 c) = _
  unfold parse
  rw [ho, hc]
  exact congrArg (fun e => e >>= fun y => pure (Instr.fsub c y)) (parseF_word _ _ x)

theorem fmul (c : Ctl) (x : FArgs) : Statement (.fmul c x) := fun _ _ => by
  have ho : (fld (x.word 0x202 c) 0 12).toNat = 0x202 := by rw [FArgs.word, wordL_op]; rfl
  have hc : parseCtl (x.word 0x202 c) = c := by rw [FArgs.word, wordL_ctl]
  show parse (x.word 0x202 c) = _
  unfold parse
  rw [ho, hc]
  exact congrArg (fun e => e >>= fun y => pure (Instr.fmul c y)) (parseF_word _ _ x)

theorem ffma (c : Ctl) (x : FArgs) : Statement (.ffma c x) := fun _ _ => by
  have ho : (fld (x.word 0x203 c) 0 12).toNat = 0x203 := by rw [FArgs.word, wordL_op]; rfl
  have hc : parseCtl (x.word 0x203 c) = c := by rw [FArgs.word, wordL_ctl]
  show parse (x.word 0x203 c) = _
  unfold parse
  rw [ho, hc]
  exact congrArg (fun e => e >>= fun y => pure (Instr.ffma c y)) (parseF_word _ _ x)

theorem fmin (c : Ctl) (x : FArgs) : Statement (.fmin c x) := fun _ _ => by
  have ho : (fld (x.word 0x204 c) 0 12).toNat = 0x204 := by rw [FArgs.word, wordL_op]; rfl
  have hc : parseCtl (x.word 0x204 c) = c := by rw [FArgs.word, wordL_ctl]
  show parse (x.word 0x204 c) = _
  unfold parse
  rw [ho, hc]
  exact congrArg (fun e => e >>= fun y => pure (Instr.fmin c y)) (parseF_word _ _ x)

theorem fmax (c : Ctl) (x : FArgs) : Statement (.fmax c x) := fun _ _ => by
  have ho : (fld (x.word 0x205 c) 0 12).toNat = 0x205 := by rw [FArgs.word, wordL_op]; rfl
  have hc : parseCtl (x.word 0x205 c) = c := by rw [FArgs.word, wordL_ctl]
  show parse (x.word 0x205 c) = _
  unfold parse
  rw [ho, hc]
  exact congrArg (fun e => e >>= fun y => pure (Instr.fmax c y)) (parseF_word _ _ x)

theorem fcmp (c : Ctl) (x : FcmpArgs) : Statement (.fcmp c x) := fun _ _ => by
  have ho : (fld (x.word 0x206 c) 0 12).toNat = 0x206 := by rw [FcmpArgs.word, wordL_op]; rfl
  have hc : parseCtl (x.word 0x206 c) = c := by rw [FcmpArgs.word, wordL_ctl]
  show parse (x.word 0x206 c) = _
  unfold parse
  rw [ho, hc]
  exact congrArg (fun e => e >>= fun y => pure (Instr.fcmp c y)) (parseFcmp_word _ _ x)

theorem fdiv (c : Ctl) (x : FArgs) : Statement (.fdiv c x) := fun _ _ => by
  have ho : (fld (x.word 0x207 c) 0 12).toNat = 0x207 := by rw [FArgs.word, wordL_op]; rfl
  have hc : parseCtl (x.word 0x207 c) = c := by rw [FArgs.word, wordL_ctl]
  show parse (x.word 0x207 c) = _
  unfold parse
  rw [ho, hc]
  exact congrArg (fun e => e >>= fun y => pure (Instr.fdiv c y)) (parseF_word _ _ x)

theorem fsqrt (c : Ctl) (x : FArgs) : Statement (.fsqrt c x) := fun _ _ => by
  have ho : (fld (x.word 0x208 c) 0 12).toNat = 0x208 := by rw [FArgs.word, wordL_op]; rfl
  have hc : parseCtl (x.word 0x208 c) = c := by rw [FArgs.word, wordL_ctl]
  show parse (x.word 0x208 c) = _
  unfold parse
  rw [ho, hc]
  exact congrArg (fun e => e >>= fun y => pure (Instr.fsqrt c y)) (parseF_word _ _ x)

theorem frcp (c : Ctl) (x : FArgs) : Statement (.frcp c x) := fun _ _ => by
  have ho : (fld (x.word 0x209 c) 0 12).toNat = 0x209 := by rw [FArgs.word, wordL_op]; rfl
  have hc : parseCtl (x.word 0x209 c) = c := by rw [FArgs.word, wordL_ctl]
  show parse (x.word 0x209 c) = _
  unfold parse
  rw [ho, hc]
  exact congrArg (fun e => e >>= fun y => pure (Instr.frcp c y)) (parseF_word _ _ x)

theorem frsq (c : Ctl) (x : FArgs) : Statement (.frsq c x) := fun _ _ => by
  have ho : (fld (x.word 0x20A c) 0 12).toNat = 0x20A := by rw [FArgs.word, wordL_op]; rfl
  have hc : parseCtl (x.word 0x20A c) = c := by rw [FArgs.word, wordL_ctl]
  show parse (x.word 0x20A c) = _
  unfold parse
  rw [ho, hc]
  exact congrArg (fun e => e >>= fun y => pure (Instr.frsq c y)) (parseF_word _ _ x)

theorem fexp2 (c : Ctl) (x : FArgs) : Statement (.fexp2 c x) := fun _ _ => by
  have ho : (fld (x.word 0x20B c) 0 12).toNat = 0x20B := by rw [FArgs.word, wordL_op]; rfl
  have hc : parseCtl (x.word 0x20B c) = c := by rw [FArgs.word, wordL_ctl]
  show parse (x.word 0x20B c) = _
  unfold parse
  rw [ho, hc]
  exact congrArg (fun e => e >>= fun y => pure (Instr.fexp2 c y)) (parseF_word _ _ x)

theorem flog2 (c : Ctl) (x : FArgs) : Statement (.flog2 c x) := fun _ _ => by
  have ho : (fld (x.word 0x20C c) 0 12).toNat = 0x20C := by rw [FArgs.word, wordL_op]; rfl
  have hc : parseCtl (x.word 0x20C c) = c := by rw [FArgs.word, wordL_ctl]
  show parse (x.word 0x20C c) = _
  unfold parse
  rw [ho, hc]
  exact congrArg (fun e => e >>= fun y => pure (Instr.flog2 c y)) (parseF_word _ _ x)

theorem fclass (c : Ctl) (x : FArgs) : Statement (.fclass c x) := fun _ _ => by
  have ho : (fld (x.word 0x20D c) 0 12).toNat = 0x20D := by rw [FArgs.word, wordL_op]; rfl
  have hc : parseCtl (x.word 0x20D c) = c := by rw [FArgs.word, wordL_ctl]
  show parse (x.word 0x20D c) = _
  unfold parse
  rw [ho, hc]
  exact congrArg (fun e => e >>= fun y => pure (Instr.fclass c y)) (parseF_word _ _ x)

theorem frnd (c : Ctl) (x : FArgs) : Statement (.frnd c x) := fun _ _ => by
  have ho : (fld (x.word 0x20E c) 0 12).toNat = 0x20E := by rw [FArgs.word, wordL_op]; rfl
  have hc : parseCtl (x.word 0x20E c) = c := by rw [FArgs.word, wordL_ctl]
  show parse (x.word 0x20E c) = _
  unfold parse
  rw [ho, hc]
  exact congrArg (fun e => e >>= fun y => pure (Instr.frnd c y)) (parseF_word _ _ x)

theorem hadd2 (c : Ctl) (x : FArgs) : Statement (.hadd2 c x) := fun _ _ => by
  have ho : (fld (x.word 0x20F c) 0 12).toNat = 0x20F := by rw [FArgs.word, wordL_op]; rfl
  have hc : parseCtl (x.word 0x20F c) = c := by rw [FArgs.word, wordL_ctl]
  show parse (x.word 0x20F c) = _
  unfold parse
  rw [ho, hc]
  exact congrArg (fun e => e >>= fun y => pure (Instr.hadd2 c y)) (parseF_word _ _ x)

theorem hmul2 (c : Ctl) (x : FArgs) : Statement (.hmul2 c x) := fun _ _ => by
  have ho : (fld (x.word 0x210 c) 0 12).toNat = 0x210 := by rw [FArgs.word, wordL_op]; rfl
  have hc : parseCtl (x.word 0x210 c) = c := by rw [FArgs.word, wordL_ctl]
  show parse (x.word 0x210 c) = _
  unfold parse
  rw [ho, hc]
  exact congrArg (fun e => e >>= fun y => pure (Instr.hmul2 c y)) (parseF_word _ _ x)

theorem hfma2 (c : Ctl) (x : FArgs) : Statement (.hfma2 c x) := fun _ _ => by
  have ho : (fld (x.word 0x211 c) 0 12).toNat = 0x211 := by rw [FArgs.word, wordL_op]; rfl
  have hc : parseCtl (x.word 0x211 c) = c := by rw [FArgs.word, wordL_ctl]
  show parse (x.word 0x211 c) = _
  unfold parse
  rw [ho, hc]
  exact congrArg (fun e => e >>= fun y => pure (Instr.hfma2 c y)) (parseF_word _ _ x)

theorem cvt (c : Ctl) (x : CvtArgs) : Statement (.cvt c x) := fun _ _ => by
  have ho : (fld (x.word 0x212 c) 0 12).toNat = 0x212 := by rw [CvtArgs.word, wordL_op]; rfl
  have hc : parseCtl (x.word 0x212 c) = c := by rw [CvtArgs.word, wordL_ctl]
  show parse (x.word 0x212 c) = _
  unfold parse
  rw [ho, hc]
  exact congrArg (fun e => e >>= fun y => pure (Instr.cvt c y)) (parseCvt_word _ _ x)

theorem sibmodeNear (c : Ctl) : Statement (.sibmodeNear c) := fun _ _ => by
  have ho : (fld (wordL 0x300 c 0 0 0 0 0 0 1 0) 0 12).toNat = 0x300 := by rw [wordL_op]; rfl
  have hc : parseCtl (wordL 0x300 c 0 0 0 0 0 0 1 0) = c := by rw [wordL_ctl]
  show parse (wordL 0x300 c 0 0 0 0 0 0 1 0) = _
  unfold parse
  rw [ho, hc]
  show (fun w : BitVec 96 => (do return (if w.getLsbD 55 then .sibmodeNear c else .sibmodeRand c) : Except Reject Instr)) (wordL 0x300 c 0 0 0 0 0 0 1 0) = _
  simp (disch := decide) only [wordL_append, tyL, dst, srcA, srcB, srcC, imm12, imm32, predC, barI, predDst, Pred.code8,
    bit_cast, fld_cast, fld_high, fld_low, bit_high, bit_low, BitVec.extractLsb'_cast, BitVec.getLsbD_cast, Nat.reduceSub,
    BitVec.extractLsb'_eq_self, opsIb, qCode, bit1_get, Spec.ofCode_code, Ty.ofCode_code, Scope.ofCode_code, Shuf.ofCode_code,
    BitVec.ofNat_eq_ofNat, BitVec.reduceGetLsb, BitVec.reduceExtractLsb', BitVec.reduceToNat,
    Pred.ofCode_code, except_bind, except_map, Bool.false_eq_true, if_true, if_false]
  rfl

theorem sibmodeRand (c : Ctl) : Statement (.sibmodeRand c) := fun _ _ => by
  have ho : (fld (wordL 0x300 c 0 0 0 0 0 0 0 0) 0 12).toNat = 0x300 := by rw [wordL_op]; rfl
  have hc : parseCtl (wordL 0x300 c 0 0 0 0 0 0 0 0) = c := by rw [wordL_ctl]
  show parse (wordL 0x300 c 0 0 0 0 0 0 0 0) = _
  unfold parse
  rw [ho, hc]
  show (fun w : BitVec 96 => (do return (if w.getLsbD 55 then .sibmodeNear c else .sibmodeRand c) : Except Reject Instr)) (wordL 0x300 c 0 0 0 0 0 0 0 0) = _
  simp (disch := decide) only [wordL_append, tyL, dst, srcA, srcB, srcC, imm12, imm32, predC, barI, predDst, Pred.code8,
    bit_cast, fld_cast, fld_high, fld_low, bit_high, bit_low, BitVec.extractLsb'_cast, BitVec.getLsbD_cast, Nat.reduceSub,
    BitVec.extractLsb'_eq_self, opsIb, qCode, bit1_get, Spec.ofCode_code, Ty.ofCode_code, Scope.ofCode_code, Shuf.ofCode_code,
    BitVec.ofNat_eq_ofNat, BitVec.reduceGetLsb, BitVec.reduceExtractLsb', BitVec.reduceToNat,
    Pred.ofCode_code, except_bind, except_map, Bool.false_eq_true, if_true, if_false]
  rfl

theorem digits (c : Ctl) (x : UnArgs) : Statement (.digits c x) := fun _ _ => by
  have ho : (fld (x.word 0x301 c) 0 12).toNat = 0x301 := by rw [UnArgs.word, wordL_op]; rfl
  have hc : parseCtl (x.word 0x301 c) = c := by rw [UnArgs.word, wordL_ctl]
  show parse (x.word 0x301 c) = _
  unfold parse
  rw [ho, hc]
  exact congrArg (fun e => e >>= fun y => pure (Instr.digits c y)) (parseUn_word _ _ x)

theorem smean (c : Ctl) (x : UnArgs) : Statement (.smean c x) := fun _ _ => by
  have ho : (fld (x.word 0x302 c) 0 12).toNat = 0x302 := by rw [UnArgs.word, wordL_op]; rfl
  have hc : parseCtl (x.word 0x302 c) = c := by rw [UnArgs.word, wordL_ctl]
  show parse (x.word 0x302 c) = _
  unfold parse
  rw [ho, hc]
  exact congrArg (fun e => e >>= fun y => pure (Instr.smean c y)) (parseUn_word _ _ x)

theorem sibget (c : Ctl) (d a : Spec) (k : BitVec 2) : Statement (.sibget c d a k) := fun _ _ => by
  have ho : (fld (wordL 0x303 c d.code a.code 0 0 0 0 0 ((0 : BitVec 10) ++ k)) 0 12).toNat = 0x303 := by rw [wordL_op]; rfl
  have hc : parseCtl (wordL 0x303 c d.code a.code 0 0 0 0 0 ((0 : BitVec 10) ++ k)) = c := by rw [wordL_ctl]
  show parse (wordL 0x303 c d.code a.code 0 0 0 0 0 ((0 : BitVec 10) ++ k)) = _
  unfold parse
  rw [ho, hc]
  show (fun w : BitVec 96 => (do return .sibget c (← dst w) (← srcA w) (fld w 64 2) : Except Reject Instr)) (wordL 0x303 c d.code a.code 0 0 0 0 0 ((0 : BitVec 10) ++ k)) = _
  simp (disch := decide) only [wordL_append, tyL, dst, srcA, srcB, srcC, imm12, imm32, predC, barI, predDst, Pred.code8,
    bit_cast, fld_cast, fld_high, fld_low, bit_high, bit_low, BitVec.extractLsb'_cast, BitVec.getLsbD_cast, Nat.reduceSub,
    BitVec.extractLsb'_eq_self, opsIb, qCode, bit1_get, Spec.ofCode_code, Ty.ofCode_code, Scope.ofCode_code, Shuf.ofCode_code,
    BitVec.ofNat_eq_ofNat, BitVec.reduceGetLsb, BitVec.reduceExtractLsb', BitVec.reduceToNat,
    Pred.ofCode_code, except_bind, except_map, Bool.false_eq_true, if_true, if_false]
  rfl

theorem sibagree (c : Ctl) (ty : Ty) (p : BitVec 3) (a : Spec) : Statement (.sibagree c ty p a) := fun _ _ => by
  have ho : (fld (wordL 0x304 c (predDst p) a.code 0 0 ty.code 0 0 0) 0 12).toNat = 0x304 := by rw [wordL_op]; rfl
  have hc : parseCtl (wordL 0x304 c (predDst p) a.code 0 0 ty.code 0 0 0) = c := by rw [wordL_ctl]
  show parse (wordL 0x304 c (predDst p) a.code 0 0 ty.code 0 0 0) = _
  unfold parse
  rw [ho, hc]
  show (fun w : BitVec 96 => (do return .sibagree c (← tyL w) (fld w 12 3) (← srcA w) : Except Reject Instr)) (wordL 0x304 c (predDst p) a.code 0 0 ty.code 0 0 0) = _
  simp (disch := decide) only [wordL_append, tyL, dst, srcA, srcB, srcC, imm12, imm32, predC, barI, predDst, Pred.code8,
    bit_cast, fld_cast, fld_high, fld_low, bit_high, bit_low, BitVec.extractLsb'_cast, BitVec.getLsbD_cast, Nat.reduceSub,
    BitVec.extractLsb'_eq_self, opsIb, qCode, bit1_get, Spec.ofCode_code, Ty.ofCode_code, Scope.ofCode_code, Shuf.ofCode_code,
    BitVec.ofNat_eq_ofNat, BitVec.reduceGetLsb, BitVec.reduceExtractLsb', BitVec.reduceToNat,
    Pred.ofCode_code, except_bind, except_map, Bool.false_eq_true, if_true, if_false]
  simp (disch := decide) only [Nat.reduceAdd, Nat.reduceSub, BitVec.extractLsb'_eq_self, bit1_get, Spec.ofCode_code,
    Ty.ofCode_code, Scope.ofCode_code, Pred.ofCode_code, BitVec.reduceExtractLsb', BitVec.reduceGetLsb, BitVec.reduceToNat,
    except_bind, except_map,
    Bool.false_eq_true, if_true, if_false]
  rfl

theorem nchk (c : Ctl) (ty : Ty) (p : BitVec 3) (a : Spec) (n : Src2) : Statement (.nchk c ty p a n) := fun _ _ => by
  have ho : (fld (wordL 0x305 c (predDst p) a.code n.regCode 0 ty.code 0 (opsIb n 0) n.immCode) 0 12).toNat = 0x305 := by rw [wordL_op]; rfl
  have hc : parseCtl (wordL 0x305 c (predDst p) a.code n.regCode 0 ty.code 0 (opsIb n 0) n.immCode) = c := by rw [wordL_ctl]
  show parse (wordL 0x305 c (predDst p) a.code n.regCode 0 ty.code 0 (opsIb n 0) n.immCode) = _
  unfold parse
  rw [ho, hc]
  show (fun w : BitVec 96 => (do return .nchk c (← tyL w) (fld w 12 3) (← srcA w) (← src2 w) : Except Reject Instr)) (wordL 0x305 c (predDst p) a.code n.regCode 0 ty.code 0 (opsIb n 0) n.immCode) = _
  dsimp only
  rw [src2_word]
  simp (disch := decide) only [wordL_append, tyL, dst, srcA, srcB, srcC, imm12, imm32, predC, barI, predDst, Pred.code8,
    bit_cast, fld_cast, fld_high, fld_low, bit_high, bit_low, BitVec.extractLsb'_cast, BitVec.getLsbD_cast, Nat.reduceSub,
    BitVec.extractLsb'_eq_self, opsIb, qCode, bit1_get, Spec.ofCode_code, Ty.ofCode_code, Scope.ofCode_code, Shuf.ofCode_code,
    BitVec.ofNat_eq_ofNat, BitVec.reduceGetLsb, BitVec.reduceExtractLsb', BitVec.reduceToNat,
    Pred.ofCode_code, except_bind, except_map, Bool.false_eq_true, if_true, if_false]
  simp (disch := decide) only [Nat.reduceAdd, Nat.reduceSub, BitVec.extractLsb'_eq_self, bit1_get, Spec.ofCode_code,
    Ty.ofCode_code, Scope.ofCode_code, Pred.ofCode_code, BitVec.reduceExtractLsb', BitVec.reduceGetLsb, BitVec.reduceToNat,
    except_bind, except_map,
    Bool.false_eq_true, if_true, if_false]
  rfl

theorem rand (c : Ctl) (ty : Ty) (same w64 : Bool) (d : Spec) : Statement (.rand c ty same w64 d) := fun _ _ => by
  have ho : (fld (wordL 0x306 c d.code 0 0 0 ty.code 0 ((0 : BitVec 7) ++ bit1 w64 ++ bit1 same) 0) 0 12).toNat = 0x306 := by rw [wordL_op]; rfl
  have hc : parseCtl (wordL 0x306 c d.code 0 0 0 ty.code 0 ((0 : BitVec 7) ++ bit1 w64 ++ bit1 same) 0) = c := by rw [wordL_ctl]
  show parse (wordL 0x306 c d.code 0 0 0 ty.code 0 ((0 : BitVec 7) ++ bit1 w64 ++ bit1 same) 0) = _
  unfold parse
  rw [ho, hc]
  show (fun w : BitVec 96 => (do return .rand c (← tyL w) (w.getLsbD 55) (w.getLsbD 56) (← dst w) : Except Reject Instr)) (wordL 0x306 c d.code 0 0 0 ty.code 0 ((0 : BitVec 7) ++ bit1 w64 ++ bit1 same) 0) = _
  rw [show (0 : BitVec 7) ++ bit1 w64 ++ bit1 same = BitVec.cast (show 7 + 1 + 1 = 9 from rfl) ((0 : BitVec 7) ++ bit1 w64 ++ bit1 same) from rfl]
  simp (disch := decide) only [wordL_append, tyL, dst, srcA, srcB, srcC, imm12, imm32, predC, barI, predDst, Pred.code8,
    bit_cast, fld_cast, fld_high, fld_low, bit_high, bit_low, BitVec.extractLsb'_cast, BitVec.getLsbD_cast, Nat.reduceSub,
    BitVec.extractLsb'_eq_self, opsIb, qCode, bit1_get, Spec.ofCode_code, Ty.ofCode_code, Scope.ofCode_code, Shuf.ofCode_code,
    BitVec.ofNat_eq_ofNat, BitVec.reduceGetLsb, BitVec.reduceExtractLsb', BitVec.reduceToNat,
    Pred.ofCode_code, except_bind, except_map, Bool.false_eq_true, if_true, if_false]
  rfl

theorem mdpack (c : Ctl) (x : UnArgs) : Statement (.mdpack c x) := fun _ _ => by
  have ho : (fld (x.word 0x307 c) 0 12).toNat = 0x307 := by rw [UnArgs.word, wordL_op]; rfl
  have hc : parseCtl (x.word 0x307 c) = c := by rw [UnArgs.word, wordL_ctl]
  show parse (x.word 0x307 c) = _
  unfold parse
  rw [ho, hc]
  exact congrArg (fun e => e >>= fun y => pure (Instr.mdpack c y)) (parseUn_word _ _ x)

theorem mdunpack (c : Ctl) (x : UnArgs) : Statement (.mdunpack c x) := fun _ _ => by
  have ho : (fld (x.word 0x308 c) 0 12).toNat = 0x308 := by rw [UnArgs.word, wordL_op]; rfl
  have hc : parseCtl (x.word 0x308 c) = c := by rw [UnArgs.word, wordL_ctl]
  show parse (x.word 0x308 c) = _
  unfold parse
  rw [ho, hc]
  exact congrArg (fun e => e >>= fun y => pure (Instr.mdunpack c y)) (parseUn_word _ _ x)

theorem bra (c : Ctl) (p : Pred) (off : Word) : Statement (.bra c p off) := fun _ _ => by
  have ho : (fld (wordB 0x400 c p.code8 off 0) 0 12).toNat = 0x400 := by rw [wordB_op]; rfl
  have hc : parseCtl (wordB 0x400 c p.code8 off 0) = c := by rw [wordB_ctl]
  show parse (wordB 0x400 c p.code8 off 0) = _
  unfold parse
  rw [ho, hc]
  show (fun w : BitVec 96 => (do return .bra c (Pred.ofCode (fld w 24 4)) (imm32 w) : Except Reject Instr)) (wordB 0x400 c p.code8 off 0) = _
  simp (disch := decide) only [wordB_append, tyL, dst, srcA, srcB, srcC, imm12, imm32, predC, barI, predDst, Pred.code8,
    bit_cast, fld_cast, fld_high, fld_low, bit_high, bit_low, BitVec.extractLsb'_cast, BitVec.getLsbD_cast, Nat.reduceSub,
    BitVec.extractLsb'_eq_self, opsIb, qCode, bit1_get, Spec.ofCode_code, Ty.ofCode_code, Scope.ofCode_code, Shuf.ofCode_code,
    BitVec.ofNat_eq_ofNat, BitVec.reduceGetLsb, BitVec.reduceExtractLsb', BitVec.reduceToNat,
    Pred.ofCode_code, except_bind, except_map, Bool.false_eq_true, if_true, if_false]
  simp (disch := decide) only [Nat.reduceAdd, Nat.reduceSub, BitVec.extractLsb'_eq_self, bit1_get, Spec.ofCode_code,
    Ty.ofCode_code, Scope.ofCode_code, Pred.ofCode_code, BitVec.reduceExtractLsb', BitVec.reduceGetLsb, BitVec.reduceToNat,
    except_bind, except_map,
    Bool.false_eq_true, if_true, if_false]
  rfl

theorem bru (c : Ctl) (p : Pred) (off : Word) : Statement (.bru c p off) := fun _ _ => by
  have ho : (fld (wordB 0x401 c p.code8 off 0) 0 12).toNat = 0x401 := by rw [wordB_op]; rfl
  have hc : parseCtl (wordB 0x401 c p.code8 off 0) = c := by rw [wordB_ctl]
  show parse (wordB 0x401 c p.code8 off 0) = _
  unfold parse
  rw [ho, hc]
  show (fun w : BitVec 96 => (do return .bru c (Pred.ofCode (fld w 24 4)) (imm32 w) : Except Reject Instr)) (wordB 0x401 c p.code8 off 0) = _
  simp (disch := decide) only [wordB_append, tyL, dst, srcA, srcB, srcC, imm12, imm32, predC, barI, predDst, Pred.code8,
    bit_cast, fld_cast, fld_high, fld_low, bit_high, bit_low, BitVec.extractLsb'_cast, BitVec.getLsbD_cast, Nat.reduceSub,
    BitVec.extractLsb'_eq_self, opsIb, qCode, bit1_get, Spec.ofCode_code, Ty.ofCode_code, Scope.ofCode_code, Shuf.ofCode_code,
    BitVec.ofNat_eq_ofNat, BitVec.reduceGetLsb, BitVec.reduceExtractLsb', BitVec.reduceToNat,
    Pred.ofCode_code, except_bind, except_map, Bool.false_eq_true, if_true, if_false]
  simp (disch := decide) only [Nat.reduceAdd, Nat.reduceSub, BitVec.extractLsb'_eq_self, bit1_get, Spec.ofCode_code,
    Ty.ofCode_code, Scope.ofCode_code, Pred.ofCode_code, BitVec.reduceExtractLsb', BitVec.reduceGetLsb, BitVec.reduceToNat,
    except_bind, except_map,
    Bool.false_eq_true, if_true, if_false]
  rfl

theorem brx (c : Ctl) (a : Spec) (off : Word) : Statement (.brx c a off) := fun _ _ => by
  have ho : (fld (wordB 0x402 c a.code off 0) 0 12).toNat = 0x402 := by rw [wordB_op]; rfl
  have hc : parseCtl (wordB 0x402 c a.code off 0) = c := by rw [wordB_ctl]
  show parse (wordB 0x402 c a.code off 0) = _
  unfold parse
  rw [ho, hc]
  show (fun w : BitVec 96 => (do return .brx c (← srcA w) (imm32 w) : Except Reject Instr)) (wordB 0x402 c a.code off 0) = _
  simp (disch := decide) only [wordB_append, tyL, dst, srcA, srcB, srcC, imm12, imm32, predC, barI, predDst, Pred.code8,
    bit_cast, fld_cast, fld_high, fld_low, bit_high, bit_low, BitVec.extractLsb'_cast, BitVec.getLsbD_cast, Nat.reduceSub,
    BitVec.extractLsb'_eq_self, opsIb, qCode, bit1_get, Spec.ofCode_code, Ty.ofCode_code, Scope.ofCode_code, Shuf.ofCode_code,
    BitVec.ofNat_eq_ofNat, BitVec.reduceGetLsb, BitVec.reduceExtractLsb', BitVec.reduceToNat,
    Pred.ofCode_code, except_bind, except_map, Bool.false_eq_true, if_true, if_false]
  rfl

theorem call (c : Ctl) (off : Word) (shift : BitVec 5) : Statement (.call c off shift) := fun _ _ => by
  have ho : (fld (wordB 0x403 c 0 off shift) 0 12).toNat = 0x403 := by rw [wordB_op]; rfl
  have hc : parseCtl (wordB 0x403 c 0 off shift) = c := by rw [wordB_ctl]
  show parse (wordB 0x403 c 0 off shift) = _
  unfold parse
  rw [ho, hc]
  show (fun w : BitVec 96 => (do return .call c (imm32 w) (fld w 64 5) : Except Reject Instr)) (wordB 0x403 c 0 off shift) = _
  simp (disch := decide) only [wordB_append, tyL, dst, srcA, srcB, srcC, imm12, imm32, predC, barI, predDst, Pred.code8,
    bit_cast, fld_cast, fld_high, fld_low, bit_high, bit_low, BitVec.extractLsb'_cast, BitVec.getLsbD_cast, Nat.reduceSub,
    BitVec.extractLsb'_eq_self, opsIb, qCode, bit1_get, Spec.ofCode_code, Ty.ofCode_code, Scope.ofCode_code, Shuf.ofCode_code,
    BitVec.ofNat_eq_ofNat, BitVec.reduceGetLsb, BitVec.reduceExtractLsb', BitVec.reduceToNat,
    Pred.ofCode_code, except_bind, except_map, Bool.false_eq_true, if_true, if_false]
  rfl

theorem callx (c : Ctl) (a : Spec) (off : Word) (shift : BitVec 5) : Statement (.callx c a off shift) := fun _ _ => by
  have ho : (fld (wordB 0x404 c a.code off shift) 0 12).toNat = 0x404 := by rw [wordB_op]; rfl
  have hc : parseCtl (wordB 0x404 c a.code off shift) = c := by rw [wordB_ctl]
  show parse (wordB 0x404 c a.code off shift) = _
  unfold parse
  rw [ho, hc]
  show (fun w : BitVec 96 => (do return .callx c (← srcA w) (imm32 w) (fld w 64 5) : Except Reject Instr)) (wordB 0x404 c a.code off shift) = _
  simp (disch := decide) only [wordB_append, tyL, dst, srcA, srcB, srcC, imm12, imm32, predC, barI, predDst, Pred.code8,
    bit_cast, fld_cast, fld_high, fld_low, bit_high, bit_low, BitVec.extractLsb'_cast, BitVec.getLsbD_cast, Nat.reduceSub,
    BitVec.extractLsb'_eq_self, opsIb, qCode, bit1_get, Spec.ofCode_code, Ty.ofCode_code, Scope.ofCode_code, Shuf.ofCode_code,
    BitVec.ofNat_eq_ofNat, BitVec.reduceGetLsb, BitVec.reduceExtractLsb', BitVec.reduceToNat,
    Pred.ofCode_code, except_bind, except_map, Bool.false_eq_true, if_true, if_false]
  rfl

theorem ret (c : Ctl) : Statement (.ret c) := fun _ _ => by
  have ho : (fld (wordB 0x405 c 0 0 0) 0 12).toNat = 0x405 := by rw [wordB_op]; rfl
  have hc : parseCtl (wordB 0x405 c 0 0 0) = c := by rw [wordB_ctl]
  show parse (wordB 0x405 c 0 0 0) = _
  unfold parse
  rw [ho, hc]
  show (fun w : BitVec 96 => (do return .ret c : Except Reject Instr)) (wordB 0x405 c 0 0 0) = _
  simp (disch := decide) only [wordB_append, tyL, dst, srcA, srcB, srcC, imm12, imm32, predC, barI, predDst, Pred.code8,
    bit_cast, fld_cast, fld_high, fld_low, bit_high, bit_low, BitVec.extractLsb'_cast, BitVec.getLsbD_cast, Nat.reduceSub,
    BitVec.extractLsb'_eq_self, opsIb, qCode, bit1_get, Spec.ofCode_code, Ty.ofCode_code, Scope.ofCode_code, Shuf.ofCode_code,
    BitVec.ofNat_eq_ofNat, BitVec.reduceGetLsb, BitVec.reduceExtractLsb', BitVec.reduceToNat,
    Pred.ofCode_code, except_bind, except_map, Bool.false_eq_true, if_true, if_false]
  rfl

theorem exit (c : Ctl) : Statement (.exit c) := fun _ _ => by
  have ho : (fld (wordB 0x406 c 0 0 0) 0 12).toNat = 0x406 := by rw [wordB_op]; rfl
  have hc : parseCtl (wordB 0x406 c 0 0 0) = c := by rw [wordB_ctl]
  show parse (wordB 0x406 c 0 0 0) = _
  unfold parse
  rw [ho, hc]
  show (fun w : BitVec 96 => (do return .exit c : Except Reject Instr)) (wordB 0x406 c 0 0 0) = _
  simp (disch := decide) only [wordB_append, tyL, dst, srcA, srcB, srcC, imm12, imm32, predC, barI, predDst, Pred.code8,
    bit_cast, fld_cast, fld_high, fld_low, bit_high, bit_low, BitVec.extractLsb'_cast, BitVec.getLsbD_cast, Nat.reduceSub,
    BitVec.extractLsb'_eq_self, opsIb, qCode, bit1_get, Spec.ofCode_code, Ty.ofCode_code, Scope.ofCode_code, Shuf.ofCode_code,
    BitVec.ofNat_eq_ofNat, BitVec.reduceGetLsb, BitVec.reduceExtractLsb', BitVec.reduceToNat,
    Pred.ofCode_code, except_bind, except_map, Bool.false_eq_true, if_true, if_false]
  rfl

theorem join (c : Ctl) : Statement (.join c) := fun _ _ => by
  have ho : (fld (wordB 0x407 c 0 0 0) 0 12).toNat = 0x407 := by rw [wordB_op]; rfl
  have hc : parseCtl (wordB 0x407 c 0 0 0) = c := by rw [wordB_ctl]
  show parse (wordB 0x407 c 0 0 0) = _
  unfold parse
  rw [ho, hc]
  show (fun w : BitVec 96 => (do return .join c : Except Reject Instr)) (wordB 0x407 c 0 0 0) = _
  simp (disch := decide) only [wordB_append, tyL, dst, srcA, srcB, srcC, imm12, imm32, predC, barI, predDst, Pred.code8,
    bit_cast, fld_cast, fld_high, fld_low, bit_high, bit_low, BitVec.extractLsb'_cast, BitVec.getLsbD_cast, Nat.reduceSub,
    BitVec.extractLsb'_eq_self, opsIb, qCode, bit1_get, Spec.ofCode_code, Ty.ofCode_code, Scope.ofCode_code, Shuf.ofCode_code,
    BitVec.ofNat_eq_ofNat, BitVec.reduceGetLsb, BitVec.reduceExtractLsb', BitVec.reduceToNat,
    Pred.ofCode_code, except_bind, except_map, Bool.false_eq_true, if_true, if_false]
  rfl

theorem yield (c : Ctl) : Statement (.yield c) := fun _ _ => by
  have ho : (fld (wordB 0x408 c 0 0 0) 0 12).toNat = 0x408 := by rw [wordB_op]; rfl
  have hc : parseCtl (wordB 0x408 c 0 0 0) = c := by rw [wordB_ctl]
  show parse (wordB 0x408 c 0 0 0) = _
  unfold parse
  rw [ho, hc]
  show (fun w : BitVec 96 => (do return .yield c : Except Reject Instr)) (wordB 0x408 c 0 0 0) = _
  simp (disch := decide) only [wordB_append, tyL, dst, srcA, srcB, srcC, imm12, imm32, predC, barI, predDst, Pred.code8,
    bit_cast, fld_cast, fld_high, fld_low, bit_high, bit_low, BitVec.extractLsb'_cast, BitVec.getLsbD_cast, Nat.reduceSub,
    BitVec.extractLsb'_eq_self, opsIb, qCode, bit1_get, Spec.ofCode_code, Ty.ofCode_code, Scope.ofCode_code, Shuf.ofCode_code,
    BitVec.ofNat_eq_ofNat, BitVec.reduceGetLsb, BitVec.reduceExtractLsb', BitVec.reduceToNat,
    Pred.ofCode_code, except_bind, except_map, Bool.false_eq_true, if_true, if_false]
  rfl

theorem nop (c : Ctl) : Statement (.nop c) := fun _ _ => by
  have ho : (fld (wordB 0x409 c 0 0 0) 0 12).toNat = 0x409 := by rw [wordB_op]; rfl
  have hc : parseCtl (wordB 0x409 c 0 0 0) = c := by rw [wordB_ctl]
  show parse (wordB 0x409 c 0 0 0) = _
  unfold parse
  rw [ho, hc]
  show (fun w : BitVec 96 => (do return .nop c : Except Reject Instr)) (wordB 0x409 c 0 0 0) = _
  simp (disch := decide) only [wordB_append, tyL, dst, srcA, srcB, srcC, imm12, imm32, predC, barI, predDst, Pred.code8,
    bit_cast, fld_cast, fld_high, fld_low, bit_high, bit_low, BitVec.extractLsb'_cast, BitVec.getLsbD_cast, Nat.reduceSub,
    BitVec.extractLsb'_eq_self, opsIb, qCode, bit1_get, Spec.ofCode_code, Ty.ofCode_code, Scope.ofCode_code, Shuf.ofCode_code,
    BitVec.ofNat_eq_ofNat, BitVec.reduceGetLsb, BitVec.reduceExtractLsb', BitVec.reduceToNat,
    Pred.ofCode_code, except_bind, except_map, Bool.false_eq_true, if_true, if_false]
  rfl

theorem rclaim (c : Ctl) (n : Word) : Statement (.rclaim c n) := fun _ _ => by
  have ho : (fld (wordI 0x500 c 0 0 n 0 0 0) 0 12).toNat = 0x500 := by rw [wordI_op]; rfl
  have hc : parseCtl (wordI 0x500 c 0 0 n 0 0 0) = c := by rw [wordI_ctl]
  show parse (wordI 0x500 c 0 0 n 0 0 0) = _
  unfold parse
  rw [ho, hc]
  show (fun w : BitVec 96 => (do return .rclaim c (imm32 w) : Except Reject Instr)) (wordI 0x500 c 0 0 n 0 0 0) = _
  simp (disch := decide) only [wordI_append, tyL, dst, srcA, srcB, srcC, imm12, imm32, predC, barI, predDst, Pred.code8,
    bit_cast, fld_cast, fld_high, fld_low, bit_high, bit_low, BitVec.extractLsb'_cast, BitVec.getLsbD_cast, Nat.reduceSub,
    BitVec.extractLsb'_eq_self, opsIb, qCode, bit1_get, Spec.ofCode_code, Ty.ofCode_code, Scope.ofCode_code, Shuf.ofCode_code,
    BitVec.ofNat_eq_ofNat, BitVec.reduceGetLsb, BitVec.reduceExtractLsb', BitVec.reduceToNat,
    Pred.ofCode_code, except_bind, except_map, Bool.false_eq_true, if_true, if_false]
  rfl

theorem rrelease (c : Ctl) (n : Word) : Statement (.rrelease c n) := fun _ _ => by
  have ho : (fld (wordI 0x501 c 0 0 n 0 0 0) 0 12).toNat = 0x501 := by rw [wordI_op]; rfl
  have hc : parseCtl (wordI 0x501 c 0 0 n 0 0 0) = c := by rw [wordI_ctl]
  show parse (wordI 0x501 c 0 0 n 0 0 0) = _
  unfold parse
  rw [ho, hc]
  show (fun w : BitVec 96 => (do return .rrelease c (imm32 w) : Except Reject Instr)) (wordI 0x501 c 0 0 n 0 0 0) = _
  simp (disch := decide) only [wordI_append, tyL, dst, srcA, srcB, srcC, imm12, imm32, predC, barI, predDst, Pred.code8,
    bit_cast, fld_cast, fld_high, fld_low, bit_high, bit_low, BitVec.extractLsb'_cast, BitVec.getLsbD_cast, Nat.reduceSub,
    BitVec.extractLsb'_eq_self, opsIb, qCode, bit1_get, Spec.ofCode_code, Ty.ofCode_code, Scope.ofCode_code, Shuf.ofCode_code,
    BitVec.ofNat_eq_ofNat, BitVec.reduceGetLsb, BitVec.reduceExtractLsb', BitVec.reduceToNat,
    Pred.ofCode_code, except_bind, except_map, Bool.false_eq_true, if_true, if_false]
  rfl

theorem rpool (c : Ctl) (d : Spec) (sel : Word) : Statement (.rpool c d sel) := fun _ _ => by
  have ho : (fld (wordI 0x502 c d.code 0 sel 0 0 0) 0 12).toNat = 0x502 := by rw [wordI_op]; rfl
  have hc : parseCtl (wordI 0x502 c d.code 0 sel 0 0 0) = c := by rw [wordI_ctl]
  show parse (wordI 0x502 c d.code 0 sel 0 0 0) = _
  unfold parse
  rw [ho, hc]
  show (fun w : BitVec 96 => (do return .rpool c (← dst w) (imm32 w) : Except Reject Instr)) (wordI 0x502 c d.code 0 sel 0 0 0) = _
  simp (disch := decide) only [wordI_append, tyL, dst, srcA, srcB, srcC, imm12, imm32, predC, barI, predDst, Pred.code8,
    bit_cast, fld_cast, fld_high, fld_low, bit_high, bit_low, BitVec.extractLsb'_cast, BitVec.getLsbD_cast, Nat.reduceSub,
    BitVec.extractLsb'_eq_self, opsIb, qCode, bit1_get, Spec.ofCode_code, Ty.ofCode_code, Scope.ofCode_code, Shuf.ofCode_code,
    BitVec.ofNat_eq_ofNat, BitVec.reduceGetLsb, BitVec.reduceExtractLsb', BitVec.reduceToNat,
    Pred.ofCode_code, except_bind, except_map, Bool.false_eq_true, if_true, if_false]
  rfl

theorem wflush (c : Ctl) : Statement (.wflush c) := fun _ _ => by
  have ho : (fld (wordI 0x503 c 0 0 0 0 0 0) 0 12).toNat = 0x503 := by rw [wordI_op]; rfl
  have hc : parseCtl (wordI 0x503 c 0 0 0 0 0 0) = c := by rw [wordI_ctl]
  show parse (wordI 0x503 c 0 0 0 0 0 0) = _
  unfold parse
  rw [ho, hc]
  show (fun w : BitVec 96 => (do return .wflush c : Except Reject Instr)) (wordI 0x503 c 0 0 0 0 0 0) = _
  simp (disch := decide) only [wordI_append, tyL, dst, srcA, srcB, srcC, imm12, imm32, predC, barI, predDst, Pred.code8,
    bit_cast, fld_cast, fld_high, fld_low, bit_high, bit_low, BitVec.extractLsb'_cast, BitVec.getLsbD_cast, Nat.reduceSub,
    BitVec.extractLsb'_eq_self, opsIb, qCode, bit1_get, Spec.ofCode_code, Ty.ofCode_code, Scope.ofCode_code, Shuf.ofCode_code,
    BitVec.ofNat_eq_ofNat, BitVec.reduceGetLsb, BitVec.reduceExtractLsb', BitVec.reduceToNat,
    Pred.ofCode_code, except_bind, except_map, Bool.false_eq_true, if_true, if_false]
  rfl

theorem wdepth (c : Ctl) (d : Spec) (sel : Word) : Statement (.wdepth c d sel) := fun _ _ => by
  have ho : (fld (wordI 0x504 c d.code 0 sel 0 0 0) 0 12).toNat = 0x504 := by rw [wordI_op]; rfl
  have hc : parseCtl (wordI 0x504 c d.code 0 sel 0 0 0) = c := by rw [wordI_ctl]
  show parse (wordI 0x504 c d.code 0 sel 0 0 0) = _
  unfold parse
  rw [ho, hc]
  show (fun w : BitVec 96 => (do return .wdepth c (← dst w) (imm32 w) : Except Reject Instr)) (wordI 0x504 c d.code 0 sel 0 0 0) = _
  simp (disch := decide) only [wordI_append, tyL, dst, srcA, srcB, srcC, imm12, imm32, predC, barI, predDst, Pred.code8,
    bit_cast, fld_cast, fld_high, fld_low, bit_high, bit_low, BitVec.extractLsb'_cast, BitVec.getLsbD_cast, Nat.reduceSub,
    BitVec.extractLsb'_eq_self, opsIb, qCode, bit1_get, Spec.ofCode_code, Ty.ofCode_code, Scope.ofCode_code, Shuf.ofCode_code,
    BitVec.ofNat_eq_ofNat, BitVec.reduceGetLsb, BitVec.reduceExtractLsb', BitVec.reduceToNat,
    Pred.ofCode_code, except_bind, except_map, Bool.false_eq_true, if_true, if_false]
  rfl

theorem xset (c : Ctl) (k : BitVec 2) (a : Spec) (lim : Word) : Statement (.xset c k a lim) := fun _ _ => by
  have ho : (fld (wordI 0x505 c 0 a.code lim 0 0 ((0 : BitVec 3) ++ k)) 0 12).toNat = 0x505 := by rw [wordI_op]; rfl
  have hc : parseCtl (wordI 0x505 c 0 a.code lim 0 0 ((0 : BitVec 3) ++ k)) = c := by rw [wordI_ctl]
  show parse (wordI 0x505 c 0 a.code lim 0 0 ((0 : BitVec 3) ++ k)) = _
  unfold parse
  rw [ho, hc]
  show (fun w : BitVec 96 => (do return .xset c (fld w 71 2) (← srcA w) (imm32 w) : Except Reject Instr)) (wordI 0x505 c 0 a.code lim 0 0 ((0 : BitVec 3) ++ k)) = _
  simp (disch := decide) only [wordI_append, tyL, dst, srcA, srcB, srcC, imm12, imm32, predC, barI, predDst, Pred.code8,
    bit_cast, fld_cast, fld_high, fld_low, bit_high, bit_low, BitVec.extractLsb'_cast, BitVec.getLsbD_cast, Nat.reduceSub,
    BitVec.extractLsb'_eq_self, opsIb, qCode, bit1_get, Spec.ofCode_code, Ty.ofCode_code, Scope.ofCode_code, Shuf.ofCode_code,
    BitVec.ofNat_eq_ofNat, BitVec.reduceGetLsb, BitVec.reduceExtractLsb', BitVec.reduceToNat,
    Pred.ofCode_code, except_bind, except_map, Bool.false_eq_true, if_true, if_false]
  rfl

theorem xadd (c : Ctl) (k : BitVec 2) (a : Spec) (ib : Bool) (imm : Word) : Statement (.xadd c k a ib imm) := fun _ _ => by
  have ho : (fld (wordI 0x506 c 0 a.code imm 0 0 ((0 : BitVec 2) ++ bit1 ib ++ k)) 0 12).toNat = 0x506 := by rw [wordI_op]; rfl
  have hc : parseCtl (wordI 0x506 c 0 a.code imm 0 0 ((0 : BitVec 2) ++ bit1 ib ++ k)) = c := by rw [wordI_ctl]
  show parse (wordI 0x506 c 0 a.code imm 0 0 ((0 : BitVec 2) ++ bit1 ib ++ k)) = _
  unfold parse
  rw [ho, hc]
  show (fun w : BitVec 96 => (do return .xadd c (fld w 71 2) (← srcA w) (w.getLsbD 73) (imm32 w) : Except Reject Instr)) (wordI 0x506 c 0 a.code imm 0 0 ((0 : BitVec 2) ++ bit1 ib ++ k)) = _
  rw [show (0 : BitVec 2) ++ bit1 ib ++ k = BitVec.cast (show 2 + 1 + 2 = 5 from rfl) ((0 : BitVec 2) ++ bit1 ib ++ k) from rfl]
  simp (disch := decide) only [wordI_append, tyL, dst, srcA, srcB, srcC, imm12, imm32, predC, barI, predDst, Pred.code8,
    bit_cast, fld_cast, fld_high, fld_low, bit_high, bit_low, BitVec.extractLsb'_cast, BitVec.getLsbD_cast, Nat.reduceSub,
    BitVec.extractLsb'_eq_self, opsIb, qCode, bit1_get, Spec.ofCode_code, Ty.ofCode_code, Scope.ofCode_code, Shuf.ofCode_code,
    BitVec.ofNat_eq_ofNat, BitVec.reduceGetLsb, BitVec.reduceExtractLsb', BitVec.reduceToNat,
    Pred.ofCode_code, except_bind, except_map, Bool.false_eq_true, if_true, if_false]
  rfl

theorem qmap (c : Ctl) (q : BitVec 3) (slot rights : BitVec 2) (off : BitVec 20) :
    Statement (.qmap c q slot rights off) := fun _ _ => by
  have ho : (fld (wordM 0x600 c (qCode q) ((0 : BitVec 6) ++ slot) 0 0xEC 0 false rights 0 off) 0 12).toNat = 0x600 := by rw [wordM_op]; rfl
  have hc : parseCtl (wordM 0x600 c (qCode q) ((0 : BitVec 6) ++ slot) 0 0xEC 0 false rights 0 off) = c := by rw [wordM_ctl]
  show parse (wordM 0x600 c (qCode q) ((0 : BitVec 6) ++ slot) 0 0xEC 0 false rights 0 off) = _
  unfold parse
  rw [ho, hc]
  show (fun w : BitVec 96 => (do return .qmap c (fld w 12 3) (fld w 24 2) (fld w 52 2) (fld w 56 20) : Except Reject Instr)) (wordM 0x600 c (qCode q) ((0 : BitVec 6) ++ slot) 0 0xEC 0 false rights 0 off) = _
  simp (disch := decide) only [wordM_append, tyL, dst, srcA, srcB, srcC, imm12, imm32, predC, barI, predDst, Pred.code8,
    bit_cast, fld_cast, fld_high, fld_low, bit_high, bit_low, BitVec.extractLsb'_cast, BitVec.getLsbD_cast, Nat.reduceSub,
    BitVec.extractLsb'_eq_self, opsIb, qCode, bit1_get, Spec.ofCode_code, Ty.ofCode_code, Scope.ofCode_code, Shuf.ofCode_code,
    BitVec.ofNat_eq_ofNat, BitVec.reduceGetLsb, BitVec.reduceExtractLsb', BitVec.reduceToNat,
    Pred.ofCode_code, except_bind, except_map, Bool.false_eq_true, if_true, if_false]
  simp (disch := decide) only [Nat.reduceAdd, Nat.reduceSub, BitVec.extractLsb'_eq_self, bit1_get, Spec.ofCode_code,
    Ty.ofCode_code, Scope.ofCode_code, Pred.ofCode_code, BitVec.reduceExtractLsb', BitVec.reduceGetLsb, BitVec.reduceToNat,
    except_bind, except_map,
    Bool.false_eq_true, if_true, if_false]
  rfl

theorem qunmap (c : Ctl) (q : BitVec 3) : Statement (.qunmap c q) := fun _ _ => by
  have ho : (fld (wordL 0x601 c 0 (qCode q) 0 0 0 0 0 0) 0 12).toNat = 0x601 := by rw [wordL_op]; rfl
  have hc : parseCtl (wordL 0x601 c 0 (qCode q) 0 0 0 0 0 0) = c := by rw [wordL_ctl]
  show parse (wordL 0x601 c 0 (qCode q) 0 0 0 0 0 0) = _
  unfold parse
  rw [ho, hc]
  show (fun w : BitVec 96 => (do return .qunmap c (fld w 24 3) : Except Reject Instr)) (wordL 0x601 c 0 (qCode q) 0 0 0 0 0 0) = _
  simp (disch := decide) only [wordL_append, tyL, dst, srcA, srcB, srcC, imm12, imm32, predC, barI, predDst, Pred.code8,
    bit_cast, fld_cast, fld_high, fld_low, bit_high, bit_low, BitVec.extractLsb'_cast, BitVec.getLsbD_cast, Nat.reduceSub,
    BitVec.extractLsb'_eq_self, opsIb, qCode, bit1_get, Spec.ofCode_code, Ty.ofCode_code, Scope.ofCode_code, Shuf.ofCode_code,
    BitVec.ofNat_eq_ofNat, BitVec.reduceGetLsb, BitVec.reduceExtractLsb', BitVec.reduceToNat,
    Pred.ofCode_code, except_bind, except_map, Bool.false_eq_true, if_true, if_false]
  rfl

theorem qpush (c : Ctl) (q : BitVec 3) (a : Spec) (whole : Bool) : Statement (.qpush c q a whole) := fun _ _ => by
  have ho : (fld (wordL 0x602 c 0 (qCode q) a.code 0 0 0 ((0 : BitVec 3) ++ bit1 whole ++ (0 : BitVec 5)) 0) 0 12).toNat = 0x602 := by rw [wordL_op]; rfl
  have hc : parseCtl (wordL 0x602 c 0 (qCode q) a.code 0 0 0 ((0 : BitVec 3) ++ bit1 whole ++ (0 : BitVec 5)) 0) = c := by rw [wordL_ctl]
  show parse (wordL 0x602 c 0 (qCode q) a.code 0 0 0 ((0 : BitVec 3) ++ bit1 whole ++ (0 : BitVec 5)) 0) = _
  unfold parse
  rw [ho, hc]
  show (fun w : BitVec 96 => (do return .qpush c (fld w 24 3) (← srcB w) (w.getLsbD 60) : Except Reject Instr)) (wordL 0x602 c 0 (qCode q) a.code 0 0 0 ((0 : BitVec 3) ++ bit1 whole ++ (0 : BitVec 5)) 0) = _
  rw [show (0 : BitVec 3) ++ bit1 whole ++ (0 : BitVec 5) = BitVec.cast (show 3 + 1 + 5 = 9 from rfl) ((0 : BitVec 3) ++ bit1 whole ++ (0 : BitVec 5)) from rfl]
  simp (disch := decide) only [wordL_append, tyL, dst, srcA, srcB, srcC, imm12, imm32, predC, barI, predDst, Pred.code8,
    bit_cast, fld_cast, fld_high, fld_low, bit_high, bit_low, BitVec.extractLsb'_cast, BitVec.getLsbD_cast, Nat.reduceSub,
    BitVec.extractLsb'_eq_self, opsIb, qCode, bit1_get, Spec.ofCode_code, Ty.ofCode_code, Scope.ofCode_code, Shuf.ofCode_code,
    BitVec.ofNat_eq_ofNat, BitVec.reduceGetLsb, BitVec.reduceExtractLsb', BitVec.reduceToNat,
    Pred.ofCode_code, except_bind, except_map, Bool.false_eq_true, if_true, if_false]
  simp (disch := decide) only [Nat.reduceAdd, Nat.reduceSub, BitVec.extractLsb'_eq_self, bit1_get, Spec.ofCode_code,
    Ty.ofCode_code, Scope.ofCode_code, Pred.ofCode_code, BitVec.reduceExtractLsb', BitVec.reduceGetLsb, BitVec.reduceToNat,
    except_bind, except_map,
    Bool.false_eq_true, if_true, if_false]
  rfl

theorem qpop (c : Ctl) (d : Spec) (q : BitVec 3) (st : Bool) (p : BitVec 3) : Statement (.qpop c d q st p) := fun _ _ => by
  have ho : (fld (wordL 0x603 c d.code (qCode q) 0 0 0 0 ((0 : BitVec 5) ++ bit1 st ++ p) 0) 0 12).toNat = 0x603 := by rw [wordL_op]; rfl
  have hc : parseCtl (wordL 0x603 c d.code (qCode q) 0 0 0 0 ((0 : BitVec 5) ++ bit1 st ++ p) 0) = c := by rw [wordL_ctl]
  show parse (wordL 0x603 c d.code (qCode q) 0 0 0 0 ((0 : BitVec 5) ++ bit1 st ++ p) 0) = _
  unfold parse
  rw [ho, hc]
  show (fun w : BitVec 96 => (do return .qpop c (← dst w) (fld w 24 3) (w.getLsbD 58) (fld w 55 3) : Except Reject Instr)) (wordL 0x603 c d.code (qCode q) 0 0 0 0 ((0 : BitVec 5) ++ bit1 st ++ p) 0) = _
  rw [show (0 : BitVec 5) ++ bit1 st ++ p = BitVec.cast (show 5 + 1 + 3 = 9 from rfl) ((0 : BitVec 5) ++ bit1 st ++ p) from rfl]
  simp (disch := decide) only [wordL_append, tyL, dst, srcA, srcB, srcC, imm12, imm32, predC, barI, predDst, Pred.code8,
    bit_cast, fld_cast, fld_high, fld_low, bit_high, bit_low, BitVec.extractLsb'_cast, BitVec.getLsbD_cast, Nat.reduceSub,
    BitVec.extractLsb'_eq_self, opsIb, qCode, bit1_get, Spec.ofCode_code, Ty.ofCode_code, Scope.ofCode_code, Shuf.ofCode_code,
    BitVec.ofNat_eq_ofNat, BitVec.reduceGetLsb, BitVec.reduceExtractLsb', BitVec.reduceToNat,
    Pred.ofCode_code, except_bind, except_map, Bool.false_eq_true, if_true, if_false]
  simp (disch := decide) only [Nat.reduceAdd, Nat.reduceSub, BitVec.extractLsb'_eq_self, bit1_get, Spec.ofCode_code,
    Ty.ofCode_code, Scope.ofCode_code, Pred.ofCode_code, BitVec.reduceExtractLsb', BitVec.reduceGetLsb, BitVec.reduceToNat,
    except_bind, except_map,
    Bool.false_eq_true, if_true, if_false]
  rfl

theorem qtryPop (c : Ctl) (p : BitVec 3) (d : Spec) (q : BitVec 3) : Statement (.qtryPop c p d q) := fun _ _ => by
  have ho : (fld (wordL 0x604 c d.code (qCode q) 0 0 0 0 ((0 : BitVec 6) ++ p) 0) 0 12).toNat = 0x604 := by rw [wordL_op]; rfl
  have hc : parseCtl (wordL 0x604 c d.code (qCode q) 0 0 0 0 ((0 : BitVec 6) ++ p) 0) = c := by rw [wordL_ctl]
  show parse (wordL 0x604 c d.code (qCode q) 0 0 0 0 ((0 : BitVec 6) ++ p) 0) = _
  unfold parse
  rw [ho, hc]
  show (fun w : BitVec 96 => (do if w.getLsbD 59 then return .qtryPush c (fld w 55 3) (fld w 24 3) (← srcB w) else return .qtryPop c (fld w 55 3) (← dst w) (fld w 24 3) : Except Reject Instr)) (wordL 0x604 c d.code (qCode q) 0 0 0 0 ((0 : BitVec 6) ++ p) 0) = _
  simp (disch := decide) only [wordL_append, tyL, dst, srcA, srcB, srcC, imm12, imm32, predC, barI, predDst, Pred.code8,
    bit_cast, fld_cast, fld_high, fld_low, bit_high, bit_low, BitVec.extractLsb'_cast, BitVec.getLsbD_cast, Nat.reduceSub,
    BitVec.extractLsb'_eq_self, opsIb, qCode, bit1_get, Spec.ofCode_code, Ty.ofCode_code, Scope.ofCode_code, Shuf.ofCode_code,
    BitVec.ofNat_eq_ofNat, BitVec.reduceGetLsb, BitVec.reduceExtractLsb', BitVec.reduceToNat,
    Pred.ofCode_code, except_bind, except_map, Bool.false_eq_true, if_true, if_false]
  simp (disch := decide) only [Nat.reduceAdd, Nat.reduceSub, BitVec.extractLsb'_eq_self, bit1_get, Spec.ofCode_code,
    Ty.ofCode_code, Scope.ofCode_code, Pred.ofCode_code, BitVec.reduceExtractLsb', BitVec.reduceGetLsb, BitVec.reduceToNat,
    except_bind, except_map,
    Bool.false_eq_true, if_true, if_false]
  rfl

theorem qtryPush (c : Ctl) (p : BitVec 3) (q : BitVec 3) (a : Spec) : Statement (.qtryPush c p q a) := fun _ _ => by
  have ho : (fld (wordL 0x604 c 0 (qCode q) a.code 0 0 0 ((0 : BitVec 4) ++ (2 : BitVec 2) ++ p) 0) 0 12).toNat = 0x604 := by rw [wordL_op]; rfl
  have hc : parseCtl (wordL 0x604 c 0 (qCode q) a.code 0 0 0 ((0 : BitVec 4) ++ (2 : BitVec 2) ++ p) 0) = c := by rw [wordL_ctl]
  show parse (wordL 0x604 c 0 (qCode q) a.code 0 0 0 ((0 : BitVec 4) ++ (2 : BitVec 2) ++ p) 0) = _
  unfold parse
  rw [ho, hc]
  show (fun w : BitVec 96 => (do if w.getLsbD 59 then return .qtryPush c (fld w 55 3) (fld w 24 3) (← srcB w) else return .qtryPop c (fld w 55 3) (← dst w) (fld w 24 3) : Except Reject Instr)) (wordL 0x604 c 0 (qCode q) a.code 0 0 0 ((0 : BitVec 4) ++ (2 : BitVec 2) ++ p) 0) = _
  rw [show (0 : BitVec 4) ++ (2 : BitVec 2) ++ p = BitVec.cast (show 4 + 2 + 3 = 9 from rfl) ((0 : BitVec 4) ++ (2 : BitVec 2) ++ p) from rfl]
  simp (disch := decide) only [wordL_append, tyL, dst, srcA, srcB, srcC, imm12, imm32, predC, barI, predDst, Pred.code8,
    bit_cast, fld_cast, fld_high, fld_low, bit_high, bit_low, BitVec.extractLsb'_cast, BitVec.getLsbD_cast, Nat.reduceSub,
    BitVec.extractLsb'_eq_self, opsIb, qCode, bit1_get, Spec.ofCode_code, Ty.ofCode_code, Scope.ofCode_code, Shuf.ofCode_code,
    BitVec.ofNat_eq_ofNat, BitVec.reduceGetLsb, BitVec.reduceExtractLsb', BitVec.reduceToNat,
    Pred.ofCode_code, except_bind, except_map, Bool.false_eq_true, if_true, if_false]
  simp (disch := decide) only [Nat.reduceAdd, Nat.reduceSub, BitVec.extractLsb'_eq_self, bit1_get, Spec.ofCode_code,
    Ty.ofCode_code, Scope.ofCode_code, Pred.ofCode_code, BitVec.reduceExtractLsb', BitVec.reduceGetLsb, BitVec.reduceToNat,
    except_bind, except_map,
    Bool.false_eq_true, if_true, if_false]
  rfl

theorem qclose (c : Ctl) (q : BitVec 3) : Statement (.qclose c q) := fun _ _ => by
  have ho : (fld (wordL 0x605 c 0 (qCode q) 0 0 0 0 0 0) 0 12).toNat = 0x605 := by rw [wordL_op]; rfl
  have hc : parseCtl (wordL 0x605 c 0 (qCode q) 0 0 0 0 0 0) = c := by rw [wordL_ctl]
  show parse (wordL 0x605 c 0 (qCode q) 0 0 0 0 0 0) = _
  unfold parse
  rw [ho, hc]
  show (fun w : BitVec 96 => (do return .qclose c (fld w 24 3) : Except Reject Instr)) (wordL 0x605 c 0 (qCode q) 0 0 0 0 0 0) = _
  simp (disch := decide) only [wordL_append, tyL, dst, srcA, srcB, srcC, imm12, imm32, predC, barI, predDst, Pred.code8,
    bit_cast, fld_cast, fld_high, fld_low, bit_high, bit_low, BitVec.extractLsb'_cast, BitVec.getLsbD_cast, Nat.reduceSub,
    BitVec.extractLsb'_eq_self, opsIb, qCode, bit1_get, Spec.ofCode_code, Ty.ofCode_code, Scope.ofCode_code, Shuf.ofCode_code,
    BitVec.ofNat_eq_ofNat, BitVec.reduceGetLsb, BitVec.reduceExtractLsb', BitVec.reduceToNat,
    Pred.ofCode_code, except_bind, except_map, Bool.false_eq_true, if_true, if_false]
  rfl

theorem qstat (c : Ctl) (d : Spec) (q : BitVec 3) (sel : BitVec 12) : Statement (.qstat c d q sel) := fun _ _ => by
  have ho : (fld (wordL 0x606 c d.code (qCode q) 0 0 0 0 0 sel) 0 12).toNat = 0x606 := by rw [wordL_op]; rfl
  have hc : parseCtl (wordL 0x606 c d.code (qCode q) 0 0 0 0 0 sel) = c := by rw [wordL_ctl]
  show parse (wordL 0x606 c d.code (qCode q) 0 0 0 0 0 sel) = _
  unfold parse
  rw [ho, hc]
  show (fun w : BitVec 96 => (do return .qstat c (← dst w) (fld w 24 3) (fld w 64 12) : Except Reject Instr)) (wordL 0x606 c d.code (qCode q) 0 0 0 0 0 sel) = _
  simp (disch := decide) only [wordL_append, tyL, dst, srcA, srcB, srcC, imm12, imm32, predC, barI, predDst, Pred.code8,
    bit_cast, fld_cast, fld_high, fld_low, bit_high, bit_low, BitVec.extractLsb'_cast, BitVec.getLsbD_cast, Nat.reduceSub,
    BitVec.extractLsb'_eq_self, opsIb, qCode, bit1_get, Spec.ofCode_code, Ty.ofCode_code, Scope.ofCode_code, Shuf.ofCode_code,
    BitVec.ofNat_eq_ofNat, BitVec.reduceGetLsb, BitVec.reduceExtractLsb', BitVec.reduceToNat,
    Pred.ofCode_code, except_bind, except_map, Bool.false_eq_true, if_true, if_false]
  simp (disch := decide) only [Nat.reduceAdd, Nat.reduceSub, BitVec.extractLsb'_eq_self, bit1_get, Spec.ofCode_code,
    Ty.ofCode_code, Scope.ofCode_code, Pred.ofCode_code, BitVec.reduceExtractLsb', BitVec.reduceGetLsb, BitVec.reduceToNat,
    except_bind, except_map,
    Bool.false_eq_true, if_true, if_false]
  rfl

theorem refill (c : Ctl) (d : Spec) (q : BitVec 3) (p : BitVec 3) (wait : Bool) :
    Statement (.refill c d q p wait) := fun _ _ => by
  have ho : (fld (wordL 0x607 c d.code (qCode q) 0 0 0 0 ((0 : BitVec 2) ++ bit1 wait ++ (0 : BitVec 3) ++ p) 0) 0 12).toNat = 0x607 := by rw [wordL_op]; rfl
  have hc : parseCtl (wordL 0x607 c d.code (qCode q) 0 0 0 0 ((0 : BitVec 2) ++ bit1 wait ++ (0 : BitVec 3) ++ p) 0) = c := by rw [wordL_ctl]
  show parse (wordL 0x607 c d.code (qCode q) 0 0 0 0 ((0 : BitVec 2) ++ bit1 wait ++ (0 : BitVec 3) ++ p) 0) = _
  unfold parse
  rw [ho, hc]
  show (fun w : BitVec 96 => (do return .refill c (← dst w) (fld w 24 3) (fld w 55 3) (w.getLsbD 61) : Except Reject Instr)) (wordL 0x607 c d.code (qCode q) 0 0 0 0 ((0 : BitVec 2) ++ bit1 wait ++ (0 : BitVec 3) ++ p) 0) = _
  rw [show (0 : BitVec 2) ++ bit1 wait ++ (0 : BitVec 3) ++ p = BitVec.cast (show 2 + 1 + 3 + 3 = 9 from rfl) ((0 : BitVec 2) ++ bit1 wait ++ (0 : BitVec 3) ++ p) from rfl]
  simp (disch := decide) only [wordL_append, tyL, dst, srcA, srcB, srcC, imm12, imm32, predC, barI, predDst, Pred.code8,
    bit_cast, fld_cast, fld_high, fld_low, bit_high, bit_low, BitVec.extractLsb'_cast, BitVec.getLsbD_cast, Nat.reduceSub,
    BitVec.extractLsb'_eq_self, opsIb, qCode, bit1_get, Spec.ofCode_code, Ty.ofCode_code, Scope.ofCode_code, Shuf.ofCode_code,
    BitVec.ofNat_eq_ofNat, BitVec.reduceGetLsb, BitVec.reduceExtractLsb', BitVec.reduceToNat,
    Pred.ofCode_code, except_bind, except_map, Bool.false_eq_true, if_true, if_false]
  simp (disch := decide) only [Nat.reduceAdd, Nat.reduceSub, BitVec.extractLsb'_eq_self, bit1_get, Spec.ofCode_code,
    Ty.ofCode_code, Scope.ofCode_code, Pred.ofCode_code, BitVec.reduceExtractLsb', BitVec.reduceGetLsb, BitVec.reduceToNat,
    except_bind, except_map,
    Bool.false_eq_true, if_true, if_false]
  rfl

theorem ld (c : Ctl) (x : MemArgs) : Statement (.ld c x) := fun _ h => by
  have ho : (fld (x.word 0x700 c) 0 12).toNat = 0x700 := by rw [MemArgs.word, wordM_op]; rfl
  have hc : parseCtl (x.word 0x700 c) = c := by rw [MemArgs.word, wordM_ctl]
  show parse (x.word 0x700 c) = _
  unfold parse
  rw [ho, hc]
  exact congrArg (fun e => e >>= fun y => pure (Instr.ld c y)) (parseMem_wf _ _ x .load false (Instr.wf_args h))

theorem st (c : Ctl) (x : MemArgs) : Statement (.st c x) := fun _ h => by
  have ho : (fld (x.word 0x701 c) 0 12).toNat = 0x701 := by rw [MemArgs.word, wordM_op]; rfl
  have hc : parseCtl (x.word 0x701 c) = c := by rw [MemArgs.word, wordM_ctl]
  show parse (x.word 0x701 c) = _
  unfold parse
  rw [ho, hc]
  exact congrArg (fun e => e >>= fun y => pure (Instr.st c y)) (parseMem_wf _ _ x .store false (Instr.wf_args h))

theorem lds (c : Ctl) (x : MemArgs) : Statement (.lds c x) := fun _ h => by
  have ho : (fld (x.word 0x702 c) 0 12).toNat = 0x702 := by rw [MemArgs.word, wordM_op]; rfl
  have hc : parseCtl (x.word 0x702 c) = c := by rw [MemArgs.word, wordM_ctl]
  show parse (x.word 0x702 c) = _
  unfold parse
  rw [ho, hc]
  exact congrArg (fun e => e >>= fun y => pure (Instr.lds c y)) (parseMem_wf _ _ x .load true (Instr.wf_args h))

theorem sts (c : Ctl) (x : MemArgs) : Statement (.sts c x) := fun _ h => by
  have ho : (fld (x.word 0x703 c) 0 12).toNat = 0x703 := by rw [MemArgs.word, wordM_op]; rfl
  have hc : parseCtl (x.word 0x703 c) = c := by rw [MemArgs.word, wordM_ctl]
  show parse (x.word 0x703 c) = _
  unfold parse
  rw [ho, hc]
  exact congrArg (fun e => e >>= fun y => pure (Instr.sts c y)) (parseMem_wf _ _ x .store true (Instr.wf_args h))

theorem ldu (c : Ctl) (x : MemArgs) : Statement (.ldu c x) := fun _ h => by
  have ho : (fld (x.word 0x704 c) 0 12).toNat = 0x704 := by rw [MemArgs.word, wordM_op]; rfl
  have hc : parseCtl (x.word 0x704 c) = c := by rw [MemArgs.word, wordM_ctl]
  show parse (x.word 0x704 c) = _
  unfold parse
  rw [ho, hc]
  exact congrArg (fun e => e >>= fun y => pure (Instr.ldu c y)) (parseMem_wf _ _ x .loadU false (Instr.wf_args h))

theorem atom (c : Ctl) (x : MemArgs) : Statement (.atom c x) := fun _ h => by
  have ho : (fld (x.word 0x705 c) 0 12).toNat = 0x705 := by rw [MemArgs.word, wordM_op]; rfl
  have hc : parseCtl (x.word 0x705 c) = c := by rw [MemArgs.word, wordM_ctl]
  show parse (x.word 0x705 c) = _
  unfold parse
  rw [ho, hc]
  exact congrArg (fun e => e >>= fun y => pure (Instr.atom c y)) (parseMem_wf _ _ x .atomic false (Instr.wf_args h))

theorem atoms (c : Ctl) (x : MemArgs) : Statement (.atoms c x) := fun _ h => by
  have ho : (fld (x.word 0x706 c) 0 12).toNat = 0x706 := by rw [MemArgs.word, wordM_op]; rfl
  have hc : parseCtl (x.word 0x706 c) = c := by rw [MemArgs.word, wordM_ctl]
  show parse (x.word 0x706 c) = _
  unfold parse
  rw [ho, hc]
  exact congrArg (fun e => e >>= fun y => pure (Instr.atoms c y)) (parseMem_wf _ _ x .atomic true (Instr.wf_args h))

theorem red (c : Ctl) (x : MemArgs) : Statement (.red c x) := fun _ h => by
  have ho : (fld (x.word 0x707 c) 0 12).toNat = 0x707 := by rw [MemArgs.word, wordM_op]; rfl
  have hc : parseCtl (x.word 0x707 c) = c := by rw [MemArgs.word, wordM_ctl]
  show parse (x.word 0x707 c) = _
  unfold parse
  rw [ho, hc]
  exact congrArg (fun e => e >>= fun y => pure (Instr.red c y)) (parseMem_wf _ _ x .reduce false (Instr.wf_args h))

theorem pref (c : Ctl) (x : MemArgs) : Statement (.pref c x) := fun _ h => by
  have ho : (fld (x.word 0x708 c) 0 12).toNat = 0x708 := by rw [MemArgs.word, wordM_op]; rfl
  have hc : parseCtl (x.word 0x708 c) = c := by rw [MemArgs.word, wordM_ctl]
  show parse (x.word 0x708 c) = _
  unfold parse
  rw [ho, hc]
  exact congrArg (fun e => e >>= fun y => pure (Instr.pref c y)) (parseMem_wf _ _ x .prefetch false (Instr.wf_args h))

theorem cctl (c : Ctl) (x : MemArgs) : Statement (.cctl c x) := fun _ h => by
  have ho : (fld (x.word 0x709 c) 0 12).toNat = 0x709 := by rw [MemArgs.word, wordM_op]; rfl
  have hc : parseCtl (x.word 0x709 c) = c := by rw [MemArgs.word, wordM_ctl]
  show parse (x.word 0x709 c) = _
  unfold parse
  rw [ho, hc]
  exact congrArg (fun e => e >>= fun y => pure (Instr.cctl c y)) (parseMem_wf _ _ x .control false (Instr.wf_args h))

theorem fenceAcq (c : Ctl) (sc : Scope) : Statement (.fenceAcq c sc) := fun _ _ => by
  have ho : (fld (wordI 0x800 c 0 0 0 0 sc.code ((0 : BitVec 2) ++ (0 : BitVec 3))) 0 12).toNat = 0x800 := by rw [wordI_op]; rfl
  have hc : parseCtl (wordI 0x800 c 0 0 0 0 sc.code ((0 : BitVec 2) ++ (0 : BitVec 3))) = c := by rw [wordI_ctl]
  show parse (wordI 0x800 c 0 0 0 0 sc.code ((0 : BitVec 2) ++ (0 : BitVec 3))) = _
  unfold parse
  rw [ho, hc]
  show (fun w : BitVec 96 => (do parseFence c w : Except Reject Instr)) (wordI 0x800 c 0 0 0 0 sc.code ((0 : BitVec 2) ++ (0 : BitVec 3))) = _
  simp (disch := decide) only [wordI_append, tyL, dst, srcA, srcB, srcC, imm12, imm32, predC, barI, predDst, Pred.code8,
    bit_cast, fld_cast, fld_high, fld_low, bit_high, bit_low, BitVec.extractLsb'_cast, BitVec.getLsbD_cast, Nat.reduceSub,
    BitVec.extractLsb'_eq_self, opsIb, qCode, bit1_get, Spec.ofCode_code, Ty.ofCode_code, Scope.ofCode_code, Shuf.ofCode_code,
    BitVec.ofNat_eq_ofNat, BitVec.reduceGetLsb, BitVec.reduceExtractLsb', BitVec.reduceToNat,
    Pred.ofCode_code, except_bind, except_map, Bool.false_eq_true, if_true, if_false, parseFence]

theorem fenceRel (c : Ctl) (sc : Scope) : Statement (.fenceRel c sc) := fun _ _ => by
  have ho : (fld (wordI 0x800 c 0 0 0 0 sc.code ((0 : BitVec 2) ++ (1 : BitVec 3))) 0 12).toNat = 0x800 := by rw [wordI_op]; rfl
  have hc : parseCtl (wordI 0x800 c 0 0 0 0 sc.code ((0 : BitVec 2) ++ (1 : BitVec 3))) = c := by rw [wordI_ctl]
  show parse (wordI 0x800 c 0 0 0 0 sc.code ((0 : BitVec 2) ++ (1 : BitVec 3))) = _
  unfold parse
  rw [ho, hc]
  show (fun w : BitVec 96 => (do parseFence c w : Except Reject Instr)) (wordI 0x800 c 0 0 0 0 sc.code ((0 : BitVec 2) ++ (1 : BitVec 3))) = _
  simp (disch := decide) only [wordI_append, tyL, dst, srcA, srcB, srcC, imm12, imm32, predC, barI, predDst, Pred.code8,
    bit_cast, fld_cast, fld_high, fld_low, bit_high, bit_low, BitVec.extractLsb'_cast, BitVec.getLsbD_cast, Nat.reduceSub,
    BitVec.extractLsb'_eq_self, opsIb, qCode, bit1_get, Spec.ofCode_code, Ty.ofCode_code, Scope.ofCode_code, Shuf.ofCode_code,
    BitVec.ofNat_eq_ofNat, BitVec.reduceGetLsb, BitVec.reduceExtractLsb', BitVec.reduceToNat,
    Pred.ofCode_code, except_bind, except_map, Bool.false_eq_true, if_true, if_false, parseFence]

theorem fenceAcqrel (c : Ctl) (sc : Scope) : Statement (.fenceAcqrel c sc) := fun _ _ => by
  have ho : (fld (wordI 0x800 c 0 0 0 0 sc.code ((0 : BitVec 2) ++ (2 : BitVec 3))) 0 12).toNat = 0x800 := by rw [wordI_op]; rfl
  have hc : parseCtl (wordI 0x800 c 0 0 0 0 sc.code ((0 : BitVec 2) ++ (2 : BitVec 3))) = c := by rw [wordI_ctl]
  show parse (wordI 0x800 c 0 0 0 0 sc.code ((0 : BitVec 2) ++ (2 : BitVec 3))) = _
  unfold parse
  rw [ho, hc]
  show (fun w : BitVec 96 => (do parseFence c w : Except Reject Instr)) (wordI 0x800 c 0 0 0 0 sc.code ((0 : BitVec 2) ++ (2 : BitVec 3))) = _
  simp (disch := decide) only [wordI_append, tyL, dst, srcA, srcB, srcC, imm12, imm32, predC, barI, predDst, Pred.code8,
    bit_cast, fld_cast, fld_high, fld_low, bit_high, bit_low, BitVec.extractLsb'_cast, BitVec.getLsbD_cast, Nat.reduceSub,
    BitVec.extractLsb'_eq_self, opsIb, qCode, bit1_get, Spec.ofCode_code, Ty.ofCode_code, Scope.ofCode_code, Shuf.ofCode_code,
    BitVec.ofNat_eq_ofNat, BitVec.reduceGetLsb, BitVec.reduceExtractLsb', BitVec.reduceToNat,
    Pred.ofCode_code, except_bind, except_map, Bool.false_eq_true, if_true, if_false, parseFence]

theorem fenceSc (c : Ctl) (sc : Scope) : Statement (.fenceSc c sc) := fun _ _ => by
  have ho : (fld (wordI 0x800 c 0 0 0 0 sc.code ((0 : BitVec 2) ++ (3 : BitVec 3))) 0 12).toNat = 0x800 := by rw [wordI_op]; rfl
  have hc : parseCtl (wordI 0x800 c 0 0 0 0 sc.code ((0 : BitVec 2) ++ (3 : BitVec 3))) = c := by rw [wordI_ctl]
  show parse (wordI 0x800 c 0 0 0 0 sc.code ((0 : BitVec 2) ++ (3 : BitVec 3))) = _
  unfold parse
  rw [ho, hc]
  show (fun w : BitVec 96 => (do parseFence c w : Except Reject Instr)) (wordI 0x800 c 0 0 0 0 sc.code ((0 : BitVec 2) ++ (3 : BitVec 3))) = _
  simp (disch := decide) only [wordI_append, tyL, dst, srcA, srcB, srcC, imm12, imm32, predC, barI, predDst, Pred.code8,
    bit_cast, fld_cast, fld_high, fld_low, bit_high, bit_low, BitVec.extractLsb'_cast, BitVec.getLsbD_cast, Nat.reduceSub,
    BitVec.extractLsb'_eq_self, opsIb, qCode, bit1_get, Spec.ofCode_code, Ty.ofCode_code, Scope.ofCode_code, Shuf.ofCode_code,
    BitVec.ofNat_eq_ofNat, BitVec.reduceGetLsb, BitVec.reduceExtractLsb', BitVec.reduceToNat,
    Pred.ofCode_code, except_bind, except_map, Bool.false_eq_true, if_true, if_false, parseFence]

theorem fenceAsync (c : Ctl) : Statement (.fenceAsync c) := fun _ _ => by
  have ho : (fld (wordI 0x800 c 0 0 0 0 0 ((0 : BitVec 2) ++ (4 : BitVec 3))) 0 12).toNat = 0x800 := by rw [wordI_op]; rfl
  have hc : parseCtl (wordI 0x800 c 0 0 0 0 0 ((0 : BitVec 2) ++ (4 : BitVec 3))) = c := by rw [wordI_ctl]
  show parse (wordI 0x800 c 0 0 0 0 0 ((0 : BitVec 2) ++ (4 : BitVec 3))) = _
  unfold parse
  rw [ho, hc]
  show (fun w : BitVec 96 => (do parseFence c w : Except Reject Instr)) (wordI 0x800 c 0 0 0 0 0 ((0 : BitVec 2) ++ (4 : BitVec 3))) = _
  simp (disch := decide) only [wordI_append, tyL, dst, srcA, srcB, srcC, imm12, imm32, predC, barI, predDst, Pred.code8,
    bit_cast, fld_cast, fld_high, fld_low, bit_high, bit_low, BitVec.extractLsb'_cast, BitVec.getLsbD_cast, Nat.reduceSub,
    BitVec.extractLsb'_eq_self, opsIb, qCode, bit1_get, Spec.ofCode_code, Ty.ofCode_code, Scope.ofCode_code, Shuf.ofCode_code,
    BitVec.ofNat_eq_ofNat, BitVec.reduceGetLsb, BitVec.reduceExtractLsb', BitVec.reduceToNat,
    Pred.ofCode_code, except_bind, except_map, Bool.false_eq_true, if_true, if_false, parseFence]

theorem barinit (c : Ctl) (b : BarName) (n : BitVec 7) : Statement (.barinit c b n) := fun _ _ => by
  have ho : (fld (wordI 0x801 c 0 0 ((0 : BitVec 17) ++ n ++ b.code false) 0 0 0) 0 12).toNat = 0x801 := by rw [wordI_op]; rfl
  have hc : parseCtl (wordI 0x801 c 0 0 ((0 : BitVec 17) ++ n ++ b.code false) 0 0 0) = c := by rw [wordI_ctl]
  show parse (wordI 0x801 c 0 0 ((0 : BitVec 17) ++ n ++ b.code false) 0 0 0) = _
  unfold parse
  rw [ho, hc]
  show (fun w : BitVec 96 => (do return (if w.getLsbD 71 then .barinitInv c (barI w) else .barinit c (barI w) (fld w 40 7)) : Except Reject Instr)) (wordI 0x801 c 0 0 ((0 : BitVec 17) ++ n ++ b.code false) 0 0 0) = _
  rw [show (0 : BitVec 17) ++ n ++ b.code false = BitVec.cast (show 17 + 7 + 8 = 32 from rfl) ((0 : BitVec 17) ++ n ++ b.code false) from rfl]
  rw [BarName.code_cast]
  simp (disch := decide) only [wordI_append, tyL, dst, srcA, srcB, srcC, imm12, imm32, predC, barI, predDst, Pred.code8,
    bit_cast, fld_cast, fld_high, fld_low, bit_high, bit_low, BitVec.extractLsb'_cast, BitVec.getLsbD_cast, Nat.reduceSub,
    BitVec.extractLsb'_eq_self, opsIb, qCode, bit1_get, Spec.ofCode_code, Ty.ofCode_code, Scope.ofCode_code, Shuf.ofCode_code,
    BitVec.ofNat_eq_ofNat, BitVec.reduceGetLsb, BitVec.reduceExtractLsb', BitVec.reduceToNat,
    Pred.ofCode_code, except_bind, except_map, Bool.false_eq_true, if_true, if_false]
  rfl

theorem barinitInv (c : Ctl) (b : BarName) : Statement (.barinitInv c b) := fun _ _ => by
  have ho : (fld (wordI 0x801 c 0 0 ((0 : BitVec 24) ++ b.code false) 0 0 1) 0 12).toNat = 0x801 := by rw [wordI_op]; rfl
  have hc : parseCtl (wordI 0x801 c 0 0 ((0 : BitVec 24) ++ b.code false) 0 0 1) = c := by rw [wordI_ctl]
  show parse (wordI 0x801 c 0 0 ((0 : BitVec 24) ++ b.code false) 0 0 1) = _
  unfold parse
  rw [ho, hc]
  show (fun w : BitVec 96 => (do return (if w.getLsbD 71 then .barinitInv c (barI w) else .barinit c (barI w) (fld w 40 7)) : Except Reject Instr)) (wordI 0x801 c 0 0 ((0 : BitVec 24) ++ b.code false) 0 0 1) = _
  rw [BarName.code_cast]
  simp (disch := decide) only [wordI_append, tyL, dst, srcA, srcB, srcC, imm12, imm32, predC, barI, predDst, Pred.code8,
    bit_cast, fld_cast, fld_high, fld_low, bit_high, bit_low, BitVec.extractLsb'_cast, BitVec.getLsbD_cast, Nat.reduceSub,
    BitVec.extractLsb'_eq_self, opsIb, qCode, bit1_get, Spec.ofCode_code, Ty.ofCode_code, Scope.ofCode_code, Shuf.ofCode_code,
    BitVec.ofNat_eq_ofNat, BitVec.reduceGetLsb, BitVec.reduceExtractLsb', BitVec.reduceToNat,
    Pred.ofCode_code, except_bind, except_map, Bool.false_eq_true, if_true, if_false]
  rfl

theorem bararr (c : Ctl) (b : BarName) : Statement (.bararr c b) := fun _ _ => by
  have ho : (fld (wordI 0x802 c 0 0 ((0 : BitVec 24) ++ b.code false) 0 0 0) 0 12).toNat = 0x802 := by rw [wordI_op]; rfl
  have hc : parseCtl (wordI 0x802 c 0 0 ((0 : BitVec 24) ++ b.code false) 0 0 0) = c := by rw [wordI_ctl]
  show parse (wordI 0x802 c 0 0 ((0 : BitVec 24) ++ b.code false) 0 0 0) = _
  unfold parse
  rw [ho, hc]
  show (fun w : BitVec 96 => (do return .bararr c (barI w) : Except Reject Instr)) (wordI 0x802 c 0 0 ((0 : BitVec 24) ++ b.code false) 0 0 0) = _
  rw [BarName.code_cast]
  simp (disch := decide) only [wordI_append, tyL, dst, srcA, srcB, srcC, imm12, imm32, predC, barI, predDst, Pred.code8,
    bit_cast, fld_cast, fld_high, fld_low, bit_high, bit_low, BitVec.extractLsb'_cast, BitVec.getLsbD_cast, Nat.reduceSub,
    BitVec.extractLsb'_eq_self, opsIb, qCode, bit1_get, Spec.ofCode_code, Ty.ofCode_code, Scope.ofCode_code, Shuf.ofCode_code,
    BitVec.ofNat_eq_ofNat, BitVec.reduceGetLsb, BitVec.reduceExtractLsb', BitVec.reduceToNat,
    Pred.ofCode_code, except_bind, except_map, Bool.false_eq_true, if_true, if_false]
  rfl

theorem barwait (c : Ctl) (b : BarName) (ph : Bool) : Statement (.barwait c b ph) := fun _ _ => by
  have ho : (fld (wordI 0x803 c 0 0 ((0 : BitVec 24) ++ b.code ph) 0 0 0) 0 12).toNat = 0x803 := by rw [wordI_op]; rfl
  have hc : parseCtl (wordI 0x803 c 0 0 ((0 : BitVec 24) ++ b.code ph) 0 0 0) = c := by rw [wordI_ctl]
  show parse (wordI 0x803 c 0 0 ((0 : BitVec 24) ++ b.code ph) 0 0 0) = _
  unfold parse
  rw [ho, hc]
  show (fun w : BitVec 96 => (do return .barwait c (barI w) (w.getLsbD 33) : Except Reject Instr)) (wordI 0x803 c 0 0 ((0 : BitVec 24) ++ b.code ph) 0 0 0) = _
  rw [BarName.code_cast]
  simp (disch := decide) only [wordI_append, tyL, dst, srcA, srcB, srcC, imm12, imm32, predC, barI, predDst, Pred.code8,
    bit_cast, fld_cast, fld_high, fld_low, bit_high, bit_low, BitVec.extractLsb'_cast, BitVec.getLsbD_cast, Nat.reduceSub,
    BitVec.extractLsb'_eq_self, opsIb, qCode, bit1_get, Spec.ofCode_code, Ty.ofCode_code, Scope.ofCode_code, Shuf.ofCode_code,
    BitVec.ofNat_eq_ofNat, BitVec.reduceGetLsb, BitVec.reduceExtractLsb', BitVec.reduceToNat,
    Pred.ofCode_code, except_bind, except_map, Bool.false_eq_true, if_true, if_false]
  rfl

theorem bartx (c : Ctl) (b : BarName) (a : Spec) (ib : Bool) (imm : BitVec 24) :
    Statement (.bartx c b a ib imm) := fun _ _ => by
  have ho : (fld (wordI 0x804 c 0 a.code (imm ++ b.code false) 0 0 ((0 : BitVec 4) ++ bit1 ib)) 0 12).toNat = 0x804 := by rw [wordI_op]; rfl
  have hc : parseCtl (wordI 0x804 c 0 a.code (imm ++ b.code false) 0 0 ((0 : BitVec 4) ++ bit1 ib)) = c := by rw [wordI_ctl]
  show parse (wordI 0x804 c 0 a.code (imm ++ b.code false) 0 0 ((0 : BitVec 4) ++ bit1 ib)) = _
  unfold parse
  rw [ho, hc]
  show (fun w : BitVec 96 => (do return .bartx c (barI w) (← srcA w) (w.getLsbD 71) (fld w 40 24) : Except Reject Instr)) (wordI 0x804 c 0 a.code (imm ++ b.code false) 0 0 ((0 : BitVec 4) ++ bit1 ib)) = _
  rw [BarName.code_cast]
  simp (disch := decide) only [wordI_append, tyL, dst, srcA, srcB, srcC, imm12, imm32, predC, barI, predDst, Pred.code8,
    bit_cast, fld_cast, fld_high, fld_low, bit_high, bit_low, BitVec.extractLsb'_cast, BitVec.getLsbD_cast, Nat.reduceSub,
    BitVec.extractLsb'_eq_self, opsIb, qCode, bit1_get, Spec.ofCode_code, Ty.ofCode_code, Scope.ofCode_code, Shuf.ofCode_code,
    BitVec.ofNat_eq_ofNat, BitVec.reduceGetLsb, BitVec.reduceExtractLsb', BitVec.reduceToNat,
    Pred.ofCode_code, except_bind, except_map, Bool.false_eq_true, if_true, if_false]
  simp (disch := decide) only [Nat.reduceAdd, Nat.reduceSub, BitVec.extractLsb'_eq_self, bit1_get, Spec.ofCode_code,
    Ty.ofCode_code, Scope.ofCode_code, Pred.ofCode_code, BitVec.reduceExtractLsb', BitVec.reduceGetLsb, BitVec.reduceToNat,
    except_bind, except_map,
    Bool.false_eq_true, if_true, if_false]
  rfl

theorem wait (c : Ctl) (x : WaitArgs) : Statement (.wait c x) := fun _ _ => by
  have ho : (fld (x.word 0x805 c) 0 12).toNat = 0x805 := by rw [WaitArgs.word, wordS_op]; rfl
  have hc : parseCtl (x.word 0x805 c) = c := by rw [WaitArgs.word, wordS_ctl]
  show parse (x.word 0x805 c) = _
  unfold parse
  rw [ho, hc]
  exact congrArg (fun e => e >>= fun y => pure (Instr.wait c y)) (parseWait_word _ _ x)

theorem rdenter (c : Ctl) : Statement (.rdenter c) := fun _ _ => by
  have ho : (fld (wordL 0x900 c 0 0 0 0 0 0 0 0) 0 12).toNat = 0x900 := by rw [wordL_op]; rfl
  have hc : parseCtl (wordL 0x900 c 0 0 0 0 0 0 0 0) = c := by rw [wordL_ctl]
  show parse (wordL 0x900 c 0 0 0 0 0 0 0 0) = _
  unfold parse
  rw [ho, hc]
  show (fun w : BitVec 96 => (do return .rdenter c : Except Reject Instr)) (wordL 0x900 c 0 0 0 0 0 0 0 0) = _
  simp (disch := decide) only [wordL_append, tyL, dst, srcA, srcB, srcC, imm12, imm32, predC, barI, predDst, Pred.code8,
    bit_cast, fld_cast, fld_high, fld_low, bit_high, bit_low, BitVec.extractLsb'_cast, BitVec.getLsbD_cast, Nat.reduceSub,
    BitVec.extractLsb'_eq_self, opsIb, qCode, bit1_get, Spec.ofCode_code, Ty.ofCode_code, Scope.ofCode_code, Shuf.ofCode_code,
    BitVec.ofNat_eq_ofNat, BitVec.reduceGetLsb, BitVec.reduceExtractLsb', BitVec.reduceToNat,
    Pred.ofCode_code, except_bind, except_map, Bool.false_eq_true, if_true, if_false]
  rfl

theorem rdexit (c : Ctl) : Statement (.rdexit c) := fun _ _ => by
  have ho : (fld (wordL 0x901 c 0 0 0 0 0 0 0 0) 0 12).toNat = 0x901 := by rw [wordL_op]; rfl
  have hc : parseCtl (wordL 0x901 c 0 0 0 0 0 0 0 0) = c := by rw [wordL_ctl]
  show parse (wordL 0x901 c 0 0 0 0 0 0 0 0) = _
  unfold parse
  rw [ho, hc]
  show (fun w : BitVec 96 => (do return .rdexit c : Except Reject Instr)) (wordL 0x901 c 0 0 0 0 0 0 0 0) = _
  simp (disch := decide) only [wordL_append, tyL, dst, srcA, srcB, srcC, imm12, imm32, predC, barI, predDst, Pred.code8,
    bit_cast, fld_cast, fld_high, fld_low, bit_high, bit_low, BitVec.extractLsb'_cast, BitVec.getLsbD_cast, Nat.reduceSub,
    BitVec.extractLsb'_eq_self, opsIb, qCode, bit1_get, Spec.ofCode_code, Ty.ofCode_code, Scope.ofCode_code, Shuf.ofCode_code,
    BitVec.ofNat_eq_ofNat, BitVec.reduceGetLsb, BitVec.reduceExtractLsb', BitVec.reduceToNat,
    Pred.ofCode_code, except_bind, except_map, Bool.false_eq_true, if_true, if_false]
  rfl

theorem gstart (c : Ctl) (d : Spec) : Statement (.gstart c d) := fun _ _ => by
  have ho : (fld (wordL 0x902 c d.code 0 0 0 0 0 0 0) 0 12).toNat = 0x902 := by rw [wordL_op]; rfl
  have hc : parseCtl (wordL 0x902 c d.code 0 0 0 0 0 0 0) = c := by rw [wordL_ctl]
  show parse (wordL 0x902 c d.code 0 0 0 0 0 0 0) = _
  unfold parse
  rw [ho, hc]
  show (fun w : BitVec 96 => (do return .gstart c (← dst w) : Except Reject Instr)) (wordL 0x902 c d.code 0 0 0 0 0 0 0) = _
  simp (disch := decide) only [wordL_append, tyL, dst, srcA, srcB, srcC, imm12, imm32, predC, barI, predDst, Pred.code8,
    bit_cast, fld_cast, fld_high, fld_low, bit_high, bit_low, BitVec.extractLsb'_cast, BitVec.getLsbD_cast, Nat.reduceSub,
    BitVec.extractLsb'_eq_self, opsIb, qCode, bit1_get, Spec.ofCode_code, Ty.ofCode_code, Scope.ofCode_code, Shuf.ofCode_code,
    BitVec.ofNat_eq_ofNat, BitVec.reduceGetLsb, BitVec.reduceExtractLsb', BitVec.reduceToNat,
    Pred.ofCode_code, except_bind, except_map, Bool.false_eq_true, if_true, if_false]
  rfl

theorem gsync (c : Ctl) (d : Spec) : Statement (.gsync c d) := fun _ _ => by
  have ho : (fld (wordL 0x903 c d.code 0 0 0 0 0 0 0) 0 12).toNat = 0x903 := by rw [wordL_op]; rfl
  have hc : parseCtl (wordL 0x903 c d.code 0 0 0 0 0 0 0) = c := by rw [wordL_ctl]
  show parse (wordL 0x903 c d.code 0 0 0 0 0 0 0) = _
  unfold parse
  rw [ho, hc]
  show (fun w : BitVec 96 => (do return .gsync c (← dst w) : Except Reject Instr)) (wordL 0x903 c d.code 0 0 0 0 0 0 0) = _
  simp (disch := decide) only [wordL_append, tyL, dst, srcA, srcB, srcC, imm12, imm32, predC, barI, predDst, Pred.code8,
    bit_cast, fld_cast, fld_high, fld_low, bit_high, bit_low, BitVec.extractLsb'_cast, BitVec.getLsbD_cast, Nat.reduceSub,
    BitVec.extractLsb'_eq_self, opsIb, qCode, bit1_get, Spec.ofCode_code, Ty.ofCode_code, Scope.ofCode_code, Shuf.ofCode_code,
    BitVec.ofNat_eq_ofNat, BitVec.reduceGetLsb, BitVec.reduceExtractLsb', BitVec.reduceToNat,
    Pred.ofCode_code, except_bind, except_map, Bool.false_eq_true, if_true, if_false]
  rfl

theorem dfree (c : Ctl) (a len : Spec) (q : BitVec 3) : Statement (.dfree c a len q) := fun _ _ => by
  have ho : (fld (wordL 0x904 c 0 a.code len.code (qCode q) 0 0 0 0) 0 12).toNat = 0x904 := by rw [wordL_op]; rfl
  have hc : parseCtl (wordL 0x904 c 0 a.code len.code (qCode q) 0 0 0 0) = c := by rw [wordL_ctl]
  show parse (wordL 0x904 c 0 a.code len.code (qCode q) 0 0 0 0) = _
  unfold parse
  rw [ho, hc]
  show (fun w : BitVec 96 => (do return .dfree c (← srcA w) (← srcB w) (fld w 40 3) : Except Reject Instr)) (wordL 0x904 c 0 a.code len.code (qCode q) 0 0 0 0) = _
  simp (disch := decide) only [wordL_append, tyL, dst, srcA, srcB, srcC, imm12, imm32, predC, barI, predDst, Pred.code8,
    bit_cast, fld_cast, fld_high, fld_low, bit_high, bit_low, BitVec.extractLsb'_cast, BitVec.getLsbD_cast, Nat.reduceSub,
    BitVec.extractLsb'_eq_self, opsIb, qCode, bit1_get, Spec.ofCode_code, Ty.ofCode_code, Scope.ofCode_code, Shuf.ofCode_code,
    BitVec.ofNat_eq_ofNat, BitVec.reduceGetLsb, BitVec.reduceExtractLsb', BitVec.reduceToNat,
    Pred.ofCode_code, except_bind, except_map, Bool.false_eq_true, if_true, if_false]
  rfl

theorem gstat (c : Ctl) (d : Spec) (sel : BitVec 12) : Statement (.gstat c d sel) := fun _ _ => by
  have ho : (fld (wordL 0x905 c d.code 0 0 0 0 0 0 sel) 0 12).toNat = 0x905 := by rw [wordL_op]; rfl
  have hc : parseCtl (wordL 0x905 c d.code 0 0 0 0 0 0 sel) = c := by rw [wordL_ctl]
  show parse (wordL 0x905 c d.code 0 0 0 0 0 0 sel) = _
  unfold parse
  rw [ho, hc]
  show (fun w : BitVec 96 => (do return .gstat c (← dst w) (fld w 64 12) : Except Reject Instr)) (wordL 0x905 c d.code 0 0 0 0 0 0 sel) = _
  simp (disch := decide) only [wordL_append, tyL, dst, srcA, srcB, srcC, imm12, imm32, predC, barI, predDst, Pred.code8,
    bit_cast, fld_cast, fld_high, fld_low, bit_high, bit_low, BitVec.extractLsb'_cast, BitVec.getLsbD_cast, Nat.reduceSub,
    BitVec.extractLsb'_eq_self, opsIb, qCode, bit1_get, Spec.ofCode_code, Ty.ofCode_code, Scope.ofCode_code, Shuf.ofCode_code,
    BitVec.ofNat_eq_ofNat, BitVec.reduceGetLsb, BitVec.reduceExtractLsb', BitVec.reduceToNat,
    Pred.ofCode_code, except_bind, except_map, Bool.false_eq_true, if_true, if_false]
  rfl

theorem cpyLoad (c : Ctl) (x : CopyArgs) : Statement (.cpyLoad c x) := fun _ _ => by
  have ho : (fld (x.word 0xA00 c false false) 0 12).toNat = 0xA00 := by rw [CopyArgs.word, wordL_op]; rfl
  have hc : parseCtl (x.word 0xA00 c false false) = c := by rw [CopyArgs.word, wordL_ctl]
  show parse (x.word 0xA00 c false false) = _
  unfold parse
  rw [ho, hc]
  obtain ⟨hx, hd, hs⟩ := parseCopy_word 0xA00 c x false false
  show (fun w : BitVec 96 => (do let x ← parseCopy w; return if w.getLsbD 55 then .cpyStore c x else .cpyLoad c x : Except Reject Instr)) (x.word 0xA00 c false false) = _
  simp only [hx, hd, hs, except_bind, Bool.false_eq_true, if_true, if_false]
  rfl

theorem cpyStore (c : Ctl) (x : CopyArgs) : Statement (.cpyStore c x) := fun _ _ => by
  have ho : (fld (x.word 0xA00 c true false) 0 12).toNat = 0xA00 := by rw [CopyArgs.word, wordL_op]; rfl
  have hc : parseCtl (x.word 0xA00 c true false) = c := by rw [CopyArgs.word, wordL_ctl]
  show parse (x.word 0xA00 c true false) = _
  unfold parse
  rw [ho, hc]
  obtain ⟨hx, hd, hs⟩ := parseCopy_word 0xA00 c x true false
  show (fun w : BitVec 96 => (do let x ← parseCopy w; return if w.getLsbD 55 then .cpyStore c x else .cpyLoad c x : Except Reject Instr)) (x.word 0xA00 c true false) = _
  simp only [hx, hd, hs, except_bind, Bool.false_eq_true, if_true, if_false]
  rfl

theorem cpytLoad (c : Ctl) (x : CopyArgs) : Statement (.cpytLoad c x) := fun _ _ => by
  have ho : (fld (x.word 0xA01 c false false) 0 12).toNat = 0xA01 := by rw [CopyArgs.word, wordL_op]; rfl
  have hc : parseCtl (x.word 0xA01 c false false) = c := by rw [CopyArgs.word, wordL_ctl]
  show parse (x.word 0xA01 c false false) = _
  unfold parse
  rw [ho, hc]
  obtain ⟨hx, hd, hs⟩ := parseCopy_word 0xA01 c x false false
  show (fun w : BitVec 96 => (do let x ← parseCopy w; return if w.getLsbD 55 then .cpytStore c x else .cpytLoad c x : Except Reject Instr)) (x.word 0xA01 c false false) = _
  simp only [hx, hd, hs, except_bind, Bool.false_eq_true, if_true, if_false]
  rfl

theorem cpytStore (c : Ctl) (x : CopyArgs) : Statement (.cpytStore c x) := fun _ _ => by
  have ho : (fld (x.word 0xA01 c true false) 0 12).toNat = 0xA01 := by rw [CopyArgs.word, wordL_op]; rfl
  have hc : parseCtl (x.word 0xA01 c true false) = c := by rw [CopyArgs.word, wordL_ctl]
  show parse (x.word 0xA01 c true false) = _
  unfold parse
  rw [ho, hc]
  obtain ⟨hx, hd, hs⟩ := parseCopy_word 0xA01 c x true false
  show (fun w : BitVec 96 => (do let x ← parseCopy w; return if w.getLsbD 55 then .cpytStore c x else .cpytLoad c x : Except Reject Instr)) (x.word 0xA01 c true false) = _
  simp only [hx, hd, hs, except_bind, Bool.false_eq_true, if_true, if_false]
  rfl

theorem cpym (c : Ctl) (x : CopyArgs) (fromsp : Bool) : Statement (.cpym c x fromsp) := fun _ _ => by
  have ho : (fld (x.word 0xA02 c false fromsp) 0 12).toNat = 0xA02 := by rw [CopyArgs.word, wordL_op]; rfl
  have hc : parseCtl (x.word 0xA02 c false fromsp) = c := by rw [CopyArgs.word, wordL_ctl]
  show parse (x.word 0xA02 c false fromsp) = _
  unfold parse
  rw [ho, hc]
  obtain ⟨hx, hd, hs⟩ := parseCopy_word 0xA02 c x false fromsp
  show (fun w : BitVec 96 => (do return .cpym c (← parseCopy w) (w.getLsbD 57) : Except Reject Instr)) (x.word 0xA02 c false fromsp) = _
  simp only [hx, hd, hs, except_bind, Bool.false_eq_true, if_true, if_false]
  rfl

theorem cpyfLoad (c : Ctl) (x : CopyArgs) : Statement (.cpyfLoad c x) := fun _ _ => by
  have ho : (fld (x.word 0xA03 c false false) 0 12).toNat = 0xA03 := by rw [CopyArgs.word, wordL_op]; rfl
  have hc : parseCtl (x.word 0xA03 c false false) = c := by rw [CopyArgs.word, wordL_ctl]
  show parse (x.word 0xA03 c false false) = _
  unfold parse
  rw [ho, hc]
  obtain ⟨hx, hd, hs⟩ := parseCopy_word 0xA03 c x false false
  show (fun w : BitVec 96 => (do let x ← parseCopy w; return if w.getLsbD 55 then .cpyfStore c x else .cpyfLoad c x : Except Reject Instr)) (x.word 0xA03 c false false) = _
  simp only [hx, hd, hs, except_bind, Bool.false_eq_true, if_true, if_false]
  rfl

theorem cpyfStore (c : Ctl) (x : CopyArgs) : Statement (.cpyfStore c x) := fun _ _ => by
  have ho : (fld (x.word 0xA03 c true false) 0 12).toNat = 0xA03 := by rw [CopyArgs.word, wordL_op]; rfl
  have hc : parseCtl (x.word 0xA03 c true false) = c := by rw [CopyArgs.word, wordL_ctl]
  show parse (x.word 0xA03 c true false) = _
  unfold parse
  rw [ho, hc]
  obtain ⟨hx, hd, hs⟩ := parseCopy_word 0xA03 c x true false
  show (fun w : BitVec 96 => (do let x ← parseCopy w; return if w.getLsbD 55 then .cpyfStore c x else .cpyfLoad c x : Except Reject Instr)) (x.word 0xA03 c true false) = _
  simp only [hx, hd, hs, except_bind, Bool.false_eq_true, if_true, if_false]
  rfl

theorem cpycan (c : Ctl) (d h : Spec) : Statement (.cpycan c d h) := fun _ _ => by
  have ho : (fld (wordL 0xA04 c d.code h.code 0 0 0 0 0 0) 0 12).toNat = 0xA04 := by rw [wordL_op]; rfl
  have hc : parseCtl (wordL 0xA04 c d.code h.code 0 0 0 0 0 0) = c := by rw [wordL_ctl]
  show parse (wordL 0xA04 c d.code h.code 0 0 0 0 0 0) = _
  unfold parse
  rw [ho, hc]
  show (fun w : BitVec 96 => (do return .cpycan c (← dst w) (← srcA w) : Except Reject Instr)) (wordL 0xA04 c d.code h.code 0 0 0 0 0 0) = _
  simp (disch := decide) only [wordL_append, tyL, dst, srcA, srcB, srcC, imm12, imm32, predC, barI, predDst, Pred.code8,
    bit_cast, fld_cast, fld_high, fld_low, bit_high, bit_low, BitVec.extractLsb'_cast, BitVec.getLsbD_cast, Nat.reduceSub,
    BitVec.extractLsb'_eq_self, opsIb, qCode, bit1_get, Spec.ofCode_code, Ty.ofCode_code, Scope.ofCode_code, Shuf.ofCode_code,
    BitVec.ofNat_eq_ofNat, BitVec.reduceGetLsb, BitVec.reduceExtractLsb', BitVec.reduceToNat,
    Pred.ofCode_code, except_bind, except_map, Bool.false_eq_true, if_true, if_false]
  rfl

theorem tctl (c : Ctl) (slot : BitVec 2) (tile : BitVec 3) (a : Spec) (imm : BitVec 20) :
    Statement (.tctl c slot tile a imm) := fun _ _ => by
  have ho : (fld (wordT 0xB00 c 0 a.code tile 0 0 slot 0 imm) 0 12).toNat = 0xB00 := by rw [wordT_op]; rfl
  have hc : parseCtl (wordT 0xB00 c 0 a.code tile 0 0 slot 0 imm) = c := by rw [wordT_ctl]
  show parse (wordT 0xB00 c 0 a.code tile 0 0 slot 0 imm) = _
  unfold parse
  rw [ho, hc]
  show (fun w : BitVec 96 => (do return .tctl c (fld w 40 2) (fld w 32 3) (← srcA w) (fld w 56 20) : Except Reject Instr)) (wordT 0xB00 c 0 a.code tile 0 0 slot 0 imm) = _
  simp (disch := decide) only [wordT_append, tyL, dst, srcA, srcB, srcC, imm12, imm32, predC, barI, predDst, Pred.code8,
    bit_cast, fld_cast, fld_high, fld_low, bit_high, bit_low, BitVec.extractLsb'_cast, BitVec.getLsbD_cast, Nat.reduceSub,
    BitVec.extractLsb'_eq_self, opsIb, qCode, bit1_get, Spec.ofCode_code, Ty.ofCode_code, Scope.ofCode_code, Shuf.ofCode_code,
    BitVec.ofNat_eq_ofNat, BitVec.reduceGetLsb, BitVec.reduceExtractLsb', BitVec.reduceToNat,
    Pred.ofCode_code, except_bind, except_map, Bool.false_eq_true, if_true, if_false]
  rfl

theorem tld (c : Ctl) (x : TileMemArgs) : Statement (.tld c x) := fun _ _ => by
  have ho : (fld (x.word 0xB01 c) 0 12).toNat = 0xB01 := by rw [TileMemArgs.word, wordT_op]; rfl
  have hc : parseCtl (x.word 0xB01 c) = c := by rw [TileMemArgs.word, wordT_ctl]
  show parse (x.word 0xB01 c) = _
  unfold parse
  rw [ho, hc]
  exact congrArg (fun e => e >>= fun y => pure (Instr.tld c y)) (parseTile_word _ _ x)

theorem tst (c : Ctl) (x : TileMemArgs) : Statement (.tst c x) := fun _ _ => by
  have ho : (fld (x.word 0xB02 c) 0 12).toNat = 0xB02 := by rw [TileMemArgs.word, wordT_op]; rfl
  have hc : parseCtl (x.word 0xB02 c) = c := by rw [TileMemArgs.word, wordT_ctl]
  show parse (x.word 0xB02 c) = _
  unfold parse
  rw [ho, hc]
  exact congrArg (fun e => e >>= fun y => pure (Instr.tst c y)) (parseTile_word _ _ x)

theorem mma (c : Ctl) (x : MmaArgs) : Statement (.mma c x) := fun _ _ => by
  have ho : (fld (x.word 0xB03 c) 0 12).toNat = 0xB03 := by rw [MmaArgs.word, wordT_op]; rfl
  have hc : parseCtl (x.word 0xB03 c) = c := by rw [MmaArgs.word, wordT_ctl]
  show parse (x.word 0xB03 c) = _
  unfold parse
  rw [ho, hc]
  show (fun w : BitVec 96 => (do return .mma c ⟨fld w 40 2, fld w 38 2, fld w 32 3, fld w 35 3⟩ : Except Reject Instr)) (x.word 0xB03 c) = _
  simp (disch := decide) only [wordT_append, tyL, dst, srcA, srcB, srcC, imm12, imm32, predC, barI, predDst, Pred.code8,
    bit_cast, fld_cast, fld_high, fld_low, bit_high, bit_low, BitVec.extractLsb'_cast, BitVec.getLsbD_cast, Nat.reduceSub,
    BitVec.extractLsb'_eq_self, opsIb, qCode, bit1_get, Spec.ofCode_code, Ty.ofCode_code, Scope.ofCode_code, Shuf.ofCode_code,
    BitVec.ofNat_eq_ofNat, BitVec.reduceGetLsb, BitVec.reduceExtractLsb', BitVec.reduceToNat,
    Pred.ofCode_code, except_bind, except_map, Bool.false_eq_true, if_true, if_false, MmaArgs.word]
  rfl

theorem mdist (c : Ctl) (x : MmaArgs) : Statement (.mdist c x) := fun _ _ => by
  have ho : (fld (x.word 0xB04 c) 0 12).toNat = 0xB04 := by rw [MmaArgs.word, wordT_op]; rfl
  have hc : parseCtl (x.word 0xB04 c) = c := by rw [MmaArgs.word, wordT_ctl]
  show parse (x.word 0xB04 c) = _
  unfold parse
  rw [ho, hc]
  show (fun w : BitVec 96 => (do return .mdist c ⟨fld w 40 2, fld w 38 2, fld w 32 3, fld w 35 3⟩ : Except Reject Instr)) (x.word 0xB04 c) = _
  simp (disch := decide) only [wordT_append, tyL, dst, srcA, srcB, srcC, imm12, imm32, predC, barI, predDst, Pred.code8,
    bit_cast, fld_cast, fld_high, fld_low, bit_high, bit_low, BitVec.extractLsb'_cast, BitVec.getLsbD_cast, Nat.reduceSub,
    BitVec.extractLsb'_eq_self, opsIb, qCode, bit1_get, Spec.ofCode_code, Ty.ofCode_code, Scope.ofCode_code, Shuf.ofCode_code,
    BitVec.ofNat_eq_ofNat, BitVec.reduceGetLsb, BitVec.reduceExtractLsb', BitVec.reduceToNat,
    Pred.ofCode_code, except_bind, except_map, Bool.false_eq_true, if_true, if_false, MmaArgs.word]
  rfl

theorem azero (c : Ctl) (slot acc : BitVec 2) : Statement (.azero c slot acc) := fun _ _ => by
  have ho : (fld (wordT 0xB05 c 0 0 0 0 acc slot 0 0) 0 12).toNat = 0xB05 := by rw [wordT_op]; rfl
  have hc : parseCtl (wordT 0xB05 c 0 0 0 0 acc slot 0 0) = c := by rw [wordT_ctl]
  show parse (wordT 0xB05 c 0 0 0 0 acc slot 0 0) = _
  unfold parse
  rw [ho, hc]
  show (fun w : BitVec 96 => (do return .azero c (fld w 40 2) (fld w 38 2) : Except Reject Instr)) (wordT 0xB05 c 0 0 0 0 acc slot 0 0) = _
  simp (disch := decide) only [wordT_append, tyL, dst, srcA, srcB, srcC, imm12, imm32, predC, barI, predDst, Pred.code8,
    bit_cast, fld_cast, fld_high, fld_low, bit_high, bit_low, BitVec.extractLsb'_cast, BitVec.getLsbD_cast, Nat.reduceSub,
    BitVec.extractLsb'_eq_self, opsIb, qCode, bit1_get, Spec.ofCode_code, Ty.ofCode_code, Scope.ofCode_code, Shuf.ofCode_code,
    BitVec.ofNat_eq_ofNat, BitVec.reduceGetLsb, BitVec.reduceExtractLsb', BitVec.reduceToNat,
    Pred.ofCode_code, except_bind, except_map, Bool.false_eq_true, if_true, if_false]
  rfl

theorem ard (c : Ctl) (d e : Spec) (slot acc psel : BitVec 2) (raw : Bool) :
    Statement (.ard c d e slot acc psel raw) := fun _ _ => by
  have ho : (fld (wordT 0xB06 c d.code e.code 0 0 acc slot ((0 : BitVec 11) ++ bit1 raw ++ psel) 0) 0 12).toNat = 0xB06 := by rw [wordT_op]; rfl
  have hc : parseCtl (wordT 0xB06 c d.code e.code 0 0 acc slot ((0 : BitVec 11) ++ bit1 raw ++ psel) 0) = c := by rw [wordT_ctl]
  show parse (wordT 0xB06 c d.code e.code 0 0 acc slot ((0 : BitVec 11) ++ bit1 raw ++ psel) 0) = _
  unfold parse
  rw [ho, hc]
  show (fun w : BitVec 96 => (do return .ard c (← dst w) (← srcA w) (fld w 40 2) (fld w 38 2) (fld w 42 2) (w.getLsbD 44) : Except Reject Instr)) (wordT 0xB06 c d.code e.code 0 0 acc slot ((0 : BitVec 11) ++ bit1 raw ++ psel) 0) = _
  rw [show (0 : BitVec 11) ++ bit1 raw ++ psel = BitVec.cast (show 11 + 1 + 2 = 14 from rfl) ((0 : BitVec 11) ++ bit1 raw ++ psel) from rfl]
  simp (disch := decide) only [wordT_append, tyL, dst, srcA, srcB, srcC, imm12, imm32, predC, barI, predDst, Pred.code8,
    bit_cast, fld_cast, fld_high, fld_low, bit_high, bit_low, BitVec.extractLsb'_cast, BitVec.getLsbD_cast, Nat.reduceSub,
    BitVec.extractLsb'_eq_self, opsIb, qCode, bit1_get, Spec.ofCode_code, Ty.ofCode_code, Scope.ofCode_code, Shuf.ofCode_code,
    BitVec.ofNat_eq_ofNat, BitVec.reduceGetLsb, BitVec.reduceExtractLsb', BitVec.reduceToNat,
    Pred.ofCode_code, except_bind, except_map, Bool.false_eq_true, if_true, if_false]
  rfl

theorem acvt (c : Ctl) (slot : BitVec 2) (tile : BitVec 3) (acc psel : BitVec 2) :
    Statement (.acvt c slot tile acc psel) := fun _ _ => by
  have ho : (fld (wordT 0xB07 c 0 0 tile 0 acc slot ((0 : BitVec 12) ++ psel) 0) 0 12).toNat = 0xB07 := by rw [wordT_op]; rfl
  have hc : parseCtl (wordT 0xB07 c 0 0 tile 0 acc slot ((0 : BitVec 12) ++ psel) 0) = c := by rw [wordT_ctl]
  show parse (wordT 0xB07 c 0 0 tile 0 acc slot ((0 : BitVec 12) ++ psel) 0) = _
  unfold parse
  rw [ho, hc]
  show (fun w : BitVec 96 => (do return .acvt c (fld w 40 2) (fld w 32 3) (fld w 38 2) (fld w 42 2) : Except Reject Instr)) (wordT 0xB07 c 0 0 tile 0 acc slot ((0 : BitVec 12) ++ psel) 0) = _
  simp (disch := decide) only [wordT_append, tyL, dst, srcA, srcB, srcC, imm12, imm32, predC, barI, predDst, Pred.code8,
    bit_cast, fld_cast, fld_high, fld_low, bit_high, bit_low, BitVec.extractLsb'_cast, BitVec.getLsbD_cast, Nat.reduceSub,
    BitVec.extractLsb'_eq_self, opsIb, qCode, bit1_get, Spec.ofCode_code, Ty.ofCode_code, Scope.ofCode_code, Shuf.ofCode_code,
    BitVec.ofNat_eq_ofNat, BitVec.reduceGetLsb, BitVec.reduceExtractLsb', BitVec.reduceToNat,
    Pred.ofCode_code, except_bind, except_map, Bool.false_eq_true, if_true, if_false]
  rfl

theorem atopk (c : Ctl) (slot acc : BitVec 2) (a : Spec) (k : BitVec 5) (init min : Bool) :
    Statement (.atopk c slot acc a k init min) := fun _ _ => by
  have ho : (fld (wordT 0xB08 c 0 a.code 0 0 acc slot ((0 : BitVec 7) ++ bit1 min ++ bit1 init ++ k) 0) 0 12).toNat = 0xB08 := by rw [wordT_op]; rfl
  have hc : parseCtl (wordT 0xB08 c 0 a.code 0 0 acc slot ((0 : BitVec 7) ++ bit1 min ++ bit1 init ++ k) 0) = c := by rw [wordT_ctl]
  show parse (wordT 0xB08 c 0 a.code 0 0 acc slot ((0 : BitVec 7) ++ bit1 min ++ bit1 init ++ k) 0) = _
  unfold parse
  rw [ho, hc]
  show (fun w : BitVec 96 => (do return .atopk c (fld w 40 2) (fld w 38 2) (← srcA w) (fld w 42 5) (w.getLsbD 47) (w.getLsbD 48) : Except Reject Instr)) (wordT 0xB08 c 0 a.code 0 0 acc slot ((0 : BitVec 7) ++ bit1 min ++ bit1 init ++ k) 0) = _
  rw [show (0 : BitVec 7) ++ bit1 min ++ bit1 init ++ k = BitVec.cast (show 7 + 1 + 1 + 5 = 14 from rfl) ((0 : BitVec 7) ++ bit1 min ++ bit1 init ++ k) from rfl]
  simp (disch := decide) only [wordT_append, tyL, dst, srcA, srcB, srcC, imm12, imm32, predC, barI, predDst, Pred.code8,
    bit_cast, fld_cast, fld_high, fld_low, bit_high, bit_low, BitVec.extractLsb'_cast, BitVec.getLsbD_cast, Nat.reduceSub,
    BitVec.extractLsb'_eq_self, opsIb, qCode, bit1_get, Spec.ofCode_code, Ty.ofCode_code, Scope.ofCode_code, Shuf.ofCode_code,
    BitVec.ofNat_eq_ofNat, BitVec.reduceGetLsb, BitVec.reduceExtractLsb', BitVec.reduceToNat,
    Pred.ofCode_code, except_bind, except_map, Bool.false_eq_true, if_true, if_false]
  rfl

theorem asave (c : Ctl) (x : AccMemArgs) : Statement (.asave c x) := fun _ _ => by
  have ho : (fld (x.word 0xB09 c) 0 12).toNat = 0xB09 := by rw [AccMemArgs.word, wordT_op]; rfl
  have hc : parseCtl (x.word 0xB09 c) = c := by rw [AccMemArgs.word, wordT_ctl]
  show parse (x.word 0xB09 c) = _
  unfold parse
  rw [ho, hc]
  show (fun w : BitVec 96 => (do return .asave c ⟨fld w 40 2, fld w 38 2, ← srcA w, fld w 56 20, w.getLsbD 42⟩ : Except Reject Instr)) (x.word 0xB09 c) = _
  simp (disch := decide) only [wordT_append, tyL, dst, srcA, srcB, srcC, imm12, imm32, predC, barI, predDst, Pred.code8,
    bit_cast, fld_cast, fld_high, fld_low, bit_high, bit_low, BitVec.extractLsb'_cast, BitVec.getLsbD_cast, Nat.reduceSub,
    BitVec.extractLsb'_eq_self, opsIb, qCode, bit1_get, Spec.ofCode_code, Ty.ofCode_code, Scope.ofCode_code, Shuf.ofCode_code,
    BitVec.ofNat_eq_ofNat, BitVec.reduceGetLsb, BitVec.reduceExtractLsb', BitVec.reduceToNat,
    Pred.ofCode_code, except_bind, except_map, Bool.false_eq_true, if_true, if_false, AccMemArgs.word]
  simp (disch := decide) only [Nat.reduceAdd, Nat.reduceSub, BitVec.extractLsb'_eq_self, bit1_get, Spec.ofCode_code,
    Ty.ofCode_code, Scope.ofCode_code, Pred.ofCode_code, BitVec.reduceExtractLsb', BitVec.reduceGetLsb, BitVec.reduceToNat,
    except_bind, except_map,
    Bool.false_eq_true, if_true, if_false]
  rfl

theorem arest (c : Ctl) (x : AccMemArgs) : Statement (.arest c x) := fun _ _ => by
  have ho : (fld (x.word 0xB0A c) 0 12).toNat = 0xB0A := by rw [AccMemArgs.word, wordT_op]; rfl
  have hc : parseCtl (x.word 0xB0A c) = c := by rw [AccMemArgs.word, wordT_ctl]
  show parse (x.word 0xB0A c) = _
  unfold parse
  rw [ho, hc]
  show (fun w : BitVec 96 => (do return .arest c ⟨fld w 40 2, fld w 38 2, ← srcA w, fld w 56 20, w.getLsbD 42⟩ : Except Reject Instr)) (x.word 0xB0A c) = _
  simp (disch := decide) only [wordT_append, tyL, dst, srcA, srcB, srcC, imm12, imm32, predC, barI, predDst, Pred.code8,
    bit_cast, fld_cast, fld_high, fld_low, bit_high, bit_low, BitVec.extractLsb'_cast, BitVec.getLsbD_cast, Nat.reduceSub,
    BitVec.extractLsb'_eq_self, opsIb, qCode, bit1_get, Spec.ofCode_code, Ty.ofCode_code, Scope.ofCode_code, Shuf.ofCode_code,
    BitVec.ofNat_eq_ofNat, BitVec.reduceGetLsb, BitVec.reduceExtractLsb', BitVec.reduceToNat,
    Pred.ofCode_code, except_bind, except_map, Bool.false_eq_true, if_true, if_false, AccMemArgs.word]
  simp (disch := decide) only [Nat.reduceAdd, Nat.reduceSub, BitVec.extractLsb'_eq_self, bit1_get, Spec.ofCode_code,
    Ty.ofCode_code, Scope.ofCode_code, Pred.ofCode_code, BitVec.reduceExtractLsb', BitVec.reduceGetLsb, BitVec.reduceToNat,
    except_bind, except_map,
    Bool.false_eq_true, if_true, if_false]
  rfl

theorem trap (c : Ctl) (n : Word) : Statement (.trap c n) := fun _ _ => by
  have ho : (fld (wordI 0xC00 c 0 0 n 0 0 0) 0 12).toNat = 0xC00 := by rw [wordI_op]; rfl
  have hc : parseCtl (wordI 0xC00 c 0 0 n 0 0 0) = c := by rw [wordI_ctl]
  show parse (wordI 0xC00 c 0 0 n 0 0 0) = _
  unfold parse
  rw [ho, hc]
  show (fun w : BitVec 96 => (do return .trap c (imm32 w) : Except Reject Instr)) (wordI 0xC00 c 0 0 n 0 0 0) = _
  simp (disch := decide) only [wordI_append, tyL, dst, srcA, srcB, srcC, imm12, imm32, predC, barI, predDst, Pred.code8,
    bit_cast, fld_cast, fld_high, fld_low, bit_high, bit_low, BitVec.extractLsb'_cast, BitVec.getLsbD_cast, Nat.reduceSub,
    BitVec.extractLsb'_eq_self, opsIb, qCode, bit1_get, Spec.ofCode_code, Ty.ofCode_code, Scope.ofCode_code, Shuf.ofCode_code,
    BitVec.ofNat_eq_ofNat, BitVec.reduceGetLsb, BitVec.reduceExtractLsb', BitVec.reduceToNat,
    Pred.ofCode_code, except_bind, except_map, Bool.false_eq_true, if_true, if_false]
  rfl

theorem rtt (c : Ctl) : Statement (.rtt c) := fun _ _ => by
  have ho : (fld (wordI 0xC01 c 0 0 0 0 0 0) 0 12).toNat = 0xC01 := by rw [wordI_op]; rfl
  have hc : parseCtl (wordI 0xC01 c 0 0 0 0 0 0) = c := by rw [wordI_ctl]
  show parse (wordI 0xC01 c 0 0 0 0 0 0) = _
  unfold parse
  rw [ho, hc]
  show (fun w : BitVec 96 => (do return .rtt c : Except Reject Instr)) (wordI 0xC01 c 0 0 0 0 0 0) = _
  simp (disch := decide) only [wordI_append, tyL, dst, srcA, srcB, srcC, imm12, imm32, predC, barI, predDst, Pred.code8,
    bit_cast, fld_cast, fld_high, fld_low, bit_high, bit_low, BitVec.extractLsb'_cast, BitVec.getLsbD_cast, Nat.reduceSub,
    BitVec.extractLsb'_eq_self, opsIb, qCode, bit1_get, Spec.ofCode_code, Ty.ofCode_code, Scope.ofCode_code, Shuf.ofCode_code,
    BitVec.ofNat_eq_ofNat, BitVec.reduceGetLsb, BitVec.reduceExtractLsb', BitVec.reduceToNat,
    Pred.ofCode_code, except_bind, except_map, Bool.false_eq_true, if_true, if_false]
  rfl

theorem ctlrd (c : Ctl) (d : Spec) (creg : Word) : Statement (.ctlrd c d creg) := fun _ _ => by
  have ho : (fld (wordI 0xC02 c d.code 0 creg 0 0 0) 0 12).toNat = 0xC02 := by rw [wordI_op]; rfl
  have hc : parseCtl (wordI 0xC02 c d.code 0 creg 0 0 0) = c := by rw [wordI_ctl]
  show parse (wordI 0xC02 c d.code 0 creg 0 0 0) = _
  unfold parse
  rw [ho, hc]
  show (fun w : BitVec 96 => (do return .ctlrd c (← dst w) (imm32 w) : Except Reject Instr)) (wordI 0xC02 c d.code 0 creg 0 0 0) = _
  simp (disch := decide) only [wordI_append, tyL, dst, srcA, srcB, srcC, imm12, imm32, predC, barI, predDst, Pred.code8,
    bit_cast, fld_cast, fld_high, fld_low, bit_high, bit_low, BitVec.extractLsb'_cast, BitVec.getLsbD_cast, Nat.reduceSub,
    BitVec.extractLsb'_eq_self, opsIb, qCode, bit1_get, Spec.ofCode_code, Ty.ofCode_code, Scope.ofCode_code, Shuf.ofCode_code,
    BitVec.ofNat_eq_ofNat, BitVec.reduceGetLsb, BitVec.reduceExtractLsb', BitVec.reduceToNat,
    Pred.ofCode_code, except_bind, except_map, Bool.false_eq_true, if_true, if_false]
  rfl

theorem ctlwr (c : Ctl) (creg : Word) (a : Spec) : Statement (.ctlwr c creg a) := fun _ _ => by
  have ho : (fld (wordI 0xC03 c 0 a.code creg 0 0 0) 0 12).toNat = 0xC03 := by rw [wordI_op]; rfl
  have hc : parseCtl (wordI 0xC03 c 0 a.code creg 0 0 0) = c := by rw [wordI_ctl]
  show parse (wordI 0xC03 c 0 a.code creg 0 0 0) = _
  unfold parse
  rw [ho, hc]
  show (fun w : BitVec 96 => (do return .ctlwr c (imm32 w) (← srcA w) : Except Reject Instr)) (wordI 0xC03 c 0 a.code creg 0 0 0) = _
  simp (disch := decide) only [wordI_append, tyL, dst, srcA, srcB, srcC, imm12, imm32, predC, barI, predDst, Pred.code8,
    bit_cast, fld_cast, fld_high, fld_low, bit_high, bit_low, BitVec.extractLsb'_cast, BitVec.getLsbD_cast, Nat.reduceSub,
    BitVec.extractLsb'_eq_self, opsIb, qCode, bit1_get, Spec.ofCode_code, Ty.ofCode_code, Scope.ofCode_code, Shuf.ofCode_code,
    BitVec.ofNat_eq_ofNat, BitVec.reduceGetLsb, BitVec.reduceExtractLsb', BitVec.reduceToNat,
    Pred.ofCode_code, except_bind, except_map, Bool.false_eq_true, if_true, if_false]
  rfl

theorem clockTick (c : Ctl) (d : Spec) : Statement (.clockTick c d) := fun _ _ => by
  have ho : (fld (wordI 0xC04 c d.code 0 0 0 0 0) 0 12).toNat = 0xC04 := by rw [wordI_op]; rfl
  have hc : parseCtl (wordI 0xC04 c d.code 0 0 0 0 0) = c := by rw [wordI_ctl]
  show parse (wordI 0xC04 c d.code 0 0 0 0 0) = _
  unfold parse
  rw [ho, hc]
  show (fun w : BitVec 96 => (do let d ← dst w; return if w.getLsbD 71 then .clockCyc c d else .clockTick c d : Except Reject Instr)) (wordI 0xC04 c d.code 0 0 0 0 0) = _
  simp (disch := decide) only [wordI_append, tyL, dst, srcA, srcB, srcC, imm12, imm32, predC, barI, predDst, Pred.code8,
    bit_cast, fld_cast, fld_high, fld_low, bit_high, bit_low, BitVec.extractLsb'_cast, BitVec.getLsbD_cast, Nat.reduceSub,
    BitVec.extractLsb'_eq_self, opsIb, qCode, bit1_get, Spec.ofCode_code, Ty.ofCode_code, Scope.ofCode_code, Shuf.ofCode_code,
    BitVec.ofNat_eq_ofNat, BitVec.reduceGetLsb, BitVec.reduceExtractLsb', BitVec.reduceToNat,
    Pred.ofCode_code, except_bind, except_map, Bool.false_eq_true, if_true, if_false]
  rfl

theorem clockCyc (c : Ctl) (d : Spec) : Statement (.clockCyc c d) := fun _ _ => by
  have ho : (fld (wordI 0xC04 c d.code 0 0 0 0 1) 0 12).toNat = 0xC04 := by rw [wordI_op]; rfl
  have hc : parseCtl (wordI 0xC04 c d.code 0 0 0 0 1) = c := by rw [wordI_ctl]
  show parse (wordI 0xC04 c d.code 0 0 0 0 1) = _
  unfold parse
  rw [ho, hc]
  show (fun w : BitVec 96 => (do let d ← dst w; return if w.getLsbD 71 then .clockCyc c d else .clockTick c d : Except Reject Instr)) (wordI 0xC04 c d.code 0 0 0 0 1) = _
  simp (disch := decide) only [wordI_append, tyL, dst, srcA, srcB, srcC, imm12, imm32, predC, barI, predDst, Pred.code8,
    bit_cast, fld_cast, fld_high, fld_low, bit_high, bit_low, BitVec.extractLsb'_cast, BitVec.getLsbD_cast, Nat.reduceSub,
    BitVec.extractLsb'_eq_self, opsIb, qCode, bit1_get, Spec.ofCode_code, Ty.ofCode_code, Scope.ofCode_code, Shuf.ofCode_code,
    BitVec.ofNat_eq_ofNat, BitVec.reduceGetLsb, BitVec.reduceExtractLsb', BitVec.reduceToNat,
    Pred.ofCode_code, except_bind, except_map, Bool.false_eq_true, if_true, if_false]
  rfl

theorem brk (c : Ctl) : Statement (.brk c) := fun _ _ => by
  have ho : (fld (wordI 0xC05 c 0 0 0 0 0 0) 0 12).toNat = 0xC05 := by rw [wordI_op]; rfl
  have hc : parseCtl (wordI 0xC05 c 0 0 0 0 0 0) = c := by rw [wordI_ctl]
  show parse (wordI 0xC05 c 0 0 0 0 0 0) = _
  unfold parse
  rw [ho, hc]
  show (fun w : BitVec 96 => (do return .brk c : Except Reject Instr)) (wordI 0xC05 c 0 0 0 0 0 0) = _
  simp (disch := decide) only [wordI_append, tyL, dst, srcA, srcB, srcC, imm12, imm32, predC, barI, predDst, Pred.code8,
    bit_cast, fld_cast, fld_high, fld_low, bit_high, bit_low, BitVec.extractLsb'_cast, BitVec.getLsbD_cast, Nat.reduceSub,
    BitVec.extractLsb'_eq_self, opsIb, qCode, bit1_get, Spec.ofCode_code, Ty.ofCode_code, Scope.ofCode_code, Shuf.ofCode_code,
    BitVec.ofNat_eq_ofNat, BitVec.reduceGetLsb, BitVec.reduceExtractLsb', BitVec.reduceToNat,
    Pred.ofCode_code, except_bind, except_map, Bool.false_eq_true, if_true, if_false]
  rfl

theorem mark (c : Ctl) (a : Spec) (sr : Bool) (imm : Word) : Statement (.mark c a sr imm) := fun _ _ => by
  have ho : (fld (wordI 0xC06 c 0 a.code imm 0 0 ((0 : BitVec 4) ++ bit1 sr)) 0 12).toNat = 0xC06 := by rw [wordI_op]; rfl
  have hc : parseCtl (wordI 0xC06 c 0 a.code imm 0 0 ((0 : BitVec 4) ++ bit1 sr)) = c := by rw [wordI_ctl]
  show parse (wordI 0xC06 c 0 a.code imm 0 0 ((0 : BitVec 4) ++ bit1 sr)) = _
  unfold parse
  rw [ho, hc]
  show (fun w : BitVec 96 => (do return .mark c (← srcA w) (w.getLsbD 71) (imm32 w) : Except Reject Instr)) (wordI 0xC06 c 0 a.code imm 0 0 ((0 : BitVec 4) ++ bit1 sr)) = _
  simp (disch := decide) only [wordI_append, tyL, dst, srcA, srcB, srcC, imm12, imm32, predC, barI, predDst, Pred.code8,
    bit_cast, fld_cast, fld_high, fld_low, bit_high, bit_low, BitVec.extractLsb'_cast, BitVec.getLsbD_cast, Nat.reduceSub,
    BitVec.extractLsb'_eq_self, opsIb, qCode, bit1_get, Spec.ofCode_code, Ty.ofCode_code, Scope.ofCode_code, Shuf.ofCode_code,
    BitVec.ofNat_eq_ofNat, BitVec.reduceGetLsb, BitVec.reduceExtractLsb', BitVec.reduceToNat,
    Pred.ofCode_code, except_bind, except_map, Bool.false_eq_true, if_true, if_false]
  rfl

theorem breakpointHit (w : WarpRef) : Statement (.breakpointHit w) := fun h => nomatch h
theorem stallCountExpiry (w : WarpRef) : Statement (.stallCountExpiry w) := fun h => nomatch h
theorem fetchRedirectExpiry (w : WarpRef) : Statement (.fetchRedirectExpiry w) := fun h => nomatch h
theorem splitSwitchExpiry (w : WarpRef) : Statement (.splitSwitchExpiry w) := fun h => nomatch h
theorem instructionCompletion (w : WarpRef) (k : Nat) : Statement (.instructionCompletion w k) := fun h => nomatch h
theorem registerWriteLands (w : WarpRef) (k : Nat) : Statement (.registerWriteLands w k) := fun h => nomatch h
theorem windowMoveDone (w : WarpRef) : Statement (.windowMoveDone w) := fun h => nomatch h
theorem spillWrite (core k : Nat) : Statement (.spillWrite core k) := fun h => nomatch h
theorem claimServed (cr : CrewRef) (quarter : Nat) : Statement (.claimServed cr quarter) := fun h => nomatch h
theorem claimDeadlock (cr : CrewRef) (quarter : Nat) : Statement (.claimDeadlock cr quarter) := fun h => nomatch h
theorem crewDeadlock (cr : CrewRef) : Statement (.crewDeadlock cr) := fun h => nomatch h
theorem queueRowLands (q : CrewQueueRef) (k : Nat) : Statement (.queueRowLands q k) := fun h => nomatch h
theorem queueHeadStaged (q : CrewQueueRef) : Statement (.queueHeadStaged q) := fun h => nomatch h
theorem queueStateError (q : CrewQueueRef) : Statement (.queueStateError q) := fun h => nomatch h
theorem graceDelivery (x : CtxRef) : Statement (.graceDelivery x) := fun h => nomatch h
theorem deliveryPendingSlot (q : CrewQueueRef) : Statement (.deliveryPendingSlot q) := fun h => nomatch h
theorem arrivalApplied (cr : CrewRef) (group bar warp : Nat) : Statement (.arrivalApplied cr group bar warp) := fun h => nomatch h
theorem waitEvaluation (w : WarpRef) : Statement (.waitEvaluation w) := fun h => nomatch h
theorem waitDeadline (w : WarpRef) : Statement (.waitDeadline w) := fun h => nomatch h
theorem graceStartAtHome (x : CtxRef) : Statement (.graceStartAtHome x) := fun h => nomatch h
theorem graceNumberReturned (w : WarpRef) : Statement (.graceNumberReturned w) := fun h => nomatch h
theorem depthChangeAtHome (x : CtxRef) : Statement (.depthChangeAtHome x) := fun h => nomatch h
theorem curReceived (x : CtxRef) (core : Nat) : Statement (.curReceived x core) := fun h => nomatch h
theorem curAcknowledged (x : CtxRef) (core : Nat) : Statement (.curAcknowledged x core) := fun h => nomatch h
theorem doneReceived (x : CtxRef) (core : Nat) : Statement (.doneReceived x core) := fun h => nomatch h
theorem copyUnitLanded (core k unit receiver : Nat) : Statement (.copyUnitLanded core k unit receiver) := fun h => nomatch h
theorem copyUnitFault (core k unit : Nat) : Statement (.copyUnitFault core k unit) := fun h => nomatch h
theorem matrixUnitTake (core : Nat) : Statement (.matrixUnitTake core) := fun h => nomatch h
theorem matrixOpCompletion (core : Nat) : Statement (.matrixOpCompletion core) := fun h => nomatch h
theorem tilePathCompletion (core : Nat) : Statement (.tilePathCompletion core) := fun h => nomatch h
theorem uncorrectableError (e : ErrorSite) : Statement (.uncorrectableError e) := fun h => nomatch h
theorem lineAgeExpiry (cache : CacheRef) (line : Nat) : Statement (.lineAgeExpiry cache line) := fun h => nomatch h
theorem watchdog (w : WarpRef) : Statement (.watchdog w) := fun h => nomatch h
theorem pcSampling (core quarter : Nat) : Statement (.pcSampling core quarter) := fun h => nomatch h
theorem comparePoint (w : WarpRef) : Statement (.comparePoint w) := fun h => nomatch h
theorem kick (q : QueueRef) (value : BitVec 32) : Statement (.kick q value) := fun h => nomatch h
theorem packetReread (q : QueueRef) : Statement (.packetReread q) := fun h => nomatch h
theorem launch (q : QueueRef) : Statement (.launch q) := fun h => nomatch h
theorem waitOnValue (q : QueueRef) : Statement (.waitOnValue q) := fun h => nomatch h
theorem waitOnValuePoll (q : QueueRef) : Statement (.waitOnValuePoll q) := fun h => nomatch h
theorem writeValue (q : QueueRef) : Statement (.writeValue q) := fun h => nomatch h
theorem copy (q : QueueRef) : Statement (.copy q) := fun h => nomatch h
theorem faultAcknowledgement (q : QueueRef) : Statement (.faultAcknowledgement q) := fun h => nomatch h
theorem createContext (q : QueueRef) : Statement (.createContext q) := fun h => nomatch h
theorem destroyContext (q : QueueRef) : Statement (.destroyContext q) := fun h => nomatch h
theorem queueCreate (q : QueueRef) : Statement (.queueCreate q) := fun h => nomatch h
theorem queueStop (q : QueueRef) (managed : Bool) : Statement (.queueStop q managed) := fun h => nomatch h
theorem queueRestart (q : QueueRef) (managed : Option (BitVec 32)) : Statement (.queueRestart q managed) := fun h => nomatch h
theorem translationInvalidation (q : QueueRef) : Statement (.translationInvalidation q) := fun h => nomatch h
theorem swapOut (q : QueueRef) : Statement (.swapOut q) := fun h => nomatch h
theorem resume (q : QueueRef) : Statement (.resume q) := fun h => nomatch h
theorem partitionSave (q : QueueRef) : Statement (.partitionSave q) := fun h => nomatch h
theorem partitionRestore (q : QueueRef) : Statement (.partitionRestore q) := fun h => nomatch h
theorem preemptionComplete (q : QueueRef) : Statement (.preemptionComplete q) := fun h => nomatch h
theorem setWdogctl (q : QueueRef) : Statement (.setWdogctl q) := fun h => nomatch h
theorem setApertureEntry (q : QueueRef) : Statement (.setApertureEntry q) := fun h => nomatch h
theorem sampling (q : QueueRef) : Statement (.sampling q) := fun h => nomatch h
theorem dispatchDecision (part : Nat) : Statement (.dispatchDecision part) := fun h => nomatch h
theorem crewEnd (cr : CrewRef) : Statement (.crewEnd cr) := fun h => nomatch h
theorem eventRingReadIndex (part : Nat) (ctx : Option Nat) (value : BitVec 32) : Statement (.eventRingReadIndex part ctx value) := fun h => nomatch h
theorem samplingRingReadIndex (x : CtxRef) (value : BitVec 32) : Statement (.samplingRingReadIndex x value) := fun h => nomatch h
theorem deadLetterTail (die : Nat) (value : BitVec 32) : Statement (.deadLetterTail die value) := fun h => nomatch h
theorem registerWriteOther (off : Nat) (value : BitVec 32) : Statement (.registerWriteOther off value) := fun h => nomatch h
theorem hostBar2Access (off : Nat) (a : ExtAccess) : Statement (.hostBar2Access off a) := fun h => nomatch h
theorem peerAccess (x : CtxRef) (va : Nat) (a : ExtAccess) : Statement (.peerAccess x va a) := fun h => nomatch h
theorem flitRetry (port : Nat) : Statement (.flitRetry port) := fun h => nomatch h
theorem linkFailure (port : Nat) (victims : List FabricUser) : Statement (.linkFailure port victims) := fun h => nomatch h
theorem ptpMessage (m : PtpMessage) : Statement (.ptpMessage m) := fun h => nomatch h
theorem pulsePerSecond  : Statement (.pulsePerSecond ) := fun h => nomatch h
theorem offsetRemoval (masterTick : BitVec 64) : Statement (.offsetRemoval masterTick) := fun h => nomatch h
theorem offsetRemoved  : Statement (.offsetRemoved ) := fun h => nomatch h
theorem masterLoss  : Statement (.masterLoss ) := fun h => nomatch h
theorem holdoverExpiry  : Statement (.holdoverExpiry ) := fun h => nomatch h
theorem powerGood (image : BootImage) (record : BootRecord) : Statement (.powerGood image record) := fun h => nomatch h
theorem stageComplete  : Statement (.stageComplete ) := fun h => nomatch h
theorem thermalLimit  : Statement (.thermalLimit ) := fun h => nomatch h
theorem thermalShutdown  : Statement (.thermalShutdown ) := fun h => nomatch h
theorem partitionFormation (a : FormArgs) : Statement (.partitionFormation a) := fun h => nomatch h
theorem attestation (nonce : List (BitVec 8)) : Statement (.attestation nonce) := fun h => nomatch h
theorem debuggerAttach (x : CtxRef) (scope : StopScope) : Statement (.debuggerAttach x scope) := fun h => nomatch h
theorem debugStop (w : WarpRef) : Statement (.debugStop w) := fun h => nomatch h
theorem debugResume (w : WarpRef) : Statement (.debugResume w) := fun h => nomatch h
theorem singleStep (w : WarpRef) : Statement (.singleStep w) := fun h => nomatch h
theorem setBreakpoint (x : CtxRef) (k : Nat) (pc : Option Word) : Statement (.setBreakpoint x k pc) := fun h => nomatch h
theorem debugStateAccess (w : WarpRef) (a : DebugAccess) : Statement (.debugStateAccess w a) := fun h => nomatch h
theorem peerFault (u : FabricUser) (addr : BitVec 64) : Statement (.peerFault u addr) := fun h => nomatch h
end Sys2Proof.Laws.RoundTrip
end

