-- ==== Sys2Proof/Laws/Results.lean ====
section
/-! SUPPORT. Results in registers, said once: a register write leaves the splits, and what an instruction with a lane, a
wide, a scalar or a predicate result leaves when it issues. -/

namespace Sys2Proof.Machine

/-! ## Register writes leave the splits -/

/-- The splits of a warp and whether it steps: all that lets an issue go on. -/
def Warp.course (w : Warp) : List (Option Split) × Bool := (w.splits, w.stepping)

theorem Warp.live_of_course {w v : Warp} (h : w.course = v.course) (hv : v.live) : w.live := by
  obtain ⟨n, s, hs⟩ := hv
  have : w.splits = v.splits := congrArg Prod.fst h
  exact ⟨n, s, by unfold Warp.splitAt at hs ⊢; rw [this]; exact hs⟩

theorem Warp.stepping_of_course {w v : Warp} (h : w.course = v.course) (hv : v.stepping = false) : w.stepping = false :=
  (congrArg Prod.snd h).trans hv

@[simp] theorem Warp.course_writeRow (w : Warp) (r m d b) : (w.writeRow r m d b).course = w.course := by
  unfold Warp.writeRow Warp.setRow
  dsimp only
  split <;> rfl

@[simp] theorem Warp.course_setScalar (w : Warp) (n v) : (w.setScalar n v).course = w.course := rfl

@[simp] theorem Warp.course_setScalarPair (w : Warp) (n v) : (w.setScalarPair n v).course = w.course := rfl

@[simp] theorem Warp.course_setPred (w : Warp) (p v) : (w.setPred p v).course = w.course := rfl

@[simp] theorem Warp.course_raise (w : Warp) (f) : (w.raise f).course = w.course := rfl
@[simp] theorem Warp.course_record (w : Warp) (c t) : (w.record c t).course = w.course := rfl
@[simp] theorem Warp.course_advance (w : Warp) (m n) : (w.advance m n).course = w.course := rfl

@[simp] theorem Cx.course_write (x : Cx) (w : Warp) (d m r b) : (x.write w d m r b).course = w.course := by
  unfold Cx.write
  split
  · exact Warp.course_writeRow ..
  · rename_i k
    generalize maskLanes m = l
    induction l generalizing w with
    | nil => rfl
    | cons a l ih => simp only [List.foldl_cons]; rw [ih]; exact Warp.course_writeRow ..
  · rfl

@[simp] theorem Cx.course_writeWide (x : Cx) (w : Warp) (d k m r b) : (x.writeWide w d k m r b).course = w.course := by
  unfold Cx.writeWide
  split
  · exact Warp.course_writeRow ..
  · split
    · exact Cx.course_write ..
    · rfl

@[simp] theorem Cx.course_writeScal (x : Cx) (w : Warp) (d v) : (x.writeScal w d v).course = w.course := by
  unfold Cx.writeScal; split <;> simp

@[simp] theorem Cx.course_writeScal64 (x : Cx) (w : Warp) (d v) : (x.writeScal64 w d v).course = w.course := by
  unfold Cx.writeScal64; split <;> simp

@[simp] theorem Cx.course_writePred (x : Cx) (w : Warp) (p m v) : (x.writePred w p m v).course = w.course :=
  Warp.course_setPred ..

@[simp] theorem Cx.course_settleDraws (x : Cx) (w : Warp) (m d) : (x.settleDraws w m d).course = w.course := by
  unfold Cx.settleDraws
  split <;> simp

theorem Warp.course_resolve {w v : Warp} {t m a b} (h : w.resolve t m a = .ok (v, b)) : v.course = w.course := by
  unfold Warp.resolve at h
  split at h
  · cases h; rfl
  · extract_lets d u at h
    split at h
    · cases h; rfl
    · split at h
      · cases h
      · injection h with h
        rw [← (Prod.mk.inj h).1]
        exact Warp.course_record w .cmpdis d

theorem Warp.course_event {w v : Warp} {c n} (h : w.event c n = .ok v) : v.course = w.course := by
  unfold Warp.event at h
  split at h
  · cases h; rfl
  · dsimp only at h
    split at h
    · cases h
    · cases h; rfl

/-! ## What a result leaves -/

/-- A ready instruction that acts on its own warp alone and leaves its splits. -/
theorem issues_of_result {s : State} {i : Instr} {x : Cx} {body : Cx → Attempt} {w : Warp} {d : Done}
    (h : s.ready i = some x) (hi : exec i s = issue i s body) (hb : body x = .done (x.put w) d)
    (hw : w.course = x.w.course) (ho : d.off = 0) (hp : d.setPc = false) :
    s.issues i x s (x.next w) d.flight.isSome d.pops d.push (if d.flight.isSome then d.raise else none) := by
  have hr := (State.ready_elim h).1
  exact issues_of_put h hi hb (Warp.live_of_course hw hr.live) (Warp.stepping_of_course hw hr.stepping) ho hp

/-- R55, R79: a lane result; `raise`: the flags that its completion sets (R110). -/
theorem issues_of_lane {s : State} {i : Instr} {x : Cx} {body : Cx → Attempt} {w : Warp} {dst : Spec} {row : Row}
    {raise : Option Word} (h : s.ready i = some x) (hi : exec i s = issue i s body) (hb : body x = x.laneDone w dst row raise)
    (hw : w.course = x.w.course) : s.issues i x s (x.next (x.write w dst x.act row 0)) true [] (x.pushed dst row) raise := by
  unfold Cx.laneDone at hb
  split at hb
  · exact issues_of_result h hi hb hw rfl rfl
  · rename_i hq
    have := issues_of_result h hi hb (by simpa using hw) rfl rfl
    have hp : x.pushed dst row = none := by
      unfold Cx.pushed
      split
      · rename_i n; exact absurd rfl (hq n)
      · rfl
    rw [hp]
    exact this

/-- R56: a wide lane result of two registers. -/
theorem issues_of_wide {s : State} {i : Instr} {x : Cx} {body : Cx → Attempt} {w : Warp} {dst : Spec} {lo hi : Row}
    (h : s.ready i = some x) (hi' : exec i s = issue i s body) (hb : body x = x.wideDone w dst [lo, hi])
    (hw : w.course = x.w.course) :
    s.issues i x s (x.next (x.writeWide (x.writeWide w dst 0 x.act lo 0) dst 1 x.act hi 0)) true [] none :=
  issues_of_result h hi' hb (by show Warp.course (x.writeWide (x.writeWide w dst 0 x.act lo 0) dst 1 x.act hi 0) = _; simpa using hw)
    rfl rfl

theorem issues_of_scal {s : State} {i : Instr} {x : Cx} {body : Cx → Attempt} {w : Warp} {dst : Spec} {v : Word}
    (h : s.ready i = some x) (hi : exec i s = issue i s body) (hb : body x = x.scalDone w dst v)
    (hw : w.course = x.w.course) : s.issues i x s (x.next (x.writeScal w dst v)) true [] none :=
  issues_of_result h hi hb (by simpa using hw) rfl rfl

theorem issues_of_pair {s : State} {i : Instr} {x : Cx} {body : Cx → Attempt} {w : Warp} {dst : Spec} {v : DWord}
    (h : s.ready i = some x) (hi : exec i s = issue i s body) (hb : body x = x.pairDone w dst v)
    (hw : w.course = x.w.course) : s.issues i x s (x.next (x.writeScal64 w dst v)) true [] none :=
  issues_of_result h hi hb (by simpa using hw) rfl rfl

theorem issues_of_pred {s : State} {i : Instr} {x : Cx} {body : Cx → Attempt} {w : Warp} {p : BitVec 3} {v : Mask}
    (h : s.ready i = some x) (hi : exec i s = issue i s body) (hb : body x = x.predDone w p v)
    (hw : w.course = x.w.course) : s.issues i x s (x.next (x.writePred w p x.act v)) true [] none :=
  issues_of_result h hi hb (by simpa using hw) rfl rfl

/-! ## Lanes that leave -/

theorem Warp.splitAt_finished {w : Warp} (h : w.finished = true) (n : Nat) : w.splitAt n = none := by
  unfold Warp.finished at h
  unfold Warp.splitAt
  cases hn : w.splits[n]? with
  | none => rfl
  | some s =>
    have := List.all_eq_true.1 h s (List.mem_of_getElem? hn)
    cases s with
    | none => rfl
    | some s => cases this

theorem Warp.finished_of_splits {w v : Warp} (h : w.splits = v.splits) : w.finished = v.finished := by
  unfold Warp.finished; rw [h]

theorem Warp.finished_live {w : Warp} (h : w.finished = false) : w.live := by
  unfold Warp.finished at h
  obtain ⟨s, hs, hn⟩ := List.all_eq_false.1 h
  obtain ⟨n, hn'⟩ := List.getElem?_of_mem hs
  cases s with
  | none => simp at hn
  | some s => exact ⟨n, s, by unfold Warp.splitAt; rw [hn']; rfl⟩

theorem Warp.finished_modSplit {w : Warp} {n f} : (w.modSplit n f).finished = w.finished := by
  have one : ∀ {v u : Warp}, (∀ m, v.splitAt m = none → u.splitAt m = none) → v.finished = true → u.finished = true := by
    intro v u h hv
    cases hu : u.finished with
    | true => rfl
    | false =>
      obtain ⟨m, s, hs⟩ := Warp.finished_live hu
      rw [h m (Warp.splitAt_finished hv m)] at hs
      cases hs
  have e : ∀ m, (w.modSplit n f).splitAt m = none ↔ w.splitAt m = none := by
    intro m
    rw [Warp.splitAt_modSplit]
    split <;> simp
  apply Bool.eq_iff_iff.2
  exact ⟨one fun m => (e m).1, one fun m => (e m).2⟩

theorem Warp.mergeCheck_finished {w : Warp} (h : w.finished = true) (n : Nat) : w.mergeCheck n = w := by
  have ht : w.takeTop n = w := by
    rcases w.takeTop_cases n with e | ⟨s, -, -, hs, -⟩
    · exact e
    · rw [Warp.splitAt_finished h] at hs; cases hs
  have hm : ∀ m, w.mergeWith n m = (w, n) := by
    intro m
    rcases w.mergeWith_cases n m with e | ⟨s, -, hs, -⟩
    · exact e
    · rw [Warp.splitAt_finished h] at hs; cases hs
  have hr : w.mergeRound [0, 1, 2, 3] n = (w, n) := by
    unfold Warp.mergeRound
    simp [ht, hm]
  unfold Warp.mergeCheck
  rw [Warp.mergeFrom, hr]
  simp

theorem Warp.unwait_finished {w : Warp} (h : w.finished = true) : w.unwait = w := by
  unfold Warp.unwait
  simp only [List.foldl_cons, List.foldl_nil, Warp.splitAt_finished h]

theorem Warp.finished_switchSplit {w : Warp} : w.switchSplit.finished = w.finished := by
  unfold Warp.switchSplit
  split
  · exact Warp.finished_modSplit
  · rfl

theorem Warp.finished_countIssue {w : Warp} {d} : (w.countIssue d).finished = w.finished := by
  unfold Warp.countIssue
  split
  · rfl
  · extract_lets u stands
    split
    · exact Warp.finished_switchSplit.trans Warp.finished_modSplit
    · exact Warp.finished_modSplit

theorem Warp.finished_settleSplits {w : Warp} {pc d} (h : (w.stepped pc d).finished = true) :
    ((w.advancePc pc d).settleSplits d).finished = true := by
  unfold Warp.settleSplits
  unfold Warp.stepped at h
  split
  · rename_i ho
    rw [if_pos ho] at h
    split
    · exact h
    · rw [Warp.mergeCheck_finished h]; exact h
  · rename_i ho
    rw [if_neg ho] at h
    split
    · rw [Warp.mergeCheck_finished h]; exact h
    · exact h

theorem Warp.finished_afterIssue {w : Warp} {st pc d} (h : (w.stepped pc d).finished = true) :
    (w.afterIssue st pc d).finished = true := by
  have hs := Warp.finished_settleSplits h
  unfold Warp.afterIssue
  rw [Warp.finished_countIssue, Warp.unwait_finished hs]
  rw [show ((w.advancePc pc d).settleSplits d).clearAttempt.startCounts st pc d =
    ((w.advancePc pc d).settleSplits d).clearAttempt.startCounts st pc d from rfl]
  unfold Warp.startCounts
  split <;> exact hs

/-- Whether a warp has finished is fixed as its lanes leave. -/
theorem Cx.finished_issued {x : Cx} {e : State} {w : Warp} {d : Done} :
    (x.issued e w d).finished = (w.stepped x.sp.pc d).finished := by
  cases h : (w.stepped x.sp.pc d).finished with
  | false => exact Warp.not_finished (Cx.live_issued (Warp.finished_live h))
  | true =>
    unfold Cx.issued
    extract_lets u v
    have hv : v.finished = true :=
      show u.finished = true from (Warp.finished_of_splits (Warp.splits_launchFlight ..)).trans (Warp.finished_afterIssue h)
    split
    · exact (Warp.finished_of_splits (Warp.splits_blockOn v .fence e.clock.tick)).trans hv
    · exact hv

/-- What `commit` leaves, whether lanes remain or the warp retires (R148). -/
theorem Cx.commit_off {x : Cx} {e : State} {w : Warp} {d : Done} (hw : e.warp? x.ref = some w) (hs : w.stepping = false) :
    x.commit e d =
      let u := x.issued { e with turn := none } w d
      let t := x.leaves e u d.pops d.push (w.newFlight u)
      if (w.stepped x.sp.pc d).finished then t.retireWarp x.ref else t := by
  have hw' : ({ e with turn := none } : State).warp? x.ref = some w := hw
  have hend (k : Option Nat) : (x.leaves e (x.issued { e with turn := none } w d) d.pops d.push k).endStep x.ref =
      x.leaves e (x.issued { e with turn := none } w d) d.pops d.push k := by
    unfold Cx.leaves
    apply State.endStep_none (w := x.issued { e with turn := none } w d)
    · rw [State.warp?_popAcquires, State.bank_modCrew (fun c => Crew.skel_transfer ..), State.warp?_modWarp, hw']
      rfl
    · rw [show (x.issued { e with turn := none } w d).stepping = w.stepping from congrArg Bank.stepping (Cx.bank_issued ..)]
      exact hs
  unfold Cx.commit
  simp only [hw', Cx.finished_issued]
  have hl (k : Option Nat) : (if d.again = true then x.leaves e (x.issued { e with turn := none } w d) d.pops d.push k
      else (x.leaves e (x.issued { e with turn := none } w d) d.pops d.push k).endStep x.ref) =
      x.leaves e (x.issued { e with turn := none } w d) d.pops d.push k := by
    rw [hend, ite_self]
  exact congrArg (fun t : State => if (w.stepped x.sp.pc d).finished = true then t.retireWarp x.ref else t) (hl _)

/-- A ready instruction that moves its split on and switches lanes off, with effect `e` and its warp as `w`. -/
theorem issuesOff_of_done {s : State} {i : Instr} {x : Cx} {body : Cx → Attempt} {e : State} {w : Warp} {d : Done}
    (h : s.ready i = some x) (hi : exec i s = issue i s body) (hb : body x = .done e d) (hd : x.mayDrop d.off)
    (hq : (if d.flight.isSome then d.raise else none) = none) (hw : e.warp? x.ref = some w) (hs : w.stepping = false) (hp : d.setPc = false) :
    s.issuesOff i x e (x.next w) d.off d.flight.isSome d.pops d.push := by
  obtain ⟨hr, he⟩ := State.ready_elim h
  have hg : x.guardDrop body = .done e d := by
    unfold Cx.guardDrop
    rw [hb]
    dsimp only
    split
    · rfl
    · rename_i hn
      rcases hd with hd | hd
      · rw [hd] at hn; exact absurd rfl hn
      · rw [hd]
  have hst : w.stepped x.sp.pc d = (x.next w).without d.off := by
    unfold Warp.stepped Warp.advancePc Warp.without
    rw [hp]
    simp only [beq_iff_eq, Bool.false_eq_true, if_false]
    rfl
  have hm : (x.next w).without d.off = w.stepped x.sp.pc d := hst.symm
  have hf : (w.stepped x.sp.pc d).issuedAs x.i d.flight.isSome (x.issued { e with turn := none } w d) none ∧
      (w.stepped x.sp.pc d).flies (x.issued { e with turn := none } w d) (w.newFlight (x.issued { e with turn := none } w d)) := by
    have hbk : (w.stepped x.sp.pc d).bank = w.bank := by
      unfold Warp.stepped; split <;> simp
    have := Cx.issued_issuedAs (x := x) (e := { e with turn := none }) (w := w) (v := w.stepped x.sp.pc d) (d := d)
      (Warp.samePlaces_refl _) hbk rfl (Warp.flags_stepped ..) (Warp.flights_stepped ..).2.1
    rwa [hq] at this
  rw [← hm, hr.instr] at hf
  refine ⟨x.issued { e with turn := none } w d, w.newFlight (x.issued { e with turn := none } w d), hf.1, hf.2, ?_⟩
  · rw [hi, he, hg]
    unfold Cx.finish
    dsimp only
    rw [Cx.commit_off hw hs, hm]

/-- What a ready instruction does whose body traps (R357, R358). -/
theorem exec_of_trap {s : State} {i : Instr} {x : Cx} {body : Cx → Attempt} {w : Warp} {code arg : Nat}
    (h : s.ready i = some x) (hi : exec i s = issue i s body) (hb : body x = .trap w code arg) :
    exec i s = .next (s.takeTrap x.ref w code arg x.sp.pc) := by
  obtain ⟨hr, he⟩ := State.ready_elim h
  have hg : x.guardDrop body = .trap w code arg := by unfold Cx.guardDrop; rw [hb]
  rw [hi, he, hg]
  unfold Cx.finish
  rw [hr.state]

/-- What a ready instruction does whose body blocks (R31). -/
theorem exec_of_block {s : State} {i : Instr} {x : Cx} {body : Cx → Attempt} {e : State} {b : Block}
    (h : s.ready i = some x) (hi : exec i s = issue i s body) (hb : body x = .block e b) :
    exec i s = .next (e.blockWarp x.ref b) := by
  obtain ⟨-, he⟩ := State.ready_elim h
  have hg : x.guardDrop body = .block e b := by unfold Cx.guardDrop; rw [hb]
  rw [hi, he, hg]
  rfl

end Sys2Proof.Machine
end

