-- ==== Sys2Proof/Laws/Places.lean ====
section
/-! SUPPORT. Where the lanes of a warp stand after its issuing split moved, a path was placed, or lanes left (06 R150, R152). -/

namespace Sys2Proof.Machine

theorem Warp.cur_modSplit (w : Warp) (n f) : (w.modSplit n f).cur = w.cur := rfl

/-- A lane stands in the issuing split or elsewhere. -/
theorem Warp.stands_split (w : Warp) (l pc b) : w.stands l pc b ↔
    (w.splitAt w.cur).isSome ∧ (w.split.mask.getLsbD l = true ∧ w.split.pc = pc ∧ w.split.base = b) ∨ w.elsewhere l pc b := by
  unfold Warp.stands Warp.elsewhere Warp.split
  constructor
  · rintro ⟨n, s, hs, h | h⟩
    · by_cases hn : n = w.cur
      · subst hn; left; simp [hs, h]
      · right; left; exact ⟨n, s, hn, hs, h⟩
    · right; right; exact ⟨n, s, hs, h⟩
  · rintro (⟨h1, h⟩ | ⟨n, s, hn, hs, h⟩ | ⟨n, s, hs, h⟩)
    · obtain ⟨s, hs⟩ := Option.isSome_iff_exists.1 h1
      rw [hs] at h; exact ⟨w.cur, s, hs, .inl h⟩
    · exact ⟨n, s, hs, .inl h⟩
    · exact ⟨n, s, hs, .inr h⟩

/-- A change of the issuing split's PC, mask or base leaves the other lanes. -/
theorem Warp.elsewhere_modSplit (w : Warp) (f : Split → Split) (hf : ∀ s, (f s).layby = s.layby) (l pc b) :
    (w.modSplit w.cur f).elsewhere l pc b ↔ w.elsewhere l pc b := by
  unfold Warp.elsewhere
  simp only [Warp.cur_modSplit, Warp.splitAt_modSplit]
  constructor
  · rintro (⟨n, s, hn, hs, h⟩ | ⟨n, s, hs, h⟩)
    · rw [if_neg (Ne.symm hn)] at hs; exact .inl ⟨n, s, hn, hs, h⟩
    · split at hs
      · obtain ⟨t, ht, rfl⟩ := Option.map_eq_some_iff.1 hs
        rw [hf] at h; exact .inr ⟨n, t, ht, h⟩
      · exact .inr ⟨n, s, hs, h⟩
  · rintro (⟨n, s, hn, hs, h⟩ | ⟨n, s, hs, h⟩)
    · exact .inl ⟨n, s, hn, by rw [if_neg (Ne.symm hn)]; exact hs, h⟩
    · refine .inr ⟨n, if w.cur = n then f s else s, ?_, ?_⟩
      · split <;> simp [hs]
      · split
        · rw [hf]; exact h
        · exact h

/-- The slot that a placed path takes is free. -/
theorem Warp.findSlot {w : Warp} {n : Nat} (h : w.splits.findIdx? (·.isNone) = some n) : n < w.splits.length ∧ w.splitAt n = none := by
  obtain ⟨hn, h1, -⟩ := List.findIdx?_eq_some_iff_getElem.1 h
  refine ⟨hn, ?_⟩
  unfold Warp.splitAt
  rw [List.getElem?_eq_getElem hn]
  cases hh : w.splits[n] with
  | none => rfl
  | some s => rw [hh] at h1; cases h1

/-- R150: a placed path stands at its place, the others where they were. -/
theorem Warp.stands_placeAmong {w : Warp} (hc : (w.splitAt w.cur).isSome) (slots : List Nat) (m : Mask) (q : Word) (d : Nat)
    (l pc b) : (w.placeAmong slots m q d).stands l pc b ↔ (m.getLsbD l = true ∧ q = pc ∧ d = b) ∨ w.stands l pc b := by
  unfold Warp.placeAmong
  split
  · rename_i n hn
    obtain ⟨hlt, hnone⟩ := Warp.findSlot hn
    refine ((Warp.samePlaces_mergeFrom _ _ _ n) l pc b).trans ?_
    unfold Warp.stands
    constructor
    · rintro ⟨k, s, hs, h⟩
      by_cases hk : k = n
      · subst hk
        rw [Warp.splitAt_setSplit_same hlt] at hs
        cases hs
        rcases h with h | ⟨e, he, -⟩
        · exact .inl h
        · cases he
      · rw [Warp.splitAt_setSplit_other hk] at hs
        exact .inr ⟨k, s, hs, h⟩
    · rintro (h | ⟨k, s, hs, h⟩)
      · exact ⟨n, _, Warp.splitAt_setSplit_same hlt, .inl h⟩
      · have hk : k ≠ n := by rintro rfl; rw [hnone] at hs; cases hs
        exact ⟨k, s, by rw [Warp.splitAt_setSplit_other hk]; exact hs, h⟩
  · unfold Warp.stands
    constructor
    · rintro ⟨k, s, hs, h⟩
      rw [Warp.splitAt_modSplit] at hs
      split at hs
      · obtain ⟨t, ht, rfl⟩ := Option.map_eq_some_iff.1 hs
        rcases h with h | ⟨e, he, h⟩
        · exact .inr ⟨k, t, ht, .inl h⟩
        · rcases List.mem_cons.1 he with rfl | he
          · exact .inl h
          · exact .inr ⟨k, t, ht, .inr ⟨e, he, h⟩⟩
      · exact .inr ⟨k, s, hs, h⟩
    · rintro (h | ⟨k, s, hs, h⟩)
      · obtain ⟨s, hs⟩ := Option.isSome_iff_exists.1 hc
        refine ⟨w.cur, _, by rw [Warp.splitAt_modSplit, if_pos rfl, hs]; rfl, .inr ⟨_, List.mem_cons_self, h⟩⟩
      · refine ⟨k, if w.cur = k then { s with layby := ⟨q, m, d⟩ :: s.layby } else s, ?_, ?_⟩
        · rw [Warp.splitAt_modSplit, hs]; split <;> rfl
        · rcases h with h | ⟨e, he, h⟩
          · left; split <;> exact h
          · right; refine ⟨e, ?_, h⟩
            split
            · exact List.mem_cons_of_mem _ he
            · exact he

theorem Warp.stands_place {w : Warp} (hc : (w.splitAt w.cur).isSome) (m : Mask) (q : Word) (d : Nat) (l pc b) :
    (w.place m q d).stands l pc b ↔ (m.getLsbD l = true ∧ q = pc ∧ d = b) ∨ w.stands l pc b :=
  Warp.stands_placeAmong hc _ m q d l pc b

theorem Warp.marks_place (w : Warp) (m pc b) : (w.place m pc b).marks = w.marks := Warp.marks_of_rest (Warp.rest_placeAmong ..)

/-- R152: a split without lanes that ends: its top entry resumes, or its slot is free. -/
theorem Warp.stands_endSplit {w : Warp} {n : Nat} {s : Split} (hs : w.splitAt n = some s) (l pc b) :
    (w.endSplit n).stands l pc b ↔
      (∃ e ∈ s.layby, e.mask.getLsbD l = true ∧ e.pc = pc ∧ e.base = b) ∨
        ∃ k t, k ≠ n ∧ w.splitAt k = some t ∧ t.holds l pc b := by
  have hlt := Warp.lt_of_splitAt hs
  unfold Warp.endSplit
  rw [hs]
  dsimp only
  split
  · rename_i e r he
    refine ((Warp.samePlaces_mergeCheck _ n) l pc b).trans ?_
    rw [Warp.stands_iff]
    constructor
    · rintro ⟨k, t, ht, h⟩
      by_cases hk : k = n
      · subst hk
        rw [Warp.splitAt_setSplit_same hlt] at ht
        cases ht
        left
        rcases h with h | ⟨f, hf, h⟩
        · exact ⟨e, by rw [he]; exact List.mem_cons_self, h⟩
        · exact ⟨f, by rw [he]; exact List.mem_cons_of_mem _ hf, h⟩
      · rw [Warp.splitAt_setSplit_other hk] at ht
        exact .inr ⟨k, t, hk, ht, h⟩
    · rintro (⟨f, hf, h⟩ | ⟨k, t, hk, ht, h⟩)
      · refine ⟨n, _, Warp.splitAt_setSplit_same hlt, ?_⟩
        rw [he] at hf
        rcases List.mem_cons.1 hf with rfl | hf
        · exact .inl h
        · exact .inr ⟨f, hf, h⟩
      · exact ⟨k, t, by rw [Warp.splitAt_setSplit_other hk]; exact ht, h⟩
  · rename_i he
    rw [Warp.stands_iff]
    constructor
    · rintro ⟨k, t, ht, h⟩
      by_cases hk : k = n
      · subst hk
        rw [Warp.splitAt_setSplit_same hlt] at ht
        cases ht
      · rw [Warp.splitAt_setSplit_other hk] at ht
        exact .inr ⟨k, t, hk, ht, h⟩
    · rintro (⟨f, hf, h⟩ | ⟨k, t, hk, ht, h⟩)
      · rw [he] at hf; cases hf
      · exact ⟨k, t, by rw [Warp.splitAt_setSplit_other hk]; exact ht, h⟩

end Sys2Proof.Machine
end

