-- ==== Sys2Proof/Laws/Steps.lean ====
section
/-! SUPPORT. What a step comes to: a planned event, a quarter with no warp to select, and the first attempt of a quarter
(01 R14; 06 R167). -/

namespace Sys2Proof.Machine

/-- Nothing is selected: the quarter's cycle passes without an issue. -/
theorem State.runQuarter_none (exec : Instr → State → Host.Outcome State Fault Refusal) (core q n : Nat)
    (tried : List WarpRef) (s : State) (h : s.select core q tried = none) :
    State.runQuarter exec core q (n + 1) tried s = .next s := by
  rw [State.runQuarter, h]

/-- The selected warp attempts its instruction; an attempt that is held back leaves the cycle to another warp. -/
theorem State.runQuarter_some (exec : Instr → State → Host.Outcome State Fault Refusal) (core q n : Nat)
    (tried : List WarpRef) (s : State) (r : WarpRef) (h : s.select core q tried = some r) :
    State.runQuarter exec core q (n + 1) tried s =
      match s.attempt exec r with
      | .next t =>
        if t.turn.isSome then State.runQuarter exec core q n (r :: tried) { t with turn := none }
        else .next (t.noteIssue core q r (((s.warp? r).map (·.slot)).getD 0)
          ((s.candidates core q (r :: tried)).map (·.1)))
      | o => o := by
  rw [State.runQuarter, h]
  try rfl

theorem step_nothing (s : State) (h : s.planned = []) : step s = .next (s.elapse 1) := by
  simp [step, State.advance, h]

/-- A planned move runs after the cycles before it, in the place that its cycle gives it, and ends as every move does. -/
theorem step_planned (s : State) (t : Turn) (ts : List Turn) (h : s.planned = t :: ts) :
    step s = match ((({ s with agenda := ts } : State).elapse t.cycles).inPlace t.move).runMove exec t.move with
      | .next u => .next u.afterMove
      | o => o := by
  rw [step, State.advance, h]
  try rfl

end Sys2Proof.Machine
end

