-- ==== Sys2Proof/Laws/Tables.lean ====
section
/-! SUPPORT. What keeps the split table of a warp in order: each lane in one mask, and the windows within the ring (06 R148, 07 R171). -/

namespace Sys2Proof.Machine

/-! ## The windows -/

theorem highest_le {l : List Nat} {k : Nat} : highest l ≤ k ↔ ∀ b ∈ l, b ≤ k := by
  have go : ∀ (l : List Nat) (a : Nat), l.foldl max a ≤ k ↔ a ≤ k ∧ ∀ b ∈ l, b ≤ k := by
    intro l
    induction l with
    | nil => simp
    | cons c l ih => intro a; simp [ih, Nat.max_le, and_assoc]
  simp [highest, go]

theorem le_lowest {l : List Nat} {k : Nat} (h : l ≠ []) : k ≤ lowest l ↔ ∀ b ∈ l, k ≤ b := by
  have go : ∀ (l : List Nat) (a : Nat), k ≤ l.foldl min a ↔ k ≤ a ∧ ∀ b ∈ l, k ≤ b := by
    intro l
    induction l with
    | nil => simp
    | cons c l ih => intro a; simp [ih, Nat.le_min, and_assoc]
  cases l with
  | nil => exact absurd rfl h
  | cons c l => simp [lowest, go]

theorem Warp.bases_of_splitAt {w : Warp} {n : Nat} {s : Split} (h : w.splitAt n = some s) : s.base ∈ w.bases := by
  have hn := Warp.lt_of_splitAt h
  unfold Warp.splitAt at h
  rw [List.getElem?_eq_getElem hn] at h
  exact List.mem_filterMap.2 ⟨_, List.getElem_mem hn, by rw [show w.splits[n] = some s from h]; rfl⟩

theorem Warp.splitAt_of_bases {w : Warp} {b : Nat} (h : b ∈ w.bases) : ∃ n s, w.splitAt n = some s ∧ s.base = b := by
  obtain ⟨o, ho, e⟩ := List.mem_filterMap.1 h
  obtain ⟨n, hn, rfl⟩ := List.mem_iff_getElem.1 ho
  cases hs : w.splits[n] with
  | none => rw [hs] at e; cases e
  | some s =>
    rw [hs] at e
    exact ⟨n, s, by simp [Warp.splitAt, List.getElem?_eq_getElem hn, hs], Option.some.inj e⟩

theorem Warp.finished_of_bases {w : Warp} (h : w.bases = []) : w.finished = true := by
  simp only [Warp.bases, List.filterMap_eq_nil_iff] at h
  simp only [Warp.finished, List.all_eq_true]
  intro o ho
  cases o with
  | none => rfl
  | some s => exact absurd (h _ ho) (by simp)

/-! ## The masks -/

/-- In how many masks of a slot the lane is. -/
def slotCount (l : Nat) : Option Split → Nat
  | some s => (s.mask :: s.layby.map (·.mask)).countP (·.getLsbD l)
  | none => 0

/-- In how many masks of the warp the lane is. -/
def Warp.laneCount (w : Warp) (l : Nat) : Nat := w.masks.countP (·.getLsbD l)

theorem Warp.laneCount_eq (w : Warp) (l : Nat) :
    w.laneCount l = (if w.vacant.getLsbD l then 1 else 0) + (w.splits.map (slotCount l)).sum := by
  have go : ∀ L : List (Option Split), (L.flatMap fun s => match s with
      | some s => s.mask :: s.layby.map (·.mask)
      | none => []).countP (·.getLsbD l) = (L.map (slotCount l)).sum := by
    intro L
    induction L with
    | nil => rfl
    | cons o L ih =>
      rw [List.flatMap_cons, List.countP_append, ih]
      cases o <;> rfl
  unfold Warp.laneCount Warp.masks
  rw [List.countP_cons]
  exact (Nat.add_comm _ _).trans (congrArg _ (go w.splits))

theorem sum_set {α : Type} (f : α → Nat) (L : List α) (n : Nat) (x y : α) (h : L[n]? = some x) :
    ((L.set n y).map f).sum + f x = (L.map f).sum + f y := by
  induction L generalizing n with
  | nil => simp at h
  | cons c L ih =>
    cases n with
    | zero => simp only [List.getElem?_cons_zero, Option.some.injEq] at h; subst h; simp; omega
    | succ n =>
      simp only [List.getElem?_cons_succ] at h
      have := ih n h
      simp only [List.set_cons_succ, List.map_cons, List.sum_cons]
      omega

/-- A slot that changes changes the count of a lane by its own. -/
theorem Warp.laneCount_setSplit {w : Warp} {n : Nat} {o : Option Split} (hn : w.splits[n]? = some o) (y : Option Split) (l : Nat) :
    (w.setSplit n y).laneCount l + slotCount l o = w.laneCount l + slotCount l y := by
  have := sum_set (slotCount l) w.splits n o y hn
  rw [Warp.laneCount_eq, Warp.laneCount_eq]
  show _ + ((w.splits.set n y).map (slotCount l)).sum + _ = _
  rw [show (w.setSplit n y).vacant = w.vacant from rfl]
  omega

theorem Warp.slot_of_splitAt {w : Warp} {n : Nat} {s : Split} (h : w.splitAt n = some s) : w.splits[n]? = some (some s) := by
  have hn := Warp.lt_of_splitAt h
  unfold Warp.splitAt at h
  rw [List.getElem?_eq_getElem hn] at h ⊢
  exact congrArg some h

/-- A lane is in no more masks of a slot than of the warp. -/
theorem Warp.slotCount_le {w : Warp} {n : Nat} {o : Option Split} (hn : w.splits[n]? = some o) (l : Nat) : slotCount l o ≤ w.laneCount l := by
  have := Warp.laneCount_setSplit hn none l
  have : slotCount l none = 0 := rfl
  omega

/-- Two masks that become one count for a lane as they did, where it is in at most one of them. -/
theorem slotCount_or (s : Split) (m : Mask) (l : Nat) (L : List LayEntry) (j c) (h : s.mask.getLsbD l = true → m.getLsbD l = true → False) :
    slotCount l (some { s with mask := s.mask ||| m, layby := L, joinWait := j, issued := c }) =
      (if s.mask.getLsbD l then 1 else 0) + (if m.getLsbD l then 1 else 0) + (L.map (·.mask)).countP (·.getLsbD l) := by
  simp only [slotCount, List.countP_cons, BitVec.getLsbD_or]
  cases hs : s.mask.getLsbD l <;> cases hm : m.getLsbD l <;> simp_all <;> omega

/-! ## The table -/

/-- The table of `v` is in order as that of `w` is: the same lanes the same number of times, in a window no wider. -/
def Warp.tablesLike (v w : Warp) : Prop :=
  v.splits.length = w.splits.length ∧ (∀ l, l < 48 → v.laneCount l = w.laneCount l) ∧ v.ring = w.ring ∧ v.reach = w.reach ∧
    ∀ b ∈ v.bases, b ∈ w.bases

theorem Warp.tablesLike.refl (w : Warp) : w.tablesLike w := ⟨rfl, fun _ _ => rfl, rfl, rfl, fun _ h => h⟩

theorem Warp.tablesLike.trans {u v w : Warp} (h : u.tablesLike v) (k : v.tablesLike w) : u.tablesLike w :=
  ⟨h.1.trans k.1, fun l hl => (h.2.1 l hl).trans (k.2.1 l hl), h.2.2.1.trans k.2.2.1, h.2.2.2.1.trans k.2.2.2.1,
    fun b hb => k.2.2.2.2 b (h.2.2.2.2 b hb)⟩

theorem Warp.tabled_of_like {v w : Warp} (h : v.tablesLike w) (hw : w.tabled) : v.tabled := by
  obtain ⟨hl, hc, hr, he, hb⟩ := h
  refine ⟨hl.trans hw.1, fun l k => (hc l k).trans (hw.2.1 l k), ?_⟩
  by_cases hv : v.bases = []
  · exact .inl (Warp.finished_of_bases hv)
  obtain ⟨b, hvb⟩ := List.exists_mem_of_ne_nil _ hv
  have hwb := hb b hvb
  have hn : w.bases ≠ [] := List.ne_nil_of_mem hwb
  obtain ⟨n, s, hs, -⟩ := Warp.splitAt_of_bases hwb
  have hf := Warp.not_finished ⟨n, s, hs⟩
  have span : spanOk w.ring w.reach w.lo w.hi = true := (hw.2.2.resolve_left (by rw [hf]; exact Bool.false_ne_true))
  refine .inr ?_
  have h1 : v.hi ≤ w.hi := highest_le.2 fun c hc => (highest_le (l := w.bases)).1 (Nat.le_refl _) c (hb c hc)
  have h2 : w.lo ≤ v.lo := (le_lowest hv).2 fun c hc => (le_lowest hn).1 (Nat.le_refl _) c (hb c hc)
  simp only [spanOk, decide_eq_true_eq] at span ⊢
  rw [hr, he]
  omega

theorem Warp.tablesLike_of_splits {v w : Warp} (hs : v.splits = w.splits) (hv : v.vacant = w.vacant) (hr : v.ring = w.ring)
    (he : v.reach = w.reach) : v.tablesLike w :=
  ⟨by rw [hs], fun l _ => by rw [Warp.laneCount_eq, Warp.laneCount_eq, hs, hv], hr, he, fun b hb => by
    rw [Warp.bases, hs] at hb; exact hb⟩

/-- A slot that holds the same lanes at the same base leaves the table in order. -/
theorem Warp.tablesLike_setSplit {w : Warp} {n : Nat} {s t : Split} (h : w.splitAt n = some s) (hb : t.base = s.base)
    (hc : ∀ l, l < 48 → slotCount l (some t) = slotCount l (some s)) : (w.setSplit n (some t)).tablesLike w := by
  refine ⟨by simp [Warp.setSplit], fun l hl => ?_, rfl, rfl, fun b k => ?_⟩
  · have := Warp.laneCount_setSplit (Warp.slot_of_splitAt h) (some t) l
    have := hc l hl
    omega
  · obtain ⟨m, u, hu, rfl⟩ := Warp.splitAt_of_bases k
    by_cases e : m = n
    · subst e
      rw [Warp.splitAt_setSplit_same (Warp.lt_of_splitAt h)] at hu
      cases hu
      rw [hb]; exact Warp.bases_of_splitAt h
    · rw [Warp.splitAt_setSplit_other e] at hu
      exact Warp.bases_of_splitAt hu

/-- What two splits that merge come to (R151). -/
def joined (low high : Split) (c : Nat) : Split :=
  { low with mask := low.mask ||| high.mask, layby := high.layby ++ low.layby, joinWait := false, issued := c }

/-- R151: two splits that become one leave the table in order. -/
theorem Warp.tablesLike_mergeSplits {w : Warp} {n : Nat} {s : Split} {q : Nat × Split} (hn : w.splitAt n = some s)
    (hq : w.splitAt q.1 = some q.2) (hne : q.1 ≠ n) (hl : ∀ l, l < 48 → w.laneCount l ≤ 1) :
    (w.mergeSplits n s q).1.tablesLike w := by
  have key : ∀ (u : Warp) (lo hi : Nat) (low high : Split) (c : Nat), lo ≠ hi → w.splitAt lo = some low → w.splitAt hi = some high →
      u.splits = ((w.setSplit lo (some (joined low high c))).setSplit hi none).splits → u.vacant = w.vacant → u.ring = w.ring → u.reach = w.reach → u.tablesLike w := by
    intro u lo hi low high c ne hlo hhi hs hv hr he
    have first : ∀ x, (w.setSplit lo x).splits[hi]? = some (some high) := fun x => by
      simpa [Warp.setSplit, List.getElem?_set_ne ne] using Warp.slot_of_splitAt hhi
    refine ⟨by rw [hs]; simp [Warp.setSplit], fun l k => ?_, hr, he, fun b m => ?_⟩
    · have a1 := Warp.laneCount_setSplit (Warp.slot_of_splitAt hlo) (some (joined low high c)) l
      have a2 := Warp.laneCount_setSplit (first (some (joined low high c))) none l
      have both : slotCount l (some low) + slotCount l (some high) ≤ w.laneCount l := by
        have b1 := Warp.laneCount_setSplit (Warp.slot_of_splitAt hlo) none l
        have b2 := Warp.slotCount_le (first none) l
        have : slotCount l none = 0 := rfl
        omega
      have one := hl l k
      have hor := slotCount_or low high.mask l (high.layby ++ low.layby) false c (fun p q => by
        simp only [slotCount, List.countP_cons, p, q, if_true] at both; omega)
      have s0 : slotCount l none = 0 := rfl
      have e : u.laneCount l = ((w.setSplit lo (some (joined low high c))).setSplit hi none).laneCount l := by
        rw [Warp.laneCount_eq, Warp.laneCount_eq, hs, hv]; rfl
      rw [e]
      rw [List.map_append, List.countP_append] at hor
      simp only [joined, slotCount, List.countP_cons] at a1 a2 both hor s0 ⊢
      omega
    · have m' : b ∈ ((w.setSplit lo (some (joined low high c))).setSplit hi none).bases := by
        rw [Warp.bases, hs] at m; exact m
      obtain ⟨i, v, hv, rfl⟩ := Warp.splitAt_of_bases m'
      by_cases e : i = hi
      · subst e
        rw [Warp.splitAt_setSplit_same (by simpa [Warp.setSplit] using Warp.lt_of_splitAt hhi)] at hv
        cases hv
      rw [Warp.splitAt_setSplit_other e] at hv
      by_cases f : i = lo
      · subst f
        rw [Warp.splitAt_setSplit_same (Warp.lt_of_splitAt hlo)] at hv
        cases hv
        exact Warp.bases_of_splitAt (s := low) hlo
      · rw [Warp.splitAt_setSplit_other f] at hv
        exact Warp.bases_of_splitAt hv
  unfold Warp.mergeSplits
  extract_lets lo hi low high count one u
  have hne' : lo ≠ hi := by simp only [lo, hi]; omega
  have pick : w.splitAt lo = some low ∧ w.splitAt hi = some high := by
    simp only [lo, hi, low, high]
    by_cases c : n < q.1
    · rw [if_pos c, if_pos c, Nat.min_eq_left (by omega), Nat.max_eq_right (by omega)]; exact ⟨hn, hq⟩
    · rw [if_neg c, if_neg c, Nat.min_eq_right (by omega), Nat.max_eq_left (by omega)]; exact ⟨hq, hn⟩
  show Warp.tablesLike (if _ then _ else _) w
  split
  · exact key _ lo hi low high count hne' pick.1 pick.2 rfl rfl rfl rfl
  · exact key _ lo hi low high count hne' pick.1 pick.2 rfl rfl rfl rfl

/-- R151: merge_check leaves the table in order. -/
theorem Warp.tablesLike_mergeFrom (slots : List Nat) (k : Nat) {w : Warp} (n : Nat) (hl : ∀ l, l < 48 → w.laneCount l ≤ 1) :
    (Warp.mergeFrom slots k w n).tablesLike w := by
  refine Warp.mergeFrom_keeps (P := fun v => v.tablesLike w) (fun v n h => ?_) (fun v n m h => ?_) slots k w n (.refl w)
  · rcases v.takeTop_cases n with e | ⟨s, x, L, hs, hx, -, -, e⟩ <;> rw [e]
    · exact h
    refine Warp.tablesLike.trans (Warp.tablesLike_setSplit hs rfl fun l k => ?_) h
    have one := Nat.le_trans (Nat.le_of_eq (h.2.1 l k)) (hl l k)
    have le := Nat.le_trans (Warp.slotCount_le (Warp.slot_of_splitAt hs) l) one
    have hor := slotCount_or s x.mask l L s.joinWait s.issued (fun p q => by
      simp only [slotCount, hx, List.map_cons, List.countP_cons, p, q, if_true] at le; omega)
    rw [hor]
    simp only [slotCount, hx, List.map_cons, List.countP_cons]
    omega
  · rcases v.mergeWith_cases n m with e | ⟨s, u, hs, hu, hne, -, -, e⟩ <;> rw [e]
    · exact h
    exact (Warp.tablesLike_mergeSplits hs hu hne fun l k => Nat.le_trans (Nat.le_of_eq (h.2.1 l k)) (hl l k)).trans h

theorem Warp.tabled.count {w : Warp} (h : w.tabled) : ∀ l, l < 48 → w.laneCount l ≤ 1 := fun l k => Nat.le_of_eq (h.2.1 l k)

theorem Warp.tabled_mergeCheck {w : Warp} (h : w.tabled) (n : Nat) : (w.mergeCheck n).tabled :=
  Warp.tabled_of_like (Warp.tablesLike_mergeFrom _ _ n h.count) h

theorem Warp.tabled_unwait {w : Warp} (h : w.tabled) : w.unwait.tabled := by
  unfold Warp.unwait
  generalize [0, 1, 2, 3] = slots
  have go : ∀ (L : List Nat) (w : Warp), w.tabled → (L.foldl (fun w n =>
      match w.splitAt n with
      | some s =>
        let held := slots.any fun m => m != n && (w.splitAt m).any fun u => u.base == s.base && !u.joinWait
        if s.joinWait && !held then w.setSplit n (some { s with joinWait := false }) else w
      | none => w) w).tabled := by
    intro L
    induction L with
    | nil => exact fun _ h => h
    | cons n L ih =>
      intro w h
      refine ih _ ?_
      dsimp only
      split
      · rename_i s hs
        split
        · exact Warp.tabled_of_like (Warp.tablesLike_setSplit hs rfl fun _ _ => rfl) h
        · exact h
      · exact h
  exact go slots w h

theorem Warp.modSplit_eq {w : Warp} {n : Nat} {s : Split} (h : w.splitAt n = some s) (f : Split → Split) :
    w.modSplit n f = w.setSplit n (some (f s)) := by
  have : w.splits.modify n (·.map f) = w.splits.set n (some (f s)) := by
    apply List.ext_getElem?
    intro i
    rw [List.getElem?_modify, List.getElem?_set]
    have hn := Warp.lt_of_splitAt h
    split
    · rename_i e; subst e
      rw [Warp.slot_of_splitAt h]; simp
    · simp
  unfold Warp.modSplit Warp.setSplit; rw [this]

/-- A change of a split's PC, or of what it counts, leaves the table in order. -/
theorem Warp.tabled_modSplit {w : Warp} (h : w.tabled) (n : Nat) {f : Split → Split} (hf : ∀ s, (f s).mask = s.mask ∧
    (f s).layby = s.layby ∧ (f s).base = s.base) : (w.modSplit n f).tabled := by
  cases hs : w.splitAt n with
  | none =>
    have : w.modSplit n f = w := by
      have : w.splits.modify n (·.map f) = w.splits := by
        apply List.ext_getElem?
        intro i
        rw [List.getElem?_modify]
        split
        · rename_i e; subst e
          unfold Warp.splitAt at hs
          cases hi : w.splits[n]? with
          | none => rfl
          | some o => rw [hi] at hs; cases o <;> simp_all
        · simp
      unfold Warp.modSplit; rw [this]
    rw [this]; exact h
  | some s =>
    rw [Warp.modSplit_eq hs]
    exact Warp.tabled_of_like (Warp.tablesLike_setSplit hs (hf s).2.2 fun l _ => by simp only [slotCount, (hf s).1, (hf s).2.1]) h

theorem Warp.tabled_switchSplit {w : Warp} (h : w.tabled) : w.switchSplit.tabled := by
  unfold Warp.switchSplit
  split
  · rename_i n _
    have := Warp.tabled_modSplit (f := fun s => { s with issued := 0 }) h n fun _ => ⟨rfl, rfl, rfl⟩
    exact this
  · exact h

theorem Warp.tabled_of_splits {v w : Warp} (h : w.tabled) (hs : v.splits = w.splits) (hv : v.vacant = w.vacant)
    (hr : v.ring = w.ring) (he : v.reach = w.reach) : v.tabled :=
  Warp.tabled_of_like (Warp.tablesLike_of_splits hs hv hr he) h

/-! ## A path is placed, and a split ends -/

/-- The bases after a slot took a split: those before, and its own. -/
theorem Warp.bases_setSplit {w : Warp} {n : Nat} {t : Split} {b : Nat} (h : b ∈ (w.setSplit n (some t)).bases) :
    b = t.base ∨ b ∈ w.bases := by
  obtain ⟨m, u, hu, rfl⟩ := Warp.splitAt_of_bases h
  by_cases e : m = n
  · subst e
    rw [Warp.splitAt_setSplit_same (by simpa [Warp.setSplit] using Warp.lt_of_splitAt hu)] at hu
    cases hu; exact .inl rfl
  · rw [Warp.splitAt_setSplit_other e] at hu
    exact .inr (Warp.bases_of_splitAt hu)

/-- R150: what placing a path does to the table: its lanes count once more, and the windows reach to its base at most. -/
theorem Warp.placeAmong_table {w : Warp} (hc : (w.splitAt w.cur).isSome) (slots : List Nat) (m : Mask) (pc : Word) (base : Nat)
    (hl : ∀ l, l < 48 → w.laneCount l + (if m.getLsbD l then 1 else 0) ≤ 1) :
    (w.placeAmong slots m pc base).splits.length = w.splits.length ∧
      (∀ l, l < 48 → (w.placeAmong slots m pc base).laneCount l = w.laneCount l + if m.getLsbD l then 1 else 0) ∧
      (∀ b ∈ (w.placeAmong slots m pc base).bases, b = base ∨ b ∈ w.bases) := by
  unfold Warp.placeAmong
  split
  · rename_i n hn
    obtain ⟨k, e⟩ := Warp.findSlot hn
    have slot : w.splits[n]? = some none := by
      unfold Warp.splitAt at e
      rw [List.getElem?_eq_getElem k] at e ⊢
      exact congrArg some e
    have put : ∀ l, (w.setSplit n (some ⟨pc, m, base, [], false, 0⟩)).laneCount l = w.laneCount l + if m.getLsbD l then 1 else 0 := by
      intro l
      have := Warp.laneCount_setSplit slot (some ⟨pc, m, base, [], false, 0⟩) l
      simp only [slotCount, List.map_nil, List.countP_cons, List.countP_nil] at this
      omega
    have like := Warp.tablesLike_mergeFrom slots 20 n (w := w.setSplit n (some ⟨pc, m, base, [], false, 0⟩))
      fun l k => by rw [put]; exact hl l k
    refine ⟨like.1.trans (by simp [Warp.setSplit]), fun l k => (like.2.1 l k).trans (put l), fun b h => ?_⟩
    exact Warp.bases_setSplit (like.2.2.2.2 b h)
  · obtain ⟨s, hs⟩ := Option.isSome_iff_exists.1 hc
    rw [Warp.modSplit_eq hs]
    refine ⟨by simp [Warp.setSplit], fun l _ => ?_, fun b h => ?_⟩
    · have := Warp.laneCount_setSplit (Warp.slot_of_splitAt hs) (some { s with layby := ⟨pc, m, base⟩ :: s.layby }) l
      simp only [slotCount, List.map_cons, List.countP_cons] at this
      omega
    · rcases Warp.bases_setSplit h with e | e
      · exact .inr (by rw [e]; exact (Warp.bases_of_splitAt hs : s.base ∈ w.bases))
      · exact .inr e

/-- R152: what the end of a split without lanes does to the table: every lane counts as before, and the windows reach to the base of the
path that resumes at most. -/
theorem Warp.endSplit_table {w : Warp} {n : Nat} {s : Split} (hs : w.splitAt n = some s) (hm : s.mask = 0)
    (hl : ∀ l, l < 48 → w.laneCount l ≤ 1) :
    (w.endSplit n).splits.length = w.splits.length ∧ (∀ l, l < 48 → (w.endSplit n).laneCount l = w.laneCount l) ∧
      ∀ b ∈ (w.endSplit n).bases, (∃ e ∈ s.layby.head?, b = e.base) ∨ b ∈ w.bases := by
  have none0 : ∀ l, s.mask.getLsbD l = false := fun l => by rw [hm]; simp
  unfold Warp.endSplit
  rw [hs]
  dsimp only
  cases hb : s.layby with
  | nil =>
    refine ⟨by simp [Warp.setSplit], fun l _ => ?_, fun b h => .inr ?_⟩
    · show (w.setSplit n none).laneCount l = _
      have := Warp.laneCount_setSplit (Warp.slot_of_splitAt hs) none l
      simp only [slotCount, none0, hb, List.map_nil, List.countP_cons, List.countP_nil, Bool.false_eq_true, if_false] at this
      omega
    · obtain ⟨m, u, hu, rfl⟩ := Warp.splitAt_of_bases h
      by_cases e : m = n
      · subst e
        rw [Warp.splitAt_setSplit_same (Warp.lt_of_splitAt hs)] at hu
        cases hu
      · rw [Warp.splitAt_setSplit_other e] at hu
        exact Warp.bases_of_splitAt hu
  | cons e L =>
    have put : ∀ l, (w.setSplit n (some { s with pc := e.pc, mask := e.mask, base := e.base, layby := L, joinWait := false })).laneCount l =
        w.laneCount l := by
      intro l
      have := Warp.laneCount_setSplit (Warp.slot_of_splitAt hs)
        (some { s with pc := e.pc, mask := e.mask, base := e.base, layby := L, joinWait := false }) l
      simp only [slotCount, none0, hb, List.map_cons, List.countP_cons, Bool.false_eq_true, if_false] at this
      omega
    have like := Warp.tablesLike_mergeFrom [0, 1, 2, 3] 20 n
      (w := w.setSplit n (some { s with pc := e.pc, mask := e.mask, base := e.base, layby := L, joinWait := false }))
      fun l k => by rw [put]; exact hl l k
    refine ⟨like.1.trans (by simp [Warp.setSplit]), fun l k => (like.2.1 l k).trans (put l), fun b h => ?_⟩
    rcases Warp.bases_setSplit (like.2.2.2.2 b h) with k | k
    · exact .inl ⟨e, rfl, k⟩
    · exact .inr k

/-! ## The issue of an instruction -/

theorem Warp.tabled_clearAttempt {w : Warp} (h : w.tabled) : w.clearAttempt.tabled := Warp.tabled_of_splits h rfl rfl rfl rfl

theorem Warp.tabled_advancePc {w : Warp} (h : w.tabled) (pc d) : (w.advancePc pc d).tabled := by
  unfold Warp.advancePc
  split
  · exact h
  · exact Warp.tabled_modSplit h _ fun _ => ⟨rfl, rfl, rfl⟩

theorem Warp.tabled_startCounts {w : Warp} (h : w.tabled) (st pc d) : (w.startCounts st pc d).tabled := by
  unfold Warp.startCounts
  split <;> exact Warp.tabled_of_splits h rfl rfl rfl rfl

theorem Warp.tabled_countIssue {w : Warp} (h : w.tabled) (d) : (w.countIssue d).tabled := by
  have u := Warp.tabled_modSplit (f := fun s => { s with issued := min 64 (s.issued + 1) }) h w.cur fun _ => ⟨rfl, rfl, rfl⟩
  unfold Warp.countIssue
  split
  · exact h
  · dsimp only
    split
    · exact Warp.tabled_switchSplit u
    · exact u

/-- R151, R163 to R166: an issue from which no lane leaves keeps the split table in order. -/
theorem Warp.tabled_afterIssue {w : Warp} (h : w.tabled) (st pc) {d : Done} (ho : d.off = 0) : (w.afterIssue st pc d).tabled := by
  have settled : ((w.advancePc pc d).settleSplits d).tabled := by
    unfold Warp.settleSplits
    simp only [ho, beq_self_eq_true, if_true]
    split
    · exact Warp.tabled_advancePc h pc d
    · exact Warp.tabled_mergeCheck (Warp.tabled_advancePc h pc d) _
  exact Warp.tabled_countIssue (Warp.tabled_startCounts (Warp.tabled_clearAttempt (Warp.tabled_unwait settled)) st pc d) d

theorem Warp.tabled_blockOn {w : Warp} (h : w.tabled) (b t) : (w.blockOn b t).tabled :=
  Warp.tabled_of_splits h (Warp.splits_blockOn ..) (by unfold Warp.blockOn; split <;> rfl)
    (congrArg Bank.ring (Warp.bank_blockOn ..)) (congrArg Bank.reach (Warp.bank_blockOn ..))

end Sys2Proof.Machine
end

