-- ==== Sys2Proof/Tests/Slice0.lean ====
section
/-! SUPPORT. Checks of this row's own work: ill-formed terms are refused, words written out from the encoding tables decode to
what they stand for, single steps with results from the spec's own words, and for every statement states that meet its
hypotheses. -/

namespace Sys2Proof.Tests

open Sys2Proof.Machine

/-! ## Terms for the checks -/

def v (n : Nat) : Spec := if h : n < 192 then .v ⟨n, h⟩ else .zero
def s (n : Nat) : Spec := if h : n < 32 then .s ⟨n, h⟩ else .zero
def q (n : Nat) : Spec := if h : n < 8 then .q ⟨n, h⟩ else .zero

/-- No guard, no waits, no flag. -/
def ctl : Ctl := ⟨⟨false, 7⟩, 0, 0, 0⟩

def intArgs (b : Src2) : IntArgs := ⟨.none, false, v 3, v 4, b, v 0⟩
def fArgs (ty : Ty) (n : Nat) : FArgs := ⟨ty, .none, v 3, v 4, if 2 ≤ n then v 5 else v 0, if 3 ≤ n then v 6 else v 0, false, false, false⟩
def scalArgs (w64 : Bool) : ScalArgs := ⟨.none, w64, s 2, s 4, .reg (s 6)⟩
def memArgs (dst data : Spec) (base : MemBase) (sz : BitVec 3) (tail : MemTail) : MemArgs :=
  ⟨dst, base, data, v 1, sz, false, 0, 0, tail⟩
def atomTail (aop : BitVec 4) : MemTail := .narrow 0 aop .dev
def waitArgs (c0 : Cond) (tp : BitVec 3) : WaitArgs := ⟨s 2, c0, .none, .none, .none, false, 0, tp⟩
def copyArgs : CopyArgs := ⟨s 2, s 8, ⟨0, 0⟩, false⟩

/-! ## Well-formedness: a term that each check refuses -/

def illFormed (l : List Instr) : Bool := l.all fun i => !i.wf

/-- SETF above 12, a scalar as a lane destination, a bad tag, SAT where there is none, an unused source in use, a width above
32, predicate 7 as a destination, an odd pair, an immediate bit, an operand of the wrong kind, a bad range. -/
theorem test_wf_refuses : illFormed [
    .iadd { ctl with setf := 13 } (intArgs (.imm 1)), .iadd ctl { intArgs (.imm 1) with dst := s 1 },
    .and ctl { intArgs (.imm 1) with ty := .i32 }, .imul ctl { intArgs (.imm 1) with sat := true },
    .iadd ctl { intArgs (.imm 1) with c := v 9 }, .popc ctl (intArgs (.reg (v 5))),
    .bfx ctl ⟨.none, v 3, v 4, v 0, 0, 33⟩, .bfx ctl ⟨.none, v 3, v 4, v 9, 0, 3⟩, .sxt ctl ⟨.i32, v 3, v 4⟩,
    .icmp ctl ⟨.none, false, .eq, 7, v 4, .imm 0⟩, .icmp ctl ⟨.none, true, .eq, 1, v 4, .imm 0⟩,
    .scmp ctl ⟨.none, true, .eq, 1, s 3, .imm 0⟩, .lea ctl ⟨.none, 0, v 3, v 4, v 5, 0⟩, .slea ctl ⟨.none, 0, s 2, s 4, v 5, 0⟩,
    .sadd ctl { scalArgs true with dst := s 3 }, .smul ctl (scalArgs true), .smovi ctl (v 1) 7, .bcast ctl (v 3) (s 4) (.imm 0),
    .shfl ctl .idx (v 3) .zero (.imm 0), .voteAny ctl 7 ⟨false, 0⟩, .voteBallot ctl (s 3) ⟨false, 0⟩,
    .fadd ctl { fArgs .f32 2 with c := v 9 }, .fadd ctl { fArgs .f32 2 with nc := true }, .fmin ctl { fArgs .f32 2 with rm := .rz },
    .hadd2 ctl (fArgs .f32 2), .cvt ctl ⟨.f32, .f32, .none, v 3, v 4, 0⟩, .cvt ctl ⟨.f32, .f16, .none, v 3, v 4, 2⟩,
    .sibget ctl (v 3) (v 4) 3, .rand ctl .f32 false true (v 4), .mdpack ctl ⟨.f32, v 3, v 4⟩, .brx ctl .zero 0,
    .rclaim ctl 12, .rpool ctl (s 1) 5, .xset ctl 0 (v 1) 192, .xadd ctl 0 (v 1) true 0] = true := by
  decide +kernel

theorem test_wf_refuses_operands : illFormed [
    .qmap ctl 0 0 0 64, .qmap ctl 0 0 1 32, .qpop ctl (v 3) 0 false 1, .qpop ctl (v 3) 0 true 7, .qtryPop ctl 7 (v 3) 0,
    .qstat ctl (s 1) 0 8, .refill { ctl with guard := ⟨false, 0⟩ } (v 3) 0 0 false,
    .ld ctl (memArgs (v 3) (v 0) (.glob (s 3)) 2 (.wide 0)), .ld ctl (memArgs (v 3) (v 2) (.glob (s 2)) 2 (.wide 0)),
    .ld ctl (memArgs (v 3) (v 0) (.slot 0) 2 (.wide 0)), .ld ctl (memArgs (v 3) (v 0) (.glob (s 2)) 5 (.wide 0)),
    .ld ctl { memArgs (v 3) (v 0) (.glob (s 2)) 2 (.wide 0) with sx := true },
    .st ctl (memArgs (v 3) (v 2) (.glob (s 2)) 2 (.wide 0)), .lds ctl (memArgs (v 3) (v 0) (.glob (s 2)) 2 (.wide 0)),
    .atom ctl (memArgs (v 3) (v 2) (.glob (s 2)) 2 (.wide 0)), .atom ctl (memArgs (v 3) (v 2) (.glob (s 2)) 2 (atomTail 12)),
    .red ctl (memArgs (v 0) (v 2) (.glob (s 2)) 2 (atomTail 10)), .ldu ctl (memArgs (s 3) (v 0) (.glob (s 2)) 2 (.wide 0)),
    .pref ctl (memArgs (v 0) (v 0) (.glob (s 2)) 0 (atomTail 3)), .barinit ctl ⟨0, 0⟩ 0, .barinit ctl ⟨0, 0⟩ 65,
    .bartx ctl ⟨0, 0⟩ (v 1) false 0, .wait ctl (waitArgs .none 7), .wait ctl { waitArgs (.flag 13) 0 with ts := 1 },
    .gstart ctl (s 3), .gstat ctl (s 2) 5, .cpyLoad ctl { copyArgs with oct := s 9 }, .tst ctl ⟨0, 0, s 1, 0, 1⟩,
    .ard ctl (v 3) (v 4) 0 0 3 false, .acvt ctl 0 0 0 3, .atopk ctl 0 0 (s 1) 17 false false, .asave ctl ⟨0, 0, v 1, 0, false⟩,
    .trap ctl 256, .ctlrd ctl (s 3) 3, .ctlwr ctl 0x30 (s 1), .clockTick ctl (s 3), .brk { ctl with setf := 15 },
    .mark ctl (s 1) true 1] = true := by
  decide +kernel

/-! ## Words from the encoding tables -/

/-- What a word stands for, in a launch of this mode. -/
def reads (triple : Bool) (w : BitVec 96) : Option Instr := (decodeBytes triple (bytesOfWord w)).toOption

/-- 02 R46 and the tables of 03 to 05: SETF, WAIT, STALL; IMM12; OPS, RM, TY; SRCC, SRCB, SRCA; guard; DST; opcode. -/
theorem test_words_L :
    reads false 0x0_000_0_000_0000_00_05_04_7_03_008 = some (.and ctl (intArgs (.reg (v 5)))) ∧
    reads false 0x0_000_0_FFF_0080_00_00_04_7_03_001 = some (.isub ctl (intArgs (.imm 0xFFF))) ∧
    reads false 0x0_000_0_000_0180_00_C6_C4_7_C2_100 = none ∧
    reads false 0x0_000_0_000_0100_00_C6_C4_7_C2_100 = some (.sadd ctl (scalArgs true)) ∧
    reads false 0x0_000_0_000_0017_06_05_04_7_03_203 = some (.ffma ctl { fArgs .f32 3 with rm := .rne }) ∧
    reads true 0x0_000_0_002_0000_00_00_04_7_03_303 = some (.sibget ctl (v 3) (v 4) 2) ∧
    reads false 0x0_000_0_002_0000_00_00_04_7_03_303 = none ∧
    reads false 0x0_000_0_000_0800_00_05_E1_7_00_602 = none ∧
    reads false 0x0_000_0_000_1000_00_05_E1_7_00_602 = some (.qpush ctl 1 (v 5) true) ∧
    reads false 0x0_000_0_000_0000_00_00_00_7_00_900 = some (.rdenter ctl) ∧
    reads false 0x0_000_0_000_0080_00_00_C8_7_C2_A00 = some (.cpyStore ctl copyArgs) := by
  decide +kernel

/-- 02 R47, R50 to R53 and the tables of 06, 07, 10, 14, 15. -/
theorem test_words_IBTS :
    reads false 0x0_000_0_000_00000001_12_7_00_401 = none ∧
    reads false 0x0_000_0_000_00000001_02_7_00_401 = some (.bru ctl ⟨false, 2⟩ 1) ∧
    reads false 0x0_000_0_003_00000005_00_7_00_403 = some (.call ctl 5 3) ∧
    reads false 0x0_000_0_080_000000BF_04_7_00_505 = some (.xset ctl 1 (v 4) 0xBF) ∧
    reads false 0x0_000_0_060_00000000_00_7_00_800 = some (.fenceAcq ctl .sys) ∧
    reads false 0x0_000_0_0D0_00000000_00_7_00_800 = some (.fenceRel ctl .dev) ∧
    reads false 0x0_000_0_000_000003_48_00_7_00_801 = some (.barinit ctl ⟨1, 2⟩ 3) ∧
    reads false 0x0_000_0_E00_0000_0000_29_7_C2_805 = some (.wait ctl (waitArgs (.flag 5) 7)) ∧
    reads false 0x0_000_0_00010_0001_06_C1_7_00_B01 = some (.tld ctl ⟨6, 1, s 1, 0x10, 0⟩) ∧
    reads false 0x0_000_0_000_00000007_00_7_00_C00 = some (.trap ctl 7) ∧
    reads false 0x0_000_0_080_00000000_00_7_C2_C04 = some (.clockCyc ctl (s 2)) := by
  decide +kernel

/-- 02 R48, R49 and the tables of 08, 09. -/
theorem test_words_M :
    reads false 0x0_000_0_00040_12_EC_00_00_7_02_600 = none ∧
    reads false 0x0_000_0_00040_10_EC_00_01_7_E2_600 = some (.qmap ctl 2 1 1 0x40) ∧
    reads false 0x0_000_0_00004_02_01_02_C2_7_00_701 =
      some (.st ctl (memArgs (v 0) (v 2) (.glob (s 2)) 2 (.wide 4))) ∧
    reads false 0x0_000_0_A2000_02_01_02_C2_7_03_705 =
      some (.atom ctl (memArgs (v 3) (v 2) (.glob (s 2)) 2 (atomTail 1))) ∧
    reads false 0x0_000_0_00000_02_01_00_01_7_03_702 =
      some (.lds ctl (memArgs (v 3) (v 0) (.slot 1) 2 (.wide 0))) := by
  decide +kernel

/-- R62, R63: unassigned opcodes and classes, reserved specifiers and codes, and nonzero unused fields are no instructions. -/
theorem test_words_refused : [0x0_000_0_000_0000_00_00_00_7_00_01A, 0x0_000_0_000_0000_00_00_00_7_00_D00,
    0x0_000_0_000_0000_00_00_00_7_00_FFF, 0x0_000_0_000_0000_00_05_F0_7_03_008, 0x0_000_0_000_000F_00_05_04_7_03_008,
    0x0_000_0_000_0000_01_05_04_7_03_008, 0x0_000_0_070_00000000_00_7_00_800, 0xD_000_0_000_0000_00_00_00_7_00_900].all
      (fun w => (reads false w).isNone && (reads true w).isNone) = true := by
  decide +kernel

/-! ## One step -/

def w0 : WarpRef := ⟨benchCrew, 0⟩

/-- The bench with instruction `i`, at the turn of its warp. -/
def at_ (i : Instr) (triple : Bool := false) : State :=
  { State.reset.bench triple (bytesOfWord (encode i)) with turn := some w0 }

/-- The same with the warp changed first. -/
def with_ (i : Instr) (f : Warp → Warp) (triple : Bool := false) : State := (at_ i triple).modWarp w0 f

/-- Row `r` of a warp holds `g` of each lane. -/
def setRow (r : Nat) (g : Nat → Word) (w : Warp) : Warp := w.writeRow r (BitVec.allOnes 48) (laneList.map g) 0

/-- What `i` leaves in the state and in its warp. -/
def leaves (i : Instr) (s : State) (p : State → Warp → Bool) : Bool :=
  match exec i s with
  | .next t => (t.warp? w0).any (p t)
  | _ => false

/-- R85: the sum wraps, or saturates under SAT. -/
theorem test_iadd :
    leaves (.iadd ctl (intArgs (.imm 1))) (with_ (.iadd ctl (intArgs (.imm 1))) (setRow 4 fun _ => 0x7FFF_FFFF))
      (fun _ w => w.laneWord 3 47 == 0x8000_0000 && w.split.pc == 1) = true ∧
    leaves (.iadd ctl { intArgs (.imm 1) with ty := .i32, sat := true })
      (with_ (.iadd ctl { intArgs (.imm 1) with ty := .i32, sat := true }) (setRow 4 fun _ => 0x7FFF_FFFF))
      (fun _ w => w.laneWord 3 0 == 0x7FFF_FFFF) = true := by
  decide +kernel

/-- R85: an immediate of -1 shifts by 2^32 - 1 and gives 0; `sar` leaves copies of the sign. -/
theorem test_shifts :
    leaves (.shl ctl (intArgs (.imm 0xFFF))) (with_ (.shl ctl (intArgs (.imm 0xFFF))) (setRow 4 fun _ => 0x8000_0001))
      (fun _ w => w.laneWord 3 5 == 0) = true ∧
    leaves (.sar ctl (intArgs (.imm 40))) (with_ (.sar ctl (intArgs (.imm 40))) (setRow 4 fun _ => 0x8000_0001))
      (fun _ w => w.laneWord 3 5 == 0xFFFF_FFFF) = true := by
  decide +kernel

/-- R143: `sibget v1, v1, 0` gives all three siblings the word of the first. -/
theorem test_sibget :
    leaves (.sibget ctl (v 1) (v 1) 0) (with_ (.sibget ctl (v 1) (v 1) 0) (setRow 1 fun l => BitVec.ofNat 32 l) true)
      (fun _ w => w.laneWord 1 45 == 45 && w.laneWord 1 46 == 45 && w.laneWord 1 47 == 45) = true := by
  decide +kernel

/-- R42, R79: a lane that the guard switches off keeps its word. -/
theorem test_guard :
    leaves (.movi { ctl with guard := ⟨true, 1⟩ } (v 2) 9)
      (with_ (.movi { ctl with guard := ⟨true, 1⟩ } (v 2) 9) fun w => w.setPred 1 0x1)
      (fun _ w => w.laneWord 2 0 == 0 && w.laneWord 2 1 == 9) = true := by
  decide +kernel

/-- R154, R160: the side with the lower PC keeps the split's place; the other stands in the next one. -/
theorem test_bra :
    leaves (.bra ctl ⟨false, 0⟩ 5) (with_ (.bra ctl ⟨false, 0⟩ 5) fun w => w.setPred 0 0x3)
      (fun _ w => w.split.pc == 1 && w.split.mask == 0xFFFF_FFFF_FFFC &&
        (w.splitAt 1).any fun u => u.pc == 5 && u.mask == 0x3) = true := by
  decide +kernel

/-- R158: a call writes `(pc + 1) * 32 + shift` into row 0 of the window 8 * shift rows up. -/
theorem test_call :
    leaves (.call ctl 7 2) (at_ (.call ctl 7 2))
      (fun _ w => w.split.pc == 7 && w.split.base == 16 && w.laneWord 16 3 == 34) = true := by
  decide +kernel

/-- R238, R243: a store of one byte per lane to rising addresses, little-endian from the word's low byte. -/
theorem test_st :
    leaves (.st ctl (memArgs (v 0) (v 2) (.glob (s 2)) 0 (.wide 0)))
      (with_ (.st ctl (memArgs (v 0) (v 2) (.glob (s 2)) 0 (.wide 0))) fun w =>
        setRow 1 (fun l => BitVec.ofNat 32 l) (setRow 2 (fun l => BitVec.ofNat 32 (0x1200 + l)) (w.setScalar 2 0x50000)))
      (fun t _ => t.rawByte 0x50000 == 0 && t.rawByte 0x5002F == 47 && t.rawByte 0x50030 == 0) = true := by
  decide +kernel

/-- R357: the cause is code, argument and split, and the handler's PC comes from `TRAPBASE`. -/
theorem test_trap :
    leaves (.trap ctl 0x2A) (with_ (.trap ctl 0x2A) fun w => { w with trapBase := 0x8000_0100 })
      (fun _ w => w.trapCause == 0x2A0D && w.trapPc == 1 && w.trapBase == 0xC000_0100 && w.split.pc == 0x100) = true := by
  decide +kernel

/-- R118: 1.5 + 0.25 is exact; R110: 1 + 2^-24 is a tie, which rounds to even and raises NX. -/
theorem test_fadd :
    leaves (.fadd ctl (fArgs .f32 2)) (with_ (.fadd ctl (fArgs .f32 2)) fun w =>
        setRow 4 (fun l => if l == 0 then 0x3FC0_0000 else 0x3F80_0000)
          (setRow 5 (fun l => if l == 0 then 0x3E80_0000 else 0x3380_0000) w))
      (fun _ w => w.laneWord 3 0 == 0x3FE0_0000 && w.laneWord 3 1 == 0x3F80_0000) = true := by
  decide +kernel

/-! ## Witnesses: for each statement states and operands that meet its hypotheses -/

/-- In `t`, the legal instruction `i` reaches its effect, and `p` holds of the attempt. -/
def reaches (t : State) (i : Instr) (p : Cx → Bool) : Bool := i.wf && (t.ready i).any p

/-- On the bench, each of these instructions does. -/
def each (triple : Bool) (l : List Instr) (p : Instr → Cx → Bool) : Bool := l.all fun i => reaches (at_ i triple) i (p i)

def isOk : Check → Bool
  | .ok => true
  | _ => false

theorem witness_IntegerLanes : each false
    ([.iadd, .isub, .imul, .imulh, .imad, .imin, .imax, .and, .or, .xor, .andn, .shl, .shr, .sar, .rot].map
      (fun f : Ctl → IntArgs → Instr => f ctl (intArgs (.reg (v 5)))) ++
      ([.iabs, .popc, .clz].map fun f : Ctl → IntArgs → Instr => f ctl (intArgs (.reg .unused))) ++
      [.bfx ctl ⟨.none, v 3, v 4, .unused, 31, 32⟩, .bfi ctl ⟨.none, v 3, v 4, v 5, 0, 0⟩, .sel ctl ⟨v 3, v 4, .imm 1, ⟨false, 0⟩⟩,
        .mov ctl (v 191) (v 0), .movi ctl .zero 7, .sxt ctl ⟨.i8, v 3, v 4⟩])
    (fun i x => (Claims.integerRow x i).isSome) = true := by
  decide +kernel

theorem witness_SiblingLanes : each true
    [.digits ctl ⟨.f32, v 3, v 4⟩, .smean ctl ⟨.f16, v 3, v 4⟩, .sibget ctl (v 3) (v 4) 2, .rand ctl .f32 true false (v 3),
      .mdpack ctl ⟨.bf16, v 3, v 4⟩, .mdunpack ctl ⟨.f32, v 3, v 4⟩] (fun i x => (Claims.siblingRow x i).isSome) = true ∧
    each true [.sibmodeNear ctl, .sibmodeRand ctl] (fun _ _ => true) = true := by
  decide +kernel

theorem witness_WideLanes : each false
    [.lea ctl ⟨.none, 3, v 2, v 4, v 5, 0xFFF⟩, .rand ctl .none false true (v 2), .mdpack ctl ⟨.f32, v 2, v 4⟩,
      .ctlrd ctl (v 2) 4] (fun i x => (Claims.wideRows x i).isSome) = true := by
  decide +kernel

theorem witness_PredicateResults : each false
    [.scmp ctl ⟨.none, true, .lt, 1, s 2, .imm 5⟩, .scmp ctl ⟨.i32, false, .ge, 6, s 3, .reg (s 4)⟩, .voteAny ctl 1 ⟨false, 2⟩,
      .voteAll ctl 1 ⟨true, 2⟩, .sibagree ctl .f32 0 (v 4), .nchk ctl .f16 0 (v 4) (.imm 3)]
      (fun i x => (Claims.predicateOf x i).isSome) = true ∧
    each true [.icmp ctl ⟨.n32, false, .le, 1, v 4, .imm 5⟩, .fcmp ctl ⟨.f32, .un, 1, v 4, v 5⟩]
      (fun i x => (Claims.comparison x i).isSome) = true := by
  decide +kernel

theorem witness_ScalarResults :
    ([false, true].all fun w => each false
      (([.sadd, .ssub, .sand, .sor, .sxor, .sshl, .sshr].map fun f : Ctl → ScalArgs → Instr => f ctl (scalArgs w)) ++
        [.smov ctl { scalArgs w with b := .reg .unused }])
      (fun i x => (Claims.scalarOf x i).isSome != w && (Claims.scalarPairOf x i).isSome == w)) = true ∧
    each false [.smul ctl (scalArgs false), .smovi ctl (s 31) 1] (fun i x => (Claims.scalarOf x i).isSome) = true ∧
    each false [.slea ctl ⟨.n32, 2, s 2, s 4, s 5, 1⟩] (fun i x => (Claims.scalarPairOf x i).isSome) = true ∧
    each false [.rpool ctl (s 1) 4, .wdepth ctl (s 1) 0, .gstat ctl (s 1) 2, .gstat ctl (s 1) 4, .ctlrd ctl (s 1) 0,
      .ctlrd ctl (s 1) 0x17] (fun i x => (Claims.readingOf x i).isSome) = true ∧
    each false [.voteBallot ctl (s 2) ⟨false, 0⟩, .gstat ctl (s 2) 3, .clockTick ctl (s 2), .clockCyc ctl (s 2),
      .ctlrd ctl (s 2) 0x0D] (fun i x => (Claims.readingPairOf x i).isSome) = true := by
  decide +kernel

/-- The bench's crew with one queue of eight rows, of this state and these rows in it, bound to name 0 of its warp. -/
def withQueue (state : BitVec 2) (count : Nat) (t : State) : State :=
  (t.modCrew benchCrew fun c => { c with
    queues := [{ newQueue ⟨0, 1, 8, 64⟩ with state, tail := count, count, pushed := BitVec.ofNat 32 count, staged := count != 0 }]
    }).modWarp w0 fun w => { w with bindings := w.bindings.set 0 (some ⟨0, true, true, false⟩) }

theorem witness_qstat : reaches (withQueue 0 2 (at_ (.qstat ctl (s 1) 0 7))) (.qstat ctl (s 1) 0 7)
    (fun x => (Claims.readingOf x (.qstat ctl (s 1) 0 7)).isSome) = true := by
  decide +kernel

theorem witness_CrossLaneResults :
    each false [.bcast ctl (v 3) (v 4) (.imm 47), .bcast ctl (v 3) (v 4) (.imm 48), .shfl ctl .xor (v 3) (v 4) (.imm 1)]
      (fun _ x => x.crossClear (v 4) (BitVec.allOnes 48)) = true ∧
    each true [.rdlane ctl (s 3) (v 4) (.imm 47), .elect ctl (s 1) 7] (fun _ x => x.crossClear (v 4) (BitVec.allOnes 48)) = true := by
  decide +kernel

theorem witness_FloatRounding :
    each true ([(Instr.fadd, 2), (.fsub, 2), (.fmul, 2), (.ffma, 3), (.fdiv, 2), (.fsqrt, 1), (.frcp, 1), (.frsq, 1), (.fexp2, 1),
      (.flog2, 1)].map fun p => p.1 ctl (fArgs .f32 p.2)) (fun i _ => (Claims.rounding i).isSome) = true ∧
    each false ([(Instr.hadd2, 2), (.hmul2, 2), (.hfma2, 3)].map fun p => p.1 ctl (fArgs .bf16 p.2))
      (fun i _ => (Claims.packedRounding i).isSome) = true := by
  decide +kernel

theorem witness_FloatOther : each false
    [.fmin ctl (fArgs .f32 2), .fmax ctl (fArgs .f16 2), .fclass ctl (fArgs .bf16 1), .frnd ctl (fArgs .f32 1),
      .cvt ctl ⟨.e4m3, .f32, .rne, v 3, v 4, 0⟩] (fun i x => (Claims.floatRow x i).isSome) = true := by
  decide +kernel

theorem witness_BranchesJoinsAndYields :
    each true [.bra ctl ⟨false, 0⟩ 5, .bru ctl ⟨true, 7⟩ 5] (fun _ x => match Claims.taken x ⟨false, 0⟩ with
      | .ok _ => true
      | .error _ => false) = true ∧
    reaches (with_ (.bra ctl ⟨false, 0⟩ 5) (fun w => { w.setPred 0 1 with numctl := 0x1F1F }) true) (.bra ctl ⟨false, 0⟩ 5)
      (fun x => match Claims.taken x ⟨false, 0⟩ with
        | .ok _ => false
        | .error _ => true) = true := by
  decide +kernel

theorem witness_IndirectFlow :
    each true [.brx ctl (v 4) 3, .call ctl 5 31, .callx ctl (v 4) 5 0, .ret ctl]
      (fun i x => (Claims.flowOf x i).isSome && laneList.all fun l => (wordAt (x.src (v 0)) l).extractLsb' 0 5 == 0) = true ∧
    reaches (with_ (.ret ctl) (setRow 0 fun _ => 0x41)) (.ret ctl)
      (fun x => x.act.getLsbD 47 && decide (x.sp.base < 8 * ((wordAt (x.src (.v 0)) 47).extractLsb' 0 5).toNat)) = true := by
  decide +kernel

theorem witness_LanesAndWarpsLeave :
    reaches (at_ (.exit ctl)) (.exit ctl) (fun x => isOk (x.dropCheck x.act) && (x.w.splitAt x.w.cur).isSome &&
      (x.s.crew? x.ref.crew).isSome && (x.s.launch? x.ref.crew.launch).isSome) = true := by
  decide +kernel

/-- The warp's split with a parked path of its own base. -/
def parked (w : Warp) : Warp := w.modSplit w.cur fun u => { u with mask := 0xFF, layby := [⟨9, 0xFF00, 0⟩] }

theorem witness_JoinYieldNop :
    each false [.join ctl, .yield ctl, .nop ctl] (fun _ x => x.w.parked.isNone) = true ∧
    ([Instr.join ctl, .yield ctl].all fun i => reaches (with_ i parked) i fun x => x.w.parked.isSome &&
      (List.range 4).all fun n => n == x.w.cur || (x.w.splitAt n).isNone) = true ∧
    reaches (with_ (.join ctl) fun w => { w with splits := w.splits.set 1 (some ⟨4, 0, 0, [], false, 0⟩) }) (.join ctl)
      (fun x => x.w.parked.isNone && (x.w.splitAt 1).any fun u => u.base == x.sp.base && !u.joinWait) = true := by
  decide +kernel

/-- The claim list of the warp's quarter. -/
def withClaims (l : List Claim) (t : State) : State := t.modCrew benchCrew fun c => { c with claims := [l, [], [], []] }

def wholeRing (x : Cx) (n : Nat) : Bool :=
  x.w.bot % 8 == 0 && x.w.ring % 8 == 0 && n % 8 == 0 && decide (min x.w.high x.w.spillLim ≤ x.w.bot + x.w.ring)

/-- Within the reserve, within the budget only, beyond it, behind another claim, and served. -/
theorem witness_ClaimRows :
    reaches (at_ (.rclaim ctl 64)) (.rclaim ctl 64) (fun x => wholeRing x 64 && x.c.reserve.getD 0 0 == 64 &&
      x.c.budget.getD 0 0 == x.w.ring + 64) = true ∧
    reaches (at_ (.rclaim ctl 72)) (.rclaim ctl 72) (fun x => decide (x.c.budget.getD 0 0 < x.w.ring + 72)) = true ∧
    reaches (withClaims [⟨1, 8, false⟩] (at_ (.rclaim ctl 8))) (.rclaim ctl 8)
      (fun x => (x.c.claims.getD 0 []).all (·.warp != x.ref.warp)) = true ∧
    reaches (withClaims [⟨0, 8, true⟩] (at_ (.rclaim ctl 8))) (.rclaim ctl 8)
      (fun x => wholeRing x 8 && ((x.c.claims.getD 0 []).find? (·.warp == x.ref.warp)).any (·.served)) = true := by
  decide +kernel

/-- Too many rows, a window in use, a move first, and at once. -/
theorem witness_ReleaseRows :
    each false [.rrelease ctl 192, .rrelease ctl 184, .rrelease ctl 128] (fun _ _ => true) = true ∧
    reaches (with_ (.rrelease ctl 128) fun w => { w.modSplit w.cur fun u => { u with base := 8 } with
      splits := w.splits.map (·.map fun u => { u with base := 8 }) }) (.rrelease ctl 128)
      (fun x => decide (x.w.bot < max x.w.bot (x.w.hi + 8 * x.w.reach - 64)) && x.w.moved.isNone) = true := by
  decide +kernel

theorem witness_FlushAndIndex :
    reaches (at_ (.wflush ctl)) (.wflush ctl) (fun x => (x.s.coreAt x.core).spillBuf.isEmpty && decide (x.w.ring / 8 ≤ 32)) = true ∧
    each false [.xset ctl 3 (v 4) 191, .xadd ctl 0 (v 4) false 0, .xadd ctl 1 (v 0) true 5] (fun _ _ => true) = true := by
  decide +kernel

theorem witness_QueueBindings :
    reaches (withQueue 0 0 (at_ (.qmap ctl 1 0 3 64))) (.qmap ctl 1 0 3 64) (fun x => ((x.w.bindings[1]?).join).isNone &&
      ((x.c.slotGroup x.w 0).bind fun g => x.c.queues.findIdx? fun k => k.group == g.1 && k.off == 64).isSome) = true ∧
    each false [.qmap ctl 1 0 3 64, .qunmap ctl 0, .qclose ctl 0] (fun _ x => (x.bound 0).isNone) = true ∧
    ([Instr.qunmap ctl 0, .qclose ctl 0].all fun i => reaches (withQueue 0 0 (at_ i)) i fun x => (x.bound 0).any (·.1.push)) = true := by
  decide +kernel

def goes : QTest → Bool
  | .go => true
  | _ => false

def waits : QTest → Bool
  | .wait _ => true
  | _ => false

theorem witness_QueueTransfers :
    reaches (withQueue 0 7 (at_ (.qpush ctl 0 (v 4) true))) (.qpush ctl 0 (v 4) true)
      (fun x => isOk (x.rowCheck [⟨v 4, 1⟩] (BitVec.allOnes 48))) = true ∧
    reaches (withQueue 0 1 (at_ (.qpop ctl (v 3) 0 false 0))) (.qpop ctl (v 3) 0 false 0)
      (fun x => x.pops.all fun p => p.bad == 0) = true ∧
    reaches (withQueue 1 1 (at_ (.qpop ctl (v 3) 0 true 0))) (.qpop ctl (v 3) 0 true 0)
      (fun x => goes (x.queueTest [⟨0, false, true⟩]) && (x.c.headRow 0).2.2 == 0) = true ∧
    reaches (withQueue 1 0 (at_ (.qpop ctl (v 3) 0 true 0))) (.qpop ctl (v 3) 0 true 0)
      (fun x => waits (x.queueTest [⟨0, false, true⟩]) && (x.bound 0).any fun y => y.2.state == 1 && y.2.count == 0) = true ∧
    reaches (withQueue 0 1 (at_ (.qtryPop ctl 0 (v 3) 0))) (.qtryPop ctl 0 (v 3) 0)
      (fun x => goes (x.queueTest [⟨0, false, true⟩])) = true ∧
    reaches (withQueue 0 0 (at_ (.qtryPop ctl 0 (v 3) 0))) (.qtryPop ctl 0 (v 3) 0)
      (fun x => waits (x.queueTest [⟨0, false, true⟩]) && !x.unstaged 0) = true ∧
    reaches (withQueue 0 7 (at_ (.qtryPush ctl 0 0 (v 4)))) (.qtryPush ctl 0 0 (v 4))
      (fun x => goes (x.queueTest [⟨0, true, false⟩])) = true ∧
    reaches (withQueue 0 8 (at_ (.qtryPush ctl 0 0 (v 4)))) (.qtryPush ctl 0 0 (v 4))
      (fun x => waits (x.queueTest [⟨0, true, false⟩])) = true := by
  decide +kernel

theorem witness_QueueRows : ((withQueue 0 1 (at_ (.nop ctl))).crew? benchCrew).any (fun c =>
    (c.queues[0]?).any fun k => k.pending.isEmpty) = true := by
  decide +kernel

/-- Lanes to fill and rows for them; nobody to fill; nothing to take. -/
theorem witness_RefillLanes :
    reaches ((withQueue 0 1 (at_ (.refill ctl (v 3) 0 0 false))).modWarp w0 fun w =>
        { w.modSplit w.cur fun u => { u with mask := 0xFFFF } with vacant := 0xF0000, splits :=
          [some ⟨0, 0xFFFF, 0, [], false, 0⟩, none, none, none] }) (.refill ctl (v 3) 0 0 false)
      (fun x => x.w.vacant == 0xF0000 && goes (x.queueTest [⟨0, false, true⟩]) && isOk (x.rowCheck [⟨v 3, 1⟩] 0xF0000)) = true ∧
    reaches (at_ (.refill ctl (v 3) 0 0 true)) (.refill ctl (v 3) 0 0 true) (fun x => x.w.vacant ||| x.w.pred 0 == 0) = true ∧
    reaches ((withQueue 0 0 (at_ (.refill ctl (v 3) 0 0 false))).modWarp w0 fun w => w.setPred 0 1) (.refill ctl (v 3) 0 0 false)
      (fun x => waits (x.queueTest [⟨0, false, true⟩]) && !x.unstaged 0) = true := by
  decide +kernel


/-! ### Memory -/

/-- The launches of a state changed. -/
def launched (f : Launch → Launch) (t : State) : State := { t with launches := t.launches.map f }
def paired (t : State) : State := launched (fun l => { l with paired := true }) t

def accessGoes : Claims.Access → Bool
  | .go _ _ => true
  | _ => false

def ldArgs : MemArgs := memArgs (v 3) (v 0) (.glob (s 2)) 2 (.wide 0)
def stArgs : MemArgs := memArgs (v 0) (v 2) (.glob (s 2)) 2 (.wide 0)
def spArgs (dst data : Spec) (tail : MemTail) : MemArgs := memArgs dst data (.slot 0) 2 tail

/-- Going on, faulting beyond the table, and disputed addresses under an enabled cause. -/
theorem witness_GlobalLoads :
    each true [.ld ctl ldArgs] (fun _ x => accessGoes (Claims.access x .load ldArgs)) = true ∧
    each false [.ldu ctl { ldArgs with dst := s 4, index := s 1 }] (fun _ x => match x.s.checkLane x.l.ctx .load 0 4 false with
      | .ok _ => true
      | .error _ => false) = true ∧
    reaches (with_ (.ld ctl ldArgs) fun w => w.setScalar 3 1) (.ld ctl ldArgs)
      (fun x => match Claims.access x .load ldArgs with
        | .fault _ => true
        | _ => false) = true ∧
    reaches (with_ (.ld ctl ldArgs) (fun w => setRow 1 (fun l => BitVec.ofNat 32 l) { w with numctl := 0x1F1F }) true)
      (.ld ctl ldArgs) (fun x => match Claims.access x .load ldArgs with
        | .trap _ => true
        | _ => false) = true := by
  decide +kernel

theorem witness_GlobalStores :
    each false [.st ctl stArgs] (fun _ x => accessGoes (Claims.access x .store stArgs) && !x.l.paired && !x.l.replay) = true ∧
    reaches (paired (at_ (.st ctl stArgs))) (.st ctl stArgs)
      (fun x => accessGoes (Claims.access x .store stArgs) && match x.holdRoom 192 with
        | .room => true
        | _ => false) = true := by
  decide +kernel

/-- The launch's hold has one entry, of a store that is signed or not. -/
def holding (store : Nat) (d : List Byte) : State :=
  launched (fun l => { l with hold := [⟨benchCrew, 0, 0x90000, d, false, store, 0⟩] }) (paired (at_ (.st ctl stArgs)))

theorem holding_room (n : Nat) (d : List Byte) : ((holding n d).ready (.st ctl stArgs)).map (fun x => x.holdRoom 192) = some (
    if 0 + d.length + 192 ≤ holdSize then .room else if (false || (true && (true && (n != 0) || false))) then .full
    else if 0 + d.length + 192 ≤ holdSize + 0x10_0000 then .room else .overflow) := by
  with_unfolding_all rfl

/-- Full, and past what a full hold still takes. -/
theorem witness_full_hold : ∃ d, (∃ x, (holding 1 d).ready (.st ctl stArgs) = some x ∧ x.holdRoom 192 = .full) ∧
    ∃ x, (holding 0 d).ready (.st ctl stArgs) = some x ∧ x.holdRoom 192 = .overflow := by
  obtain ⟨d, hd⟩ : ∃ d : List Byte, d.length = holdSize + 0x10_0000 := ⟨List.replicate _ 0, List.length_replicate⟩
  have h0 := holding_room 0 d
  have h1 := holding_room 1 d
  rw [hd] at h0 h1
  simp only [Option.map_eq_some_iff] at h0 h1
  exact ⟨d, by simpa [holdSize] using h1, by simpa [holdSize] using h0⟩

theorem witness_BytesWritten : State.reset.memOk ∧ isDram 0x50000 = true ∧
    Memory.wf ((newCrew (benchLaunch false []) benchCrew 0 0 [0]).scratch) = true := by
  refine ⟨?_, ?_, ?_⟩
  · rfl
  · decide +kernel
  · decide +kernel

def atomArgs : MemArgs := memArgs (v 3) (v 2) (.glob (s 2)) 2 (atomTail 1)
def redArgs : MemArgs := memArgs (v 0) (v 2) (.glob (s 2)) 2 (atomTail 1)

/-- Three lanes of the split. -/
def few (w : Warp) : Warp := w.modSplit w.cur fun u => { u with mask := 7 }

/-- Alone, at the compare point, and beyond it. -/
theorem witness_GlobalAtomics :
    ([Instr.atom ctl atomArgs, .red ctl redArgs].all fun i => reaches (with_ i few true) i fun x => !x.l.paired &&
      accessGoes (Claims.access x .atomic atomArgs) && accessGoes (Claims.access x .reduce redArgs)) = true ∧
    ([Instr.atom ctl atomArgs, .red ctl redArgs].all fun i => [false, true].all fun p =>
      reaches (paired (with_ i fun w => few { w with passed := p })) i fun x => x.l.paired && x.w.passed == p &&
        !x.ref.crew.shadow && accessGoes (Claims.access x .atomic atomArgs)) = true := by
  decide +kernel

/-- The lanes that complete and those switched off, which may leave. -/
theorem witness_ScratchpadAccess :
    each true [.lds ctl (spArgs (v 3) (v 0) (.wide 0)), .sts ctl (spArgs (v 0) (v 2) (.wide 0)),
      .atoms ctl (spArgs (v 3) (v 2) (atomTail 1))] (fun _ x => match Claims.windowed x (spArgs (v 3) (v 2) (.wide 0)) true with
        | some (.ok (_, good, off)) => good.length == 48 && off == 0
        | _ => false) = true ∧
    reaches (with_ (.lds ctl (spArgs (v 3) (v 0) (.wide 0))) (setRow 1 fun l => if l == 7 then 4096 else 0))
      (.lds ctl (spArgs (v 3) (v 0) (.wide 0))) (fun x => match Claims.windowed x (spArgs (v 3) (v 0) (.wide 0)) false with
        | some (.ok (_, good, off)) => good.length == 47 && off == 0x80 && isOk (x.dropCheck off)
        | _ => false) = true := by
  decide +kernel

theorem witness_CacheHints :
    each false [.pref ctl (memArgs (v 0) (v 0) (.glob (s 2)) 0 (.narrow 0 1 .warp)), .cctl ctl (memArgs (v 0) (v 0) (.glob (s 2)) 0 (.narrow 0 1 .core))]
      (fun _ x => match x.agree (x.globalAddrs ldArgs) with
        | .ok _ => true
        | .error _ => false) = true := by
  decide +kernel

/-! ### Ordering, synchronisation and grace -/

theorem witness_Fences :
    each false [.fenceAcq ctl .sys, .fenceRel ctl .dev, .fenceAcqrel ctl .die, .fenceSc ctl .warp, .fenceAsync ctl]
      (fun i x => (Claims.fenceOf i).isSome && !x.l.paired) = true ∧
    reaches (paired (at_ (.fenceRel ctl .dev))) (.fenceRel ctl .dev) (fun x => x.l.paired && !x.w.passed) = true := by
  decide +kernel

/-- Barrier 0 of the bench's group. -/
def withBarrier (b : Barrier) (t : State) : State := t.modCrew benchCrew fun c =>
  { c with groups := c.groups.map fun g => { g with bars := g.bars.set 0 b } }

def idle : Barrier := ⟨0, 1, false, false, 0⟩
def bar0 : BarName := ⟨0, 0⟩

/-- Valid, invalid, and in use. -/
theorem witness_BarrierChanges :
    ([Instr.barinit ctl bar0 3, .barinitInv ctl bar0, .bararr ctl bar0].all fun i =>
      reaches (withBarrier idle (at_ i)) i fun x => (Claims.barrierOp x i).any fun y => ((x.c.barrierOf x.w y.1).any fun r =>
        !r.2.inv && (y.2.2 r.1 r.2).isSome)) = true ∧
    reaches (withBarrier { idle with inv := true } (at_ (.bararr ctl bar0))) (.bararr ctl bar0)
      (fun x => (x.c.barrierOf x.w bar0).any (·.2.inv)) = true ∧
    reaches (withBarrier { idle with arrived := 4 } (at_ (.barinit ctl bar0 3))) (.barinit ctl bar0 3)
      (fun x => (Claims.barrierOp x (.barinit ctl bar0 3)).any fun y => ((x.c.barrierOf x.w bar0).any fun r => (y.2.2 r.1 r.2).isNone)) = true ∧
    each false [.bararr ctl ⟨0, 4⟩] (fun _ x => (x.c.barrierOf x.w ⟨0, 4⟩).isNone) = true := by
  decide +kernel

/-- A barrier that is valid, one that is not, and none. -/
theorem witness_TransactionBytes : ([false, true].all fun inv =>
    reaches (withBarrier { idle with inv } (at_ (.bartx ctl bar0 .unused true 64))) (.bartx ctl bar0 .unused true 64)
      fun x => (x.c.barrierOf x.w bar0).any (·.2.inv == inv)) = true ∧
    each false [.bartx ctl ⟨3, 0⟩ (s 1) false 0] (fun _ x => (x.c.barrierOf x.w ⟨3, 0⟩).isNone) = true := by
  decide +kernel

theorem witness_BarrierWaits :
    ([false, true].all fun ph => reaches (withBarrier idle (at_ (.barwait ctl bar0 ph))) (.barwait ctl bar0 ph)
      fun x => (x.c.barrierOf x.w bar0).any fun r => !r.2.inv && !r.2.ph) = true ∧
    reaches (withBarrier { idle with inv := true } (at_ (.barwait ctl bar0 true))) (.barwait ctl bar0 true)
      (fun x => (x.c.barrierOf x.w bar0).any (·.2.inv)) = true ∧
    each false [.barwait ctl ⟨3, 0⟩ true] (fun _ x => (x.c.barrierOf x.w ⟨3, 0⟩).isNone) = true := by
  decide +kernel

/-- A condition that holds, one that does not, and no condition. -/
theorem witness_Waits :
    each false [.wait ctl (waitArgs (.flag 5) 7), .wait ctl (waitArgs (.grace 4) 1)] (fun i x => x.w.waitHit.isNone &&
      x.w.deadline.isNone && match i with
        | .wait _ a => (x.checkCond a.c0).isNone && ((Watch.mk x.s x.l.ctx x.c x.w x.ref).evaluate a none).isSome
        | _ => false) = true ∧
    reaches (with_ (.wait ctl (waitArgs (.tick 2) 7)) fun w => w.setScalar 4 100) (.wait ctl (waitArgs (.tick 2) 7))
      (fun x => (x.checkCond (.tick 2)).isNone &&
        ((Watch.mk x.s x.l.ctx x.c x.w x.ref).evaluate (waitArgs (.tick 2) 7) none).isNone) = true := by
  decide +kernel

theorem witness_GraceSections :
    each false [.rdenter ctl, .gstart ctl (s 2), .gsync ctl (s 2)] (fun _ x => x.w.depth == 0 && !x.w.graceSent && !x.l.paired &&
      x.graceCopy.seen == x.graceCopy.cur) = true ∧
    ([Instr.rdenter ctl, .rdexit ctl, .gsync ctl (s 2)].all fun i => [1, 2].all fun d =>
      reaches (with_ i fun w => { w with depth := d }) i fun x => x.w.depth == d && !x.l.paired) = true ∧
    reaches (with_ (.rdenter ctl) fun w => { w with depth := 255 }) (.rdenter ctl) (fun x => x.w.depth == 255) = true ∧
    reaches (paired (with_ (.rdexit ctl) fun w => { w with depth := 1 })) (.rdexit ctl) (fun x => x.l.paired && !x.w.passed) = true ∧
    ([0, 1].all fun n => reaches (with_ (.gsync ctl (s 2)) fun w => { w with graceSent := true, graceWait := some n }) (.gsync ctl (s 2))
      fun x => x.w.depth == 0 && x.w.graceWait == some n) = true ∧
    reaches (withQueue 0 0 (at_ (.dfree ctl (s 2) (s 4) 0))) (.dfree ctl (s 2) (s 4) 0)
      (fun x => (x.w.binding 0).isSome && decide (x.grace.freeCount < 4096) && !x.l.paired) = true := by
  decide +kernel

/-! ### Copies, tiles and the system -/

/-- The bench's group has its warp for producer, and the octet from `s8` on names 16 bytes at 0x1000. -/
def producing (t : State) : State := (withBarrier idle (t.modCrew benchCrew fun c =>
    { c with groups := c.groups.map fun g => { g with producer := some 0 } })).modWarp w0 fun w =>
  ((w.setScalar 8 0x1000).setScalar 10 0x100).setScalar 11 16

def copies : List Instr := [.cpyLoad ctl copyArgs, .cpyStore ctl copyArgs, .cpyfLoad ctl copyArgs, .cpyfStore ctl copyArgs]

def legalCopy (i : Instr) (x : Cx) : Bool :=
  match Claims.copyOf i, x.c.barrierOf x.w bar0, x.c.slotGroup x.w 0 with
  | some (a, f), some (_, b), some (_, g) => !b.inv && g.producer == some 0 && (x.octet a.oct).legal f a.pm x.c g x.l.count
  | _, _, _ => false

theorem witness_CopiesHandedOver :
    (copies.all fun i => reaches (producing (at_ i)) i fun x => legalCopy i x) = true ∧
    -- one row of 16 bytes, in one block
    ([Instr.cpytLoad ctl copyArgs, .cpytStore ctl copyArgs].all fun i => reaches ((producing (at_ i)).modWarp w0 fun w =>
      (w.setScalar 11 0x1001).setScalar 12 0x1001) i fun x => legalCopy i x) = true ∧
    -- to the launch's one crew
    ([true, false].all fun sp => reaches (launched (fun l => { l with confirmed := true }) ((producing (at_ (.cpym ctl copyArgs sp))).modWarp
      w0 fun w => (w.setScalar 8 0x800).setScalar 13 1)) (.cpym ctl copyArgs sp)
      fun x => legalCopy (.cpym ctl copyArgs sp) x && x.l.confirmed) = true := by
  decide +kernel


/-- No group, another producer, no copy, and a copy in progress. -/
def handed (t : State) : State := t.modCore 0 fun k => { k with copies :=
  [⟨benchCrew, 0, ⟨0, 0⟩, 0, 0, 256, .linear true false, 0x1000, 0x100, 16, none, [⟨benchCrew, [], false⟩], none, none, none⟩] }

theorem witness_CopyCancelled :
    reaches (with_ (.cpycan ctl (s 2) (s 3)) fun w => w.setScalar 3 255) (.cpycan ctl (s 2) (s 3))
      (fun x => (x.c.groups[255]?).isNone) = true ∧
    each false [.cpycan ctl (s 2) (s 3)] (fun _ x => (x.c.groups[0]?).any fun g => g.producer.isNone) = true ∧
    ([255, 256].all fun h => reaches (handed ((producing (at_ (.cpycan ctl (s 2) (s 3)))).modWarp w0 fun w => w.setScalar 3 h))
      (.cpycan ctl (s 2) (s 3)) fun x => (h == 255) ||
        ((x.s.coreAt x.core).copies.find? fun k => k.handle == x.scal (s 3)).isSome) = true ∧
    -- of a copy whose unit is counted
    reaches ((handed ((producing (at_ (.cpycan ctl (s 2) (s 3)))).modWarp w0 fun w => w.setScalar 3 256)).modCore 0 fun k => { k with
        copies := k.copies.map fun c => { c with receivers := [⟨benchCrew, [0], false⟩] } }) (.cpycan ctl (s 2) (s 3)) (fun x =>
      (x.s.coreAt x.core).copies.any fun k =>
        (((x.put (x.writeScal x.w (s 2) 1)).cancelCopy x.core k).warp? x.ref).isSome) = true ∧
    reaches (producing (at_ (.cpycan ctl (s 2) (s 3)))) (.cpycan ctl (s 2) (s 3)) (fun x =>
      ((x.s.coreAt x.core).copies).isEmpty) = true := by
  decide +kernel

/-- Every tile has 64 rows of 64 elements of 16 bits, and the window holds an accumulator's image. -/
def shaped (t : State) : State := t.modCrew benchCrew fun c => { c with
  tiles := c.tiles.map fun t => { t with shape := 0x3C09 }, groups := c.groups.map fun g => { g with size := 65536 }, scratchSize := 65536 }

theorem witness_MatrixHandedOver :
    ([Instr.tld ctl ⟨6, 0, s 1, 16, 1⟩, .tst ctl ⟨6, 0, s 1, 0, 0⟩, .mma ctl ⟨0, 2, 5, 3⟩, .mdist ctl ⟨0, 0, 5, 5⟩, .azero ctl 0 3,
      .ard ctl (v 3) (v 4) 0 2 0 false, .acvt ctl 0 6 2 0, .atopk ctl 0 1 (s 1) 3 true false, .asave ctl ⟨0, 0, s 1, 0, false⟩,
      .arest ctl ⟨0, 0, s 1, 0, false⟩].all fun i => reaches (shaped (at_ i)) i fun x => Claims.matrixInstr i &&
        (Claims.matrixWork x i).any fun y => x.c.tilesReady y.1.uses.1 y.1.uses.2) = true ∧
    reaches (withQueue 0 0 (shaped (at_ (.ard ctl (q 0) (v 4) 0 2 0 true)))) (.ard ctl (q 0) (v 4) 0 2 0 true)
      (fun x => (Claims.matrixWork x (.ard ctl (q 0) (v 4) 0 2 0 true)).any fun y => y.2.2.1.isSome) = true ∧
    each false [.azero ctl 1 3, .mma ctl ⟨1, 2, 5, 3⟩] (fun i x => (Claims.matrixWork x i).isNone) = true ∧
    reaches ((at_ (.mma ctl ⟨0, 2, 5, 3⟩)).modCrew benchCrew fun c => { c with tiles := c.tiles.map fun t => { t with shape := 0 } })
      (.mma ctl ⟨0, 2, 5, 3⟩) (fun x => (Claims.matrixWork x (.mma ctl ⟨0, 2, 5, 3⟩)).isNone) = true := by
  decide +kernel

/-- Registers of a warp and of tiles; `WINCTL` that fits, that does not, and that a move precedes; `tctl`. -/
theorem witness_ControlWrites :
    each false [.ctlwr ctl 0x00 (s 1), .ctlwr ctl 0x17 (s 1), .ctlwr ctl 0x08 (s 2), .ctlwr ctl 0x04 (v 2), .ctlwr ctl 0x05 (s 1),
      .tctl ctl 0 7 .zero 0x12345] (fun _ _ => true) = true ∧
    ([1, 4, 25].all fun n => reaches (with_ (.ctlwr ctl 0x05 (s 1)) fun w => w.setScalar 1 (BitVec.ofNat 32 n)) (.ctlwr ctl 0x05 (s 1))
      fun x => (decide (n ≤ 24) && spanOk x.w.ring n x.w.lo x.w.hi && limitOk x.w.spillLim n x.w.hi) == (n != 25)) = true ∧
    reaches (with_ (.ctlwr ctl 0x05 (s 1)) fun w => { (w.setScalar 1 8).modSplit 0 fun u => { u with base := 40 } with
      ring := 64, rows := w.rows.take 64 }) (.ctlwr ctl 0x05 (s 1)) (fun x => spanOk x.w.ring 8 x.w.lo x.w.hi &&
        limitOk x.w.spillLim 8 x.w.hi && (coverTo x.w.bot x.w.ring 8 x.w.lo x.w.hi).isSome && x.w.moved.isNone) = true ∧
    each false [.tctl ctl 3 7 .zero 0] (fun _ x => (x.c.slotGroup x.w 3).isNone) = true := by
  decide +kernel

def handler (w : Warp) : Warp := { w with trapBase := 0x8000_0100 }

theorem witness_TrapEntry : ((with_ (.nop ctl) handler).warp? w0).any (fun w => w.trapBase.getLsbD 31 && !w.trapBase.getLsbD 30 &&
      !w.stepping && (w.splitAt w.cur).isSome) = true ∧
    (((at_ (.nop ctl)).launch? 1).any (·.done.isNone) && ((at_ (.nop ctl)).crew? benchCrew).isSome &&
      ((at_ (.nop ctl)).warp? w0).any fun w => !w.trapBase.getLsbD 31) = true := by
  decide +kernel

def debugged (t : State) : State := { t with contexts := t.contexts.map fun c =>
  { c with debugger := some .warp, sampling := some 3, breakpoints := [(2, 0)] } }

theorem witness_SystemInstructions :
    each false [.trap ctl 255, .brk ctl, .rtt ctl, .mark ctl .unused false 9, .mark ctl (s 1) true 0] (fun _ x =>
      ((x.s.context? x.l.ctx).bind (·.debugger)).isNone && !x.w.trapBase.getLsbD 30) = true ∧
    reaches (debugged (at_ (.brk ctl))) (.brk ctl) (fun x => ((x.s.context? x.l.ctx).bind (·.debugger)).isSome &&
      x.w.num == x.ref.warp && !x.w.retired) = true ∧
    reaches (with_ (.rtt ctl) fun w => { w with trapBase := 0xC000_0000 }) (.rtt ctl) (fun x => x.w.trapBase.getLsbD 30) = true := by
  decide +kernel

/-! ### Attempts -/

def begins (t : State) (i : Instr) (p : Cx → Bool) : Bool :=
  match t.begin i with
  | .go x => p x
  | _ => false

/-- Under a false guard. -/
theorem witness_NoActiveLane : begins (at_ (.movi ⟨⟨false, 0⟩, 0, 0, 0⟩ (v 3) 7)) (.movi ⟨⟨false, 0⟩, 0, 0, 0⟩ (v 3) 7) (fun x =>
    x.act == 0 && isOk (x.rowCheck x.named x.act) && (x.w.splitAt x.w.cur).isSome && !x.w.stepping) = true := by
  decide +kernel

/-- Nobody at its turn, siblings that disagree, a row beyond the limit and one above the band, a queue that is not bound, an
empty one, and a poisoned word. -/
theorem witness_AttemptOrder :
    (match ({ at_ (.nop ctl) with turn := none } : State).begin (.nop ctl) with
      | .absent => true
      | _ => false) = true ∧
    (match (with_ (.nop ⟨⟨false, 0⟩, 0, 0, 0⟩) (fun w => { w.setPred 0 1 with numctl := 0x1F1F }) true).begin (.nop ⟨⟨false, 0⟩, 0, 0, 0⟩) with
      | .trap _ _ => true
      | _ => false) = true ∧
    begins (with_ (.movi ctl (v 3) 7) fun w => { w with spillLim := 2 }) (.movi ctl (v 3) 7)
      (fun x => match x.rowCheck x.named x.act with
        | .trap _ 7 _ => true
        | _ => false) = true ∧
    ([(50, true), (80, false)].all fun p => begins (with_ (.movi ctl (v p.1) 7) fun w => { w with
          ring := 64, rows := w.rows.take 64, splits := [some ⟨0, BitVec.allOnes 48, 16, [], false, 0⟩, none, none, none] }) (.movi ctl (v p.1) 7)
      fun x => match x.rowCheck x.named x.act with
        | .move b => p.2 && b == 8
        | .trap _ 7 _ => !p.2
        | _ => false) = true ∧
    begins (at_ (.mov ctl (v 3) (q 0))) (.mov ctl (v 3) (q 0)) (fun x => x.act != 0 && match x.queueTest (transfersOf x.i) with
        | .trap _ _ => true
        | _ => false) = true ∧
    begins (withQueue 0 0 (at_ (.mov ctl (v 3) (q 0)))) (.mov ctl (v 3) (q 0))
      (fun x => x.act != 0 && waits (x.queueTest (transfersOf x.i))) = true ∧
    begins (with_ (.mov ctl (v 3) (v 4)) fun w => { w with poison := [(4, 9)] }) (.mov ctl (v 3) (v 4)) (fun x => x.act != 0 &&
      goes (x.queueTest (transfersOf x.i)) && { x with pops := x.popped (transfersOf x.i) }.poisonedSource) = true := by
  decide +kernel

theorem witness_RegisterWrites : ((at_ (.nop ctl)).warp? w0).any (fun w =>
    w.bot == 0 && w.rows.length == 192 && w.preds.length == 7 && w.scalars.length == 32) = true := by
  decide +kernel

/-! ### Events of a core -/

/-- The bench with a `nop` at its warp's turn. -/
def b0 : State := at_ (.nop ctl)

def residing (t : State) (p : Crew → Warp → Bool) : Bool := (t.resident w0).any fun y => p y.1 y.2

theorem witness_CountsAndCompletions : residing (b0.modWarp w0 fun w => { w with flights := [⟨0, [.row 3], 1, some 0x10, .timed⟩, ⟨1, [], 2, none, .flush⟩] })
    (fun c w => (w.flights[0]?).any (fun f => f.kind == .timed) && (w.flights[1]?).any (fun f => f.kind == .flush) &&
      (b0.coreAt c.coreNo).spillBuf.isEmpty) = true := by
  decide +kernel

/-- A narrow band, whose split stands at row 40. -/
def banded (w : Warp) : Warp := { w with
  ring := 64, high := 64, rows := w.rows.take 64, splits := [some ⟨0, BitVec.allOnes 48, 40, [], false, 0⟩, none, none, none] }

def movedTo (t : State) (b : Nat) : Bool :=
  match t.moveBand w0 b 64 with
  | .ok _ => true
  | _ => false

def granule : Granule := ⟨w0, ⟨0, 0⟩, 0, [], [], 0x300000, none, false⟩

/-- The first gigabyte is one spill page. -/
def spillPages (t : State) : State := { t with mem := Memory.writeN t.mem 0x8000 (leBytes 16 0x203) }

theorem witness_WindowAndClaimEvents :
    residing ((b0.modWarp w0 banded).modWarp w0 fun w => { w with block := some (.move 40 false) })
      (fun _ w => w.block == some (.move 40 false) && w.flights.isEmpty) = true ∧
    residing ((b0.modWarp w0 banded).modWarp w0 fun w => { w with block := some (.move 40 true) })
      (fun _ w => w.block == some (.move 40 true) && w.bot % 8 == 0 && w.ring % 8 == 0) = true ∧
    movedTo (b0.modWarp w0 banded) 40 = true ∧
    ((withClaims [⟨0, 64, false⟩] b0).crew? benchCrew).any (fun c => c.core.isSome &&
      ((c.claims.getD 0 []).find? fun k => !k.served).any fun k => decide (k.rows ≤ c.reserve.getD 0 0)) = true := by
  decide +kernel

/-- Blocked on a claim beyond the reserve, on a queue, and on a barrier past the limit. -/
def stuck (b : Block) (t : State) : State := t.modWarp w0 fun w => { w with block := some b }

/-- A `wflush` that waits for room in the spill buffer, which is there or not. -/
theorem witness_flush_waits : ([0, 32].all fun n =>
    let t := (stuck .flush b0).modCore 0 fun k => { k with spillBuf := List.replicate n { granule with suspended := some 1 } }
    residing t fun c w => w.block == some .flush && t.spillRoom c.coreNo == (n == 0)) = true := by
  decide +kernel

theorem witness_spills : (match (spillPages b0 |>.modCore 0 fun c => { c with spillBuf := [granule] }).writeGranule granule with
    | .ok _ => true
    | .error _ => false) = true := by
  decide +kernel

/-- Under a limit of 1000 ticks, 2000 have passed. -/
def late : State := { stuck (.barrier bar0 true) b0 with
  contexts := b0.contexts.map fun c => { c with wdogctl := 1 }
  clock := { b0.clock with tick := 2000 } }

theorem witness_DeadlocksEndLaunches :
    (((stuck (.claim 72) (withClaims [⟨0, 72, false⟩] b0)).crew? benchCrew).any fun c => c.core.isSome &&
      c.warps.all (fun w => w.quarter == 0 && !w.retired && !w.stopped && w.block == some (.claim 72)) &&
      ((c.claims.getD 0 []).find? fun k => !k.served).any fun k => decide (c.reserve.getD 0 0 < k.rows)) = true ∧
    (((stuck (.queue 0 0) (withQueue 0 0 b0)).crew? benchCrew).any fun c => c.warps.all (fun w => !w.retired && !w.stopped) &&
      !(stuck (.queue 0 0) (withQueue 0 0 b0)).crewPending c && (List.range 4).all fun q => !c.claimsStuck q) = true ∧
    ((late.warp? w0).any fun w => !w.retired && decide (w.since.toNat + w.paused + 1000 ≤ late.clock.tick.toNat) &&
      !late.anyStopped ⟨0, 0⟩) = true ∧
    ((b0.launch? 1).any fun l => l.done.isNone && l.ending.isNone) = true ∧
    (((b0.endLaunch 1 17).launch? 1).any fun l => l.done.isNone && l.ending == some (17, (b0.endLaunch 1 17).clock.cycle)) = true := by
  decide +kernel

/-- R449: a fatal fault in the cycle of an unhandled trap is the lower status, and the launch ends with it. -/
theorem test_lowest_status :
    ((((b0.endLaunch 1 17).endLaunch 1 16).settleEnds.launch? 1).bind (·.done)) = some 16 := by
  decide +kernel

def waiting : State := (stuck (.wait 1 false) (at_ (.wait ctl (waitArgs (.flag 5) 7)))).modWarp w0 fun w =>
  { w with deadline := some (some 0) }

/-- A `wait` for a phase, and every barrier invalidated. -/
def waitingPhase : State := stuck (.wait 1 false) (at_ (.wait ctl (waitArgs (.phase ⟨0, 0⟩ true) 7)))
def voided (t : State) : State := t.modCrew benchCrew fun c => { c with
  groups := c.groups.map fun g => { g with bars := g.bars.map fun b => { b with inv := true } } }

def arriving : State := (withQueue 0 1 b0).modCrew benchCrew fun c => { c with
  arrivals := [⟨0, 0, 0, []⟩]
  queues := c.queues.map fun q => { q with staged := false, landing := [⟨0, laneList.map fun _ => 7, 1, 0, none⟩] } }

/-- A queue with a row on its way, a delivery that waits, an arrival, and a `wait` whose flag is zero. -/
theorem witness_QueueBarrierWaitEvents :
    (arriving.crew? benchCrew).any (fun c => c.core.isSome && ((c.queues[0]?).any fun q => q.pending.isEmpty &&
        (q.landing[0]?).any (fun l => l.slot == q.head && !b0.rowDue ⟨benchCrew, 0⟩ l.slot)) && Memory.wf c.scratch &&
        ((c.groups[0]?).any fun g => (g.bars[0]?).isSome) && c.arrivals.contains ⟨0, 0, 0, []⟩) = true ∧
    (((withQueue 0 1 b0).modCrew benchCrew fun c => { c with queues := c.queues.map fun q => { q with staged := false } }).crew?
      benchCrew).any (fun c => (c.queues[0]?).any fun q => q.pending.isEmpty && q.headReady && !q.staged) = true ∧
    ((waiting.watch w0).any fun k => (waiting.waitAt w0 k.w).any fun a => (k.evaluate a k.w.deadline.join).isSome &&
      !(WaitArgs.slots a).any fun t => (k.stale t.2).isSome) = true ∧
    (((voided waitingPhase).watch w0).any fun k => ((voided waitingPhase).waitAt w0 k.w).any fun a =>
      (WaitArgs.slots a).any fun t => (k.stale t.2).isSome) = true := by
  decide +kernel

/-! ### Grace, engines, errors and samples -/

def gracing (f : Grace → Grace) (t : State) : State := { t with contexts := t.contexts.map fun c => { c with grace := f c.grace } }

/-- Messages, copies, an entry that DONE has reached, and numbers on their way back. -/
theorem witness_GraceHome :
    (((gracing (fun g => { g with
        starts := [.start w0 none], depths := [.depth w0 (some 0) [] 0], frees := [⟨⟨0x1000, 16, 0⟩, ⟨benchCrew, 0⟩⟩] }) (withQueue 0 0 b0)).context?
      ⟨0, 0⟩).any fun c => !c.grace.starts.isEmpty && !c.grace.depths.isEmpty && !c.grace.copies.isEmpty &&
        (c.grace.frees.find? fun f => decide (f.entry.num.toNat ≤ c.grace.done.toNat)).isSome) = true ∧
    b0.depthsFrom (Grace.new (List.range 48)) 0 = false ∧
    residing ((stuck (.grace 0) b0).modWarp w0 fun w => { w with
      graceSent := true, graceWait := some 0, flights := [⟨4, [.scalar 2, .scalar 3], 1, none, .grace (some 9)⟩] })
      (fun _ w => w.block == some (.grace 0) && w.graceWait == some 0 && w.flights.any fun f => f.kind == .grace (some 9)) = true := by
  decide +kernel

def clearing : MatOp := ⟨0, w0, true, .azero ctl 0 1, [], 0, [], [], none, 0, 0, 0, 1, []⟩
def queued : State := b0.modCore 0 fun k => { k with matQueue := [clearing], tilePath := [clearing] }

def handedCopy (c : Copy) (t : State) : Bool :=
  (c.receivers[0]?).any fun r => c.suspended.isNone && decide (0 < c.units) && !r.counted.contains 0 && !r.finished &&
    !t.unitHeld ((t.coreAt 0).copies.take 0) c r.crew 0 && t.copyRoom 0 c 0 == some true

/-- None where the unit is moved, else whether its fault is fatal. -/
def faultOf (c : Copy) (t : State) : Option Bool :=
  match t.copyCheck c (t.unitReplay c) 0 with
  | .ok _ => none
  | .error (v, _) => some v.fatal

def replaying (t : State) : State :=
  launched (fun l => { l with replay := true }) { t with contexts := t.contexts.map fun c => { c with replayOn := true } }

/-- A unit of a load that nothing holds back, one that faults, and operations of the matrix unit and the tile path. -/
theorem witness_EngineEvents :
    (((handed (producing b0)).coreAt 0).copies[0]?).any (fun c => handedCopy c (handed (producing b0)) &&
      (faultOf c (handed (producing b0))).isNone &&
      ((producing b0).crew? benchCrew).any fun d => (c.barrierIn d).any fun b => !b.inv) = true ∧
    (((handed (producing b0)).coreAt 0).copies[0]?).any (fun c =>
      faultOf { c with glob := 0x1_0000_0000_0000 } (handed b0) == some true &&
      faultOf { c with glob := 0x1_0000_0000_0000 } (replaying (handed b0)) == some false) = true ∧
    ((queued.coreAt 0).matUnit.isNone && !(queued.coreAt 0).matQueue.isEmpty && !(queued.coreAt 0).tilePath.isEmpty &&
      (b0.crew? clearing.warp.crew).any fun c => (b0.launch? 1).any fun l => (Claims.accAfter c l clearing).isSome) = true := by
  decide +kernel

theorem witness_ErrorsAndLines : residing b0 (fun c w => c.core == some 0 && w.bot == 0 && w.ring == 192 &&
    decide (0 < c.scratchSize) && (b0.launch? benchCrew.launch).any (·.done.isNone)) = true ∧
    (((b0.modCore 0 fun k => { k with l1 := [⟨0, [], [], 0⟩] }).coreAt 0).l1[0]?).isSome = true ∧
    (((b0.modDie 0 fun k => { k with rdc := [⟨0, [], [], 0⟩] }).dieAt 0).rdc[0]?).isSome = true := by
  decide +kernel

/-- Both copies of the paired launch at the compare point 3, with equal or different signatures. -/
def comparing (sig : DWord) : State :=
  let twin : CrewRef := { benchCrew with shadow := true }
  let t := paired { b0 with crews := b0.crews ++ b0.crews.map fun c => { c with ref := twin, core := some 1 } }
  (t.modWarp w0 fun w => { w with compare := some 3 }).modWarp ⟨twin, 0⟩ fun w => { w with compare := some 3, sig }

theorem witness_SamplesAndComparePoints :
    (b0.quarterWarps 0 0).length = 1 ∧ ((b0.quarterWarps 0 0).all fun v => v.1 == w0 && v.2.slot == 0) = true ∧
    ([0, 1].all fun g => ((comparing g).launch? 1).any (fun l => l.paired && !l.armed) &&
      ((comparing g).warp? w0).any (fun a => ((comparing g).warp? ⟨⟨1, 0, true⟩, 0⟩).any fun b =>
        a.compare == some 3 && b.compare == some 3 && (a.sig == b.sig) == (g == 0) && a.retired == b.retired) &&
      ((comparing g).cores.all fun k => k.copies.isEmpty)) = true := by
  decide +kernel

/-! ### Packets, the host and the debugger -/

/-- A packet of a kind with these bytes beside its header. -/
def pkt (kind : Nat) (named : List (Nat × Nat)) : List Byte :=
  ((0, kind) :: named).foldl (fun b f => b.set f.1 (BitVec.ofNat 8 f.2)) (List.replicate 128 0)

/-- A queue of the bench's context, or the control queue, with a packet read at its head. -/
def office (ctx : Option Nat) (b : List Byte) (t : State) : State := { t with
  queues := [{ newCmdQueue ⟨0, 1⟩ ctx 0x6000 16 0 0 with last := 5, fetched := some b }] }

def looks (t : State) (kind : Nat) (legal : CmdQueue → List Byte → Bool) (l : Look → Bool) : Bool :=
  (t.cmdQueue? ⟨0, 1⟩).any fun q => l (t.lookAt q kind legal)

def isPacket : Look → Bool
  | .packet _ => true
  | _ => false

/-- A template at 0x5000 of one warp with a ring of eight rows and no code. -/
def templated : State := { b0 with mem := Memory.writeN (Memory.writeN b0.mem 0x5000
  (List.replicate 13 0 ++ [1] ++ List.replicate 10 0 ++ [8])) 0x5041 [1] }

/-- A packet of every kind but a launch, which the event takes. -/
theorem witness_OfficePackets : ([(Instr.waitOnValue ⟨0, 1⟩, 2, [(40, 4)]), (.writeValue ⟨0, 1⟩, 3, [(32, 8)]), (.copy ⟨0, 1⟩, 4, [(32, 16)]),
      (.faultAcknowledgement ⟨0, 1⟩, 6, [])].all (fun p => (Claims.officeOf p.1).any fun o =>
        o.2.1 == p.2.1 && looks (office (some 0) (pkt p.2.1 p.2.2) b0) o.2.1 o.2.2 isPacket) &&
    [(Instr.createContext ⟨0, 1⟩, [(16, 1), (49, 1)]), (.destroyContext ⟨0, 1⟩, [(16, 2)]), (.queueCreate ⟨0, 1⟩, [(16, 3), (19, 2), (32, 16)]),
      (.queueStop ⟨0, 1⟩ false, [(16, 3), (17, 1), (19, 1)]), (.queueRestart ⟨0, 1⟩ none, [(16, 3), (17, 2), (19, 1)]),
      (.translationInvalidation ⟨0, 1⟩, [(16, 4)]), (.swapOut ⟨0, 1⟩, [(16, 5)]), (.resume ⟨0, 1⟩, [(16, 5), (17, 1)]),
      (.partitionSave ⟨0, 1⟩, [(16, 6)]), (.partitionRestore ⟨0, 1⟩, [(16, 6), (17, 1)]), (.setWdogctl ⟨0, 1⟩, [(16, 7), (20, 9)]),
      (.setApertureEntry ⟨0, 1⟩, [(16, 8)]), (.sampling ⟨0, 1⟩, [(16, 9), (17, 1), (19, 10)])].all (fun p =>
        (Claims.officeOf p.1).any fun o => o.2.1 == 5 && looks (office none (pkt 5 p.2) b0) 5 o.2.2 isPacket)) = true := by
  decide +kernel

/-- A launch whose template is right, and one whose spill buffers are too small; a stale packet, a bad one and one that FENCE
holds. -/
theorem witness_launches : ([0x06, 0].all fun w => looks (office (some 0) (pkt 1 [(17, 0x50), (24, 1), (56, 0x40), (57, w), (60, 1)]) templated) 1 launchLegal
      (fun l => match l with
        | .packet p => (match templated.vRead ⟨⟨0, 0⟩, none, none⟩ .packet (fieldAt p.body 16 8) 64 with
          | .ok h => countsOk h.1 && match templated.vRead ⟨⟨0, 0⟩, none, none⟩ .packet (fieldAt p.body 16 8) (templateBytes h.1) with
            | .ok b => countsOk b.1 && (((templateOf b.1).wrongs b.1 false 0 (64 + 256 * w) 1 false).isEmpty == (w == 6))
            | .error _ => false
          | .error _ => false)
        | _ => w == 0)) = true ∧
    looks (office (some 0) (pkt 1 [(4, 1)]) b0) 1 launchLegal (fun l => l == .stale) = true ∧
    looks (office (some 0) (pkt 1 [(2, 1)]) b0) 1 launchLegal (fun l => l == .bad) = true ∧
    looks { office (some 0) (pkt 4 [(1, 2)]) b0 with queues := (office (some 0) (pkt 4 [(1, 2)]) b0).queues.map fun q =>
      { q with pending := [packetOf q (pkt 4 [])] } } 4 copyLegal (fun l => l == .held) = true := by
  decide +kernel

/-- The control queue, running and stopped, which the management interface stops and restarts at index 7 (R401). -/
def controlled (stopped : Bool) : State := { b0 with
  queues := [{ newCmdQueue ⟨0, 0⟩ none 0x6000 16 3 0 with stopped }] }

theorem witness_ControlQueue : [false, true].all (fun b => ((controlled b).cmdQueue? ⟨0, 0⟩).any fun q =>
    q.stopped == b && q.remembered.isNone && q.waiting.isNone) = true := by decide +kernel

theorem test_managedRestart : (match execQueueRestart ⟨0, 0⟩ (some 7) (controlled true) with
    | .next t => (t.cmdQueue? ⟨0, 0⟩).any fun q => !q.stopped && q.head == 7 && q.last == 7
    | _ => false) = true := by decide +kernel

/-- A queue that runs, is stopped, re-reads, and waits. -/
def commanding (f : CmdQueue → CmdQueue) (t : State) : State := { t with queues := t.queues.map f, clock := { t.clock with tick := 300 } }

theorem witness_CommandQueues :
    (b0.cmdQueue? ⟨0, 1⟩).isNone = true ∧
    ((office (some 0) (pkt 2 []) b0).cmdQueue? ⟨0, 1⟩).any (fun q => !q.stopped && q.size == 16 && q.last == 5) = true ∧
    ([1, 8].all fun n => ((commanding (fun q => { q with rereads := n }) (office (some 0) (pkt 2 []) b0)).cmdQueue? ⟨0, 1⟩).any fun q =>
      !q.stopped && q.rereads == n && decide (q.readTick.toNat + 250 ≤ 300)) = true ∧
    (match b0.checkAccess ⟨0, 0⟩ .packet 0 4 false none with
      | .ok _ => true
      | .error _ => false) = true ∧
    ((commanding (fun q => { q with pending := [packetOf q (pkt 5 [(16, 6)])] }) (office none (pkt 2 []) b0)).cmdQueue? ⟨0, 1⟩).any (fun q =>
      (q.pending.find? fun p => p.kind == 5 && (byteAt p.body 16 == 5 || byteAt p.body 16 == 6) && !b0.stillWaits ⟨0, 0⟩ p).isSome) = true := by
  decide +kernel

/-- A launch with a crew to place, and one whose last warp has retired. -/
def placing : State := launched (fun l => { l with next := 0 }) { b0 with crews := [] }
def atEnd : State := b0.modWarp w0 fun w => { w with retired := true }

/-- What the placement of crew 0 of the one launch rests on, alone and in a pair. -/
def placesFirst (t : State) : Bool := (t.partition? 0).any fun p => p.resumes.isEmpty && match t.placeable 0 with
  | [l] => t.launch? l.id == some l && !l.coloc && decide ((if l.paired then 2 else 1) ≤ t.slotsLeft l) &&
    [false, true].all (fun b => (t.crew? ⟨l.id, l.next, b⟩).isNone) &&
    (t.placeOn (Claims.diesFor p l l.next) (l.tmpl.need l.race)).any fun core =>
      !l.paired || (t.shadowCore p core (l.tmpl.need l.race)).isSome
  | _ => false

/-- A crew that is swapped out and has been asked for again. -/
def swapped : State := { b0.modCrew benchCrew fun c => { c with core := none, resuming := true } with
  partitions := b0.partitions.map fun p => { p with resumes := [benchCrew] } }

theorem witness_PlacementAndEnd :
    placesFirst placing = true ∧ placesFirst (launched (fun l => { l with aff := some (0, 0, 5) }) placing) = true ∧
    placesFirst (launched (fun l => { l with paired := true, spillSlots := 2 }) placing) = true ∧
    (placing.partition? 0).any (fun p => p.resumes.isEmpty) = true ∧
    ([(0, true), (2 ^ 30, false)].all fun n =>
      let t := launched (fun l => { l with coloc := true, tmpl := { l.tmpl with scratch := n.1 } }) placing
      match t.placeable 0 with
      | [l] => l.coloc && (State.placeAll 0 l (l.count - l.next) l.next t).isSome == n.2
      | _ => false) = true ∧
    (swapped.partition? 0).any (fun p => p.resumes == [benchCrew] && (swapped.crew? benchCrew).any fun c => c.core.isNone &&
      swapped.crews.filter (fun k => k.ref.launch == benchCrew.launch && k.ref.crew == benchCrew.crew) == [c] &&
      (swapped.launch? 1).any fun l => !l.coloc && (swapped.placeOn (Claims.diesFor p l 0) (l.tmpl.need l.race)).any fun core =>
        decide (core < swapped.cores.length)) = true ∧
    (atEnd.crew? benchCrew).any (fun c => c.core.isSome && atEnd.crewOver c && (atEnd.coreAt c.coreNo).spillBuf.isEmpty &&
      (atEnd.launch? 1).any fun l => l.done.isNone && l.ended + 1 == l.count && atEnd.crewsOf l.id == [benchCrew] && l.sigs.isEmpty) = true := by
  decide +kernel

theorem witness_HostAccesses : isDram 0x50000 = true ∧ State.reset.memOk ∧
    (match b0.checkAccess ⟨0, 0⟩ .atomic 0x50000 4 false none, b0.checkAccess ⟨0, 0⟩ .store 0x50000 4 false none with
      | .ok l, .ok _ => l.layout == .plain
      | _, _ => false) = true ∧
    ((b0.context? ⟨0, 0⟩).any fun k => k.ring.held.isEmpty) = true ∧ ((b0.partition? 0).any fun p => p.ring.held.isEmpty) = true ∧
    ((b0.modCore 0 fun k => { k with copies := [⟨benchCrew, 0, ⟨0, 0⟩, 0, 0, 0, .linear true true, 0, 0, 16, none, [], none, none, none⟩] }).fabricCopies
      benchCrew).length = 1 := by
  refine ⟨by decide +kernel, rfl, by decide +kernel, by decide +kernel, by decide +kernel, by decide +kernel⟩

theorem witness_ClockAndStartUp : State.reset.clock.hold = 0 ∧ State.reset.clock.locked = false ∧
    State.reset.clock.removing = false ∧ State.reset.device.stage = 0 ∧ State.reset.device.powered = true ∧
    FormArgs.legal ⟨[0, 2], 0x1000, 16, 0, 0x2000, 64⟩ = true := by
  decide +kernel

/-- A warp that runs; one that is stopped, with a second split, a lay-by entry, vacant lanes and a bound queue. -/
theorem witness_Debugger : residing (debugged b0) (fun _ w => w.num == 0 && !w.stopped && w.stopPc.isNone && w.split.pc == 0 &&
      ((debugged b0).context? ⟨0, 0⟩).any fun k => k.debugger == some .warp && k.breakpoints.contains (2, 0)) = true ∧
    residing ((debugged (withQueue 0 1 b0)).modWarp w0 fun w => { w with
        stopped := true, vacant := 0xF0000, splits := [some ⟨0, 0xFF, 0, [⟨9, 0xFF00, 8⟩], false, 0⟩, some ⟨3, 0xFFFFFFF00000, 8, [], true, 2⟩, none, none] })
      (fun c w => w.stopped && w.bot == 0 && w.ring == 192 && w.rows.length == w.ring && c.queues.length == 1 &&
        (w.pathAt 0 none).isSome && (w.pathAt 0 (some 0)).isSome && (w.pathAt 0 (some 1)).isNone && (w.splitAt 1).any (·.joinWait) &&
        (w.splitAt w.cur).isSome && (w.bindings[0]?).any (·.isSome) && (w.bindings[1]?).any (·.isNone)) = true := by
  decide +kernel

def debugging (p : DebugPlace) (v : BitVec 64) : Option Warp :=
  match execDebugStateAccess w0 (.write p v) ((debugged b0).modWarp w0 fun w => { w with stopped := true }) with
  | .next t => t.warp? w0
  | _ => none

/-- R148, R377: lanes that a debugger gives to a new split leave the one they stood in; a mask that empties the table, and a base past
the limit, leave the warp as it was. -/
theorem test_debugger :
    (debugging (.path 1 none .mask) 0xFF).any (fun w => w.vacant == 0 && w.splitAt 1 == some ⟨0, 0xFF, 0, [], false, 0⟩ &&
      w.split.mask == 0xFFFFFFFFFF00) = true ∧
    (debugging (.path 0 none .mask) 0).any (fun w => w.split.mask == BitVec.allOnes 48) = true ∧
    (debugging (.path 0 none .base) 0x1000000).any (fun w => w.split.base == 0) = true ∧
    (debugging .vacant 0xFFF).any (fun w => w.vacant == 0xFFF && w.split.mask == 0xFFFFFFFFF000) = true := by
  decide +kernel

/-! ### Steps, words and memory -/

/-- With nothing planned, with an event planned, and with the bench's warp at its turn: its word decodes. -/
theorem witness_StepRunsFetchedInstruction : State.reset.planned = [] ∧
    ({ b0 with agenda := [⟨3, .event (.nop ctl)⟩] } : State).planned = [⟨3, .event (.nop ctl)⟩] ∧ b0.planned = [⟨0, .quarter 0 0⟩] ∧
    (match ({ b0 with turn := none } : State).select 0 0 [], b0.launch? 1 with
      | some r, some l => r == w0 && (decodeBytes l.triple (l.codeBytes 0)).toOption == some (.nop ctl) && decide (0 < l.tmpl.codeSize) &&
        (match b0.checkRange l.ctx .fetch 4 (l.blockBytes 0).1 (l.blockBytes 0).2 false none with
          | .ok _ => true
          | .error _ => false)
      | _, _ => false) = true := by
  decide +kernel

/-- The next step runs the word that `withFetchWord` places. -/
theorem test_step : (match step (State.reset.withFetchWord 96 0x0000_0000_00000007_00_7_C1_109) with
    | .next t => (t.warp? w0).any fun w => w.scalar 1 == 7 && w.split.pc == 1
    | _ => false) = true := by
  decide +kernel

theorem witness_DecodeEncode : (Instr.nop ctl).hasWord = true ∧ (Instr.nop ctl).wf = true ∧ (Instr.nop ctl).modeOk true = true := by
  decide +kernel

theorem witness_DecodeAcceptsOnlyEncodings : (decodeIn false (encode (.nop ctl))).toOption = some (.nop ctl) ∧
    13 ≤ (fld (0xD00 : BitVec 96) 8 4).toNat := by
  decide +kernel

theorem witness_StepKeepsMemory : State.reset.memOk ∧ (match step State.reset with
    | .next _ => true
    | _ => false) = true := by
  exact ⟨rfl, by decide +kernel⟩

theorem witness_StepKeepsSplitTables : (∀ c ∈ b0.crews, ∀ w ∈ c.warps, w.tabled) ∧ (∀ p ∈ b0.partitions, p.saved = []) ∧
    (match step b0 with
    | .next _ => true
    | _ => false) = true := by
  unfold Warp.tabled
  decide +kernel

/-! ### Witnesses of single clauses -/

/-- `y` stands for the attempt once the band has moved to where it waited for. -/
def overMoves (x : Cx) (b ring : Nat) (p : Cx → Bool) : Bool :=
  x.w.moved == some b && match x.s.moveBand x.ref b ring with
    | .ok t => (t.crew? x.ref.crew).any fun c => (t.warp? x.ref).any fun m =>
        p { x with s := t, c := c, w := { m with numstat := x.w.numstat } }
    | _ => false

/-- The band moves under an effect `e` as it does under the state before it. -/
def movesUnder (x : Cx) (b : Nat) (e : State) : Bool :=
  let goes (s : State) : Bool := match s.moveBand x.ref b x.w.ring with
    | .ok t => (t.warp? x.ref).isSome
    | _ => false
  x.w.moved == some b && goes x.s && goes e

/-- A band of 64 rows at the bottom, whose split stands at row `base`; the warp has waited for a move or not. -/
def low (base : Nat) (m : Option Nat) (w : Warp) : Warp := { w with
  ring := 64, high := 64, rows := w.rows.take 64, moved := m, splits := [some ⟨0, BitVec.allOnes 48, base, [], false, 0⟩, none, none, none] }

/-- A band of 64 rows from row 64 on. -/
def high (m : Option Nat) (w : Warp) : Warp := { low 64 m w with bot := 64, high := 128 }

/-- A call above the band, before its move and after it; a place too few; a span too wide; a window past the limit. -/
theorem witness_calls :
    ([none, some 72].all fun m => reaches (with_ (.call ctl 5 9) (low 0 m)) (.call ctl 5 9) fun x =>
      coverTo x.w.bot x.w.ring x.w.reach 72 72 == some 72 && (m.isNone || overMoves x 72 x.w.ring fun _ => true)) = true ∧
    reaches (with_ (.brx ctl (v 4) 0) (setRow 4 fun l => BitVec.ofNat 32 (min l 9))) (.brx ctl (v 4) 0) (fun x => !x.w.room 9) = true ∧
    reaches (with_ (.callx ctl (v 4) 0 2) (setRow 4 (fun l => BitVec.ofNat 32 (min l 1)) ∘ low 0 none)) (.callx ctl (v 4) 0 2)
      (fun x => !spanOk x.w.ring x.w.reach 0 16) = true ∧
    reaches (with_ (.call ctl 5 31) fun w => { w with spillLim := 200 }) (.call ctl 5 31)
      (fun x => !limitOk x.w.spillLim x.w.reach 248) = true := by
  decide +kernel

/-- A return to a window below the band, after its move. -/
theorem witness_ret_moved : reaches (with_ (.ret ctl) (fun w => setRow 64 (fun _ => 0x48) (high (some 0) w))) (.ret ctl) (fun x =>
    (Claims.flowOf x (.ret ctl)).any fun f => (f.dest 0x48).2 == 0 && coverTo x.w.bot x.w.ring x.w.reach 0 0 == some 0) = true := by
  decide +kernel

/-- An `exit` whose warp resumes a path below the band, before the move and after it. -/
def resuming (m : Option Nat) (w : Warp) : Warp := { high m w with
  splits := [some ⟨0, 0xFF, 64, [⟨9, 0xFF00, 0⟩], false, 0⟩, none, none, none] }

def moves (b : Nat) : Check → Bool
  | .move c => c == b
  | _ => false

theorem witness_leaving_moved : [none, some 0].all (fun m =>
    reaches (spillPages (with_ (.exit ctl) (resuming m))) (.exit ctl) (fun x => moves 0 (x.dropCheck x.act) &&
      (m.isNone || movesUnder x 0 (x.put x.w))) &&
    reaches (spillPages (with_ (.lds ctl (spArgs (v 3) (v 0) (.wide 0))) fun w => setRow 65 (fun _ => 4096) (resuming m w)))
      (.lds ctl (spArgs (v 3) (v 0) (.wide 0))) (fun x => moves 0 (x.dropCheck x.act) && match Claims.windowed x (spArgs (v 3) (v 0) (.wide 0)) false with
        | some (.ok (w, good, off)) => good.isEmpty && off == x.act && (m.isNone || movesUnder x 0 (x.s.modWarp x.ref fun _ => w))
        | _ => false)) = true := by
  decide +kernel

/-- R173, R228: the addresses of an instruction whose lanes all leave are those it issued with, though the band moves from under its rows:
the lanes of row 65 are out of the window and become vacant, and the path of row 0 resumes. -/
theorem test_switch_off_moves : leaves (.lds ctl (spArgs (v 3) (v 0) (.wide 0)))
    (spillPages (with_ (.lds ctl (spArgs (v 3) (v 0) (.wide 0))) fun w => setRow 65 (fun _ => 4096) (resuming (some 0) w)))
    (fun _ w => w.vacant == 0xFF && w.bot == 0 && w.split == ⟨9, 0xFF00, 0, [], false, 1⟩) = true := by
  decide +kernel

/-- A claim that the reserve meets at once, over rows in memory: before the move and after it. -/
theorem witness_claims_refill : [false, true].all (fun m =>
    reaches (spillPages (with_ (.rclaim ctl 8) fun w => { low 0 (if m then some 0 else none) w with high := 128 })) (.rclaim ctl 8) (fun x =>
      decide (x.w.bot + x.w.ring < min x.w.high x.w.spillLim) && (x.c.claims.getD 0 []).isEmpty &&
      decide (x.w.ring + 8 ≤ x.c.budget.getD 0 0) && decide (8 ≤ x.c.reserve.getD 0 0) &&
      (!m || match (x.put x.w).moveBand x.ref x.w.bot (x.w.ring + 8) with
        | .ok t => (t.warp? x.ref).isSome
        | _ => false))) = true := by
  decide +kernel

/-- Served claims that grow the ring over rows in memory, and releases and writes of `WINCTL` that move the band first. -/
theorem witness_rings_moved : [false, true].all (fun m =>
    reaches (spillPages (withClaims [⟨0, 8, true⟩] (with_ (.rclaim ctl 8) fun w => { low 0 (if m then some 0 else none) w with high := 128 }))) (.rclaim ctl 8)
      (fun x => decide (x.w.bot + x.w.ring < min x.w.high x.w.spillLim) && match (x.put x.w).moveBand x.ref x.w.bot (x.w.ring + 8) with
        | .ok t => (t.warp? x.ref).isSome
        | .wait _ => true
        | _ => false) &&
    reaches (with_ (.rrelease ctl 64) fun w => { w with moved := if m then some 64 else none, splits :=
        [some ⟨0, BitVec.allOnes 48, 128, [], false, 0⟩, none, none, none] }) (.rrelease ctl 64)
      (fun x => max x.w.bot (x.w.hi + 8 * x.w.reach - 128) == 64 && (!m || overMoves x 64 128 fun _ => true)) &&
    reaches (spillPages (with_ (.ctlwr ctl 0x05 (s 1)) fun w => { (w.setScalar 1 8).modSplit 0 fun u => { u with base := 40 } with
      ring := 64, rows := w.rows.take 64, moved := if m then some 40 else none })) (.ctlwr ctl 0x05 (s 1)) (fun x =>
        coverTo x.w.bot x.w.ring 8 x.w.lo x.w.hi == some 40 && (!m || overMoves x 40 x.w.ring fun _ => true))) = true := by
  decide +kernel

def unstagedQueue (t : State) : State := (withQueue 0 1 t).modCrew benchCrew fun c => { c with
  queues := c.queues.map fun q => { q with staged := false } }

/-- A pop that waits for an open queue; a head that is ready and not staged; a name without a queue; poisoned lanes of a row. -/
theorem witness_queue_waits :
    reaches (withQueue 0 0 (at_ (.qpop ctl (v 3) 0 true 0))) (.qpop ctl (v 3) 0 true 0)
      (fun x => waits (x.queueTest [⟨0, false, true⟩]) && (x.bound 0).any fun y => y.2.state == 0) = true ∧
    ([Instr.qtryPop ctl 0 (v 3) 0, .qpop ctl (v 3) 0 true 0, .refill ctl (v 3) 0 0 false].all fun i =>
      reaches ((unstagedQueue (at_ i)).modWarp w0 fun w => w.setPred 0 1) i fun x => waits (x.queueTest [⟨0, false, true⟩]) && x.unstaged 0) = true ∧
    each false [.qtryPop ctl 0 (v 3) 0, .qpop ctl (v 3) 0 true 0, .refill ctl (v 3) 0 0 false, .qtryPush ctl 0 0 (v 4)] (fun i x =>
      match x.queueTest [⟨0, match i with
        | .qtryPush _ _ _ _ => true
        | _ => false, true⟩] with
      | .trap 1 1 => (x.bound 0).isNone
      | _ => false) = true := by
  decide +kernel

/-- What is left of the head row, what is taken of it, and the end of a filling. -/
theorem witness_fillings : reaches (withQueue 0 1 (at_ (.refill ctl (v 3) 0 0 false))) (.refill ctl (v 3) 0 0 false) (fun x =>
    [[0], [3, 5], List.range 48].all fun need =>
      let f : Filling := ⟨x.c, need, 0, laneList.map fun _ => 0, 0, false⟩
      (f.c.queues[0]?).any fun q => q.readyFor x.ref.warp && !f.need.isEmpty && f.words.length == 48 && Memory.wf f.c.scratch) = true := by
  decide +kernel

/-- The word at an address beyond the table faults a `ldu`. -/
theorem witness_ldu_fault : reaches (with_ (.ldu ctl { ldArgs with dst := s 4, index := s 1 }) fun w => w.setScalar 3 1)
    (.ldu ctl { ldArgs with dst := s 4, index := s 1 }) (fun x => match x.s.checkLane x.l.ctx .load 0x1_0000_0000 4 false with
      | .ok _ => false
      | .error _ => (x.scal64 (s 2)).toNat == 0x1_0000_0000) = true := by
  decide +kernel

/-- The launch replays: with a page held in a snapshot, and with none. -/
def replays (l : List Snapshot) (t : State) : State := 
  launched (fun k => { k with replay := true, snapshots := l }) { t with mem := Memory.writeN t.mem 0x8000 (leBytes 16 0x403) }

theorem witness_snapshots : ([[], [⟨0, 0, 65536, [], []⟩]].all fun l =>
    reaches (replays l (at_ (.st ctl stArgs))) (.st ctl stArgs) fun x => x.l.replay && !x.l.unreplayable &&
      match Claims.access x .store stArgs with
      | .go _ lanes => (lanes.all fun t => t.2.2.all fun p => x.l.snapshots.isEmpty || x.l.snapshots.any (·.page == p.va))
      | _ => false) = true := by
  decide +kernel

/-- The shadow copy at the compare point of its atomic, before and after the primary has given it the old values. -/
def shadowed (g : Option (List Row)) (t : State) : State :=
  let twin : CrewRef := { benchCrew with shadow := true }
  let t := paired { t with crews := t.crews ++ t.crews.map fun c => { c with ref := twin, core := some 1 }, turn := some ⟨twin, 0⟩ }
  t.modWarp ⟨twin, 0⟩ fun w => { few w with passed := true, given := g }

theorem witness_shadow_atomics : ([none, some [laneList.map fun _ => 7]].all fun g =>
    [Instr.atom ctl atomArgs, .red ctl redArgs].all fun i => reaches (shadowed g (at_ i)) i fun x => x.l.paired && x.w.passed &&
      x.ref.crew.shadow && x.w.given == g && accessGoes (Claims.access x .atomic atomArgs)) = true := by
  decide +kernel

/-- A `tst` and an `asave` of the warp under way. -/
def storingOp (i : Instr) (tiles : List Nat) : MatOp := ⟨5, w0, true, i, [0], 1, [], [], none, 0, 0, 0, 0, tiles⟩
def storing (t : State) : State := t.modCore 0 fun k => { k with
  tilePath := [storingOp (.tst ctl ⟨0, 0, s 1, 0, 0⟩) [0]], matQueue := [storingOp (.asave ctl ⟨0, 0, s 1, 0, false⟩) []] }

theorem witness_storing :
    ([Instr.fenceAcq ctl .sys, .fenceRel ctl .dev, .fenceAcqrel ctl .die, .fenceSc ctl .warp, .fenceAsync ctl].all fun i =>
      reaches (storing (at_ i)) i fun x => (Claims.fenceOf i).isSome && x.s.storing x.core x.ref == [5, 5]) = true ∧
    ([Instr.gstart ctl (s 2), .lds ctl (spArgs (v 3) (v 0) (.wide 0)), .sts ctl (spArgs (v 0) (v 2) (.wide 0))].all fun i =>
      match (storing (at_ i)).begin i with
      | .go x => isOk (x.rowCheck x.named x.act) && x.act != 0 && goes (x.queueTest (transfersOf x.i)) && !x.poisonedSource && x.storesFirst
      | _ => false) = true ∧
    reaches (storing (with_ (.rdexit ctl) fun w => { w with depth := 1 })) (.rdexit ctl) (fun x =>
      x.s.storing x.core x.ref == [5, 5]) = true := by
  decide +kernel

/-- `rdenter` where the core's copy of CUR has advanced; a list of deferred frees that is full; and each start before the compare point
of a paired launch. -/
theorem witness_rdenter_acquires : ([0, 1].all fun d =>
    reaches (gracing (fun g => { g with cur := 2, copies := g.copies.map fun k => { k with cur := 2 } }) (with_ (.rdenter ctl) fun w =>
      { w with depth := d })) (.rdenter ctl) fun x => x.w.depth == d && x.graceCopy.cur == 2 && x.graceCopy.seen != 2) = true := by
  decide +kernel

theorem fullFrees (l : List Free) :
    ((gracing (fun g => { g with frees := l }) (withQueue 0 0 (at_ (.dfree ctl (s 2) (s 4) 0)))).ready (.dfree ctl (s 2) (s 4) 0)).map
      (fun x => (x.grace.freeCount, (x.w.binding 0).isSome)) = some (l.length, true) := by
  with_unfolding_all rfl

theorem witness_full_frees : ∃ l x, (gracing (fun g => { g with frees := l }) (withQueue 0 0 (at_ (.dfree ctl (s 2) (s 4) 0)))).ready
    (.dfree ctl (s 2) (s 4) 0) = some x ∧ 4096 ≤ x.grace.freeCount ∧ (x.w.binding 0).isSome = true := by
  have h := fullFrees (List.replicate 4096 ⟨⟨0, 0, 1⟩, ⟨benchCrew, 0⟩⟩)
  simp only [Option.map_eq_some_iff, List.length_replicate, Prod.mk.injEq] at h
  obtain ⟨x, h, n, b⟩ := h
  exact ⟨_, x, h, Nat.le_of_eq n.symm, b⟩

theorem witness_starts_held :
    ([Instr.rdexit ctl, .gstart ctl (s 2), .gsync ctl (s 2), .dfree ctl (s 2) (s 4) 0].all fun i =>
      reaches (withQueue 0 0 (paired (with_ i fun w => { w with depth := if i == .rdexit ctl then 1 else 0 }))) i fun x =>
        x.l.paired && !x.w.passed && decide (x.grace.freeCount < 4096)) = true ∧
    reaches (with_ (.gsync ctl (s 2)) fun w => { w with graceSent := true }) (.gsync ctl (s 2)) (fun x =>
      x.w.depth == 0 && x.w.graceSent && x.w.graceWait.isNone) = true ∧
    each false [.dfree ctl (s 2) (s 4) 0] (fun _ x => (x.w.binding 0).isNone) = true := by
  decide +kernel

/-- Copies turned away: no barrier, another producer, an invalid barrier, an unconfirmed multicast, an illegal octet, no place. -/
theorem witness_copies_refused :
    each false [.cpyLoad ctl { copyArgs with bar := ⟨3, 0⟩ }] (fun _ x => (x.c.barrierOf x.w ⟨3, 0⟩).isNone) = true ∧
    each false [.cpyLoad ctl copyArgs] (fun _ x => (x.c.barrierOf x.w bar0).isSome &&
      (x.c.slotGroup x.w 0).any fun g => g.2.producer.isNone) = true ∧
    reaches (withBarrier { idle with inv := true } (producing (at_ (.cpyLoad ctl copyArgs)))) (.cpyLoad ctl copyArgs)
      (fun x => (x.c.barrierOf x.w bar0).any (·.2.inv)) = true ∧
    reaches (launched (fun l => { l with confirmed := false }) (producing (at_ (.cpym ctl copyArgs false)))) (.cpym ctl copyArgs false)
      (fun x => !x.l.confirmed) = true ∧
    reaches ((producing (at_ (.cpyLoad ctl copyArgs))).modWarp w0 fun w => w.setScalar 11 7) (.cpyLoad ctl copyArgs)
      (fun x => (x.c.slotGroup x.w 0).any fun g => !(x.octet (s 8)).legal (.linear true) false x.c g.2 x.l.count) = true ∧
    reaches ((producing (at_ (.cpyLoad ctl copyArgs))).modCore 0 fun k => { k with
      copies := List.replicate 64 ⟨benchCrew, 0, ⟨0, 0⟩, 0, 0, 0, .linear true false, 0, 0, 16, none, [], none, none, none⟩ })
      (.cpyLoad ctl copyArgs) (fun x => legalCopy (.cpyLoad ctl copyArgs) x && (x.s.coreAt 0).copies.length == 64) = true := by
  decide +kernel

/-- A cancelled copy whose barriers can take what is subtracted. -/
theorem witness_cancel_counts : reaches (handed ((producing (at_ (.cpycan ctl (s 2) (s 3)))).modWarp w0 fun w => w.setScalar 3 256))
    (.cpycan ctl (s 2) (s 3)) (fun x => x.l.done.isNone && ((x.s.coreAt x.core).copies.find? fun k => k.handle == 256).any fun k =>
      (k.receivers.all fun v => !v.finished && (x.s.crew? v.crew).any fun c => (k.barrierIn c).any fun b => !b.inv) &&
        Claims.takenOff k benchCrew == 16) = true := by
  decide +kernel

/-- A receiver that is gone, and one whose barrier is invalid, with bytes that are not counted; room in the dead-letter log, and none. -/
theorem witness_cancel_drops : ([(7, false), (0, true)].all fun p =>
    reaches ((handed ((withBarrier { idle with inv := p.2 } (producing (at_ (.cpycan ctl (s 2) (s 3))))).modWarp w0 fun w =>
      w.setScalar 3 256)).modCore 0 fun k => { k with copies := k.copies.map fun c => { c with
        receivers := [⟨⟨1, p.1, false⟩, [], false⟩] } }) (.cpycan ctl (s 2) (s 3)) (fun x =>
      x.l.done.isNone && ((x.s.coreAt x.core).copies.find? fun k => k.handle == 256).any fun k => !k.multicasts &&
        k.receivers.all fun v => !v.finished && k.uncounted v != 0 &&
          ((x.s.crew? v.crew).isNone || (x.s.crew? v.crew).any fun c => (k.barrierIn c).any (·.inv)))) = true ∧
    ([0, 524288].all fun n => ((b0.modDie 0 fun d => { d with deadHead := n }).dies[0]?).any fun d =>
      decide (524288 ≤ (d.deadHead - d.deadTail).toNat) == (n != 0)) = true := by
  decide +kernel

/-- A matrix instruction whose tile is in use, and one that finds the queue full. -/
theorem witness_matrix_held :
    reaches ((shaped (at_ (.tld ctl ⟨6, 0, s 1, 16, 1⟩))).modCrew benchCrew fun c => { c with
        tiles := c.tiles.map fun t => { t with readers := 1 } }) (.tld ctl ⟨6, 0, s 1, 16, 1⟩)
      (fun x => (Claims.matrixWork x (.tld ctl ⟨6, 0, s 1, 16, 1⟩)).any fun y => !x.c.tilesReady y.1.uses.1 y.1.uses.2) = true ∧
    reaches ((at_ (.azero ctl 0 1)).modCore 0 fun k => { k with matQueue := List.replicate 16 clearing }) (.azero ctl 0 1)
      (fun x => (Claims.matrixWork x (.azero ctl 0 1)).any fun y => !y.2.1 && (x.s.coreAt 0).matQueue.length == 16) = true := by
  decide +kernel

/-- A trap inside a handler; a mark where the context samples; one whose value is immediate. -/
theorem witness_system_clauses :
    (((with_ (.nop ctl) fun w => { w with trapBase := 0xC000_0100 }).warp? w0).any fun w => w.trapBase.getLsbD 30) = true ∧
    ([false, true].all fun sr => reaches (debugged (at_ (.mark ctl (if sr then s 1 else .unused) sr (if sr then 0 else 9)))) (.mark ctl (if sr then s 1 else .unused) sr (if sr then 0 else 9)) fun x =>
      ((x.s.context? x.l.ctx).bind (·.sampling)).isSome) = true ∧
    each false [.rtt ctl] (fun _ x => !x.w.trapBase.getLsbD 30) = true := by
  decide +kernel

/-- A register that an earlier instruction can still change, and a tile that the crew does not declare. -/
theorem witness_unsettled :
    ([(0x02, Flight.mk 0 [] 0 (some 1) .timed), (0x05, ⟨0, [], 0, none, .flush⟩), (0x0D, ⟨0, [.scalar 2], 0, none, .grace none⟩)].all fun p =>
      reaches (with_ (.ctlrd ctl (s 4) p.1) fun w => { w with flights := [p.2] }) (.ctlrd ctl (s 4) p.1) fun x => x.w.flights.any fun f =>
        f.raise.isSome || f.kind == .flush || f.kind == .grace none) = true ∧
    (reaches ((at_ (.ctlrd ctl (s 1) 0x17)).modCrew benchCrew fun c => { c with tiles := [] }) (.ctlrd ctl (s 1) 0x17) fun x =>
      x.c.tiles.isEmpty) = true ∧
    (reaches ((at_ (.ctlwr ctl 0x10 (s 1))).modCrew benchCrew fun c => { c with tiles := [] }) (.ctlwr ctl 0x10 (s 1)) fun x =>
      x.c.tiles.isEmpty) = true := by
  decide +kernel

/-- A trap that the warp woke to take, and an index register above its limit. -/
theorem witness_attempt_clauses :
    begins (with_ (.nop ctl) fun w => { w with owed := some (12, 4) }) (.nop ctl) (fun x => x.w.owed == some (12, 4)) = true ∧
    begins (with_ (.mov ctl (v 3) (.vx 2)) fun w => { w with
        xregs := w.xregs.set 2 (laneList.map fun l => if l == 47 then 9 else 0), xlim := w.xlim.set 2 8 }) (.mov ctl (v 3) (.vx 2))
      (fun x => x.act.getLsbD 47 && decide (x.w.limit 2 < x.w.index 2 47) && match x.rowCheck x.named x.act with
        | .trap _ 6 2 => true
        | _ => false) = true := by
  decide +kernel

/-- A completion that raises a flag while the warp's next instruction needs its row, and one that waits for the spill buffer. -/
theorem witness_completions :
    residing (with_ (.movi ctl (v 3) 7) fun w => { w with flights := [⟨0, [.row 3], 1, some 0x10, .timed⟩] }) (fun _ w =>
      ((with_ (.movi ctl (v 3) 7) fun w => { w with flights := [⟨0, [.row 3], 1, some 0x10, .timed⟩] }).nextAttempt w0).any (fun x =>
        match x with
        | .inl x => (touched x).contains (.row 3)
        | _ => false) && w.flights.length == 1) = true ∧
    residing ((b0.modWarp w0 fun w => { w with flights := [⟨1, [], 2, none, .flush⟩] }).modCore 0 fun k => { k with spillBuf := [granule] })
      (fun c w => (w.flights[0]?).any (·.kind == .flush) && (b0.coreAt c.coreNo).spillBuf.isEmpty) = true ∧
    b0.device.powered = true ∧ ({ b0 with device := { b0.device with powered := false } } : State).device.powered = false := by
  decide +kernel

/-- Spill writes that fault: for good, and until the page is brought in. -/
theorem witness_spill_faults :
    (match b0.writeGranule granule with
      | .error v => v.fatal && decide (v.code < 16) && (b0.launch? 1).any (·.done.isNone)
      | .ok _ => false) = true ∧
    (match (replaying b0).writeGranule { granule with base := 0x9000_0000 } with
      | .error v => !v.fatal
      | .ok _ => false) = true := by
  decide +kernel

/-- A row that lands with its instruction; warps that wait on a queue that breaks, or closes with their row or slot outstanding. -/
theorem witness_queue_ends :
    (((arriving.modCrew benchCrew fun c => { c with queues := c.queues.map fun q => { q with
        landing := q.landing.map fun l => { l with flight := some (0, 4) } } }).modWarp w0 fun w => { w with
      flights := [⟨4, [], 1, none, .timed⟩] }).crew? benchCrew).any (fun c => ((c.queues[0]?).bind (·.landing[0]?)).any fun l =>
        l.flight == some (0, 4) && (c.warps[0]?).any fun w => (w.flights.find? fun f => f.id == 4).isSome) = true ∧
    ([(2, false, 1), (1, true, 1), (1, false, 0)].all fun p => (((stuck (.queue 1 0) (withQueue p.1 p.2.2 b0)).modWarp w0 fun w =>
      { w with awaits := [(0, p.2.1)] }).crew? benchCrew).any fun c => (c.queues[0]?).any fun q => q.pending.isEmpty && q.state == p.1 &&
        q.count == p.2.2 && (c.warps[0]?).any fun w => w.block == some (.queue 1 0) && w.awaits == [(0, p.2.1)]) = true := by
  decide +kernel

/-- Deliveries that wait, in an open and in a broken queue; an arrival behind a store. -/
theorem witness_waiting_deliveries : ([0, 2].all fun state =>
      (((withQueue state 3 b0).modCrew benchCrew fun c => { c with queues := c.queues.map fun q => { q with pending := [⟨0x1000, 16, 3⟩] }
        }).crew? benchCrew).any fun c => (c.queues[0]?).any fun q => q.pending == [⟨0x1000, 16, 3⟩] && decide (q.count < q.cap) && q.state == state) = true ∧
    ((storing arriving).crew? benchCrew).any (fun c => ((storing arriving).storing c.coreNo w0).contains 5) = true := by
  decide +kernel

/-- The end of a section behind a store of its warp and the start of one after it; a start with an entry; a warp that found the list
full; and a warp whose period is complete. -/
theorem witness_grace_clauses :
    (storing b0).storesDone w0 [5] 0 = false ∧ b0.storesDone w0 [5] 0 = true ∧
    ((gracing (fun g => { g with depths := [.depth w0 none [5] 0, .depth ⟨benchCrew, 1⟩ (some 0) [] 0], starts := [.start w0 (some (1, 2, ⟨benchCrew, 0⟩))] })
      b0).context? ⟨0, 0⟩).any (fun c => c.grace.depths.length == 2 && c.grace.starts.length == 1) = true ∧
    residing ((stuck (.grace 1) b0).modWarp w0 fun w => { w with graceSent := false }) (fun c w => c.core == some 0 &&
      w.block == some (.grace 1) && !w.graceSent) = true ∧
    residing ((stuck (.grace 1) b0).modWarp w0 fun w => { w with graceSent := true, graceWait := some 0 }) (fun c w => c.core == some 0 &&
      w.block == some (.grace 1) && w.graceSent && w.graceWait == some 0) = true := by
  decide +kernel

/-- A copy whose unit meets poison in the page table; a multicast; operations of the matrix unit and the tile path that complete for an
instruction in flight. -/
def copyAt (f : Copy → Copy) (t : State) : State := (handed t).modCore 0 fun k => { k with copies := k.copies.map f }

theorem witness_engine_clauses :
    ((((handed (producing b0)).coreAt 0).copies[0]?).any fun c => match ({ handed b0 with memPoison := [0x2000] } : State).copyCheck c
        (b0.unitReplay c) 0 with
      | .ok _ => false
      | .error (v, _) => v.fatal && decide (16 ≤ v.code) && (b0.launch? 1).any fun l => !l.armed) = true ∧
    ((((copyAt (fun c => { c with kind := .multicast false 0 }) (producing b0)).coreAt 0).copies[0]?).any fun c =>
      c.multicasts && ((producing b0).crew? benchCrew).isSome) = true ∧
    ([Instr.tst ctl ⟨0, 0, s 1, 0, 0⟩, .asave ctl ⟨0, 0, s 1, 0, false⟩, .ard ctl (v 3) (v 4) 0 0 0 false, .ard ctl (q 0) (v 4) 0 0 0 false].all
      fun i => ((b0.modCore 0 fun k => { k with matUnit := some (storingOp i [0]), tilePath := [storingOp i [0]] }).modWarp w0 fun w =>
        { w with flights := [⟨3, [], 1, none, .engine 5⟩] }).warp? w0 |>.any fun w => w.flights.any (·.kind == .engine 5)) = true := by
  decide +kernel

/-- What an error strikes: a granule in the spill buffer, lines, and a core whose crew runs. -/
theorem witness_error_sites :
    (((b0.modCore 0 fun k => { k with spillBuf := [granule] }).coreAt 0).spillBuf[0]?).isSome = true ∧
    residing b0 (fun c w => c.core == some 0 && decide (31 < w.scalars.length)) = true := by
  decide +kernel

/-- A sampling ring with room, one that is full, and one that faults. -/
def ringed (base : Nat) (write : BitVec 32) (t : State) : State := { t with contexts := t.contexts.map fun c =>
  { c with sampling := some 3, sampleRing := some ⟨base, 4, write, 0, [], [], 0⟩ } }

theorem witness_sampling_rings : ([(0x50000, 0, false, true), (0x50000, 4, true, true), (0x9000_0000, 0, false, false)].all fun p =>
    ((ringed p.1 p.2.1 b0).context? ⟨0, 0⟩).any fun c => c.sampling.isSome && c.sampleRing.any fun g => g.full == p.2.2.1 &&
      (match (ringed p.1 p.2.1 b0).vWrite ⟨0, 0⟩ (g.base + 32 * (g.write.toNat % g.size)) (List.replicate 32 0) with
        | .ok _ => p.2.2.2
        | .error _ => !p.2.2.2)) = true ∧
    (ringed 0x50000 0 b0).clock.cycle % 8 = 0 ∧
    ([none, some 0].all fun at_ => residing ((stuck .fence b0).modWarp w0 fun w => { w with issuedAt := at_ })
      fun _ w => w.issuedAt == at_ && !w.stopped && w.block == some .fence) = true ∧
    residing (b0.modWarp w0 fun w => { w with stopped := true }) (fun _ w => w.stopped && w.issuedAt.isNone) = true ∧
    b0.quarterWarps 0 1 = [] := by
  decide +kernel

/-- Points at different counts; a copy that has ended where the other compares; one that has not come there; a store copy before the
point; and a launch that may replay. -/
def twinned (f : Warp → Warp) (t : State) : State := t.modWarp ⟨{ benchCrew with shadow := true }, 0⟩ f

theorem witness_points_that_differ :
    ([some 2, none].all fun m => ((twinned (fun w => { w with compare := m, retired := m.isNone }) (comparing 0)).warp? ⟨⟨1, 0, true⟩, 0⟩).any
      fun b => b.compare == m && b.retired == m.isNone && !b.holdFull) = true ∧
    ((twinned (fun w => { w with compare := none }) (comparing 0)).warp? ⟨⟨1, 0, true⟩, 0⟩).any (fun b => b.compare.isNone && !b.retired &&
      !b.holdFull) = true ∧
    ((comparing 0).modCore 0 fun k => { k with copies := [⟨benchCrew, 0, ⟨0, 0⟩, 0, 0, 0, .linear false false, 0, 0, 16, none, [], none, none,
      some (3, 0)⟩] }).copiesDue w0 3 = true ∧
    ((launched (fun l => { l with replay := true, replayLimit := 1 }) (comparing 1)).launch? 1).any (·.armed) = true := by
  decide +kernel

/-- A partition-control packet that is stale, bad or poisoned, which one event takes and another leaves to it; and the word of a
wait-on-value, whole or poisoned. -/
theorem witness_control_packets :
    ([([(16, 5), (4, 1)], Look.stale), ([(16, 5), (2, 1)], .bad)].all fun p =>
      looks (office none (pkt 5 p.1) b0) 5 (fun q b => (Claims.officeOf (.swapOut ⟨0, 1⟩)).any fun o => o.2.2 q b) (fun l => l == p.2) &&
      !Claims.elsewhere (.swapOut ⟨0, 1⟩) (pkt 5 p.1) && Claims.elsewhere (.partitionSave ⟨0, 1⟩) (pkt 5 p.1)) = true ∧
    looks { b0 with memPoison := [0x6000 / 4], queues := [newCmdQueue ⟨0, 1⟩ none 0x6000 16 1 0] |>.map fun q => { q with last := 5 } }
      5 (fun _ _ => true) (fun l => l == .poisoned) = true ∧
    ([[], [0x5000 / 4]].all fun ps =>
      let t : State := { commanding (fun q => { q with waiting := some (packetOf q (pkt 2 [(17, 0x50), (40, 4)])) }) (office (some 0) (pkt 2 []) b0) with
        memPoison := ps }
      (t.cmdQueue? ⟨0, 1⟩).any fun q => q.waiting.any fun p => fieldAt p.body 16 8 == 0x5000 && match t.checkAccess ⟨0, 0⟩ .packet 0x5000 4 false none with
        | .ok l => (t.readSingle ⟨⟨0, 0⟩, none, none⟩ l (0x5000 - l.va) 4).2 == !ps.isEmpty
        | .error _ => false) = true := by
  decide +kernel

/-- A packet that is poisoned, one that names a template beyond the table, and a template that is poisoned. -/
theorem witness_office_clauses :
    looks { b0 with memPoison := [0x6000 / 4], queues := [newCmdQueue ⟨0, 1⟩ (some 0) 0x6000 16 1 0] |>.map fun q => { q with last := 5 } }
      2 waitLegal (fun l => l == .poisoned) = true ∧
    (match templated.vRead ⟨⟨0, 0⟩, none, none⟩ .packet 0x9000_0000 64 with
      | .ok _ => false
      | .error _ => true) = true ∧
    (match ({ templated with memPoison := [0x5000 / 4] } : State).vRead ⟨⟨0, 0⟩, none, none⟩ .packet 0x5000 64 with
      | .ok h => h.2 && (b0.launches.all fun m => m.id != b0.nextLaunch)
      | .error _ => false) = true := by
  decide +kernel

/-- A device without power, whose kicks nobody counts; a queue stopped; a kick that steps back. -/
theorem witness_kicks :
    ({ b0 with device := { b0.device with powered := false } } : State).cmdQueue? ⟨0, 9⟩ = none ∧
    ([false, true].all fun b => ((controlled b).cmdQueue? ⟨0, 0⟩).any fun q => q.stopped == b) = true ∧
    ((office (some 0) (pkt 2 []) b0).cmdQueue? ⟨0, 1⟩).any (fun q => !decide (((4 : BitVec 32) - q.last).toNat < 2 ^ 31) &&
      decide (((6 : BitVec 32) - q.last).toNat < 2 ^ 31 ∧ ((6 : BitVec 32) - q.head).toNat ≤ q.size) &&
      !decide (((40 : BitVec 32) - q.head).toNat ≤ q.size)) = true := by
  decide +kernel

/-- The last warp of a crew has retired while a spill write of it waits on a fault. -/
theorem witness_suspended_spills : ((atEnd.modCore 0 fun k => { k with spillBuf := [{ granule with suspended := some 1, faulted := true }] }).crew?
    benchCrew).any (fun c => c.core == some 0 && (atEnd.modCore 0 fun k => { k with spillBuf := [{ granule with suspended := some 1, faulted := true }] }).crewOver c) = true := by
  decide +kernel

/-- The first gigabyte of the context lies behind aperture 0, which names peer 1, and the ports are up. -/
def peering (t : State) : State := { t with
  mem := Memory.writeN t.mem 0x8000 (leBytes 16 0x4000_0000_0003)
  contexts := t.contexts.map fun c => { c with apertures := [(0, some ⟨1, 0, 0⟩)] }
  device := { t.device with stage := 4 } }

def fabricCopying : State := b0.modCore 0 fun k => { k with copies :=
  [⟨benchCrew, 0, ⟨0, 0⟩, 0, 0, 0, .linear true true, 0, 0, 16, none, [⟨benchCrew, [], false⟩], none, none, none⟩] }

/-- The warp waits for a move that reads rows below its band. -/
def refilling : State := (peering b0).modWarp w0 fun w => { low 0 none w with
  bot := 64, high := 128, spillBase := 0x300000, block := some (.move 0 false) }

/-- Loads, stores, atomics and waits through an aperture, which a link or the peer may refuse; a fetch, a copy over the fabric, a spill, a
refill, and a wait-on-value of the sorting office; and ports that are up, down and not enabled. -/
theorem witness_fabric :
    ([Instr.ld ctl ldArgs, .st ctl stArgs, .atom ctl atomArgs, .ldu ctl { ldArgs with dst := s 4, index := s 1 },
      .wait ctl (waitArgs (.word 0 0 0 false) 7)].all fun i =>
      ((peering (at_ i)).fabricAccess w0).any fun f => f.parts.any fun p => ((peering (at_ i)).fabricAddrs (.warp w0)).contains p.2.2) = true ∧
    ((peering b0).fetchWords w0).isEmpty = false ∧
    ((at_ (.ld ctl ldArgs)).fabricAccess w0).isNone = true ∧
    (fabricCopying.fabricAddrs (.copy w0)).contains 0 = true ∧
    (((peering b0).modCore 0 fun k => { k with spillBuf := [granule] }).fabricAddrs (.spill 0 0)).head? = some 0x300000 ∧
    (refilling.fabricAddrs (.refill w0)).isEmpty = false ∧
    ((office (some 0) (pkt 2 [(17, 0x40)]) (peering b0)).fabricAddrs (.packet ⟨0, 1⟩)) = [0x4000] ∧
    (b0.fabricAddrs (.spill 0 0)).isEmpty = true ∧
    b0.device.settings.ports.contains 35 = true ∧ b0.device.settings.ports.contains 36 = false ∧
    b0.device.fabricUp = false ∧ (peering b0).device.fabricUp = true := by
  decide +kernel

theorem witness_start_up_clauses :
    let on (f : Device → Device) : State := { State.reset with device := f State.reset.device }
    (on fun d => { d with stage := 4 }).device.timingUp = true ∧ State.reset.device.timingUp = false ∧
    (on fun d => { d with stage := 1 }).device.dieUp 0 = false ∧ (on fun d => { d with stage := 4 }).device.dieUp 3 = true ∧
    (on fun d => { d with powered := false }).device.powered = false ∧ State.reset.device.failed = false ∧
    1 < State.reset.clock.khz ∧ -1000000 ≤ State.reset.clock.slewPpm ∧ 0 < State.reset.device.settings.ports.length := by
  decide +kernel

/-- With a valid timing input, a clock of class 5 beats the device's own, and its own does not. -/
theorem witness_clocks :
    let c := { State.reset.clock with pps := some 0 }
    clockBeats { c.own with class_ := 5 } c.own = true ∧ clockBeats c.own c.own = false := by
  simp [clockBeats, clockRanks, lexLess, Clock.own, Clock.ppsValid, State.reset, Clock.reset]

/-- A device that follows a better clock, one that has heard of none, and one that has lost its only master while locked. -/
theorem witness_masters :
    let c := { State.reset.clock with pps := some 0, locked := true }
    let k : PtpClock := { c.own with class_ := 5 }
    ({ c with heard := [k] } : Clock).master = some k ∧ c.master = none ∧
    ({ c with heard := [k].filter (·.identity != k.identity) } : Clock).master = none := by
  simp [Clock.master, bestClock, clockBeats, clockRanks, lexLess, Clock.own, Clock.ppsValid, State.reset, Clock.reset]

/-- A temperature at the limits of the configuration; and, wherever the free temperature is above zero, one above the lower limit. -/
theorem witness_limits :
    let at_ (lower off : Nat) : Settings := { State.reset.device.settings with lowerAt := lower, offAt := off }
    let t := Config.celsius State.reset.fresh
    t ≤ (at_ t 0).lowerAt ∧ (at_ 0 t).offAt ≤ t ∧ t < (at_ 0 (t + 1)).offAt ∧ (0 < t → (at_ 0 0).lowerAt < t) :=
  ⟨Nat.le_refl _, Nat.le_refl _, Nat.lt_succ_self _, id⟩

/-- A debugger that attaches; a warp stopped with a handler, bindings and flags; a word past the code; one that decodes to nothing;
poisoned code. -/
theorem witness_fetches :
    (b0.launch? 1).any (fun l => decide (l.tmpl.codeSize ≤ 0x7FFFFFFF)) = true ∧
    ((launched (fun l => { l with badCode := [(0, 0x7000)] }) b0).launch? 1).any (fun l => (l.badCode.find? fun b => b.1 < 3).isSome) = true ∧
    (match decodeBytes true (leBytes 12 0xD00) with
      | .error _ => true
      | .ok _ => false) = true ∧
    (({ b0 with crews := [] } : State).select 0 0 []).isNone = true := by
  decide +kernel

theorem witness_PoolAndDepth :
    ([0, 1, 2, 3, 4].all fun sel => reaches (withClaims [⟨0, 8, false⟩] (at_ (.rpool ctl (s 1) sel))) (.rpool ctl (s 1) sel) fun x =>
      (x.c.claims.getD x.w.quarter []).any fun k => !k.served) = true ∧
    ([0, 1, 2, 3, 4].all fun sel => each false [.wdepth ctl (s 1) sel] fun _ _ => true) = true := by
  decide +kernel

end Sys2Proof.Tests
end

section
/-! ### Every step keeps memory in canonical form (00 R5; log 2)

The memory changes in three operations alone: a write of bytes at the home, the copy of a page to the snapshot pool, and the return
of the snapshots of a replayed launch; and a thermal shutdown leaves that of reset. Every other operation is made of these and of
changes elsewhere in the state. The lemma `State.memOk.f` says that the operation `f` keeps the form, so that those of an operation's
parts chain as the parts do: `h.modCrew.modWarp.endStep`. -/

namespace Sys2Proof.Machine

namespace State.memOk

variable {s : State}

/-! ## Changes elsewhere in the state -/

theorem modCrew {r f} (h : s.memOk) : (s.modCrew r f).memOk := h
theorem modWarp {r f} (h : s.memOk) : (s.modWarp r f).memOk := h
theorem modLaunch {r f} (h : s.memOk) : (s.modLaunch r f).memOk := h
theorem modContext {r f} (h : s.memOk) : (s.modContext r f).memOk := h
theorem modPartition {r f} (h : s.memOk) : (s.modPartition r f).memOk := h
theorem modCmdQueue {r f} (h : s.memOk) : (s.modCmdQueue r f).memOk := h
theorem modCore {r f} (h : s.memOk) : (s.modCore r f).memOk := h
theorem modDie {r f} (h : s.memOk) : (s.modDie r f).memOk := h
theorem modGrace {x f} (h : s.memOk) : (s.modGrace x f).memOk := h
theorem modCopy {core k f} (h : s.memOk) : (s.modCopy core k f).memOk := h
theorem modWarpsOf {x p f} (h : s.memOk) : (s.modWarpsOf x p f).memOk := h
theorem invalidate {core} (h : s.memOk) : (s.invalidate core).memOk := h
theorem noteLeaf {x l} (h : s.memOk) : (s.noteLeaf x l).memOk := h
theorem setLines {core pa data bad} (h : s.memOk) : (s.setLines core pa data bad).memOk := h
theorem countError (h : s.memOk) : s.countError.memOk := h
theorem mail {kind ns} (h : s.memOk) : (s.mail kind ns).memOk := h
theorem dropCaches (h : s.memOk) : s.dropCaches.memOk := h
theorem packetDone {q seq} (h : s.memOk) : (s.packetDone q seq).memOk := h

theorem touchLine {l1 core pa} (h : s.memOk) : (s.touchLine l1 core pa).memOk := by
  unfold State.touchLine
  split
  · exact h
  · dsimp only
    split <;> split <;> exact h

/-- A fold keeps the form when each of its steps does. -/
theorem foldl {α : Type} {f : State → α → State} {l : List α} (h : s.memOk)
    (hf : ∀ (t : State) (a : α), t.memOk → (f t a).memOk) : (l.foldl f s).memOk := by
  induction l generalizing s with
  | nil => exact h
  | cons a l ih => exact ih (hf s a h)

/-- The same for a fold that collects results beside the state. -/
theorem foldl_fst {α β : Type} {f : State × β → α → State × β} {l : List α} {r : State × β} (h : r.1.memOk)
    (hf : ∀ (r : State × β) (a : α), r.1.memOk → (f r a).1.memOk) : (l.foldl f r).1.memOk := by
  induction l generalizing r with
  | nil => exact h
  | cons a l ih => exact ih (hf r a h)

/-! ## The three operations that change memory, and the writes of a launch (R233, R234, R419, R420) -/

theorem homeWrite {core pa data bad} (h : s.memOk) : (s.homeWrite core pa data bad).memOk := memOk_homeWrite h
theorem physWrite {ag pa data bad} (h : s.memOk) : (s.physWrite ag pa data bad).memOk := memOk_physWrite h

theorem copyCells {src dst n} (h : s.memOk) : (s.copyCells src dst n).memOk :=
  Memory.foldl_write_wf (Memory.filter_wf h)

theorem fillPool {x va ranges} (h : s.memOk) : (s.fillPool x va ranges).memOk := by
  refine h.foldl fun t p h => ?_
  dsimp only
  split
  · split
    · exact h
    · exact h.copyCells
  · exact h

theorem drainHold {id} (h : s.memOk) : (s.drainHold id).memOk := by
  unfold State.drainHold
  split
  · exact h
  · exact (h.foldl fun _ _ h => h.physWrite).modLaunch

theorem snapshot {id l} (h : s.memOk) : (s.snapshot id l).memOk := by
  unfold State.snapshot
  split
  · split
    · exact h
    · dsimp only
      split
      · exact h.drainHold
      · exact h.fillPool.modContext.modLaunch
  · exact h

theorem openWrite {ag id e} (h : s.memOk) : (s.openWrite ag id e).memOk := by
  unfold State.openWrite
  split
  · exact h
  · split
    · dsimp only
      split
      · exact h.drainHold.physWrite
      · exact h
    · exact h.physWrite

theorem launchWrite {ag id l wr w} (h : s.memOk) : (s.launchWrite ag id l wr w).memOk := by
  unfold State.launchWrite
  split
  · exact h
  · have snapped : (if isDram w.pa then s.snapshot id l else s).memOk := by
      split
      · exact h.snapshot
      · exact h
    dsimp only
    split
    · exact snapped.modLaunch
    · exact snapped.openWrite

theorem launchWrites {ag id l wr ws} (h : s.memOk) : (s.launchWrites ag id l wr ws).memOk :=
  h.foldl fun _ _ h => h.launchWrite

/-! ## Records (R417, R418, R447) -/

theorem vWrite {x va data t} (h : s.memOk) (e : s.vWrite x va data = .ok t) : t.memOk := by
  unfold State.vWrite at e
  cases hc : s.checkRange x .store 4 va data.length false none with
  | error v => rw [hc] at e; cases e
  | ok ls =>
    rw [hc] at e
    cases e
    exact h.foldl fun _ _ h => h.foldl fun _ _ h => h.physWrite

theorem putEvent {x r t b} (h : s.memOk) (e : s.putEvent x r = (some t, b)) : t.memOk := by
  unfold State.putEvent at e
  split at e
  · cases e
  · split at e
    · cases e
    · split at e
      · cases e
      next hw => cases e; exact (h.vWrite hw).modContext

theorem putEvents {x n rs} (h : s.memOk) : (s.putEvents x n rs).memOk := by
  induction n generalizing s rs with
  | zero => cases rs <;> exact h
  | succ n ih =>
    cases rs with
    | nil => exact h
    | cons r rs =>
      unfold State.putEvents
      split
      next he => exact ih (h.putEvent he)
      · split <;> exact h

theorem event {x r} (h : s.memOk) : (s.event x r).memOk := by
  unfold State.event
  split
  · exact h
  · exact h.modContext.putEvents

theorem retryEvents {x} (h : s.memOk) : (s.retryEvents x).memOk := by
  unfold State.retryEvents
  split
  · exact h
  · exact h.putEvents

theorem partEvent {k r} (h : s.memOk) : (s.partEvent k r).memOk := by
  unfold State.partEvent
  split
  · exact h
  · split
    · exact h
    · exact h.physWrite.modPartition

theorem retryPart {k} (h : s.memOk) : (s.retryPart k).memOk := by
  unfold State.retryPart
  split
  · exact h
  · exact h.modPartition.foldl fun _ _ h => h.partEvent

theorem queueEvent {q r} (h : s.memOk) : (s.queueEvent q r).memOk := by
  unfold State.queueEvent
  split
  · exact h.partEvent
  · exact h.event

theorem launchEvent {l kind status body} (h : s.memOk) : (s.launchEvent l kind status body).memOk := h.event

theorem replayable {l f} (h : s.memOk) : (s.replayable l f).1.memOk := by
  unfold State.replayable
  split
  · exact h
  · split
    · exact h
    · exact h.modContext.launchEvent

theorem fatalRecord {l f} (h : s.memOk) : (s.fatalRecord l f).memOk := h.launchEvent

theorem diagWrite {x data} (h : s.memOk) : (s.diagWrite x data).1.memOk := by
  unfold State.diagWrite
  split
  · exact h
  · extract_lets low start live clash
    split
    · exact h
    · split
      · exact h
      next hw => exact (h.vWrite hw).modContext

theorem deadWrite {die e} (h : s.memOk) : (s.deadWrite die e).1.memOk := by
  unfold State.deadWrite
  dsimp only
  split
  · exact h
  · exact h.homeWrite.modDie

theorem sample {x r} (h : s.memOk) : (s.sample x r).memOk := by
  unfold State.sample
  split
  · exact h
  · dsimp only
    split
    · exact h
    · split
      · exact h
      next hw => exact (h.vWrite hw).modContext

end State.memOk

end Sys2Proof.Machine
end

section
/-! ### Memory kept: copies, spills, ends of launches, the band, traps

A spill, an end and a trap write memory through the records they leave and through the accesses of their launch alone. -/
namespace Sys2Proof.Machine

namespace State.memOk

variable {s : State}

/-! ## Copies and spills (R179, R302 to R312) -/

theorem copyPut {c rcv leaves u data keep} (h : s.memOk) : (s.copyPut c rcv leaves u data keep).memOk := by
  refine h.foldl fun t x h => h.foldl fun t y h => ?_
  dsimp only
  split
  · split
    · exact h
    · split
      · exact h.foldl fun _ _ h => h.physWrite
      · exact h.launchWrites
  · exact h.modCrew

theorem abandonUnits {c} (h : s.memOk) : (s.abandonUnits c).memOk := by
  refine h.foldl fun t r h => ?_
  show State.memOk (List.foldl _ t _)
  refine h.foldl fun t u h => ?_
  split
  · exact h
  · exact h.copyPut

theorem writeGranule {g t} (h : s.memOk) (e : s.writeGranule g = .ok t) : t.memOk := by
  unfold State.writeGranule at e
  cases hc : s.spillCheck g.ctx .spillWrite g.spans with
  | error v => rw [hc] at e; cases e
  | ok ls =>
    rw [hc] at e
    cases e
    refine h.foldl fun t p h => h.foldl fun t va h => ?_
    split
    · exact h
    · exact h.foldl fun _ _ h => h.physWrite

/-! ## The ends of crews and launches (R18, R420, R448, R449) -/

theorem deadFree {x f kind} (h : s.memOk) : (s.deadFree x f kind).memOk := h.deadWrite

theorem discardHeld {r kind p} (h : s.memOk) : (s.discardHeld r kind p).memOk := by
  unfold State.discardHeld
  split
  · exact h.modCrew.foldl fun _ _ h => h.deadFree
  · exact h

theorem discardBroken {r} (h : s.memOk) : (s.discardBroken r).memOk := h.discardHeld

theorem removeCrew {r} (h : s.memOk) : (s.removeCrew r).memOk := by
  unfold State.removeCrew
  split
  · exact h
  · have gone : ((s.discardBroken r).discardHeld r 4 fun _ => true).memOk := h.discardBroken.discardHeld
    dsimp only
    split <;> exact gone

theorem completeLaunch {id status} (h : s.memOk) : (s.completeLaunch id status).memOk := by
  unfold State.completeLaunch
  split
  · exact h
  · split
    · exact h
    · dsimp only
      split
      · exact h
      · split
        · exact h.modLaunch.modContext.packetDone.launchEvent
        · exact h.modLaunch.modContext.packetDone.diagWrite.launchEvent

theorem stopLaunch {id} (h : s.memOk) : (s.stopLaunch id).memOk := by
  unfold State.stopLaunch
  show State.memOk (List.foldl _ (List.foldl _ _ _) _)
  refine State.memOk.foldl (State.memOk.foldl h fun t c h => ?_) fun _ _ h => h.removeCrew
  split
  · exact h.abandonUnits
  · exact h

theorem endLaunch {id status} (h : s.memOk) : (s.endLaunch id status).memOk := by
  unfold State.endLaunch
  split
  · exact h
  · split
    · exact h
    · split
      · exact h
      · split <;> exact h

theorem settleEnd {id} (h : s.memOk) : (s.settleEnd id).memOk := by
  unfold State.settleEnd
  split
  · exact h
  · split
    · exact h.stopLaunch.completeLaunch
    · exact h

theorem endNow {id status} (h : s.memOk) : (s.endNow id status).memOk := h.endLaunch.settleEnd

theorem replayLaunch {id cause} (h : s.memOk) : (s.replayLaunch id cause).memOk := by
  unfold State.replayLaunch
  split
  · exact h
  · split
    · exact h
    · extract_lets u restore v freed w x
      have hu : u.memOk := h.stopLaunch
      have hv : v.memOk := by
        simp only [v]
        cases u.launch? id with
        | none => exact hu
        | some l => exact hu.foldl fun _ _ h => Memory.foldl_write_wf (Memory.filter_wf h)
      exact hv.modContext.dropCaches.modLaunch.launchEvent

theorem consumedError {id pa unit core warp} (h : s.memOk) : (s.consumedError id pa unit core warp).memOk := by
  unfold State.consumedError
  split
  · exact h
  · dsimp only
    split
    · exact h.launchEvent.replayLaunch
    · exact h.launchEvent.endLaunch

theorem fatal {id f} (h : s.memOk) : (s.fatal id f).memOk := by
  unfold State.fatal
  split
  · exact h
  · split
    · exact h.consumedError
    · exact h.fatalRecord.endLaunch

/-! ## The band of a warp (R172 to R179) -/

theorem modSpills {p f} (h : s.memOk) : (s.modSpills p f).memOk := by
  cases p <;> exact h

theorem spillOut {p g} (h : s.memOk) : (s.spillOut p g).state.memOk := by
  unfold State.spillOut
  split
  next hw => simpa only [Spilled.state] using (h.writeGranule hw).modSpills
  · dsimp only
    split
    · simpa only [Spilled.state] using h.modSpills
    · split
      · simpa only [Spilled.state] using h.modSpills.fatal
      · simpa only [Spilled.state] using h.replayable.modSpills

theorem bufferGranule {core g n} (h : s.memOk) : (State.bufferGranule core g n s).1.memOk := by
  induction n generalizing s with
  | zero => exact h
  | succ n ih =>
    unfold State.bufferGranule
    dsimp only
    split
    · exact h
    · split
      · exact h
      · exact ih h.spillOut

theorem spillGranules {ref x core w gs} (h : s.memOk) : (State.spillGranules ref x core w gs s).1.memOk := by
  induction gs generalizing s w with
  | nil => exact h
  | cons g gs ih =>
    unfold State.spillGranules
    have buffered := h.bufferGranule (core := core) (g := w.granule ref x g) (n := 64)
    split
    · exact ih h
    · split
      next hb => rw [hb] at buffered; exact ih buffered
      next hb => rw [hb] at buffered; exact buffered.modWarp

end State.memOk

/-- The state that a move of the band leaves. -/
def Moved.state : Moved → State
  | .ok s | .wait s | .suspended s _ | .ended s => s

/-- The state after the refills of a move, whether it goes on or stops there. -/
def filledState {β : Type} : Except Moved (State × β) → State
  | .ok r => r.1
  | .error m => m.state

namespace State.memOk

variable {s : State}

theorem fillGranules {ref l core w gs rows bad} (h : s.memOk) :
    (filledState (State.fillGranules ref l core w gs s rows bad)).memOk := by
  induction gs generalizing rows bad with
  | nil => exact h
  | cons g gs ih =>
    unfold State.fillGranules
    split
    · split
      · exact h
      · split
        · exact h
        · exact ih
    · split
      · exact ih
      · dsimp only
        split
        · exact h.fatal
        · exact h.replayable

theorem moveBand {r b ring} (h : s.memOk) : (s.moveBand r b ring).state.memOk := by
  unfold State.moveBand
  split
  · rename_i c w l _ _ _
    extract_lets core old new top outs ins
    have filled := h.fillGranules (ref := r) (l := l) (core := core) (w := w) (gs := ins) (rows := []) (bad := [])
    split
    next hf => rw [hf] at filled; exact filled
    next hf =>
      rw [hf] at filled
      rename_i t _ _
      have spilled := State.memOk.spillGranules (s := t) (ref := r) (x := l.ctx) (core := core) (w := w) (gs := outs) filled
      split
      next hs => rw [hs] at spilled; exact spilled
      next hs =>
        rw [hs] at spilled
        split <;> exact spilled
  · exact h

/-! ## What an issue attempt comes to (R43, R136, R356, R379) -/

theorem stopRecord {r reason} (h : s.memOk) : (s.stopRecord r reason).memOk := by
  unfold State.stopRecord
  split
  · exact h.launchEvent
  · exact h

theorem debugHalt {r reason} (h : s.memOk) : (s.debugHalt r reason).memOk := by
  unfold State.debugHalt
  split
  · exact h
  · exact State.memOk.stopRecord h

theorem endStep {r} (h : s.memOk) : (s.endStep r).memOk := by
  unfold State.endStep
  split
  · split
    · exact h.modWarp.stopRecord
    · exact h
  · exact h

theorem takeTrap {r w code arg pc} (h : s.memOk) : (s.takeTrap r w code arg pc).memOk := by
  unfold State.takeTrap
  dsimp only
  have idle : State.memOk { s with turn := none } := h
  split
  · exact idle.modCrew.modWarp.endStep
  · split
    · exact idle.launchEvent.modLaunch.endLaunch
    · exact idle

theorem blockWarp {r b} (h : s.memOk) : (s.blockWarp r b).memOk := h

theorem faultWarp {r f} (h : s.memOk) : (s.faultWarp r f).memOk := by
  unfold State.faultWarp
  split
  · exact h
  · split
    · exact h.fatal
    · exact h.replayable.blockWarp

theorem retireWarp {r} (h : s.memOk) : (s.retireWarp r).memOk := by
  unfold State.retireWarp
  split
  · dsimp only
    split <;> exact h
  · exact h

end State.memOk

end Sys2Proof.Machine
end

section
/-! ### Memory kept: the issue attempt

An instruction keeps the form if its effect, the body of its attempt, does; so one lemma for each shared body. -/
namespace Sys2Proof.Machine

/-! ## The issue attempt -/

/-- The memory that an attempt leaves is in its canonical form; an attempt without a state of its own leaves that before it. -/
def Attempt.memOk : Attempt → Prop
  | .done s _ | .block s _ | .ends s => s.memOk
  | .trap _ _ _ | .trapAfter _ _ | .fault _ | .hold => True

/-- The memory of the next state, if there is one, is in its canonical form. -/
def NextMemOk (o : Host.Outcome State Fault Refusal) : Prop := ∀ t, o = .next t → t.memOk

theorem nextMemOk_fault {f : Fault} : NextMemOk (.fault f) := by
  intro t e
  injection e

namespace State.memOk

variable {s : State} {x : Cx}

theorem next (h : s.memOk) : NextMemOk (.next s) := by
  intro t e
  injection e with e
  rwa [← e]

theorem put {w} (h : x.s.memOk) : (x.put w).memOk := h

theorem taking (h : x.s.memOk) : x.taking.s.memOk := by
  unfold Cx.taking; split <;> exact h

theorem popAcquires {qs} (h : s.memOk) : (x.popAcquires s qs).memOk := by
  unfold Cx.popAcquires; split <;> exact h

theorem commit {d} (h : s.memOk) : (x.commit s d).memOk := by
  unfold Cx.commit
  extract_lets idle push pops
  split
  · exact h
  · extract_lets flight w u v
    have hu : u.memOk := State.memOk.popAcquires h
    have hv : v.memOk := by
      simp only [v]
      split
      · exact hu
      · exact hu.endStep
    split
    · exact hv.retireWarp
    · exact hv

theorem finish {a : Attempt} (h : x.s.memOk) (ha : a.memOk) : (x.finish a).memOk := by
  cases a with
  | done s d => exact State.memOk.commit ha
  | trap w code arg => exact h.takeTrap
  | trapAfter code arg => exact h.takeTrap
  | block s b => exact State.memOk.blockWarp ha
  | fault f => exact h.faultWarp
  | hold => exact h
  | ends s => exact ha

/-- R175: the body runs over the band as it was moved. -/
theorem withMove {b ring go} (h : x.s.memOk) (hgo : ∀ t : State, t.memOk → (go t).memOk) : (x.withMove b ring go).memOk := by
  have moved := h.moveBand (r := x.ref) (b := b) (ring := ring)
  unfold Cx.withMove
  split
  · exact h
  · split <;> rename_i hm <;> rw [hm] at moved
    · exact hgo _ moved
    · exact moved
    · exact moved
    · exact moved

theorem guardDrop {body : Cx → Attempt} (h : x.s.memOk) (hb : (body x).memOk) : (x.guardDrop body).memOk := by
  unfold Cx.guardDrop
  split
  next s d hd =>
    rw [hd] at hb
    split
    · exact hb
    · split
      · exact hb
      · trivial
      next b _ =>
        refine h.withMove fun _ _ => ?_
        have moved := State.memOk.moveBand (s := s) (r := x.ref) (b := b) (ring := x.w.ring) hb
        split
        next hm => rw [hm] at moved; exact moved
        · exact hb
  · exact hb

theorem queueBlock {ts name} (h : x.s.memOk) : (x.queueBlock ts name).memOk := h

theorem answer {body : Cx → Attempt} (h : x.s.memOk) (hb : ∀ y : Cx, y.s.memOk → (body y).memOk) : (x.answer body).memOk := by
  unfold Cx.answer
  split
  · trivial
  · exact h
  · split
    · exact h
    · dsimp only
      split
      · trivial
      · exact h.queueBlock
      · split
        · exact h.taking.consumedError
        · split
          · trivial
          · exact h.taking.guardDrop (hb _ h.taking)

/-- An instruction keeps the form if its effect does. -/
theorem issue {i} {body : Cx → Attempt} (h : s.memOk) (hb : ∀ y : Cx, y.s.memOk → (body y).memOk) :
    NextMemOk (issue i s body) := by
  unfold Machine.issue
  split
  · exact nextMemOk_fault
  · exact h.takeTrap.next
  next x hx =>
    obtain ⟨rfl, -⟩ := State.begin_go hx
    split
    · exact (h.finish (a := .trap ..) trivial).next
    · exact (h.taking.finish (h.answer hb)).next

/-! ## Lane, scalar and predicate results (R55, R56, R79) -/

theorem laneDone {w dst row raise} (h : x.s.memOk) : (x.laneDone w dst row raise).memOk := by
  unfold Cx.laneDone; split <;> exact h
theorem wideDone {w dst rows} (h : x.s.memOk) : (x.wideDone w dst rows).memOk := h
theorem scalDone {w dst v} (h : x.s.memOk) : (x.scalDone w dst v).memOk := h
theorem pairDone {w dst v} (h : x.s.memOk) : (x.pairDone w dst v).memOk := h
theorem predDone {w p v raise} (h : x.s.memOk) : (x.predDone w p v raise).memOk := h
theorem lane1 {dst a f} (h : x.s.memOk) : (x.lane1 dst a f).memOk := h.laneDone
theorem lane2 {dst a b f} (h : x.s.memOk) : (x.lane2 dst a b f).memOk := h.laneDone
theorem lane3 {dst a b c f} (h : x.s.memOk) : (x.lane3 dst a b c f).memOk := h.laneDone

theorem cross {a go} (h : x.s.memOk) (hgo : go.memOk) : (x.cross a go).memOk := by
  unfold Cx.cross
  dsimp only
  split
  · trivial
  · exact h
  · split
    · exact h.consumedError
    · exact hgo

theorem compare {p v} (h : x.s.memOk) : (x.compare p v).memOk := by
  unfold Cx.compare
  split
  · trivial
  · exact h.predDone

theorem scalOp {a} {f : {n : Nat} → BitVec n → BitVec n → BitVec n} (h : x.s.memOk) : (x.scalOp a f).memOk := by
  unfold Cx.scalOp; split <;> exact h

theorem scalShift {a} {f : {n : Nat} → BitVec n → Nat → BitVec n} (h : x.s.memOk) : (x.scalShift a f).memOk := by
  unfold Cx.scalShift; dsimp only; split <;> exact h

theorem floatDone {w dst row fl} (h : x.s.memOk) : (x.floatDone w dst row fl).memOk := h.laneDone

theorem float {a n op cancel divisor} (h : x.s.memOk) : (x.float a n op cancel divisor).memOk := by
  unfold Cx.float
  extract_lets
  split
  · trivial
  · split
    · trivial
    · exact h.floatDone

theorem packed {a n op cancel} (h : x.s.memOk) : (x.packed a n op cancel).memOk := by
  unfold Cx.packed
  extract_lets
  split
  · trivial
  · split
    · trivial
    · exact h.floatDone

theorem fminmax {a max} (h : x.s.memOk) : (x.fminmax a max).memOk := by
  unfold Cx.fminmax
  exact h.floatDone

/-! ## Control flow (R150 to R162) -/

theorem flow {w stay} (h : x.s.memOk) : (x.flow w stay).memOk := h

theorem taken {p go} (h : ∀ w m, Attempt.memOk (go w m)) : (x.taken p go).memOk := by
  unfold Cx.taken
  split
  · trivial
  · exact h _ _

theorem cover {w bases go} (h : x.s.memOk) (hgo : ∀ (y : Cx) w, y.s.memOk → (go y w).memOk) :
    (x.cover w bases go).memOk := by
  unfold Cx.cover
  split
  · exact hgo _ _ h
  · refine h.withMove fun t ht => ?_
    split
    · exact hgo _ _ ht
    · exact ht

theorem pass {f} (h : x.s.memOk) : (x.pass f).memOk := by
  unfold Cx.pass
  extract_lets
  split
  · trivial
  · split
    · trivial
    · extract_lets
      split
      · trivial
      · split
        · trivial
        · split
          · trivial
          · exact h.cover fun _ _ h => h.put

theorem callPass {targets shift} (h : x.s.memOk) : (x.callPass targets shift).memOk := h.pass

/-! ## Accesses to memory (R219 to R244) -/

theorem resultDone {w dst m rows off} (h : s.memOk) : (x.resultDone s w dst m rows off).memOk := by
  unfold Cx.resultDone; split <;> exact h

theorem touch {l1 sib va leaves} (h : s.memOk) : (x.touch s l1 sib va leaves).memOk := by
  unfold Cx.touch
  exact h.foldl fun _ _ h => h.noteLeaf.foldl fun _ _ h => h.touchLine

theorem acquire {on sc} (h : s.memOk) : (x.acquire s on sc).memOk := by
  unfold Cx.acquire; split <;> exact h

theorem access {k a go} (h : ∀ w lanes, Attempt.memOk (go w lanes)) : (x.access k a go).memOk := by
  unfold Cx.access
  split
  · trivial
  · split
    · trivial
    · exact h _ _

theorem scratch {a stores go} (h : ∀ w good off, Attempt.memOk (go w good off)) : (x.scratch a stores go).memOk := by
  unfold Cx.scratch
  extract_lets
  split
  · trivial
  · split
    · trivial
    · exact h _ _ _

theorem hintLanes {a go} (h : ∀ w lanes, Attempt.memOk (go w lanes)) : (x.hintLanes a go).memOk := by
  unfold Cx.hintLanes
  split
  · trivial
  · exact h _ _

theorem performStore {w ws} (h : x.s.memOk) : (x.performStore w ws).1.memOk := by
  unfold Cx.performStore
  exact h.foldl fun _ _ h => h.launchWrite

theorem atomWrite {l p} (h : s.memOk) : (x.atomWrite s l p).memOk := by
  unfold Cx.atomWrite
  split
  · have snapped : (if isDram p.pa then s.snapshot x.l.id l else s).memOk := by
      split
      · exact h.snapshot
      · exact h
    extract_lets u v
    have written : v.memOk := snapped.openWrite
    split
    · split
      · exact written.setLines
      · exact written
    · exact written
  · exact h.launchWrite

theorem performAtom {a lanes} (h : x.s.memOk) : (x.performAtom a lanes).1.memOk := by
  unfold Cx.performAtom
  extract_lets n aop datum
  exact foldl_fst h fun _ _ h => h.atomWrite.noteLeaf

theorem pairedAtom {a w lanes finish} (h : x.s.memOk) (hf : ∀ (t : State) w rows, t.memOk → (finish t w rows).memOk) :
    (x.pairedAtom a w lanes finish).memOk := by
  unfold Cx.pairedAtom
  split
  · exact h
  · split
    · split
      · trivial
      · exact hf _ _ _ h
    · exact hf _ _ _ h.performAtom.modWarp

theorem atomic {a k reads} (h : x.s.memOk) : (x.atomic a k reads).memOk := by
  refine access fun w lanes => ?_
  have done (t : State) w' rows (ht : t.memOk) : (if reads then
      x.resultDone (x.acquire t (MemArgs.acquires a) (MemArgs.scope a)) w' a.dst x.act rows 0
      else Attempt.done ((x.acquire t (MemArgs.acquires a) (MemArgs.scope a)).modWarp x.ref fun _ => w') {}).memOk := by
    split
    · exact ht.acquire.resultDone
    · exact ht.acquire.modWarp
  dsimp only
  split
  · exact h.pairedAtom done
  · exact done _ _ _ h.performAtom

theorem raceWords {store words} (h : s.memOk) : (x.raceWords s store words).memOk := by
  unfold Cx.raceWords
  split
  · exact h
  · extract_lets me clash u
    have hu : u.memOk := by
      simp only [u]
      split <;> exact h
    clear_value clash u
    cases clash with
    | none => exact hu
    | some r => exact hu.sample.modLaunch

theorem raceCheck {store lanes n} (h : s.memOk) : (x.raceCheck s store lanes n).memOk := h.raceWords

theorem comparePoint (h : x.s.memOk) : x.comparePoint.memOk := h

theorem released {go} (h : x.s.memOk) (hgo : go.memOk) : (x.released go).memOk := by
  unfold Cx.released
  split
  · exact h.comparePoint
  · exact hgo

end State.memOk

end Sys2Proof.Machine
end

section
/-! ### Memory kept: the effects of the encoded instructions -/
namespace Sys2Proof.Machine

namespace State.memOk

variable {s : State} {x : Cx}

/-! ## Arithmetic with branches -/

theorem execFcmp {c a} (h : s.memOk) : NextMemOk (execFcmp c a s) := h.issue fun _ h => by
  extract_lets
  split
  · trivial
  · exact h.predDone

theorem execRand {c ty same w64 dst} (h : s.memOk) : NextMemOk (execRand c ty same w64 dst s) := h.issue fun _ h => by
  extract_lets
  split
  · exact h.wideDone
  · split <;> exact h.laneDone

theorem execMdpack {c a} (h : s.memOk) : NextMemOk (execMdpack c a s) := h.issue fun _ h => by
  extract_lets
  split
  · exact h.wideDone
  · exact h.laneDone

/-! ## Control flow, traps and control registers -/

theorem execBra {c p off} (h : s.memOk) : NextMemOk (execBra c p off s) := h.issue fun _ h => taken fun _ _ => by
  extract_lets
  split
  · split
    · trivial
    · exact h.flow
  · exact h.flow

theorem execRet {c} (h : s.memOk) : NextMemOk (execRet c s) := h.issue fun _ h => by
  extract_lets
  split
  · trivial
  · exact h.pass

theorem execJoin {c} (h : s.memOk) : NextMemOk (execJoin c s) := h.issue fun _ h => by
  split
  · exact h.flow
  · dsimp only
    split <;> exact h.flow

theorem execRtt {c} (h : s.memOk) : NextMemOk (execRtt c s) := h.issue fun _ h => by
  split
  · trivial
  · exact h.flow

theorem readControl {dst creg} (h : x.s.memOk) : (x.readControl dst creg).memOk := by
  unfold Cx.readControl
  extract_lets
  split
  · trivial
  · split
    · trivial
    · split
      · exact h.wideDone
      · exact h.pairDone
      · exact h.scalDone

theorem writeWinctl {v go} (h : x.s.memOk) (hgo : ∀ w (t : State), t.memOk → (go w t).memOk) :
    (x.writeWinctl v go).memOk := by
  unfold Cx.writeWinctl
  extract_lets
  split
  · exact hgo _ _ h
  · exact State.memOk.cover h fun y w hy => hgo _ _ hy

theorem execCtlwr {c creg a} (h : s.memOk) : NextMemOk (execCtlwr c creg a s) := h.issue fun _ h => by
  extract_lets n v done
  have hd : ∀ w, (done w).memOk := fun _ => h
  clear_value n
  split
  · trivial
  · split
    · exact hd _
    · exact hd _
    · exact hd _
    · exact hd _
    · exact h.writeWinctl fun _ _ h => h.modWarp
    · exact hd _
    · exact hd _
    · exact hd _
    · split
      · exact h.put.modCrew
      · exact hd _

theorem execBrk {c} (h : s.memOk) : NextMemOk (execBrk c s) := h.issue fun _ h => by
  split
  · trivial
  · exact h.put.debugHalt

theorem execMark {c a sr imm} (h : s.memOk) : NextMemOk (execMark c a sr imm s) := h.issue fun _ h => by
  extract_lets u v
  show v.memOk
  simp only [v]
  split
  · exact h
  · exact State.memOk.sample h

/-! ## The window (R185 to R193) -/

theorem grow {n} (h : s.memOk) : (x.grow n s).memOk := by
  unfold Cx.grow
  extract_lets y finish
  have hy : y.s.memOk := h
  have hf : ∀ t : State, t.memOk → (finish t).memOk := fun _ h => h.modCrew
  split
  · exact hy.withMove hf
  · have moved := h.moveBand (r := x.ref) (b := y.w.bot) (ring := y.w.ring + n)
    split <;> rename_i hm <;> rw [hm] at moved
    · exact hf _ moved
    · exact moved
    · exact moved
    · exact moved

theorem claimDeadlock {r q beyond} (h : s.memOk) : (s.claimDeadlock r q beyond).memOk := by
  unfold State.claimDeadlock
  split
  · exact h.diagWrite.launchEvent.endLaunch
  · exact h

theorem crewDeadlock {r} (h : s.memOk) : (s.crewDeadlock r).memOk := by
  unfold State.crewDeadlock
  split
  · exact h.diagWrite.launchEvent.endLaunch
  · exact h

theorem execRclaim {c n} (h : s.memOk) : NextMemOk (execRclaim c n s) := h.issue fun _ h => by
  extract_lets q rows claims u set
  have hu : u.memOk := h.put
  split
  · split
    · exact hu.grow
    · exact h
  · split
    · exact h.claimDeadlock
    · split
      · exact hu.modCrew.grow
      · exact hu.modCrew

theorem execRrelease {c n} (h : s.memOk) : NextMemOk (execRrelease c n s) := h.issue fun _ h => by
  extract_lets rows w top ring b finish
  have hf : ∀ t : State, t.memOk → (finish t).memOk := fun _ h => h.modWarp.modCrew
  split
  · trivial
  · split
    · trivial
    · split
      · exact hf _ h.put
      · exact h.withMove hf

theorem execWflush {c} (h : s.memOk) : NextMemOk (execWflush c s) := h.issue fun k h => by
  extract_lets gs
  have spilled := State.memOk.spillGranules (ref := k.ref) (x := k.l.ctx) (core := k.core) (w := k.w) (gs := gs)
    (h.put (w := k.w))
  split
  next hs => rw [hs] at spilled; exact spilled
  next hs => rw [hs] at spilled; exact spilled

/-! ## Queues (R199 to R216) -/

theorem execQmap {c q slot rights off} (h : s.memOk) : NextMemOk (execQmap c q slot rights off s) := h.issue fun _ h => by
  extract_lets
  split
  · exact h.put
  · trivial

theorem close {b} (h : s.memOk) : (x.close b s).memOk := by
  unfold Cx.close; split <;> exact h

theorem spoiled {bad go} (h : x.s.memOk) (hgo : go.memOk) : (x.spoiled bad go).memOk := by
  unfold Cx.spoiled
  split
  · exact h.consumedError
  · exact hgo

theorem execQunmap {c q} (h : s.memOk) : NextMemOk (execQunmap c q s) := h.issue fun _ h => by
  split
  · exact h.put.close
  · trivial

theorem execQclose {c q} (h : s.memOk) : NextMemOk (execQclose c q s) := h.issue fun _ h => by
  split
  · split
    · exact h.put.close
    · trivial
  · trivial

theorem execQpush {c q a whole} (h : s.memOk) : NextMemOk (execQpush c q a whole s) := h.issue fun _ h => by
  extract_lets
  split
  · trivial
  · exact h
  · exact h.put

theorem takeHead {q dst after} (h : x.s.memOk) : (x.takeHead q dst after).memOk := by
  unfold Cx.takeHead
  split
  · trivial
  · exact h.spoiled h.put

theorem execQpop {c dst q st p} (h : s.memOk) : NextMemOk (execQpop c dst q st p s) := h.issue fun _ h => by
  split
  · exact h.spoiled h.put
  · extract_lets ts
    split
    · trivial
    · split
      · exact h.put
      · exact h.queueBlock
    · exact h.takeHead

theorem execQtryPop {c p dst q} (h : s.memOk) : NextMemOk (execQtryPop c p dst q s) := h.issue fun _ h => by
  extract_lets ts
  split
  · trivial
  · split
    · exact h.queueBlock
    · exact h.put
  · exact h.takeHead

theorem execQtryPush {c p q a} (h : s.memOk) : NextMemOk (execQtryPush c p q a s) := h.issue fun _ h => by
  extract_lets pops ts
  split
  · trivial
  · split
    · exact h.queueBlock
    · exact h.put
  · exact h.spoiled h.put

theorem execQstat {c dst q sel} (h : s.memOk) : NextMemOk (execQstat c dst q sel s) := h.issue fun _ h => by
  split
  · trivial
  · exact h.scalDone

theorem refill {dst p n t cap} (h : x.s.memOk) : (x.refill dst p n t cap).memOk := by
  unfold Cx.refill
  extract_lets need f crew u
  split
  · exact h.consumedError
  · show State.memOk (if _ then _ else _)
    split
    · exact h.modCrew.invalidate
    · exact h.modCrew

theorem execRefill {c dst q p wait} (h : s.memOk) : NextMemOk (execRefill c dst q p wait s) := h.issue fun _ h => by
  extract_lets t ts
  split
  · exact h.put
  · split
    · trivial
    · trivial
    · split
      · exact h.queueBlock
      · exact h.put
    · split
      · trivial
      · exact h
      · exact h.refill

/-! ## Memory instructions (R225 to R244) -/

theorem execLd {c a} (h : s.memOk) : NextMemOk (execLd c a s) := h.issue fun _ h => access fun _ _ =>
  (h.foldl fun _ _ h => h.touch).acquire.resultDone

theorem execLdu {c a} (h : s.memOk) : NextMemOk (execLdu c a s) := h.issue fun _ h => by
  extract_lets n va
  split
  · trivial
  · exact h.touch.acquire.modWarp

theorem fullHold (h : x.s.memOk) : x.fullHold.memOk := h

theorem execSt {c a} (h : s.memOk) : NextMemOk (execSt c a s) := h.issue fun _ h => access fun w lanes => by
  extract_lets n ws bytes put
  have stored : put.memOk := by
    simp only [put]
    split
    · exact h.performStore.modWarp
    · exact (h.performStore.foldl fun _ _ h => h.touch).modWarp
  split
  · exact stored
  · split
    · exact stored
    · exact h.fullHold
    · exact h.endLaunch

theorem execLds {c a} (h : s.memOk) : NextMemOk (execLds c a s) := h.issue fun _ h => scratch fun _ _ _ =>
  h.raceCheck.resultDone

theorem execSts {c a} (h : s.memOk) : NextMemOk (execSts c a s) := h.issue fun _ h => scratch fun _ _ _ =>
  h.raceCheck.modCrew.modWarp

theorem execAtoms {c a} (h : s.memOk) : NextMemOk (execAtoms c a s) := h.issue fun _ h => scratch fun _ _ _ =>
  h.modCrew.resultDone

theorem execPref {c a} (h : s.memOk) : NextMemOk (execPref c a s) := h.issue fun _ h => hintLanes fun _ _ =>
  (h.foldl fun _ _ h => h.touch).modWarp

theorem execCctl {c a} (h : s.memOk) : NextMemOk (execCctl c a s) := h.issue fun _ h => hintLanes fun w lanes => by
  extract_lets pas u v
  show State.memOk (if _ then _ else _)
  split <;> exact h

/-! ## Fences, barriers and waits (R235, R254 to R278) -/

theorem fence {acq rel sc} (h : x.s.memOk) : (x.fence acq rel sc).memOk := by
  unfold Cx.fence
  split
  · trivial
  · split
    · exact h.comparePoint
    · exact h.acquire.modWarp

theorem barrier {b ph valid go} (hgo : ∀ g y, Attempt.memOk (go g y)) : (x.barrier b ph valid go).memOk := by
  unfold Cx.barrier
  split
  · trivial
  · split
    · trivial
    · exact hgo _ _

theorem crewDone {f flight} (h : x.s.memOk) : (x.crewDone f flight).memOk := h

theorem execBarinit {c b n} (h : s.memOk) : NextMemOk (execBarinit c b n s) := h.issue fun _ h => barrier fun g k => by
  split
  · trivial
  · exact h.crewDone

theorem execBarwait {c b ph} (h : s.memOk) : NextMemOk (execBarwait c b ph s) := h.issue fun _ h => barrier fun g k => by
  split
  · exact h.put
  · exact h

theorem checkPhase {k a} (e : x.checkPhase k = some a) : a.memOk := by
  unfold Cx.checkPhase at e
  split at e
  · split at e
    · cases e; trivial
    · split at e <;> cases e
      trivial
  · cases e

theorem checkCond {k a} (e : x.checkCond k = some a) : a.memOk := by
  unfold Cx.checkCond at e
  split at e
  · exact checkPhase e
  · split at e
    · split at e <;> cases e
      trivial
    · dsimp only at e
      split at e <;> cases e
      trivial
  · split at e <;> cases e
    trivial
  · split at e <;> cases e
    trivial
  · cases e

theorem waitDone {a hit late} (h : x.s.memOk) : (x.waitDone a hit late).memOk := State.memOk.modWarp h.acquire

theorem execWait {c a} (h : s.memOk) : NextMemOk (execWait c a s) := h.issue fun _ h => by
  extract_lets k tryIt
  have tried : ∀ d, (tryIt d).memOk := by
    intro d
    simp only [tryIt]
    split
    · exact h.waitDone
    · exact h.modWarp
  split
  · exact h.waitDone
  · split
    next hc =>
      obtain ⟨k, -, e⟩ := List.exists_of_findSome?_eq_some hc
      exact checkPhase e
    · exact tried _
  · split
    next hc =>
      obtain ⟨k, -, e⟩ := List.exists_of_findSome?_eq_some hc
      exact checkCond e
    · exact tried _

/-! ## Grace (R280 to R296) -/

theorem execRdenter {c} (h : s.memOk) : NextMemOk (execRdenter c s) := h.issue fun _ h => by
  extract_lets k u
  have hu : u.memOk := by
    simp only [u]
    split
    · exact h
    · exact h.invalidate.modGrace
  split
  · trivial
  · split
    · exact hu.modGrace.modWarp
    · exact hu.modWarp

theorem execRdexit {c} (h : s.memOk) : NextMemOk (execRdexit c s) := h.issue fun _ h => by
  split
  · trivial
  · refine h.released ?_
    show State.memOk (if _ then _ else _)
    split <;> exact h

theorem execGsync {c dst} (h : s.memOk) : NextMemOk (execGsync c dst s) := h.issue fun _ h => by
  split
  · trivial
  · split
    · exact h.released h.modGrace.modWarp
    · split
      · exact h
      · split
        · exact h.acquire.modWarp
        · exact h

theorem execDfree {c a len q} (h : s.memOk) : NextMemOk (execDfree c a len q s) := h.issue fun _ h => by
  split
  · trivial
  · split
    · exact h
    · exact h.released h.modGrace.modWarp

theorem execGstat {c dst sel} (h : s.memOk) : NextMemOk (execGstat c dst sel s) := h.issue fun _ h => by
  split
  · exact h.pairDone
  · exact h.pairDone
  · exact h.scalDone
  · exact h.pairDone
  · exact h.scalDone

/-! ## Copies (R299 to R311) -/

theorem dropUpdate {core c kind crew bytes} (h : s.memOk) : (s.dropUpdate core c kind crew bytes).memOk := by
  unfold State.dropUpdate
  split
  · exact h
  · exact h.deadWrite.launchEvent.endLaunch

theorem subtract {core c crew n} (h : s.memOk) : (s.subtract core c crew n).1.memOk := by
  unfold State.subtract
  split
  · exact h.dropUpdate
  · split
    · exact h.dropUpdate
    · exact h.modCrew

theorem copy {a f} (h : x.s.memOk) : (x.copy a f).memOk := by
  unfold Cx.copy
  split
  · extract_lets o
    split
    · trivial
    · split
      · trivial
      · split
        · trivial
        · split
          · trivial
          · split
            · trivial
            · exact h.modCore.modWarp.modCrew
  · trivial

theorem stopCopy {core c} (h : s.memOk) : (s.stopCopy core c).memOk := h.abandonUnits.modCore

theorem takeOff {core c crew n} (h : s.memOk) : (s.takeOff core c crew n).memOk := by
  unfold State.takeOff
  split
  · exact h
  · exact h.subtract

theorem cancelCopy {core c} (h : s.memOk) : (s.cancelCopy core c).memOk := by
  unfold State.cancelCopy
  extract_lets open_ u
  have hu : u.memOk := h.stopCopy.foldl fun _ _ h => h.takeOff
  split
  · exact hu.foldl fun _ _ h => h.takeOff
  · exact hu

theorem execCpycan {c dst hd} (h : s.memOk) : NextMemOk (execCpycan c dst hd s) := h.issue fun _ h => by
  extract_lets handle
  split
  · trivial
  · split
    · trivial
    · split
      · exact h.scalDone
      · extract_lets u
        have hu : u.memOk := h.put.cancelCopy
        split
        · exact hu
        · exact hu

/-! ## The matrix unit (R336 to R353) -/

theorem group {slot go} (hgo : ∀ n g, Attempt.memOk (go n g)) : (x.group slot go).memOk := by
  unfold Cx.group
  split
  · trivial
  · exact hgo _ _

theorem imageAt {g a off align n go} (hgo : ∀ o, Attempt.memOk (go o)) : (x.imageAt g a off align n go).memOk := by
  unfold Cx.imageAt
  extract_lets
  split
  · trivial
  · exact hgo _

theorem handOver {op path d} (h : x.s.memOk) : (x.handOver op path d).memOk := by
  unfold Cx.handOver
  split
  split
  · trivial
  · exact h.modCore.modWarp.modCrew

theorem execTctl {c slot tile a imm} (h : s.memOk) : NextMemOk (execTctl c slot tile a imm s) :=
  h.issue fun _ h => group fun n g => by
    split
    · trivial
    · exact h.put.modCrew

theorem loadTile {a} (h : x.s.memOk) : (x.loadTile a).memOk := group fun _ g => by
  extract_lets
  split
  · trivial
  · exact imageAt fun _ => h.handOver

/-- R342: what a store of the unit adds to the race records. -/
theorem afterHandOver {op path} {f : State → State} (h : x.s.memOk) (hf : ∀ t : State, t.memOk → (f t).memOk) :
    Attempt.memOk (match x.handOver op path with
      | .done s d => .done (f s) d
      | a => a) := by
  have handed := h.handOver (op := op) (path := path) (d := {})
  split
  next hd => rw [hd] at handed; exact hf _ handed
  · exact handed

theorem storeTile {a} (h : x.s.memOk) : (x.storeTile a).memOk := group fun _ g => by
  extract_lets
  split
  · trivial
  · exact imageAt fun _ => h.afterHandOver fun _ h => h.raceWords

theorem multiply {a} (h : x.s.memOk) : (x.multiply a).memOk := group fun _ g => by
  extract_lets
  split
  · trivial
  · split
    · trivial
    · split
      · trivial
      · exact h.handOver

theorem onAcc {slot acc go} (hgo : ∀ n g op, Attempt.memOk (go n g op)) : (x.onAcc slot acc go).memOk := group fun _ g => by
  split
  · trivial
  · exact hgo _ _ _

theorem zeroAcc {slot acc} (h : x.s.memOk) : (x.zeroAcc slot acc).memOk := onAcc fun _ _ _ => h.handOver

theorem readOut {dst e slot acc} (h : x.s.memOk) : (x.readOut dst e slot acc).memOk := onAcc fun _ _ op => by
  extract_lets
  split
  · split
    · trivial
    · exact h.handOver
  · exact h.handOver

theorem convertAcc {slot tile acc psel} (h : x.s.memOk) : (x.convertAcc slot tile acc psel).memOk := onAcc fun _ g op => by
  extract_lets
  split
  · trivial
  · split
    · trivial
    · split
      · trivial
      · exact h.handOver

theorem topAcc {slot acc a} (h : x.s.memOk) : (x.topAcc slot acc a).memOk := onAcc fun _ _ _ => h.handOver

theorem saveAcc {a} (h : x.s.memOk) : (x.saveAcc a).memOk := onAcc fun _ _ _ => imageAt fun _ =>
  h.afterHandOver fun _ h => h.raceCheck

theorem restoreAcc {a} (h : x.s.memOk) : (x.restoreAcc a).memOk := onAcc fun _ _ _ => imageAt fun _ => h.handOver

end State.memOk

end Sys2Proof.Machine
end

section
/-! ### Memory kept: the events of warps, cores, engines, grace homes, pairs, placement and preemption -/
namespace Sys2Proof.Machine

namespace State.memOk

variable {s : State} {x : Cx}

/-! ## Events of warps, crews and cores -/

theorem onWarp {r f} (h : s.memOk) (hf : ∀ c w, (f c w).memOk) : NextMemOk (s.onWarp r f) := by
  unfold State.onWarp
  split
  · exact (hf _ _).next
  · exact h.next

theorem onCrew {r f} (h : s.memOk) (hf : ∀ c, (f c).memOk) : NextMemOk (s.onCrew r f) := by
  unfold State.onCrew
  split
  · split
    · exact (hf _).next
    · exact h.next
  · exact h.next

theorem elapse {n} (h : s.memOk) : (s.elapse n).memOk := by
  unfold State.elapse
  split <;> exact h

theorem completeFlight {r f} (h : s.memOk) : (s.completeFlight r f).memOk := h.modWarp.modCrew

theorem execBreakpointHit {w} (h : s.memOk) : NextMemOk (execBreakpointHit w s) := h.onWarp fun _ _ => by
  split
  · exact h
  · exact h.modWarp.debugHalt

theorem flightLands {w k} (h : s.memOk) : NextMemOk (s.flightLands w k) := h.onWarp fun _ _ => by
  split
  · exact h
  · split
    · exact h.completeFlight
    · exact h

theorem execWindowMoveDone {w} (h : s.memOk) : NextMemOk (execWindowMoveDone w s) := h.onWarp fun _ m => by
  split
  next b _ _ =>
    split
    · exact h
    · split
      · exact h.modWarp
      · have moved := h.moveBand (r := w) (b := b) (ring := m.ring)
        split <;> rename_i hm <;> rw [hm] at moved
        · exact State.memOk.modWarp moved
        · exact moved
        · exact State.memOk.modWarp moved
        · exact moved
  · split
    · exact h.modWarp
    · exact h
  · exact h

theorem wakeFlush {core} (h : s.memOk) : (s.wakeFlush core).memOk := h

theorem execSpillWrite {core k} (h : s.memOk) : NextMemOk (execSpillWrite core k s) := by
  unfold Machine.execSpillWrite
  dsimp only
  split
  · exact h.next
  next g _ =>
    split
    · exact h.next
    · have spilled := h.spillOut (p := .buffer core) (g := g)
      split <;> rename_i hs <;> rw [hs] at spilled
      · exact (State.memOk.wakeFlush spilled).next
      · exact State.memOk.next spilled
      · exact State.memOk.next spilled

theorem execClaimServed {cr q} (h : s.memOk) : NextMemOk (execClaimServed cr q s) := h.onCrew fun _ => by
  split
  · exact h
  · split
    · exact h
    · exact h.modCrew

theorem execClaimDeadlock {cr q} (h : s.memOk) : NextMemOk (execClaimDeadlock cr q s) := h.onCrew fun _ => by
  split
  · exact h.claimDeadlock
  · exact h

theorem execCrewDeadlock {cr} (h : s.memOk) : NextMemOk (execCrewDeadlock cr s) := h.onCrew fun _ => by
  split
  · exact h.crewDeadlock
  · exact h

theorem execQueueRowLands {q k} (h : s.memOk) : NextMemOk (execQueueRowLands q k s) := h.onCrew fun _ => by
  split
  · exact h
  · split
    · exact h
    · split
      · exact h
      · split
        · exact h.completeFlight
        · exact h.modCrew

theorem execQueueHeadStaged {q} (h : s.memOk) : NextMemOk (execQueueHeadStaged q s) := h.onCrew fun _ => by
  split
  · exact h
  · split
    · exact h
    · exact h.modCrew

theorem execQueueStateError {q} (h : s.memOk) : NextMemOk (execQueueStateError q s) := h.onCrew fun _ => by
  have broken := fun f => (h.modCrew (r := q.crew) (f := f)).discardBroken (r := q.crew)
  split
  · exact h
  · dsimp only
    split
    · exact broken _
    · exact (broken _).launchEvent

theorem execArrivalApplied {cr g b w} (h : s.memOk) : NextMemOk (execArrivalApplied cr g b w s) := h.onCrew fun _ => by
  split
  · exact h
  · split
    · exact h
    · exact h.modCrew

theorem evaluateWait {r} (h : s.memOk) : (s.evaluateWait r).memOk := by
  unfold State.evaluateWait
  split
  · exact h
  · split
    · exact h
    · split
      · exact h.modWarp
      · split
        · exact h
        · exact h.modWarp

theorem settleWaits (h : s.memOk) : s.settleWaits.memOk := h.foldl fun _ _ h => h.evaluateWait

theorem execWaitDeadline {w} (h : s.memOk) : NextMemOk (execWaitDeadline w s) := by
  unfold Machine.execWaitDeadline
  split
  · exact h.next
  · dsimp only
    split
    · exact h.evaluateWait.next
    · exact h.next

theorem completeOp {op} (h : s.memOk) : (s.completeOp op).memOk := by
  unfold State.completeOp
  split
  · dsimp only
    split
    · exact h.modCrew.completeFlight
    · exact h.modCrew
  · exact h

theorem execMatrixOpCompletion {core} (h : s.memOk) : NextMemOk (execMatrixOpCompletion core s) := by
  unfold Machine.execMatrixOpCompletion
  split
  · exact h.next
  · exact h.modCore.completeOp.next

theorem execTilePathCompletion {core} (h : s.memOk) : NextMemOk (execTilePathCompletion core s) := by
  unfold Machine.execTilePathCompletion
  split
  · exact h.next
  · exact h.modCore.completeOp.next

theorem endContext {y status} (h : s.memOk) : (s.endContext y status).memOk :=
  h.foldl (l := s.openLaunches y) fun _ _ h => h.endNow (status := status)

theorem modLine {c k f} (h : s.memOk) : (CacheRef.modLine c k f s).memOk := by
  cases c <;> exact h

/-- R427: an error strikes a word of one memory, or takes a core out of service. -/
theorem execUncorrectableError {e} (h : s.memOk) : NextMemOk (execUncorrectableError e s) := by
  cases e with
  | memory pa => exact State.memOk.next h
  | register w row lane => exact h.onWarp fun _ _ => by split <;> exact h
  | scalar w n => exact h.onWarp fun _ _ => by split <;> exact h
  | cacheLine cache line off => exact State.memOk.next (modLine h)
  | spillBuffer core granule row lane => exact h.modCore.next
  | scratch cr off => exact h.onCrew fun _ => by split <;> exact h
  | tile cr t off => exact h.onCrew fun _ => h.modCrew
  | scale cr t entry => exact h.onCrew fun _ => h.modCrew
  | accumulator cr a plane i j => exact h.onCrew fun _ => h.modCrew
  | corrected => exact State.memOk.next h
  | coreControl core =>
    have ended (l : List CtxRef) : (l.foldl (fun s y => s.endContext y 23) s).memOk := h.foldl fun _ _ h => h.endContext
    exact State.memOk.next (ended _)

theorem execLineAgeExpiry {cache line} (h : s.memOk) : NextMemOk (execLineAgeExpiry cache line s) := by
  cases cache
  · exact h.modCore.next
  · exact h.modDie.next

/-! ## Command queues and packets (R399 to R415) -/

theorem stopWith {q status index seq tag} (h : s.memOk) : (s.stopWith q status index seq tag).memOk :=
  h.queueEvent.modCmdQueue

theorem poisonedPacket {q} (h : s.memOk) : (s.poisonedPacket q).memOk := h.queueEvent.modCmdQueue

theorem checkKick {q v} (h : s.memOk) : (s.checkKick q v).memOk := by
  unfold State.checkKick
  split
  · exact h.stopWith
  · exact h.modCmdQueue

theorem execKick {q v} (h : s.memOk) : NextMemOk (execKick q v s) := by
  unfold Machine.execKick
  split
  · split
    · exact h.countError.next
    · exact h.next
  · split
    · exact h.modCmdQueue.next
    · exact h.checkKick.next

theorem refusePacket {q status b} (h : s.memOk) : (s.refusePacket q status b).memOk := h.stopWith

theorem accept {r p} (h : s.memOk) : (s.accept r p).memOk := h

theorem packetEvent {q p kind status body} (h : s.memOk) : (s.packetEvent q p kind status body).memOk := h.queueEvent

theorem finishPacket {q p status} (h : s.memOk) : (s.finishPacket q p status).memOk := by
  unfold State.finishPacket
  dsimp only
  split
  · exact h.packetEvent.packetDone
  · exact h.packetDone

theorem packetFault {q p k v unit} (h : s.memOk) : (s.packetFault q p k v unit).memOk := by
  unfold State.packetFault
  dsimp only
  split <;> exact h.packetEvent.finishPacket.modCmdQueue

theorem take {r kind legal body} (h : s.memOk) (hb : ∀ (t : State) q p, t.memOk → (body t q p).memOk) :
    NextMemOk (s.take r kind legal body) := by
  unfold State.take
  split
  · exact h.next
  · split
    · exact h.next
    · exact h.next
    · exact h.modCmdQueue.next
    · exact h.poisonedPacket.next
    · exact h.refusePacket.next
    · exact (hb _ _ _ h.accept).next

theorem execPacketReread {r} (h : s.memOk) : NextMemOk (execPacketReread r s) := by
  unfold Machine.execPacketReread
  split
  · exact h.next
  · split
    · exact h.next
    · dsimp only
      split
      · exact h.poisonedPacket.next
      · split
        · exact h.modCmdQueue.next
        · split
          · exact h.refusePacket.next
          · exact h.modCmdQueue.next

/-! ## The copy engine (R302 to R312) -/

theorem postmark {c r} (h : s.memOk) : (s.postmark c r).memOk := by
  unfold State.postmark
  split <;> exact h

theorem countUnit {core k c n u r} (h : s.memOk) : (s.countUnit core k c n u r).memOk := by
  unfold State.countUnit
  extract_lets last valid t v
  have hv : v.memOk := by
    simp only [v]
    split
    · exact h.modCopy.postmark
    · exact h.modCopy
  have counted := hv.subtract (core := core) (c := c) (crew := r.crew) (n := c.unitBytes u)
  clear_value v
  split
  next hs => rw [hs] at counted; exact counted.stopCopy
  next t hs =>
    rw [hs] at counted
    split
    · have again := State.memOk.subtract (s := t) (core := core) (c := c) (crew := c.crew) (n := 1) counted
      split
      next hs => rw [hs] at again; exact again.stopCopy
      next hs => rw [hs] at again; exact again
    · exact counted

theorem retireCopy {core k} (h : s.memOk) : (s.retireCopy core k).memOk := by
  unfold State.retireCopy
  split
  · split
    · exact h.modCore
    · exact h
  · exact h

theorem countPacket {core k c u r q index} (h : s.memOk) : (s.countPacket core k c u r q index).memOk := by
  unfold State.countPacket
  dsimp only
  split
  · exact h.modCopy
  · split
    · exact h.modCopy.retireCopy
    · split
      · exact h.modCopy.retireCopy.finishPacket
      · exact h.modCopy.retireCopy

theorem landUnit {core k c n u r rs ws} (h : s.memOk) : (s.landUnit core k c n u r rs ws).memOk := by
  unfold State.landUnit
  extract_lets data noted put ap marked
  have hp : put.memOk := State.memOk.copyPut (h.foldl fun _ _ h => h.noteLeaf)
  have hm : marked.memOk := by
    simp only [marked]
    split
    · exact hp.modCopy
    · exact hp
  split
  · exact hm.countPacket
  · exact hm.countUnit.retireCopy

theorem execCopyUnitLanded {core k u r} (h : s.memOk) : NextMemOk (execCopyUnitLanded core k u r s) := by
  unfold Machine.execCopyUnitLanded
  split
  · exact h.next
  · split
    · exact h.next
    · split
      · exact h.next
      · split
        · exact h.next
        · split
          · exact h.dropUpdate.stopCopy.next
          · split
            · exact h.next
            · exact h.endLaunch.next
            · exact h.landUnit.next

theorem execCopyUnitFault {core k u} (h : s.memOk) : NextMemOk (execCopyUnitFault core k u s) := by
  unfold Machine.execCopyUnitFault
  split
  · exact h.next
  · split
    · exact h.next
    · split
      · exact h.next
      · split
        · dsimp only
          split
          · exact h.modCore.next
          · split
            · exact h.modCore.packetFault.next
            · exact h.modCore.next
        · dsimp only
          split
          · exact h.stopCopy.fatal.next
          · split
            · exact h.next
            · exact h.replayable.modCopy.next

theorem fabricFault {core c va code} (h : s.memOk) : (s.fabricFault core c va code).memOk := h.stopCopy.fatal

/-! ## The grace homes (R283 to R292) -/

theorem execGraceStartAtHome {y} (h : s.memOk) : NextMemOk (execGraceStartAtHome y s) := by
  unfold Machine.execGraceStartAtHome
  split
  · exact h.modGrace.modWarp.next
  · exact h.next

theorem execDepthChangeAtHome {y} (h : s.memOk) : NextMemOk (execDepthChangeAtHome y s) := by
  unfold Machine.execDepthChangeAtHome
  split
  · exact h.modGrace.next
  · exact h.next

theorem execCurAcknowledged {y core} (h : s.memOk) : NextMemOk (execCurAcknowledged y core s) := by
  unfold Machine.execCurAcknowledged
  split
  · exact h.next
  · split
    · exact h.next
    · exact h.modGrace.next

theorem execDoneReceived {y core} (h : s.memOk) : NextMemOk (execDoneReceived y core s) := by
  unfold Machine.execDoneReceived
  split
  · exact h.next
  · exact h.modGrace.modWarpsOf.next

theorem execGraceNumberReturned {w} (h : s.memOk) : NextMemOk (execGraceNumberReturned w s) := h.onWarp fun _ m => by
  dsimp only
  split
  · exact h.modWarp.completeFlight
  · split
    · exact h.modWarp
    · exact h

theorem deliver {y f} (h : s.memOk) : (s.deliver y f).memOk := by
  unfold State.deliver
  split
  · exact h.deadFree
  · split
    · exact h.deadFree
    · exact h.modCrew

theorem wakeFrees {y} (h : s.memOk) : (s.wakeFrees y).memOk := h.modWarpsOf

theorem execGraceDelivery {y} (h : s.memOk) : NextMemOk (execGraceDelivery y s) := by
  unfold Machine.execGraceDelivery
  split
  · exact h.next
  · split
    · exact h.next
    · exact h.modGrace.deliver.wakeFrees.next

/-! ## Paired launches (R421 to R426) -/

theorem drainEntry {l p q e} (h : s.memOk) : (s.drainEntry l p q e).memOk := by
  unfold State.drainEntry
  extract_lets coreOf touch t
  have ht : t.memOk := by
    simp only [t, touch]
    split
    · exact h.openWrite.touchLine
    · exact h.openWrite
  split
  · split
    · exact ht.setLines
    · exact ht
  · exact ht

theorem drainMatched {id p q n} (h : s.memOk) : (s.drainMatched id p q n).memOk := by
  unfold State.drainMatched
  split
  · exact h
  · exact h.modLaunch.foldl fun _ _ h => h.drainEntry

theorem mismatch {id r n a b} (h : s.memOk) : (s.mismatch id r n a b).memOk := by
  unfold State.mismatch
  split
  · exact h
  · dsimp only
    split
    · exact h.launchEvent.replayLaunch
    · exact h.launchEvent.endLaunch

theorem compareFull {id p q lead lag} (h : s.memOk) : (s.compareFull id p q lead lag).memOk := by
  unfold State.compareFull
  split
  · dsimp only
    split
    · exact h
    · split
      · exact h.modWarp
      · split
        · exact h.drainMatched.modWarp.modWarp
        · exact h.mismatch
  · exact h

theorem compareWarps {id p q a b} (h : s.memOk) : (s.compareWarps id p q a b).memOk := by
  unfold State.compareWarps
  split
  · split
    · exact h
    · split
      · exact h.drainMatched.modWarp.modWarp
      · exact h.mismatch
  · split
    · exact h.compareFull
    · split
      · exact h.mismatch
      · exact h
  · split
    · exact h.compareFull
    · split
      · exact h.mismatch
      · exact h
  · split
    · exact h.compareFull
    · split
      · exact h.compareFull
      · exact h

theorem execComparePoint {w} (h : s.memOk) : NextMemOk (execComparePoint w s) := by
  unfold Machine.execComparePoint
  dsimp only
  split
  · split
    · exact h.compareWarps.next
    · exact h.next
  · exact h.next

/-! ## Placement (R408 to R412) -/

theorem setCrew {l r core} (h : s.memOk) : (s.setCrew l r core).memOk := h

theorem movePointer {part l crew core} (h : s.memOk) : (s.movePointer part l crew core).memOk := by
  unfold State.movePointer
  split
  · exact h
  · exact h.modPartition

theorem placeCrew {part l crew t} (h : s.memOk) (e : s.placeCrew part l crew = some t) : t.memOk := by
  unfold State.placeCrew at e
  split at e
  · cases e
  · obtain ⟨-, e⟩ := Option.ite_none_left_eq_some.1 e
    obtain ⟨c, -, rfl⟩ := Option.map_eq_some_iff.1 e
    dsimp only
    split
    · exact h.setCrew.setCrew.movePointer
    · exact h.setCrew.movePointer

theorem placeAll {part l n crew t} (h : s.memOk) (e : State.placeAll part l n crew s = some t) : t.memOk := by
  induction n generalizing s crew with
  | zero => cases e; exact h
  | succ n ih =>
    obtain ⟨u, hu, e⟩ := Option.bind_eq_some_iff.1 e
    exact ih (h.placeCrew hu) e

theorem returnCrew {r core} (h : s.memOk) : (s.returnCrew r core).memOk := by
  unfold State.returnCrew
  split
  · exact h.invalidate.modCore.modCrew.modContext
  · exact h

theorem resumeOne {part r t} (h : s.memOk) (e : s.resumeOne part r = some t) : t.memOk := by
  unfold State.resumeOne at e
  split at e
  · dsimp only at e
    split at e
    · obtain ⟨c, -, rfl⟩ := Option.map_eq_some_iff.1 e
      exact h.returnCrew
    · obtain ⟨c, -, rfl⟩ := Option.map_eq_some_iff.1 e
      exact h.returnCrew.movePointer
  · cases e

theorem resumeAll {part rs t} (h : s.memOk) (e : State.resumeAll part rs s = some t) : t.memOk := by
  induction rs generalizing s with
  | nil => cases e; exact h
  | cons r rs ih =>
    obtain ⟨u, hu, e⟩ := Option.bind_eq_some_iff.1 e
    exact ih (h.resumeOne hu) e

theorem leaveSlots {part rs} (h : s.memOk) : (s.leaveSlots part rs).memOk := h.modPartition

theorem tryResumes {part rs t} (h : s.memOk) (e : s.tryResumes part rs = some t) : t.memOk := by
  induction rs with
  | nil => cases e
  | cons r rs ih =>
    unfold State.tryResumes at e
    dsimp only at e
    split at e
    next hr => cases e; exact (h.resumeAll hr).leaveSlots
    · exact ih e

theorem tryLaunch {part l t} (h : s.memOk) (e : s.tryLaunch part l = some t) : t.memOk := by
  unfold State.tryLaunch at e
  split at e
  · obtain ⟨u, hu, rfl⟩ := Option.map_eq_some_iff.1 e
    exact (h.placeAll hu).modLaunch
  · obtain ⟨u, hu, rfl⟩ := Option.map_eq_some_iff.1 e
    exact (h.placeCrew hu).modLaunch

theorem tryLaunches {part ls t l} (h : s.memOk) (e : s.tryLaunches part ls = some (t, l)) : t.memOk := by
  induction ls with
  | nil => cases e
  | cons k ls ih =>
    unfold State.tryLaunches at e
    split at e
    next hl => cases e; exact h.tryLaunch hl
    · exact ih e

theorem execDispatchDecision {part} (h : s.memOk) : NextMemOk (execDispatchDecision part s) := by
  unfold Machine.execDispatchDecision
  split
  · exact h.next
  · dsimp only
    split
    next hr => exact (h.tryResumes hr).modPartition.next
    · split
      · exact h.next
      next hl => exact (h.tryLaunches hl).modPartition.next

/-! ## The end of a launch (R18, R448, R449) -/

theorem writeSpills {p seen gs} (h : s.memOk) : (State.writeSpills p seen gs s).memOk := by
  induction gs generalizing s seen with
  | nil => exact h
  | cons g gs ih =>
    unfold State.writeSpills
    split
    · exact ih h
    · have spilled := h.spillOut (p := p) (g := g)
      split <;> rename_i hs <;> rw [hs] at spilled <;> exact ih spilled

theorem flushCrew {c} (h : s.memOk) : (s.flushCrew c).memOk := h.writeSpills

theorem drainSpills {y} (h : s.memOk) : (s.drainSpills y).memOk := h.foldl fun _ _ h => h.writeSpills

theorem retireLaunch {id} (h : s.memOk) : (s.retireLaunch id).memOk := by
  unfold State.retireLaunch
  split
  · exact h
  · split
    · exact h
    · dsimp only
      split
      · exact h.drainSpills
      · refine (State.memOk.foldl h.drainSpills fun t e h => ?_).dropCaches.completeLaunch
        split
        · exact h
        · exact h.physWrite

theorem endIfLast {id} (h : s.memOk) : (s.endIfLast id).memOk := by
  unfold State.endIfLast
  split
  · split
    · exact h.retireLaunch
    · exact h
  · exact h

theorem settleEnds (h : s.memOk) : s.settleEnds.memOk := h.foldl fun _ _ h => h.settleEnd.endIfLast

theorem execCrewEnd {cr} (h : s.memOk) : NextMemOk (execCrewEnd cr s) := h.onCrew fun c => by
  split
  · exact h
  · extract_lets u v
    have hv : v.memOk := by
      simp only [v]
      split
      · exact h.removeCrew
      · exact h.removeCrew.modLaunch
    split
    · exact hv
    · split
      · exact hv.endIfLast
      · exact hv.mismatch

/-! ## Preemption (R371 to R374, R399) -/

theorem settleGrace {y} (h : s.memOk) : (s.settleGrace y).memOk := by
  unfold State.settleGrace
  split
  · exact h
  · extract_lets run u
    have hrun (f : State → Answer) (hf : ∀ t : State, t.memOk → NextMemOk (f t)) (t : State) (ht : t.memOk) : (run f t).memOk := by
      simp only [run]
      split
      next hn => exact hf t ht _ hn
      · exact ht
    have hu : u.memOk := h.foldl fun t _ ht => hrun _ (fun _ h => h.execDepthChangeAtHome) t ht
    exact hu.foldl fun t _ ht => hrun _ (fun _ h => h.execGraceStartAtHome) t ht

theorem drainUnit {c} (h : s.memOk) : (s.drainUnit c).memOk := h.modCore.foldl fun _ _ h => h.completeOp

theorem takeSpills {c} (h : s.memOk) : (s.takeSpills c).memOk := h.flushCrew.modCore.modCrew

theorem takeCopies {c} (h : s.memOk) : (s.takeCopies c).memOk := h.modCore.modCrew

theorem drainCrews {y rs} (h : s.memOk) : (s.drainCrews y rs).memOk := by
  refine State.memOk.settleGrace (h.foldl fun t r h => ?_)
  cases t.crew? r with
  | none => exact h
  | some c => exact h.drainUnit

theorem restCrew {r} (h : s.memOk) : (s.restCrew r).memOk := by
  unfold State.restCrew
  split
  · exact h
  · exact h.modCrew.modCrew.takeSpills.takeCopies

theorem holdSections {y r} (h : s.memOk) : (s.holdSections y r).memOk := h.modContext

theorem unplace {y r} (h : s.memOk) : (s.unplace y r).memOk := h.restCrew.holdSections.modCrew

theorem swapOut {y cs t} (h : s.memOk) (e : s.swapOut y cs = some t) : t.memOk := by
  unfold State.swapOut at e
  split at e
  · cases e
  · obtain ⟨p, -, rfl⟩ := Option.map_eq_some_iff.1 e
    exact h.drainCrews.modPartition.foldl fun _ _ h => h.unplace

theorem queueResume {part cs} (h : s.memOk) : (s.queueResume part cs).memOk :=
  h.modPartition.foldl fun _ _ h => h.modCrew

theorem saveContext {y slot} (h : s.memOk) : (s.saveContext y slot).memOk := by
  unfold State.saveContext
  extract_lets mine refs placed drained rested owned emptied
  have hr : rested.memOk := State.memOk.drainSpills (State.memOk.foldl h.drainCrews fun _ _ h => h.restCrew.holdSections)
  split
  · have he : emptied.memOk := hr
    exact he.leaveSlots.modContext.modPartition
  · exact hr

theorem restoreQueues {y m} (h : s.memOk) : (s.restoreQueues y m).memOk := by
  unfold State.restoreQueues
  extract_lets free back late u
  have hu : u.memOk := h
  refine hu.foldl fun t k h => ?_
  split
  · exact h
  · split
    · exact h.modCmdQueue
    · exact h.checkKick

theorem resumeEngines {y m} (h : s.memOk) : (s.resumeEngines y m).memOk := h.modCore

theorem restoreContext {y m root} (h : s.memOk) : (s.restoreContext y m root).memOk := by
  unfold State.restoreContext
  extract_lets list u waits back again out v
  have hu : u.memOk := h.modContext
  have hv : v.memOk := hu
  exact (hv.foldl fun _ _ h => h.invalidate).restoreQueues.resumeEngines.modPartition

end State.memOk

end Sys2Proof.Machine
end

section
/-! ### Memory kept: packets, the selection of a warp, the host, the debugger and the device -/
namespace Sys2Proof.Machine

/-- The debugger's view of a warp is of the state itself. -/
theorem State.debugView_state {s : State} {r : WarpRef} {x : Cx} (e : s.debugView r = some x) : x.s = s := by
  unfold State.debugView at e
  split at e <;> cases e
  rfl

namespace State.memOk

variable {s : State} {x : Cx}

/-! ## What packets ask for (R398 to R415) -/

theorem templateError {l w} (h : s.memOk) : (s.templateError l w).memOk := h.launchEvent.endLaunch

theorem startLaunch {q p t b} (h : s.memOk) : (s.startLaunch q p t b).memOk := by
  unfold State.startLaunch
  extract_lets y l affOut open_
  have opened (l : Launch) : (open_ l).memOk := h
  split
  · exact (opened _).templateError
  · split
    · exact (opened _).templateError
    · exact opened _

theorem poisonedLaunch {q p t va} (h : s.memOk) : (s.poisonedLaunch q p t va).memOk := by
  unfold State.poisonedLaunch
  extract_lets l pa u
  have hu : u.memOk := h
  exact hu.foldl fun _ _ h => h.consumedError

theorem execLaunch {q} (h : s.memOk) : NextMemOk (execLaunch q s) := h.take fun t q p h => by
  extract_lets va
  split
  · exact h.packetFault
  · split
    · split
      · exact h.poisonedLaunch
      · exact h.startLaunch
    · split
      · exact h.packetFault
      · exact h.startLaunch

theorem pollValue {q p} (h : s.memOk) : (s.pollValue q p).memOk := by
  unfold State.pollValue
  extract_lets b n va mask value
  split
  · exact h.packetFault.modCmdQueue
  · extract_lets r word holds
    split
    · exact h.packetFault.modCmdQueue
    · split
      · exact h.finishPacket.modCmdQueue
      · exact h.modCmdQueue

theorem execWaitOnValuePoll {q} (h : s.memOk) : NextMemOk (execWaitOnValuePoll q s) := by
  unfold Machine.execWaitOnValuePoll
  split
  · exact h.next
  · split
    · split
      · exact h.next
      · exact h.pollValue.next
    · exact h.next

theorem execWriteValue {q} (h : s.memOk) : NextMemOk (execWriteValue q s) := h.take fun t q p h => by
  dsimp only
  split
  · exact h.packetFault
  · split
    · exact h.packetFault
    · exact (h.foldl fun _ _ h => h.physWrite).finishPacket

theorem execCopy {q} (h : s.memOk) : NextMemOk (execCopy q s) := h.take fun t q p h => by
  dsimp only
  split
  · exact h.finishPacket
  · exact h.modCore

theorem ackFault {y num} (h : s.memOk) : (s.ackFault y num).memOk := by
  unfold State.ackFault
  split <;> exact h

theorem execFaultAcknowledgement {q} (h : s.memOk) : NextMemOk (execFaultAcknowledgement q s) :=
  h.take fun _ _ _ h => h.ackFault.finishPacket

theorem control {r sub op legal body} (h : s.memOk) (hb : ∀ (t : State) q p y, t.memOk → (body t q p y).memOk) :
    NextMemOk (s.control r sub op legal body) := by
  unfold State.control
  extract_lets mine
  split
  · exact h.next
  · extract_lets b known others
    split
    · exact h.next
    · exact h.take fun _ _ _ h => hb _ _ _ _ h

theorem execCreateContext {q} (h : s.memOk) : NextMemOk (execCreateContext q s) := h.control fun t q p y h => by
  split
  · exact h.finishPacket
  · split
    · exact h.finishPacket
    · exact State.memOk.finishPacket h

theorem destroyContext {y} (h : s.memOk) : (s.destroyContext y).memOk := by
  have ended (l : List Nat) : (l.foldl (fun s id => s.endNow id 26) s).memOk := h.foldl fun _ _ h => h.endNow
  exact ended (s.openLaunches y)

theorem execDestroyContext {q} (h : s.memOk) : NextMemOk (execDestroyContext q s) := h.control fun t q p y h => by
  split
  · exact h.finishPacket
  · exact h.destroyContext.finishPacket

theorem execQueueCreate {q} (h : s.memOk) : NextMemOk (execQueueCreate q s) := h.control fun t q p y h => by
  dsimp only
  split
  · exact h.finishPacket
  · exact State.memOk.finishPacket h

theorem haltQueue {r} (h : s.memOk) : (s.haltQueue r).memOk := h.modCmdQueue

theorem execQueueStop {q m} (h : s.memOk) : NextMemOk (execQueueStop q m s) := by
  unfold Machine.execQueueStop
  split
  · split
    · exact h.haltQueue.next
    · exact h.next
  · refine h.control fun t q p y h => ?_
    dsimp only
    split
    · exact h.finishPacket
    · exact h.haltQueue.finishPacket

theorem restartQueue {r head} (h : s.memOk) : (s.restartQueue r head).memOk := by
  unfold State.restartQueue
  dsimp only
  split
  · exact h.modCmdQueue.checkKick
  · exact h.modCmdQueue

theorem execQueueRestart {q m} (h : s.memOk) : NextMemOk (execQueueRestart q m s) := by
  unfold Machine.execQueueRestart
  split
  · split
    · exact h.restartQueue.next
    · exact h.next
  · refine h.control fun t q p y h => ?_
    dsimp only
    split
    · exact h.finishPacket
    · exact h.restartQueue.finishPacket

theorem invalidateRange {y va len} (h : s.memOk) : (s.invalidateRange y va len).memOk := h.modContext.retryEvents

theorem execTranslationInvalidation {q} (h : s.memOk) : NextMemOk (execTranslationInvalidation q s) :=
  h.control fun t q p y h => by
    split
    · exact h.finishPacket
    · exact h.invalidateRange.finishPacket

theorem execSwapOut {q} (h : s.memOk) : NextMemOk (execSwapOut q s) := h.control fun t q p y h => by
  split
  · exact h.finishPacket
  · split
    · exact h.finishPacket
    next hs => exact h.swapOut hs

theorem execResume {q} (h : s.memOk) : NextMemOk (execResume q s) := h.control fun t q p y h => by
  split
  · exact h.finishPacket
  · exact h.queueResume

theorem execPartitionSave {q} (h : s.memOk) : NextMemOk (execPartitionSave q s) := h.control fun t q p y h => by
  dsimp only
  split
  · exact h.finishPacket
  · split
    · exact h.finishPacket
    · exact h.saveContext

theorem execPartitionRestore {q} (h : s.memOk) : NextMemOk (execPartitionRestore q s) := h.control fun t q p y h => by
  dsimp only
  split
  · split
    · exact h.finishPacket
    · exact h.restoreContext
  · exact h.finishPacket

theorem execPreemptionComplete {r} (h : s.memOk) : NextMemOk (execPreemptionComplete r s) := by
  unfold Machine.execPreemptionComplete
  split
  · exact h.next
  · dsimp only
    split
    · exact h.finishPacket.next
    · exact h.next

theorem execSetWdogctl {q} (h : s.memOk) : NextMemOk (execSetWdogctl q s) := h.control fun t q p y h => by
  split
  · exact h.finishPacket
  · exact h.modContext.finishPacket

theorem execSetApertureEntry {q} (h : s.memOk) : NextMemOk (execSetApertureEntry q s) := h.control fun t q p y h => by
  split
  · exact h.finishPacket
  · exact h.modContext.finishPacket

theorem execSampling {q} (h : s.memOk) : NextMemOk (execSampling q s) := h.control fun t q p y h => by
  split
  · exact h.finishPacket
  · exact h.modContext.finishPacket

/-! ## The selection of a warp (R38 to R40, R167) -/

theorem noteIssue {core q r slot waited} (h : s.memOk) : (s.noteIssue core q r slot waited).memOk :=
  State.memOk.modCore (h.modWarp.foldl fun _ _ h => h.modWarp)

theorem fetchFails {r f} (h : s.memOk) : (s.fetchFails r f).memOk := by
  unfold State.fetchFails
  split
  · split
    · exact h.takeTrap
    · exact h.consumedError
    · exact h.faultWarp
    · exact h
  · exact h

/-! ## The host, the fabric and the management controller -/

theorem execEventRingReadIndex {part ctx v} (h : s.memOk) : NextMemOk (execEventRingReadIndex part ctx v s) := by
  cases ctx with
  | some c => exact h.modContext.retryEvents.next
  | none => exact h.modPartition.retryPart.next

theorem mailAnswer {n} (h : s.memOk) : (s.mailAnswer n).memOk := by
  unfold State.mailAnswer
  dsimp only
  split <;> exact h

theorem execRegisterWriteOther {off v} (h : s.memOk) : NextMemOk (execRegisterWriteOther off v s) := by
  refine State.memOk.next ?_
  split
  · exact h.mailAnswer
  · exact h

theorem reply {bs bad} (h : s.memOk) : (s.reply bs bad).memOk := h

theorem execHostBar2Access {off a} (h : s.memOk) : NextMemOk (execHostBar2Access off a s) := by
  unfold Machine.execHostBar2Access
  split
  · exact h.next
  · split
    · exact h.reply.next
    · exact h.homeWrite.next
    · exact h.homeWrite.reply.next

theorem execPeerAccess {y va a} (h : s.memOk) : NextMemOk (execPeerAccess y va a s) := by
  unfold Machine.execPeerAccess
  extract_lets ag
  split
  · exact h.reply.next
  · split
    · split
      · exact h.reply.next
      · exact h.reply.next
    · split
      · exact h.reply.next
      · exact State.memOk.next (h.foldl fun _ _ h => h.physWrite)
    · extract_lets n
      split
      · exact h.reply.next
      · extract_lets frames at_ old one
        exact State.memOk.next (State.memOk.reply (h.foldl fun _ _ h => h.physWrite))

theorem refuseAccess {f code bad} (h : s.memOk) : (s.refuseAccess f code bad).memOk := by
  unfold State.refuseAccess
  split
  · exact h
  · exact h.fatal.modWarp

theorem refusePacketAccess {c v} (h : s.memOk) : NextMemOk (s.refusePacketAccess c v) := by
  unfold State.refusePacketAccess
  split
  · exact h.packetFault.modCmdQueue.next
  · extract_lets fails
    have hf (t : State) q p (ht : t.memOk) : (fails t q p).memOk := ht.packetFault
    split
    · exact h.take hf
    · exact h.take hf
    · exact h.take hf

theorem fabricRefuse {u addr code also} (h : s.memOk) : NextMemOk (s.fabricRefuse u addr code also) := by
  unfold State.fabricRefuse
  split
  next r =>
    split
    · exact h.fetchFails.modWarp.next
    · cases s.fabricAccess r with
      | none => exact h.next
      | some f => exact h.refuseAccess.next
  · split
    · exact h.fabricFault.next
    · exact h.next
  · split
    · exact h.modSpills.fatal.next
    · exact h.next
  · exact h.fatal.next
  · split
    · exact h.refusePacketAccess
    · exact h.next

theorem linkFault {u} (h : s.memOk) : (s.linkFault u).memOk := by
  unfold State.linkFault
  split
  · exact h
  · split
    next ht => exact h.fabricRefuse _ ht
    · exact h

theorem execLinkFailure {port victims} (h : s.memOk) : NextMemOk (execLinkFailure port victims s) := by
  unfold Machine.execLinkFailure
  split
  · exact h.next
  · have failed : (victims.foldl State.linkFault s).memOk := h.foldl fun _ _ h => h.linkFault
    exact State.memOk.next failed

theorem execPeerFault {u addr} (h : s.memOk) : NextMemOk (execPeerFault u addr s) := by
  unfold Machine.execPeerFault
  split
  · exact h.next
  · have refused := h.fabricRefuse (u := u) (addr := addr.toNat) (code := 11) (also := Config.peerRefuses s.fresh)
    split
    next t ht =>
      have ok : t.memOk := refused t ht
      exact State.memOk.next ok
    · exact refused

/-! ## The debugger (R377 to R379) -/

theorem execDebugStop {w} (h : s.memOk) : NextMemOk (execDebugStop w s) := h.onWarp fun _ _ => by
  split
  · exact h.debugHalt
  · exact h

theorem execDebugResume {w} (h : s.memOk) : NextMemOk (execDebugResume w s) := by
  unfold Machine.execDebugResume
  split
  · exact h.next
  · exact State.memOk.next h

theorem execSingleStep {w} (h : s.memOk) : NextMemOk (execSingleStep w s) := h.onWarp fun _ _ => by
  split <;> exact h

theorem setSection {depth tag} (h : x.s.memOk) : (x.setSection depth tag).memOk := by
  unfold Cx.setSection
  extract_lets
  split <;> exact h

theorem debugCover {r} (h : s.memOk) : (s.debugCover r).memOk := by
  unfold State.debugCover
  split
  · exact h
  · split <;> exact h

theorem debugWrite {p v} (h : x.s.memOk) : (x.debugWrite p v).memOk := by
  unfold Cx.debugWrite
  split
  · exact h.setSection
  · split
    · exact h.setSection
    · exact h
  · exact h.modWarp.debugCover

theorem execDebugStateAccess {w a} (h : s.memOk) : NextMemOk (execDebugStateAccess w a s) := by
  unfold Machine.execDebugStateAccess
  split
  · exact h.next
  next y hy =>
    have hy : y.s.memOk := by rw [State.debugView_state hy]; exact h
    split
    · exact h.next
    · split
      · exact h.reply.next
      · exact hy.debugWrite.next

/-! ## The device (R431 to R434) -/

theorem modClock {f} (h : s.memOk) : (s.modClock f).memOk := h
theorem modDevice {f} (h : s.memOk) : (s.modDevice f).memOk := h

theorem execPtpMessage {m} (h : s.memOk) : NextMemOk (execPtpMessage m s) := by
  refine State.memOk.next ?_
  split <;> exact h

theorem execPulsePerSecond (h : s.memOk) : NextMemOk (execPulsePerSecond s) := by
  refine State.memOk.next ?_
  split <;> exact h

theorem execOffsetRemoval {m} (h : s.memOk) : NextMemOk (execOffsetRemoval m s) := by
  refine State.memOk.next ?_
  split <;> exact h

theorem execPowerGood {image record} (h : s.memOk) : NextMemOk (execPowerGood image record s) := by
  unfold Machine.execPowerGood
  split
  · exact h.next
  · refine State.memOk.next ?_
    split
    · exact h.modDevice.modClock
    · exact h.modDevice.modClock.mail

theorem execThermalLimit (h : s.memOk) : NextMemOk (execThermalLimit s) := by
  unfold Machine.execThermalLimit
  split
  · exact h.next
  · dsimp only
    split
    · exact h.modDevice.next
    · exact State.memOk.next h

/-- A shutdown leaves the memory of reset. -/
theorem execThermalShutdown (h : s.memOk) : NextMemOk (execThermalShutdown s) := by
  unfold Machine.execThermalShutdown
  split
  · exact h.next
  · exact State.memOk.next memOk_reset

theorem execPartitionFormation {a} (h : s.memOk) : NextMemOk (execPartitionFormation a s) := by
  unfold Machine.execPartitionFormation
  dsimp only
  split
  · exact h.next
  · exact State.memOk.next h

/-! ## Watchdog and sampling (R380, R388, R447) -/

theorem pointDiag {y addr} (h : s.memOk) : (s.pointDiag y addr).memOk := h.modContext

theorem watchdogTrigger {y limit} (h : s.memOk) : (s.watchdogTrigger y limit).memOk := by
  unfold State.watchdogTrigger
  extract_lets crews
  split
  next u notes hn =>
    have hu : u.memOk := by
      rw [show u = (u, notes).1 from rfl, ← hn]
      refine foldl_fst h fun r c h => ?_
      split
      · exact h.diagWrite
      · exact h
    exact hu.endContext.foldl fun _ _ h => h.pointDiag.launchEvent

theorem execWatchdog {w} (h : s.memOk) : NextMemOk (execWatchdog w s) := h.onWarp fun _ _ => by
  split
  · exact h
  · dsimp only
    split
    · exact h
    · exact h.watchdogTrigger

theorem execPcSampling {core q} (h : s.memOk) : NextMemOk (execPcSampling core q s) := by
  unfold Machine.execPcSampling
  dsimp only
  split
  · exact h.next
  · split
    · exact h.modCore.next
    · split
      · exact h.modCore.next
      · exact h.modCore.sample.next

end State.memOk

end Sys2Proof.Machine
end

section
/-! ### Memory kept: every instruction and every step -/
namespace Sys2Proof.Machine

open State.memOk in
/-- Every instruction and every event keeps the form. -/
theorem nextMemOk_exec {s : State} (h : s.memOk) (i : Instr) : NextMemOk (exec i s) := by
  cases i with
  -- lane, scalar and predicate results
  | iabs | popc | clz | bfx | mov | sxt => exact h.issue fun _ h => h.lane1
  | iadd | isub | imul | imulh | imin | imax | and | or | xor | andn | shl | shr | sar | rot | bfi =>
    exact h.issue fun _ h => h.lane2
  | imad => exact h.issue fun _ h => h.lane3
  | sel | movi | fclass | digits | smean | sibget | mdunpack => exact h.issue fun _ h => h.laneDone
  | icmp => exact h.issue fun _ h => h.compare
  | lea => exact h.issue fun _ h => h.wideDone
  | sadd | ssub | smul | sand | sor | sxor | smov => exact h.issue fun _ h => h.scalOp
  | sshl | sshr => exact h.issue fun _ h => h.scalShift
  | smovi | rpool | wdepth => exact h.issue fun _ h => h.scalDone
  | scmp | voteAny | voteAll | sibagree | nchk => exact h.issue fun _ h => h.predDone
  | slea | voteBallot | clockTick | clockCyc => exact h.issue fun _ h => h.pairDone
  | bcast | shfl => exact h.issue fun _ h => h.cross h.laneDone
  | rdlane => exact h.issue fun _ h => h.cross h.scalDone
  | elect | sibmodeNear | sibmodeRand | exit | yield | nop | xset | xadd => exact h.issue fun _ h => h.put
  | fadd | fsub | fmul | ffma | fdiv | fsqrt | frcp | frsq | fexp2 | flog2 => exact h.issue fun _ h => h.float
  | fmin | fmax => exact h.issue fun _ h => h.fminmax
  | frnd | cvt => exact h.issue fun _ h => h.floatDone
  | hadd2 | hmul2 | hfma2 => exact h.issue fun _ h => h.packed
  | fcmp => exact h.execFcmp
  | rand => exact h.execRand
  | mdpack => exact h.execMdpack
  -- control flow, the window and control registers
  | bra => exact h.execBra
  | bru => exact h.issue fun _ h => taken fun _ _ => h.flow
  | brx => exact h.issue fun _ h => h.pass
  | call | callx => exact h.issue fun _ h => h.callPass
  | ret => exact h.execRet
  | join => exact h.execJoin
  | rclaim => exact h.execRclaim
  | rrelease => exact h.execRrelease
  | wflush => exact h.execWflush
  | trap => exact h.issue fun _ _ => trivial
  | rtt => exact h.execRtt
  | ctlrd => exact h.issue fun _ h => h.readControl
  | ctlwr => exact h.execCtlwr
  | brk => exact h.execBrk
  | mark => exact h.execMark
  -- queues
  | qmap => exact h.execQmap
  | qunmap => exact h.execQunmap
  | qpush => exact h.execQpush
  | qpop => exact h.execQpop
  | qtryPop => exact h.execQtryPop
  | qtryPush => exact h.execQtryPush
  | qclose => exact h.execQclose
  | qstat => exact h.execQstat
  | refill => exact h.execRefill
  -- memory, order and grace
  | ld => exact h.execLd
  | st => exact h.execSt
  | lds => exact h.execLds
  | sts => exact h.execSts
  | ldu => exact h.execLdu
  | atom | red => exact h.issue fun _ h => h.atomic
  | atoms => exact h.execAtoms
  | pref => exact h.execPref
  | cctl => exact h.execCctl
  | fenceAcq | fenceRel | fenceAcqrel | fenceSc | fenceAsync => exact h.issue fun _ h => h.fence
  | barinit => exact h.execBarinit
  | barinitInv | bararr | bartx => exact h.issue fun _ h => barrier fun _ _ => h.crewDone
  | barwait => exact h.execBarwait
  | wait => exact h.execWait
  | rdenter => exact h.execRdenter
  | rdexit => exact h.execRdexit
  | gstart => exact h.issue fun _ h => h.released h.modGrace.modWarp
  | gsync => exact h.execGsync
  | dfree => exact h.execDfree
  | gstat => exact h.execGstat
  -- copies and the matrix unit
  | cpyLoad | cpyStore | cpytLoad | cpytStore | cpym | cpyfLoad | cpyfStore => exact h.issue fun _ h => h.copy
  | cpycan => exact h.execCpycan
  | tctl => exact h.execTctl
  | tld => exact h.issue fun _ h => h.loadTile
  | tst => exact h.issue fun _ h => h.storeTile
  | mma | mdist => exact h.issue fun _ h => h.multiply
  | azero => exact h.issue fun _ h => h.zeroAcc
  | ard => exact h.issue fun _ h => h.readOut
  | acvt => exact h.issue fun _ h => h.convertAcc
  | atopk => exact h.issue fun _ h => h.topAcc
  | asave => exact h.issue fun _ h => h.saveAcc
  | arest => exact h.issue fun _ h => h.restoreAcc
  -- events of warps, crews and cores
  | breakpointHit => exact h.execBreakpointHit
  | stallCountExpiry | fetchRedirectExpiry | splitSwitchExpiry => exact h.onWarp fun _ _ => h.elapse
  | instructionCompletion | registerWriteLands => exact h.flightLands
  | windowMoveDone => exact h.execWindowMoveDone
  | spillWrite => exact h.execSpillWrite
  | claimServed => exact h.execClaimServed
  | claimDeadlock => exact h.execClaimDeadlock
  | crewDeadlock => exact h.execCrewDeadlock
  | queueRowLands => exact h.execQueueRowLands
  | queueHeadStaged => exact h.execQueueHeadStaged
  | queueStateError => exact h.execQueueStateError
  | deliveryPendingSlot => exact h.onCrew fun _ => h.modCrew
  | arrivalApplied => exact h.execArrivalApplied
  | waitEvaluation => exact h.evaluateWait.next
  | waitDeadline => exact h.execWaitDeadline
  | matrixUnitTake => exact h.modCore.next
  | matrixOpCompletion => exact h.execMatrixOpCompletion
  | tilePathCompletion => exact h.execTilePathCompletion
  | uncorrectableError => exact h.execUncorrectableError
  | lineAgeExpiry => exact h.execLineAgeExpiry
  | watchdog => exact h.execWatchdog
  | pcSampling => exact h.execPcSampling
  -- events of grace homes, copies and pairs
  | graceStartAtHome => exact h.execGraceStartAtHome
  | graceNumberReturned => exact h.execGraceNumberReturned
  | depthChangeAtHome => exact h.execDepthChangeAtHome
  | curReceived => exact h.modGrace.next
  | curAcknowledged => exact h.execCurAcknowledged
  | doneReceived => exact h.execDoneReceived
  | graceDelivery => exact h.execGraceDelivery
  | copyUnitLanded => exact h.execCopyUnitLanded
  | copyUnitFault => exact h.execCopyUnitFault
  | comparePoint => exact h.execComparePoint
  -- packets and placement
  | kick => exact h.execKick
  | packetReread => exact h.execPacketReread
  | launch => exact h.execLaunch
  | waitOnValue => exact h.take fun _ _ _ h => h.pollValue
  | waitOnValuePoll => exact h.execWaitOnValuePoll
  | writeValue => exact h.execWriteValue
  | copy => exact h.execCopy
  | faultAcknowledgement => exact h.execFaultAcknowledgement
  | createContext => exact h.execCreateContext
  | destroyContext => exact h.execDestroyContext
  | queueCreate => exact h.execQueueCreate
  | queueStop => exact h.execQueueStop
  | queueRestart => exact h.execQueueRestart
  | translationInvalidation => exact h.execTranslationInvalidation
  | swapOut => exact h.execSwapOut
  | resume => exact h.execResume
  | partitionSave => exact h.execPartitionSave
  | partitionRestore => exact h.execPartitionRestore
  | preemptionComplete => exact h.execPreemptionComplete
  | setWdogctl => exact h.execSetWdogctl
  | setApertureEntry => exact h.execSetApertureEntry
  | sampling => exact h.execSampling
  | dispatchDecision => exact h.execDispatchDecision
  | crewEnd => exact h.execCrewEnd
  -- the host, the fabric, the management controller and the debugger
  | eventRingReadIndex => exact h.execEventRingReadIndex
  | samplingRingReadIndex => exact h.modContext.next
  | deadLetterTail => exact h.modDie.next
  | registerWriteOther => exact h.execRegisterWriteOther
  | hostBar2Access => exact h.execHostBar2Access
  | peerAccess => exact h.execPeerAccess
  | flitRetry => exact h.next
  | linkFailure => exact h.execLinkFailure
  | peerFault => exact h.execPeerFault
  | ptpMessage => exact h.execPtpMessage
  | pulsePerSecond => exact h.execPulsePerSecond
  | offsetRemoval => exact h.execOffsetRemoval
  | offsetRemoved | masterLoss | holdoverExpiry => exact h.modClock.next
  | powerGood => exact h.execPowerGood
  | stageComplete => exact h.modDevice.next
  | thermalLimit => exact h.execThermalLimit
  | thermalShutdown => exact h.execThermalShutdown
  | partitionFormation => exact h.execPartitionFormation
  | attestation => exact h.reply.next
  | debuggerAttach | setBreakpoint => exact h.modContext.next
  | debugStop => exact h.execDebugStop
  | debugResume => exact h.execDebugResume
  | singleStep => exact h.execSingleStep
  | debugStateAccess => exact h.execDebugStateAccess

namespace State.memOk

variable {s : State}

theorem attempt {r} (h : s.memOk) : NextMemOk (s.attempt exec r) := by
  unfold State.attempt
  extract_lets u
  have hu : u.memOk := h
  split
  · split
    · exact nextMemOk_exec hu _
    · exact hu.fetchFails.next
  · exact State.memOk.next h

/-- R167: every attempt of a quarter in its cycle keeps the form. -/
theorem runQuarter {core q fuel tried} (h : s.memOk) : NextMemOk (State.runQuarter exec core q fuel tried s) := by
  induction fuel generalizing s tried with
  | zero => exact h.next
  | succ fuel ih =>
    cases hr : s.select core q tried with
    | none => rw [State.runQuarter_none _ _ _ _ _ _ hr]; exact h.next
    | some r =>
      rw [State.runQuarter_some _ _ _ _ _ _ _ hr]
      have attempted := h.attempt (r := r)
      split
      next t ht =>
        have ok : t.memOk := attempted t ht
        split
        · exact ih ok
        · exact ok.noteIssue.next
      · exact attempted

theorem runMove {m} (h : s.memOk) : NextMemOk (s.runMove exec m) := by
  have idle : State.memOk { s with turn := none } := h
  cases m with
  | quarter core q => exact idle.runQuarter
  | event i => exact nextMemOk_exec idle i

theorem inPlace {m} (h : s.memOk) : (s.inPlace m).memOk := by
  refine State.memOk.foldl ?_ fun _ _ h => h.modCore
  split
  · exact h.settleEnds.elapse
  · exact h

theorem afterMove (h : s.memOk) : s.afterMove.memOk := by
  have ended : (if s.cycleOver then s.settleEnds else s).memOk := by
    split
    · exact h.settleEnds
    · exact h
  exact ended.settleWaits

theorem step (h : s.memOk) : NextMemOk (step s) := by
  cases hp : s.planned with
  | nil => rw [step_nothing _ hp]; exact h.elapse.next
  | cons t ts =>
    have begun : State.memOk { s with agenda := ts } := h
    have moved := (begun.elapse (n := t.cycles)).inPlace (m := t.move) |>.runMove (m := t.move)
    rw [step_planned _ _ _ hp]
    split
    next u hu =>
      have ok : u.memOk := moved u hu
      exact ok.afterMove.next
    · exact moved

end State.memOk

/-- Settles O57: every step keeps memory in its canonical form. -/
theorem stepKeepsMemory : Obligations.StepKeepsMemory := fun _ t h e => h.step t e

end Sys2Proof.Machine
end

section
/-! ### Decoding and encoding (02 R38 to R65)

Legality is tested after the fields are read, and then the word is compared with the one that the instruction encodes to: so decoding
inverts `encode` on legal instructions, and accepts no other word. -/

namespace Sys2Proof

/-! ## The fields of a word -/

/-- R46 to R54: every instruction with a word reads back from its fields. -/
theorem parse_encode (i : Instr) : Laws.RoundTrip.Statement i := by
  cases i with
  | iadd c x => exact Laws.RoundTrip.iadd c x
  | isub c x => exact Laws.RoundTrip.isub c x
  | imul c x => exact Laws.RoundTrip.imul c x
  | imulh c x => exact Laws.RoundTrip.imulh c x
  | imad c x => exact Laws.RoundTrip.imad c x
  | imin c x => exact Laws.RoundTrip.imin c x
  | imax c x => exact Laws.RoundTrip.imax c x
  | iabs c x => exact Laws.RoundTrip.iabs c x
  | and c x => exact Laws.RoundTrip.and c x
  | or c x => exact Laws.RoundTrip.or c x
  | xor c x => exact Laws.RoundTrip.xor c x
  | andn c x => exact Laws.RoundTrip.andn c x
  | shl c x => exact Laws.RoundTrip.shl c x
  | shr c x => exact Laws.RoundTrip.shr c x
  | sar c x => exact Laws.RoundTrip.sar c x
  | rot c x => exact Laws.RoundTrip.rot c x
  | popc c x => exact Laws.RoundTrip.popc c x
  | clz c x => exact Laws.RoundTrip.clz c x
  | bfx c x => exact Laws.RoundTrip.bfx c x
  | bfi c x => exact Laws.RoundTrip.bfi c x
  | sel c x => exact Laws.RoundTrip.sel c x
  | mov c d a => exact Laws.RoundTrip.mov c d a
  | movi c d imm => exact Laws.RoundTrip.movi c d imm
  | icmp c x => exact Laws.RoundTrip.icmp c x
  | lea c x => exact Laws.RoundTrip.lea c x
  | sxt c x => exact Laws.RoundTrip.sxt c x
  | sadd c x => exact Laws.RoundTrip.sadd c x
  | ssub c x => exact Laws.RoundTrip.ssub c x
  | smul c x => exact Laws.RoundTrip.smul c x
  | sand c x => exact Laws.RoundTrip.sand c x
  | sor c x => exact Laws.RoundTrip.sor c x
  | sxor c x => exact Laws.RoundTrip.sxor c x
  | sshl c x => exact Laws.RoundTrip.sshl c x
  | sshr c x => exact Laws.RoundTrip.sshr c x
  | smov c x => exact Laws.RoundTrip.smov c x
  | smovi c d imm => exact Laws.RoundTrip.smovi c d imm
  | scmp c x => exact Laws.RoundTrip.scmp c x
  | slea c x => exact Laws.RoundTrip.slea c x
  | bcast c d a k => exact Laws.RoundTrip.bcast c d a k
  | rdlane c d a k => exact Laws.RoundTrip.rdlane c d a k
  | voteAny c p q => exact Laws.RoundTrip.voteAny c p q
  | voteAll c p q => exact Laws.RoundTrip.voteAll c p q
  | voteBallot c d q => exact Laws.RoundTrip.voteBallot c d q
  | shfl c sm d a b => exact Laws.RoundTrip.shfl c sm d a b
  | elect c d ep => exact Laws.RoundTrip.elect c d ep
  | fadd c x => exact Laws.RoundTrip.fadd c x
  | fsub c x => exact Laws.RoundTrip.fsub c x
  | fmul c x => exact Laws.RoundTrip.fmul c x
  | ffma c x => exact Laws.RoundTrip.ffma c x
  | fmin c x => exact Laws.RoundTrip.fmin c x
  | fmax c x => exact Laws.RoundTrip.fmax c x
  | fcmp c x => exact Laws.RoundTrip.fcmp c x
  | fdiv c x => exact Laws.RoundTrip.fdiv c x
  | fsqrt c x => exact Laws.RoundTrip.fsqrt c x
  | frcp c x => exact Laws.RoundTrip.frcp c x
  | frsq c x => exact Laws.RoundTrip.frsq c x
  | fexp2 c x => exact Laws.RoundTrip.fexp2 c x
  | flog2 c x => exact Laws.RoundTrip.flog2 c x
  | fclass c x => exact Laws.RoundTrip.fclass c x
  | frnd c x => exact Laws.RoundTrip.frnd c x
  | hadd2 c x => exact Laws.RoundTrip.hadd2 c x
  | hmul2 c x => exact Laws.RoundTrip.hmul2 c x
  | hfma2 c x => exact Laws.RoundTrip.hfma2 c x
  | cvt c x => exact Laws.RoundTrip.cvt c x
  | sibmodeNear c => exact Laws.RoundTrip.sibmodeNear c
  | sibmodeRand c => exact Laws.RoundTrip.sibmodeRand c
  | digits c x => exact Laws.RoundTrip.digits c x
  | smean c x => exact Laws.RoundTrip.smean c x
  | sibget c d a k => exact Laws.RoundTrip.sibget c d a k
  | sibagree c ty p a => exact Laws.RoundTrip.sibagree c ty p a
  | nchk c ty p a n => exact Laws.RoundTrip.nchk c ty p a n
  | rand c ty same w64 d => exact Laws.RoundTrip.rand c ty same w64 d
  | mdpack c x => exact Laws.RoundTrip.mdpack c x
  | mdunpack c x => exact Laws.RoundTrip.mdunpack c x
  | bra c p off => exact Laws.RoundTrip.bra c p off
  | bru c p off => exact Laws.RoundTrip.bru c p off
  | brx c a off => exact Laws.RoundTrip.brx c a off
  | call c off shift => exact Laws.RoundTrip.call c off shift
  | callx c a off shift => exact Laws.RoundTrip.callx c a off shift
  | ret c => exact Laws.RoundTrip.ret c
  | exit c => exact Laws.RoundTrip.exit c
  | join c => exact Laws.RoundTrip.join c
  | yield c => exact Laws.RoundTrip.yield c
  | nop c => exact Laws.RoundTrip.nop c
  | rclaim c n => exact Laws.RoundTrip.rclaim c n
  | rrelease c n => exact Laws.RoundTrip.rrelease c n
  | rpool c d sel => exact Laws.RoundTrip.rpool c d sel
  | wflush c => exact Laws.RoundTrip.wflush c
  | wdepth c d sel => exact Laws.RoundTrip.wdepth c d sel
  | xset c k a lim => exact Laws.RoundTrip.xset c k a lim
  | xadd c k a ib imm => exact Laws.RoundTrip.xadd c k a ib imm
  | qmap c q slot rights off => exact Laws.RoundTrip.qmap c q slot rights off
  | qunmap c q => exact Laws.RoundTrip.qunmap c q
  | qpush c q a whole => exact Laws.RoundTrip.qpush c q a whole
  | qpop c d q st p => exact Laws.RoundTrip.qpop c d q st p
  | qtryPop c p d q => exact Laws.RoundTrip.qtryPop c p d q
  | qtryPush c p q a => exact Laws.RoundTrip.qtryPush c p q a
  | qclose c q => exact Laws.RoundTrip.qclose c q
  | qstat c d q sel => exact Laws.RoundTrip.qstat c d q sel
  | refill c d q p wait => exact Laws.RoundTrip.refill c d q p wait
  | ld c x => exact Laws.RoundTrip.ld c x
  | st c x => exact Laws.RoundTrip.st c x
  | lds c x => exact Laws.RoundTrip.lds c x
  | sts c x => exact Laws.RoundTrip.sts c x
  | ldu c x => exact Laws.RoundTrip.ldu c x
  | atom c x => exact Laws.RoundTrip.atom c x
  | atoms c x => exact Laws.RoundTrip.atoms c x
  | red c x => exact Laws.RoundTrip.red c x
  | pref c x => exact Laws.RoundTrip.pref c x
  | cctl c x => exact Laws.RoundTrip.cctl c x
  | fenceAcq c sc => exact Laws.RoundTrip.fenceAcq c sc
  | fenceRel c sc => exact Laws.RoundTrip.fenceRel c sc
  | fenceAcqrel c sc => exact Laws.RoundTrip.fenceAcqrel c sc
  | fenceSc c sc => exact Laws.RoundTrip.fenceSc c sc
  | fenceAsync c => exact Laws.RoundTrip.fenceAsync c
  | barinit c b n => exact Laws.RoundTrip.barinit c b n
  | barinitInv c b => exact Laws.RoundTrip.barinitInv c b
  | bararr c b => exact Laws.RoundTrip.bararr c b
  | barwait c b ph => exact Laws.RoundTrip.barwait c b ph
  | bartx c b a ib imm => exact Laws.RoundTrip.bartx c b a ib imm
  | wait c x => exact Laws.RoundTrip.wait c x
  | rdenter c => exact Laws.RoundTrip.rdenter c
  | rdexit c => exact Laws.RoundTrip.rdexit c
  | gstart c d => exact Laws.RoundTrip.gstart c d
  | gsync c d => exact Laws.RoundTrip.gsync c d
  | dfree c a len q => exact Laws.RoundTrip.dfree c a len q
  | gstat c d sel => exact Laws.RoundTrip.gstat c d sel
  | cpyLoad c x => exact Laws.RoundTrip.cpyLoad c x
  | cpyStore c x => exact Laws.RoundTrip.cpyStore c x
  | cpytLoad c x => exact Laws.RoundTrip.cpytLoad c x
  | cpytStore c x => exact Laws.RoundTrip.cpytStore c x
  | cpym c x fromsp => exact Laws.RoundTrip.cpym c x fromsp
  | cpyfLoad c x => exact Laws.RoundTrip.cpyfLoad c x
  | cpyfStore c x => exact Laws.RoundTrip.cpyfStore c x
  | cpycan c d h => exact Laws.RoundTrip.cpycan c d h
  | tctl c slot tile a imm => exact Laws.RoundTrip.tctl c slot tile a imm
  | tld c x => exact Laws.RoundTrip.tld c x
  | tst c x => exact Laws.RoundTrip.tst c x
  | mma c x => exact Laws.RoundTrip.mma c x
  | mdist c x => exact Laws.RoundTrip.mdist c x
  | azero c slot acc => exact Laws.RoundTrip.azero c slot acc
  | ard c d e slot acc psel raw => exact Laws.RoundTrip.ard c d e slot acc psel raw
  | acvt c slot tile acc psel => exact Laws.RoundTrip.acvt c slot tile acc psel
  | atopk c slot acc a k init min => exact Laws.RoundTrip.atopk c slot acc a k init min
  | asave c x => exact Laws.RoundTrip.asave c x
  | arest c x => exact Laws.RoundTrip.arest c x
  | trap c n => exact Laws.RoundTrip.trap c n
  | rtt c => exact Laws.RoundTrip.rtt c
  | ctlrd c d creg => exact Laws.RoundTrip.ctlrd c d creg
  | ctlwr c creg a => exact Laws.RoundTrip.ctlwr c creg a
  | clockTick c d => exact Laws.RoundTrip.clockTick c d
  | clockCyc c d => exact Laws.RoundTrip.clockCyc c d
  | brk c => exact Laws.RoundTrip.brk c
  | mark c a sr imm => exact Laws.RoundTrip.mark c a sr imm
  -- an event has no word
  | _ => exact fun h => nomatch h

/-- R62: the classes 0xD to 0xF hold no opcode. -/
theorem parse_unassigned {w : BitVec 96} (h : 13 ≤ (fld w 8 4).toNat) : parse w = .error .opcode := by
  have hop : 0xD00 ≤ (fld w 0 12).toNat := by
    unfold fld at *
    simp only [BitVec.extractLsb'_toNat] at *
    omega
  unfold parse
  dsimp only
  split
  -- the last arm is that of no opcode; each other one names an opcode below 0xD00
  rotate_right
  · rfl
  all_goals omega

/-! ## What decodes -/

/-- R63: a word decodes to what its fields give where that is legal and gives exactly this word. -/
theorem decode_eq_ok_iff {w : BitVec 96} {i : Instr} :
    decode w = .ok i ↔ parse w = .ok i ∧ i.wf = true ∧ encode i = w := by
  unfold decode
  constructor
  · intro h
    split at h
    · cases h
    next j hj =>
      split at h
      · cases h
      next hwf =>
        split at h
        · cases h
        next hword =>
          cases h
          rw [Bool.not_eq_true', Bool.not_eq_false] at hwf
          exact ⟨hj, hwf, Classical.not_not.1 (mt bne_iff_ne.2 hword)⟩
  · rintro ⟨h, hwf, hword⟩
    rw [h]
    dsimp only
    rw [if_neg (by rw [hwf]; decide), if_neg (by rw [hword, bne_self_eq_false]; decide)]

/-- R64: of what decodes, a launch accepts what its mode has. -/
theorem decodeIn_eq_ok_iff {triple : Bool} {w : BitVec 96} {i : Instr} :
    decodeIn triple w = .ok i ↔ decode w = .ok i ∧ i.modeOk triple = true := by
  unfold decodeIn
  constructor
  · intro h
    split at h
    · cases h
    next j hj =>
      split at h
      next hmode =>
        cases h
        exact ⟨hj, hmode⟩
      · cases h
  · rintro ⟨h, hmode⟩
    rw [h]
    exact if_pos hmode

/-! ## The bytes of a word -/

/-- R38: bytes at rising addresses, the lowest first, are the little-endian number that they are bytes of. -/
theorem foldr_bytes (w : BitVec 96) (k n : Nat) :
    ((List.range' k n).map fun j => w.extractLsb' (8 * j) 8).foldr (fun b m => m * 256 + b.toNat) 0 =
      w.toNat / 2 ^ (8 * k) % 2 ^ (8 * n) := by
  induction n generalizing k with
  | zero => exact (Nat.mod_one _).symm
  | succ n ih =>
    rw [List.range'_succ, List.map_cons, List.foldr_cons, ih, BitVec.extractLsb'_toNat, Nat.shiftRight_eq_div_pow,
      show 8 * (n + 1) = 8 + 8 * n by omega, show 8 * (k + 1) = 8 * k + 8 by omega, Nat.pow_add 2 8, Nat.mod_mul,
      Nat.pow_add, ← Nat.div_div_eq_div_mul]
    omega

theorem wordOfBytes_bytesOfWord (w : BitVec 96) : wordOfBytes (bytesOfWord w) = w := by
  unfold wordOfBytes bytesOfWord
  rw [List.range_eq_range', foldr_bytes, Nat.mul_zero, Nat.pow_zero, Nat.div_one, Nat.mod_eq_of_lt w.isLt,
    BitVec.ofNat_toNat, BitVec.setWidth_eq]

theorem decodeBytes_bytesOfWord (triple : Bool) (w : BitVec 96) :
    decodeBytes triple (bytesOfWord w) = decodeIn triple w := by
  have hlen : (bytesOfWord w).length = 12 := by rw [bytesOfWord, List.length_map, List.length_range]
  unfold decodeBytes
  rw [hlen, if_neg (Nat.lt_irrefl 12), List.take_of_length_le (Nat.le_of_eq hlen), wordOfBytes_bytesOfWord]

/-! ## The obligations -/

/-- Settles O55: the fields of the word give the instruction back, and its legality and mode are what decoding tests. -/
theorem decodeEncode : Obligations.DecodeEncode := fun _ i hword hwf hmode =>
  decodeIn_eq_ok_iff.2 ⟨decode_eq_ok_iff.2 ⟨parse_encode i hword hwf, hwf, rfl⟩, hmode⟩

/-- Settles O54: each word is the encoding of its instruction, which is legal in its mode, so O55 applies. -/
theorem specWordsDecode : Obligations.SpecWordsDecode := by
  have legal : ∀ x ∈ Claims.specWords,
      x.2.2.hasWord = true ∧ x.2.2.wf = true ∧ x.2.2.modeOk x.1 = true ∧ encode x.2.2 = x.2.1 := by decide
  intro x hx
  obtain ⟨hword, hwf, hmode, henc⟩ := legal x hx
  rw [decodeBytes_bytesOfWord, ← henc, decodeEncode x.1 x.2.2 hword hwf hmode]
  rfl

/-- Settles O56: decoding encodes what it read and compares, and the opcodes of the classes 0xD to 0xF are in no arm of `parse`. -/
theorem decodeAcceptsOnlyEncodings : Obligations.DecodeAcceptsOnlyEncodings := by
  refine ⟨fun triple w i h => ?_, fun triple w h => ?_⟩
  · obtain ⟨hdecode, hmode⟩ := decodeIn_eq_ok_iff.1 h
    obtain ⟨-, hwf, hword⟩ := decode_eq_ok_iff.1 hdecode
    exact ⟨hword, hwf, hmode⟩
  · unfold decodeIn decode
    rw [parse_unassigned h]

end Sys2Proof
end

section
/-! ### The issue of an instruction without an active lane (02 R65; 07 R174)

An attempt without an active lane takes no rows from queues and leaves its body undone: what it does is the same for every
instruction. -/

namespace Sys2Proof.Machine

/-! ## The attempt of an instruction -/

/-- R14, R167: what has a word issues through the attempt of a warp. -/
theorem exec_eq_issue {i : Instr} (hword : i.hasWord = true) (s : State) : ∃ body, exec i s = issue i s body := by
  cases i
  -- an event has no word
  all_goals cases hword
  all_goals exact ⟨_, rfl⟩

theorem State.begin_put_warp {s : State} {i : Instr} {x : Cx} (h : s.begin i = .go x) (w : Warp) :
    (x.put w).warp? x.ref = some w := by
  obtain ⟨hs, -, -, -, hwarp, -, -⟩ := State.begin_go h
  obtain ⟨u, hu⟩ := Option.isSome_iff_exists.1 hwarp
  unfold Cx.put
  rw [hs, State.warp?_modWarp, hu]
  rfl

/-- The attempt begins in the state itself: what it leaves does not depend on the warp that its effect puts there. -/
theorem Cx.leaves_begin {s : State} {i : Instr} {x : Cx} (h : s.begin i = .go x) (v w : Warp) (pops push k) :
    x.leaves (x.put v) w pops push k = x.leaves s w pops push k := by
  obtain ⟨rfl, -⟩ := State.begin_go h
  exact x.leaves_modWarp x.s v w pops push k

/-- R65: how an instruction without an active lane is done: at issue, with no register of its own on the way. -/
def idleDone : Done := { flight := none, regs := some [] }

theorem Cx.taking_idle {x : Cx} (hact : x.act = 0) : x.taking = x := by
  unfold Cx.taking
  rw [if_pos (by rw [hact]; rfl)]

theorem Cx.answer_idle {x : Cx} {body : Cx → Attempt} (hact : x.act = 0) (hrows : x.rowCheck x.named x.act = .ok) :
    x.answer body = .done (x.put x.w) idleDone := by
  unfold Cx.answer
  rw [hrows]
  exact if_pos (by rw [hact]; rfl)

theorem issue_idle {s : State} {i : Instr} {x : Cx} {body : Cx → Attempt} (h : s.begin i = .go x) (hact : x.act = 0)
    (hrows : x.rowCheck x.named x.act = .ok) (howed : x.w.owed = none) :
    issue i s body = .next (x.commit (x.put x.w) idleDone) := by
  unfold issue
  rw [h]
  simp only [howed]
  unfold Cx.run
  rw [Cx.taking_idle hact, Cx.answer_idle hact hrows]
  rfl

/-- Settles O36: an idle attempt is done with its warp as it was, and issuing moves the split on. -/
theorem noActiveLane : Obligations.NoActiveLane := by
  intro s i x h hword hact hrows howed hsplit hstep
  obtain ⟨body, hexec⟩ := exec_eq_issue hword s
  obtain ⟨-, hi, -⟩ := State.begin_go h
  have hlive : (x.w.stepped x.sp.pc idleDone).live := Warp.stepped_live (Warp.live_of_isSome hsplit) rfl
  let u := x.issued { x.put x.w with turn := none } x.w idleDone
  refine ⟨u, x.w.newFlight u, ?_, ?_⟩
  · rw [hexec, issue_idle h hact hrows howed, Cx.commit_eq (State.begin_put_warp h x.w) hlive hstep]
    exact congrArg _ (Cx.leaves_begin h x.w ..)
  · have issued := Cx.issued_issuedAs (x := x) (e := { x.put x.w with turn := none }) (w := x.w) (v := x.next x.w)
      (d := idleDone) (Warp.samePlaces_refl _) rfl rfl rfl rfl
    rwa [hi] at issued

end Sys2Proof.Machine
end

section
/-! ### Wide lane results (02 R56; 03 R90; 05 R131, R142, R146; 15 R364)

The body of each of the four instructions with a 64-bit lane result ends in `Cx.wideDone` with the two rows of `Claims.wideRows`; what
such an end leaves is `issues_of_wide`. -/

namespace Sys2Proof.Machine

/-- R364, R365: of the control registers only `OPCOUNT` is a lane pair, which no instruction in flight changes and no tile holds. -/
theorem Cx.readControl_opcount (x : Cx) (dst : Spec) :
    x.readControl dst 0x04 = x.wideDone x.w dst
      [laneList.map fun l => ((x.w.opcount.getD l 0).setWidth 64 : DWord).extractLsb' 0 32,
        laneList.map fun l => ((x.w.opcount.getD l 0).setWidth 64 : DWord).extractLsb' 32 32] := by
  have settled : x.w.changing (0x04 : Word).toNat = false := List.any_eq_false.2 fun _ _ => Bool.false_ne_true
  unfold Cx.readControl
  dsimp only
  rw [settled]
  rfl

/-- Settles O3: each of the four bodies ends with the two rows of the table. -/
theorem wideLanes : Obligations.WideLanes := by
  intro s i x w dst lo hi h hrows
  cases i with
  | lea c a =>
    cases hrows
    refine issues_of_wide h rfl ?_ rfl
    simp only [List.map_map]
    rfl
  | rand c ty same w64 d =>
    cases w64 with
    | false => cases hrows
    | true =>
      cases hrows
      exact issues_of_wide h rfl rfl (Warp.course_advance ..)
  | mdpack c a =>
    dsimp only [Claims.wideRows] at hrows
    split at hrows
    next hf =>
      cases hrows
      refine issues_of_wide h rfl ?_ rfl
      simp only [hf, List.map_map, if_true]
      rfl
    · cases hrows
  | ctlrd c d creg =>
    dsimp only [Claims.wideRows] at hrows
    split at hrows
    next hreg =>
      cases hrows
      obtain rfl : creg = 0x04 := eq_of_beq hreg
      exact issues_of_wide h rfl (x.readControl_opcount dst) rfl
    · cases hrows
  | _ => cases hrows

end Sys2Proof.Machine
end

section
/-! ### A step runs what is fetched (02 R38 to R40; 06 R167; 16 R428)

A planned move runs in `State.moveStart` and ends as `endMove` says; a quarter's turn comes to the attempt of the selected warp, an
attempt to what its fetch answers, and a fetch to what the twelve bytes at the PC decode to. -/

namespace Sys2Proof.Machine

/-! ## What a fetch answers (R39, R40, R63, R428) -/

/-- The poisoned word of instruction `pc`, if it has one: its number in the code and its physical address. -/
def Launch.badWord (l : Launch) (pc : Word) : Option (Nat × Nat) :=
  l.badCode.find? fun b => 3 * pc.toNat ≤ b.1 && b.1 < 3 * pc.toNat + 3

section Fetch

variable {s : State} {l : Launch} {pc : Word}

theorem State.fetch_past (h : l.tmpl.codeSize ≤ pc.toNat) : s.fetch l pc = .trap 2 := if_pos h

variable {ls : List Leaf} (hin : pc.toNat < l.tmpl.codeSize)
  (hblock : s.checkRange l.ctx .fetch 4 (l.blockBytes pc.toNat).1 (l.blockBytes pc.toNat).2 false none = .ok ls)
include hin hblock

theorem State.fetch_bad {b : Nat × Nat} (hbad : l.badWord pc = some b) : s.fetch l pc = .bad b.2 := by
  unfold Launch.badWord at hbad
  simp only [State.fetch, if_neg (Nat.not_le.2 hin), hblock, hbad]

theorem State.fetch_ok {i : Instr} (hgood : l.badWord pc = none) (hi : decodeBytes l.triple (l.codeBytes pc.toNat) = .ok i) :
    s.fetch l pc = .ok i := by
  unfold Launch.badWord at hgood
  simp only [State.fetch, if_neg (Nat.not_le.2 hin), hblock, hgood, hi]

theorem State.fetch_illegal {e : Reject} (hgood : l.badWord pc = none)
    (he : decodeBytes l.triple (l.codeBytes pc.toNat) = .error e) : s.fetch l pc = .trap 0 := by
  unfold Launch.badWord at hgood
  simp only [State.fetch, if_neg (Nat.not_le.2 hin), hblock, hgood, he]

end Fetch

/-! ## What an attempt comes to -/

theorem State.crew?_of_warp? {s : State} {r : WarpRef} {w : Warp} (h : s.warp? r = some w) : ∃ c, s.crew? r.crew = some c := by
  unfold State.warp? at h
  cases hc : s.crew? r.crew with
  | none => rw [hc] at h; cases h
  | some c => exact ⟨c, rfl⟩

@[simp] theorem State.launch?_turn (s : State) (t : Option WarpRef) (n : Nat) :
    ({ s with turn := t } : State).launch? n = s.launch? n := rfl

@[simp] theorem State.crew?_turn (s : State) (t : Option WarpRef) (r : CrewRef) :
    ({ s with turn := t } : State).crew? r = s.crew? r := rfl

@[simp] theorem State.warp?_turn (s : State) (t : Option WarpRef) (r : WarpRef) :
    ({ s with turn := t } : State).warp? r = s.warp? r := rfl

section Attempt

variable {u a : State} {r : WarpRef} {l : Launch} {w : Warp} (ha : a = { u with turn := some r })
  (hl : u.launch? r.crew.launch = some l) (hw : u.warp? r = some w)
include ha hl hw

theorem State.attempt_ok {i : Instr} (hf : a.fetch l w.split.pc = .ok i) : u.attempt exec r = exec i a := by
  subst ha
  simp only [State.attempt, State.launch?_turn, State.warp?_turn, hl, hw, hf]

theorem State.attempt_trap {arg : Nat} (hf : a.fetch l w.split.pc = .trap arg) :
    u.attempt exec r = .next (a.takeTrap r w 1 arg w.split.pc) := by
  subst ha
  obtain ⟨c, hc⟩ := State.crew?_of_warp? hw
  simp only [State.attempt, State.launch?_turn, State.warp?_turn, hl, hw, hf, State.fetchFails, State.crew?_turn, hc]

theorem State.attempt_bad {c : Crew} {pa : Nat} (hc : u.crew? r.crew = some c) (hf : a.fetch l w.split.pc = .bad pa) :
    u.attempt exec r =
      .next { a.consumedError r.crew.launch (some pa) .fetch c.coreNo r.warp with turn := none } := by
  subst ha
  simp only [State.attempt, State.launch?_turn, State.warp?_turn, hl, hw, hf, State.fetchFails, State.crew?_turn, hc,
    Option.map_some, Option.getD_some]

end Attempt

/-! ## What a planned move comes to -/

/-- The state in which the planned move `m` runs: the cycles before it have passed, and it has its place in its cycle (log 1). -/
def State.moveStart (s : State) (n : Nat) (m : Move) (ts : List Turn) : State :=
  { (({ s with agenda := ts } : State).elapse n).inPlace m with turn := none }

/-- How a step ends whose move came to `o`. -/
def endMove : Host.Outcome State Fault Refusal → Host.Outcome State Fault Refusal
  | .next t => .next t.afterMove
  | o => o

theorem step_event {s : State} {n : Nat} {i : Instr} {ts : List Turn} (h : s.planned = ⟨n, .event i⟩ :: ts) :
    step s = endMove (exec i (s.moveStart n (.event i) ts)) :=
  step_planned s _ ts h

theorem step_quarter {s : State} {n core q : Nat} {ts : List Turn} (h : s.planned = ⟨n, .quarter core q⟩ :: ts) :
    step s = endMove (State.runQuarter exec core q 16 [] (s.moveStart n (.quarter core q) ts)) :=
  step_planned s _ ts h

/-- R167: the quarter's cycle goes on as the attempt of its warp leaves it. -/
theorem endMove_runQuarter {u : State} {core q : Nat} {r : WarpRef} {w : Warp} (hsel : u.select core q [] = some r)
    (hw : u.warp? r = some w) :
    endMove (State.runQuarter exec core q 16 [] u) = Claims.afterAttempt u core q r w.slot (u.attempt exec r) := by
  rw [State.runQuarter_some exec core q 15 [] u r hsel, hw]
  unfold Claims.afterAttempt
  cases u.attempt exec r with
  | next t =>
    dsimp only
    split
    · rfl
    · rfl
  | _ => rfl

/-- Settles O53: the step is its planned move, the move the attempt of the selected warp, and the attempt what its fetch answers. -/
theorem stepRunsFetchedInstruction : Obligations.StepRunsFetchedInstruction := by
  refine ⟨step_nothing, ?_, ?_⟩
  · rintro s _ n i ts h rfl
    exact step_event h
  · rintro s u n core q ts h hu
    have moved : step s = endMove (State.runQuarter exec core q 16 [] u) := hu ▸ step_quarter h
    refine ⟨fun hsel => ?_, fun r l w hsel hl hw => ?_⟩
    · rw [moved, State.runQuarter_none _ _ _ _ _ _ hsel]
      rfl
    · have attempted := moved.trans (endMove_runQuarter hsel hw)
      refine ⟨fun hpast => ?_, fun ls hin hblock => ⟨fun i hgood hi => ?_, fun e hgood he => ?_, fun b c hbad hc => ?_⟩⟩
      · rw [attempted, State.attempt_trap rfl hl hw (State.fetch_past hpast)]
      · rw [attempted, State.attempt_ok rfl hl hw (State.fetch_ok hin hblock hgood hi)]
      · rw [attempted, State.attempt_trap rfl hl hw (State.fetch_illegal hin hblock hgood he)]
      · rw [attempted, State.attempt_bad rfl hl hw hc (State.fetch_bad hin hblock hbad)]

end Sys2Proof.Machine
end

section
/-! ### Floating point (04 R105 to R123; 05 R134 to R136)

The bodies of the rounding instructions are `Cx.float` and `Cx.packed`. Each tests its causes in order and then writes a lane result,
so it is `tested` on the table's `Claims.afterEvents`; what such a body leaves is said once, in `exec_of_tested` and
`issues_of_tested`. The other instructions of the class end in `Cx.laneDone` with the row of `Claims.floatRow`. -/

namespace Sys2Proof.Machine

/-! ## Causes tested in order (R134 to R136) -/

/-- What an attempt comes to after its tests: the trap of the cause that ended them, or what follows with the warp they left. -/
def tested (go : Warp → Attempt) : Except (Warp × Nat) Warp → Attempt
  | .error (w, code) => .trap w code 0
  | .ok w => go w

theorem tested_two (go : Warp → Attempt) (w : Warp) (c d : Cause) (m n : Nat) :
    tested go (Claims.afterEvents w [(c, m), (d, n)]) =
      match w.event c m with
      | .error v => .trap v c.trap 0
      | .ok v =>
        match v.event d n with
        | .error v => .trap v d.trap 0
        | .ok v => go v := by
  simp only [Claims.afterEvents]
  cases w.event c m with
  | error v => rfl
  | ok v =>
    dsimp only
    cases v.event d n with
    | error u => rfl
    | ok u => rfl

/-- Tests record events and leave the splits. -/
theorem Warp.course_afterEvents {w v : Warp} {l : List (Cause × Nat)} (h : Claims.afterEvents w l = .ok v) :
    v.course = w.course := by
  induction l generalizing w with
  | nil => cases h; rfl
  | cons e l ih =>
    unfold Claims.afterEvents at h
    split at h
    · cases h
    next u hu => exact (ih h).trans (Warp.course_event hu)

section Tested

variable {s : State} {i : Instr} {x : Cx} {body : Cx → Attempt} {m : Rm} {draws : Nat} {dst : Spec} {row : Row} {fl : FFlags}
  {r : Except (Warp × Nat) Warp} (h : s.ready i = some x) (hi : exec i s = issue i s body)
  (hb : body x = tested (fun w => x.floatDone (x.settleDraws w m draws) dst row fl) r)
include h hi hb

theorem exec_of_tested {w : Warp} {code : Nat} (hr : r = .error (w, code)) :
    exec i s = .next (s.takeTrap x.ref w code 0 x.sp.pc) := by
  subst hr
  exact exec_of_trap h hi hb

theorem issues_of_tested {w : Warp} (hr : r = .ok w) (hw : w.course = x.w.course) :
    s.issues i x s (x.next (x.write (x.settleDraws w m draws) dst x.act row 0)) true [] (x.pushed dst row)
      (some fl.toWord) := by
  subst hr
  exact issues_of_lane h hi hb ((Cx.course_settleDraws ..).trans hw)

end Tested

/-! ## Operations that round once (R105, R107, R114, R118, R120) -/

theorem zeroDivisors_some (x : Cx) (f : Fmt) (srcs : List (Bool × Row)) (k : Nat) :
    Claims.zeroDivisors x f srcs (some k) =
      if !x.triple then 0 else x.threadSet fun t =>
        threadDigits f (fun l => operandVal f false 0 (wordAt (srcs.getD k (false, [])).2 l)) t == 0 := by
  unfold Claims.zeroDivisors
  cases x.triple with
  | false => rfl
  | true => rfl

section Bodies

variable (x : Cx) (a : FArgs) (n : Nat) (op : FOp) (cancel : Bool)

/-- R114, R118, R134: DIVZ is tested before CANCEL. -/
theorem Cx.float_eq_tested (divisor : Option Nat) :
    let f := fmtOf a.ty
    let m := x.w.resolveRm a.rm
    let srcs := x.fsrcs a n
    let res := x.perLane (Claims.rounded x f m op srcs 0 0)
    x.float a n op cancel divisor =
      tested (fun w => x.floatDone (x.settleDraws w m 1) a.dst (codesOf res) (flagsOf res))
        (Claims.afterEvents x.w [(.divz, Claims.zeroDivisors x f srcs divisor),
          (.cancel, if cancel then x.cancelSet f srcs 0 res else 0)]) := by
  intro f m srcs res
  cases divisor with
  | none =>
    rw [tested_two]
    rfl
  | some k =>
    rw [zeroDivisors_some, tested_two]
    rfl

/-- R120: CANCEL is tested of the low half, then of the high half. -/
theorem Cx.packed_eq_tested :
    let f := if a.ty == .bf16 then Fmt.bf16 else Fmt.fp16
    let m := x.w.resolveRm a.rm
    let srcs := x.fsrcs a n
    let lo := x.perLane (Claims.rounded x f m op srcs 0 0)
    let hi := x.perLane (Claims.rounded x f m op srcs 16 1)
    let set (sh : Nat) (r : List FRes) : Nat := if cancel then x.cancelSet f srcs sh r else 0
    let row : Row := List.zipWith (fun (h l : FRes) => BitVec.ofNat 32 (h.1 * 65536 + l.1)) hi lo
    x.packed a n op cancel =
      tested (fun w => x.floatDone (x.settleDraws w m 2) a.dst row ((flagsOf lo).or (flagsOf hi)))
        (Claims.afterEvents x.w [(.cancel, set 0 lo), (.cancel, set 16 hi)]) :=
  (tested_two ..).symm

end Bodies

section Tables

variable {i : Instr} {a : FArgs} {n : Nat} {op : FOp} {cancel : Bool}

theorem exec_of_rounding {divisor : Option Nat} (hi : Claims.rounding i = some (a, n, op, cancel, divisor)) (s : State) :
    exec i s = issue i s fun x => x.float a n op cancel divisor := by
  cases i with
  | fadd | fsub | fmul | ffma | fdiv | fsqrt | frcp | frsq | fexp2 | flog2 => cases hi; rfl
  | _ => cases hi

theorem exec_of_packedRounding (hi : Claims.packedRounding i = some (a, n, op, cancel)) (s : State) :
    exec i s = issue i s fun x => x.packed a n op cancel := by
  cases i with
  | hadd2 | hmul2 | hfma2 => cases hi; rfl
  | _ => cases hi

end Tables

/-- Settles O7: each body is its tests and then a lane result, so it ends in the trap of the first enabled cause or in that result. -/
theorem floatRounding : Obligations.FloatRounding := by
  refine ⟨fun s i x a n op cancel divisor h hi => ?_, fun s i x a n op cancel h hi => ?_⟩
  · intro f m srcs res set
    have hexec := exec_of_rounding hi s
    have hbody := x.float_eq_tested a n op cancel divisor
    split
    next hr => exact exec_of_tested h hexec hbody hr
    next hr => exact issues_of_tested h hexec hbody hr (Warp.course_afterEvents hr)
  · intro f m srcs lo hi' set row
    have hexec := exec_of_packedRounding hi s
    have hbody := x.packed_eq_tested a n op cancel
    split
    next hr => exact exec_of_tested h hexec hbody hr
    next hr => exact issues_of_tested h hexec hbody hr (Warp.course_afterEvents hr)

/-! ## Minimum, maximum, class, rounding to integer, conversion (R115, R117, R119, R121, R122) -/

/-- Settles O8: each of the five bodies is a lane result with the row and the flags of the table; drawing leaves the splits. -/
theorem floatOther : Obligations.FloatOther := by
  intro s i x w dst row raise h hrow
  cases i with
  | fmin | fmax | fclass =>
    cases hrow
    exact issues_of_lane h rfl rfl rfl
  | frnd | cvt =>
    cases hrow
    exact issues_of_lane h rfl rfl (Cx.course_settleDraws ..)
  | _ => cases hrow

end Sys2Proof.Machine
end

section
/-! ### Sibling instructions (05 R129 to R132, R139 to R146)

The body of each instruction with a 32-bit result ends in `Cx.laneDone` with the row of `Claims.siblingRow`; `sibmode` writes the bit
`NUMCTL.NEAR` and completes at issue. -/

namespace Sys2Proof.Machine

/-! ## `NUMCTL.NEAR` is bit 12 (R137, R141) -/

/-- Bits that are cleared and then set again are set. -/
theorem and_not_or_self (w m : Word) : (w &&& ~~~m) ||| m = w ||| m := by
  ext k hk
  cases hbit : m[k] <;> simp [hbit]

theorem setField_near_on (w : Word) : setField w 12 1 1 = w ||| 0x1000 := and_not_or_self w 0x1000

theorem setField_near_off (w : Word) : setField w 12 1 0 = w &&& 0xFFFF_EFFF :=
  BitVec.or_zero

theorem Cx.setNear_on (x : Cx) :
    x.setNear true = .done (x.put { x.w with numctl := x.w.numctl ||| 0x1000 }) { flight := none } := by
  rw [← setField_near_on]
  rfl

theorem Cx.setNear_off (x : Cx) :
    x.setNear false = .done (x.put { x.w with numctl := x.w.numctl &&& 0xFFFF_EFFF }) { flight := none } := by
  rw [← setField_near_off]
  rfl

/-! ## Results of 32 bits (R142, R143, R146) -/

theorem issues_of_siblingRow {s : State} {i : Instr} {x : Cx} {w : Warp} {dst : Spec} {row : Row} (h : s.ready i = some x)
    (hrow : Claims.siblingRow x i = some (w, dst, row)) :
    s.issues i x s (x.next (x.write w dst x.act row 0)) true [] (x.pushed dst row) := by
  cases i with
  | digits | smean | sibget =>
    cases hrow
    exact issues_of_lane h rfl rfl rfl
  | rand c ty same w64 d =>
    cases w64 with
    | true => cases hrow
    | false =>
      cases hrow
      refine issues_of_lane h rfl ?_ (Warp.course_advance ..)
      cases hty : ty == .f32 with
      | false => simp only [Bool.false_eq_true, if_false]
      | true => simp only [Bool.false_eq_true, if_false, if_true]
  | mdpack c a =>
    dsimp only [Claims.siblingRow] at hrow
    split at hrow
    · cases hrow
    next hf =>
      cases hrow
      refine issues_of_lane h rfl ?_ rfl
      simp only [hf, Bool.false_eq_true, if_false, List.map_map]
      rfl
  | mdunpack c a =>
    cases hrow
    refine issues_of_lane h rfl ?_ rfl
    cases hf : (fmtOf a.ty).width == 32 with
    | false => simp only [hf, Bool.false_eq_true, if_false]
    | true => simp only [hf, if_true]
  | _ => cases hrow

/-- Settles O2: a lane result each, and a write of one control bit that is done at issue. -/
theorem siblingLanes : Obligations.SiblingLanes := by
  refine ⟨fun s i x w dst row h hrow => issues_of_siblingRow h hrow, fun s c x => ⟨fun h => ?_, fun h => ?_⟩⟩
  · exact issues_of_result h rfl x.setNear_on rfl rfl rfl
  · exact issues_of_result h rfl x.setNear_off rfl rfl rfl

end Sys2Proof.Machine
end

section
/-! ### Cache hints (05 R134 to R136; 09 R218, R219, R226, R244)

A hint resolves its addresses, which ADDRDIS may trap, and then acts over the lanes that would not fault. `State.uncached` forgets
all that such an action changes: the lines of a core's L1 and a die's remote-data cache, and the translations of a context. -/

namespace Sys2Proof.Machine

/-! ## Changes that `uncached` forgets -/

theorem map_modify_eq {α β : Type} {g : α → β} {f : α → α} (hf : ∀ a, g (f a) = g a) (l : List α) (n : Nat) :
    (l.modify n f).map g = l.map g := by
  refine List.ext_getElem? fun m => ?_
  rw [List.getElem?_map, List.getElem?_map, List.getElem?_modify]
  cases l[m]? with
  | none => rfl
  | some a => by_cases h : n = m <;> simp [h, hf]

theorem State.uncached_modCore (s : State) (n : Nat) (f : List Line → List Line) :
    (s.modCore n fun k => { k with l1 := f k.l1 }).uncached = s.uncached := by
  have forgot := map_modify_eq (g := fun k : CoreState => { k with l1 := [] }) (f := fun k => { k with l1 := f k.l1 })
    (fun _ => rfl) s.cores n
  exact congrArg (fun l => { s.uncached with cores := l }) forgot

theorem State.uncached_modDie (s : State) (n : Nat) (f : List Line → List Line) :
    (s.modDie n fun d => { d with rdc := f d.rdc }).uncached = s.uncached := by
  have forgot := map_modify_eq (g := fun k : DieState => { k with rdc := [] }) (f := fun k => { k with rdc := f k.rdc })
    (fun _ => rfl) s.dies n
  exact congrArg (fun l => { s.uncached with dies := l }) forgot

theorem State.uncached_noteLeaf (s : State) (r : CtxRef) (l : Leaf) : (s.noteLeaf r l).uncached = s.uncached := by
  unfold State.uncached State.noteLeaf State.modContext updWhere
  dsimp only
  congr 1
  rw [List.map_map]
  refine List.map_congr_left fun c _ => ?_
  dsimp only [Function.comp]
  split
  · split <;> rfl
  · rfl

/-- R233: a fill of a line, in the remote-data cache and in L1. -/
theorem State.uncached_touchLine (s : State) (l1 : Bool) (core pa : Nat) : (s.touchLine l1 core pa).uncached = s.uncached := by
  unfold State.touchLine
  split
  · rfl
  · extract_lets d now remote inRdc t line
    have filled : t.uncached = s.uncached := by
      simp only [t]
      split
      · exact s.uncached_modDie d _
      · rfl
    split
    · exact (t.uncached_modCore core _).trans filled
    · exact filled

theorem State.uncached_foldl {α : Type} {f : State → α → State} (hf : ∀ t a, (f t a).uncached = t.uncached) (l : List α)
    (s : State) : (l.foldl f s).uncached = s.uncached := by
  induction l generalizing s with
  | nil => rfl
  | cons a l ih => exact (ih (f s a)).trans (hf s a)

theorem Cx.uncached_touch (x : Cx) (s : State) (l1 : Bool) (sib : Option Nat) (va : Nat) (ls : List Leaf) :
    (x.touch s l1 sib va ls).uncached = s.uncached := by
  unfold Cx.touch
  refine State.uncached_foldl (fun t a => ?_) _ s
  rw [State.uncached_foldl fun u pa => u.uncached_touchLine l1 x.core pa, State.uncached_noteLeaf]

theorem State.warp?_of_uncached {s t : State} (h : t.uncached = s.uncached) (r : WarpRef) : t.warp? r = s.warp? r :=
  State.warp?_of_crews (congrArg State.crews h) r

/-! ## An instruction that changes its own warp and the caches -/

theorem issues_of_uncached {s t : State} {i : Instr} {x : Cx} {body : Cx → Attempt} {w : Warp} {d : Done}
    (h : s.ready i = some x) (hi : exec i s = issue i s body) (hb : body x = .done (t.modWarp x.ref fun _ => w) d)
    (ht : t.uncached = s.uncached) (hw : w.course = x.w.course) (ho : d.off = 0) (hp : d.setPc = false) :
    s.issues i x t (x.next w) d.flight.isSome d.pops d.push (if d.flight.isSome then d.raise else none) := by
  have hr := (State.ready_elim h).1
  have there : (t.modWarp x.ref fun _ => w).warp? x.ref = some w := by
    obtain ⟨u, hu⟩ := Option.isSome_iff_exists.1 hr.warp
    rw [State.warp?_modWarp, State.warp?_of_uncached ht, hu]
    rfl
  obtain ⟨u, k, hexec, hissued⟩ := issues_of_done h hi hb there (Warp.live_of_course hw hr.live)
    (Warp.stepping_of_course hw hr.stepping) ho hp
  exact ⟨u, k, by rw [hexec, Cx.leaves_modWarp], hissued⟩

/-! ## The addresses of a hint (R134, R226) -/

theorem Cx.course_agree {x : Cx} {l l' : List Int} {w : Warp} (h : x.agree l = .ok (w, l')) : w.course = x.w.course := by
  unfold Cx.agree at h
  split at h
  · cases h; rfl
  · extract_lets at_ set at h
    cases he : x.w.event .addrdis set with
    | error v => rw [he] at h; cases h
    | ok v =>
      rw [he] at h
      cases h
      exact Warp.course_event he

section Hints

variable {s : State} {i : Instr} {x : Cx} {a : MemArgs} {body : Cx → Attempt} {act : List (Nat × Leaf) → State} {d : Done}
  (h : s.ready i = some x) (hi : exec i s = issue i s body)
  (hb : body x = x.hintLanes a fun w lanes => .done ((act lanes).modWarp x.ref fun _ => w) d)
include h hi hb

theorem exec_of_hint_disputed {w : Warp} (hw : x.agree (x.globalAddrs a) = .error w) :
    exec i s = .next (s.takeTrap x.ref w 5 0 x.sp.pc) := by
  refine exec_of_trap h hi ?_
  rw [hb]
  unfold Cx.hintLanes
  rw [hw]
  rfl

theorem issues_of_hint_agreed {w : Warp} {addrs : List Int} (hw : x.agree (x.globalAddrs a) = .ok (w, addrs))
    (hact : ∀ lanes, (act lanes).uncached = x.s.uncached) (ho : d.off = 0) (hp : d.setPc = false) :
    ∃ e, e.uncached = s.uncached ∧
      s.issues i x e (x.next w) d.flight.isSome d.pops d.push (if d.flight.isSome then d.raise else none) := by
  unfold Cx.hintLanes at hb
  rw [hw] at hb
  rw [(State.ready_elim h).1.state] at hact
  exact ⟨_, hact _, issues_of_uncached h hi hb (hact _) (Cx.course_agree hw) ho hp⟩

end Hints

/-! ## What the two hints do (R244) -/

/-- `pref`: the lines of `lanes` come into the caches. -/
def Cx.prefetched (x : Cx) (a : MemArgs) (lanes : List (Nat × Leaf)) : State :=
  lanes.foldl (fun s t => x.touch s (a.aop == 1) none t.1 [t.2]) x.s

theorem Cx.uncached_prefetched (x : Cx) (a : MemArgs) (lanes : List (Nat × Leaf)) :
    (x.prefetched a lanes).uncached = x.s.uncached :=
  State.uncached_foldl (fun s (t : Nat × Leaf) => x.uncached_touch s (a.aop == 1) none t.1 [t.2]) lanes x.s

/-- `cctl`: the lines of `lanes` leave the core's L1, and under `.die` the die's remote-data cache. -/
def Cx.dropped (x : Cx) (a : MemArgs) (lanes : List (Nat × Leaf)) : State :=
  let pas := lanes.flatMap fun t => t.2.linesOf none (t.1 - t.2.va)
  let s := x.s.modCore x.core fun k => { k with l1 := dropLines pas k.l1 }
  if MemArgs.scope a == .die then s.modDie x.die fun d => { d with rdc := dropLines pas d.rdc } else s

theorem Cx.uncached_dropped (x : Cx) (a : MemArgs) (lanes : List (Nat × Leaf)) :
    (x.dropped a lanes).uncached = x.s.uncached := by
  unfold Cx.dropped
  extract_lets pas s
  have hs : s.uncached = x.s.uncached := x.s.uncached_modCore x.core _
  split
  · exact (s.uncached_modDie x.die _).trans hs
  · exact hs

/-- Settles O23: both act on caches alone, over lanes whose addresses have been agreed or have trapped. -/
theorem cacheHints : Obligations.CacheHints := by
  refine fun s c a x => ⟨fun h => ?_, fun h => ?_⟩
  · split
    next hw => exact exec_of_hint_disputed (act := x.prefetched a) h rfl rfl hw
    next hw => exact issues_of_hint_agreed h rfl rfl hw (x.uncached_prefetched a) rfl rfl
  · split
    next hw => exact exec_of_hint_disputed (act := x.dropped a) h rfl rfl hw
    next hw => exact issues_of_hint_agreed h rfl rfl hw (x.uncached_dropped a) rfl rfl

end Sys2Proof.Machine
end

section
/-! ### Barriers (10 R265 to R275)

`Crew.bar?` is a barrier register of a crew. What a change and the completion test leave of it is said once, in `Crew.bar?_modBarrier`
and `Crew.bar?_settleBarrier`; what they leave of the warps, in lemmas on `Crew.skel`. Invalidation alone goes further: it makes the
warps that it wakes owe a trap (R268), so the instructions are settled over `Crew.wakes`, which regards neither what blocks a warp nor
what it owes. -/

namespace Sys2Proof.Machine

/-! ## A barrier register -/

/-- R265: barrier `b` of group `g`. -/
def Crew.bar? (c : Crew) (g b : Nat) : Option Barrier := (c.groups[g]?).bind fun q => q.bars[b]?

/-- R270: a barrier operand names a register of its group. -/
theorem Crew.bar?_of_barrierOf {c : Crew} {w : Warp} {b : BarName} {g : Nat} {r : Barrier} (h : c.barrierOf w b = some (g, r)) :
    c.bar? g b.bar.toNat = some r := by
  unfold Crew.barrierOf Crew.slotGroup at h
  obtain ⟨⟨n, q⟩, hslot, hbar⟩ := Option.bind_eq_some_iff.1 h
  obtain ⟨m, -, hgroup⟩ := Option.bind_eq_some_iff.1 hslot
  obtain ⟨q', hq, hpair⟩ := Option.map_eq_some_iff.1 hgroup
  obtain ⟨r', hr, hnamed⟩ := Option.map_eq_some_iff.1 hbar
  cases hpair
  cases hnamed
  exact Option.bind_eq_some_iff.2 ⟨q, hq, hr⟩

theorem Crew.bar?_modBarrier (c : Crew) (g b : Nat) (f : Barrier → Barrier) : (c.modBarrier g b f).bar? g b = (c.bar? g b).map f := by
  unfold Crew.bar? Crew.modBarrier Crew.modGroup
  dsimp only
  rw [List.getElem?_modify_eq]
  cases c.groups[g]? with
  | none => rfl
  | some q => exact List.getElem?_modify_eq ..

@[simp] theorem Crew.skel_modBarrier (c : Crew) (g b : Nat) (f : Barrier → Barrier) : (c.modBarrier g b f).skel = c.skel := rfl

/-! ## The completion test (R266) -/

theorem popCount_toNat (v : BitVec 64) : popCount v.toNat 64 = ((List.range 64).filter v.getLsbD).length := rfl

/-- R266, R267: the barrier stays as it is, or it changes phase, which wakes warps of its crew and counts in its generation. -/
theorem Crew.settleBarrier_cases {c : Crew} {g b : Nat} {r : Barrier} (h : c.bar? g b = some r) :
    (c.settleBarrier g b = c ∧ Claims.settled r = r) ∨
      ∃ wake : Warp → Warp, (∀ w, (wake w).calm = w.calm) ∧ Claims.settled r = { r with ph := !r.ph, arrived := 0 } ∧
        c.settleBarrier g b =
          { c.modBarrier g b (fun x => { x with ph := !r.ph, arrived := 0 }) with
            gen := c.gen + 1, warps := c.warps.map wake } := by
  unfold Crew.bar? at h
  unfold Crew.settleBarrier Claims.settled
  rw [h]
  dsimp only
  have test : (!r.inv && decide (r.expect.toNat ≤ popCount r.arrived.toNat 64) && r.pend == 0) = true ↔
      r.inv = false ∧ r.expect.toNat ≤ ((List.range 64).filter r.arrived.getLsbD).length ∧ r.pend = 0 := by
    rw [popCount_toNat]
    simp [and_assoc]
  by_cases hdone : r.inv = false ∧ r.expect.toNat ≤ ((List.range 64).filter r.arrived.getLsbD).length ∧ r.pend = 0
  · refine .inr ⟨_, fun w => ?_, if_pos hdone, if_pos (test.2 hdone)⟩
    split
    · split <;> rfl
    · rfl
  · exact .inl ⟨if_neg fun h => hdone (test.1 h), if_neg hdone⟩

theorem Crew.settleBarrier_none {c : Crew} {g b : Nat} (h : c.bar? g b = none) : c.settleBarrier g b = c := by
  unfold Crew.bar? at h
  unfold Crew.settleBarrier
  rw [h]

theorem Crew.bar?_settleBarrier {c : Crew} {g b : Nat} {r : Barrier} (h : c.bar? g b = some r) :
    (c.settleBarrier g b).bar? g b = some (Claims.settled r) := by
  rcases Crew.settleBarrier_cases h with ⟨hc, hr⟩ | ⟨wake, -, hr, hc⟩
  · rw [hc, hr, h]
  · rw [hc, hr]
    exact (c.bar?_modBarrier g b _).trans (congrArg _ h)

theorem Crew.scratch_settleBarrier (c : Crew) (g b : Nat) : (c.settleBarrier g b).scratch = c.scratch := by
  cases h : c.bar? g b with
  | none => rw [Crew.settleBarrier_none h]
  | some r =>
    rcases Crew.settleBarrier_cases h with ⟨hc, -⟩ | ⟨wake, -, -, hc⟩
    · rw [hc]
    · rw [hc]
      rfl

@[simp] theorem Crew.skel_settleBarrier (c : Crew) (g b : Nat) : (c.settleBarrier g b).skel = c.skel := by
  cases h : c.bar? g b with
  | none => rw [Crew.settleBarrier_none h]
  | some r =>
    rcases Crew.settleBarrier_cases h with ⟨hc, -⟩ | ⟨wake, hwake, -, hc⟩
    · rw [hc]
    · rw [hc]
      exact Crew.skel_map (c := { c.modBarrier g b _ with gen := c.gen + 1 }) hwake

theorem modify_map_modify {α β : Type} (l : List α) (f : α → β) (n : Nat) (v : α) (w : β) :
    ((l.modify n fun _ => v).map f).modify n (fun _ => w) = (l.map f).modify n fun _ => w := by
  refine List.ext_getElem? fun m => ?_
  rw [List.getElem?_modify, List.getElem?_modify, List.getElem?_map, List.getElem?_map, List.getElem?_modify]
  by_cases h : n = m <;> simp [h, Function.comp_def]

/-- The test regards no warp of the crew but for what blocks it, so one that is replaced after it may have been replaced before. -/
theorem Crew.settleBarrier_modWarp (c : Crew) (g b n : Nat) (v w : Warp) :
    ((c.modWarp n fun _ => v).settleBarrier g b).modWarp n (fun _ => w) = (c.settleBarrier g b).modWarp n fun _ => w := by
  unfold Crew.settleBarrier
  rw [Crew.modWarp_groups]
  split
  · exact Crew.modWarp_modWarp ..
  · split
    next r hr hdone =>
      unfold Crew.modWarp
      congr 1
      exact modify_map_modify c.warps _ n v w
    · exact Crew.modWarp_modWarp ..

/-! ## Transaction bytes (R275) -/

theorem Crew.bar?_addPend {c : Crew} {g b : Nat} {r : Barrier} (h : c.bar? g b = some r) (d : BitVec 48) :
    (c.addPend g b d).bar? g b = some (Claims.settled { r with pend := r.pend + d }) :=
  Crew.bar?_settleBarrier ((c.bar?_modBarrier g b _).trans (congrArg _ h))

theorem Crew.scratch_addPend (c : Crew) (g b : Nat) (d : BitVec 48) : (c.addPend g b d).scratch = c.scratch :=
  Crew.scratch_settleBarrier ..

@[simp] theorem Crew.skel_addPend (c : Crew) (g b : Nat) (d : BitVec 48) : (c.addPend g b d).skel = c.skel :=
  Crew.skel_settleBarrier ..

theorem Crew.addPend_modWarp (c : Crew) (g b n : Nat) (d : BitVec 48) (v w : Warp) :
    ((c.modWarp n fun _ => v).addPend g b d).modWarp n (fun _ => w) = (c.addPend g b d).modWarp n fun _ => w :=
  (c.modBarrier g b fun x => { x with pend := x.pend + d }).settleBarrier_modWarp g b n v w

/-- What leaves a crew's warps but for what blocks them leaves their registers. -/
theorem Crew.banks_of_skel {c d : Crew} (h : d.skel = c.skel) : d.warps.map (·.bank) = c.warps.map (·.bank) := by
  have calm : d.warps.map Warp.calm = c.warps.map Warp.calm := congrArg Prod.snd h
  have banks := congrArg (List.map Warp.bank) calm
  rw [List.map_map, List.map_map] at banks
  exact banks

/-! ## An instruction that changes its crew -/

theorem updWhere_updWhere {α : Type} {p : α → Bool} {f g : α → α} (hf : ∀ a, p (f a) = p a) (l : List α) :
    updWhere p g (updWhere p f l) = updWhere p (fun a => g (f a)) l := by
  unfold updWhere
  rw [List.map_map]
  refine List.map_congr_left fun a _ => ?_
  by_cases h : p a = true <;> simp [h, hf]

theorem State.modCrew_modCrew {s : State} {r : CrewRef} {f g : Crew → Crew} (hf : ∀ c, (f c).ref = c.ref) :
    (s.modCrew r f).modCrew r g = s.modCrew r fun c => g (f c) :=
  congrArg (fun l => { s with crews := l }) (updWhere_updWhere (fun c => by rw [hf]) s.crews)

/-- What an issue leaves depends on no warp that it replaces. -/
theorem Cx.leaves_congr (x : Cx) {e t : State} {w : Warp} (pops push k)
    (h : e.modWarp x.ref (fun _ => w) = t.modWarp x.ref fun _ => w) : x.leaves e w pops push k = x.leaves t w pops push k :=
  congrArg (fun u : State => x.popAcquires (({ u with turn := none } : State).modCrew x.ref.crew
    (·.transfer x.ref.warp (x.pops.map (·.queue) ++ pops) (push.bind fun p => (x.bound p.name).map fun y => (y.1.queue, p)) k))
    (x.pops.map (·.queue) ++ pops)) h

/-- A crew whose warps are `c`'s but for what blocks them and for the traps that they owe. -/
def Crew.wakes (c d : Crew) : Prop :=
  d.ref = c.ref ∧ ∀ (n : Nat) (w : Warp), c.warps[n]? = some w →
    ∃ o, (d.warps[n]?).map Warp.calm = some ({ w with owed := o } : Warp).calm

theorem Crew.wakes_of_skel {c d : Crew} (h : d.skel = c.skel) : c.wakes d :=
  ⟨congrArg Prod.fst h, fun n w hw => ⟨w.owed, by rw [Crew.skel_warp h, hw]; rfl⟩⟩

/-- R268: what wakes from an invalidated barrier owes its trap. -/
theorem Crew.wakes_wakeOnBarrier (c : Crew) (g b : Nat) : c.wakes (c.wakeOnBarrier g b) := by
  refine ⟨rfl, fun n w hw => ?_⟩
  unfold Crew.wakeOnBarrier
  rw [List.getElem?_map, hw, Option.map_some, Option.map_some]
  split
  next nm ph hblock =>
    split
    · exact ⟨some (12, barByte nm ph), rfl⟩
    · exact ⟨w.owed, rfl⟩
  · exact ⟨w.owed, rfl⟩

theorem Warp.flags_modFlag (w : Warp) (k : Nat) (f : Nat → Nat) :
    (w.modFlag k f).flags = if k = 0 then w.flags else w.flags.modify (k - 1) f := by
  unfold Warp.modFlag
  split <;> rfl

/-- What a warp owes stays out of what its issue leaves. -/
theorem State.issues_of_owed {s e : State} {i : Instr} {x : Cx} {w : Warp} {o : Option (Nat × Nat)} {flagged : Bool} {pops : List Nat}
    {push : Option Push} (h : s.issues i x e (x.next { w with owed := o }) flagged pops push) :
    s.issues i x e (x.next w) flagged pops push := by
  obtain ⟨u, k, hexec, ⟨hbank, hvacant, hstall, hflags, hraising, hplaces⟩, hflies⟩ := h
  refine ⟨u, k, hexec, ⟨hbank, hvacant, hstall, hflags.trans ?_, hraising, hplaces⟩, hflies⟩
  rw [Warp.flags_modFlag, Warp.flags_modFlag]
  rfl

section CrewDone

variable {s : State} {i : Instr} {x : Cx} {body : Cx → Attempt} {f : Crew → Crew} (h : s.ready i = some x)
  (hi : exec i s = issue i s body) (hb : body x = x.crewDone f none)
include h hi hb

/-- A ready instruction that changes its crew and no warp beyond what wakes from it. -/
theorem issues_of_crewDone (hf : ∀ c : Crew, c.wakes (f c)) :
    s.issues i x ((x.put x.w).modCrew x.ref.crew f) (x.next x.w) false [] none := by
  have hr := (State.ready_elim h).1
  obtain ⟨c, hc, hw⟩ := Option.bind_eq_some_iff.1 (hr.put_warp x.w)
  obtain ⟨o, ho⟩ := (hf c).2 _ _ hw
  have found : (((x.put x.w).modCrew x.ref.crew f).warp? x.ref).map Warp.calm = some ({ x.w with owed := o } : Warp).calm := by
    unfold State.warp?
    rw [State.crew?_modCrew fun c => (hf c).1, hc]
    exact ho
  exact State.issues_of_owed (issues_of_calm h hi hb found hr.live hr.stepping rfl rfl)

/-- A change of the crew into which the issuing warp does not enter may be made of the crew before the attempt. -/
theorem issues_of_crewDone_outside (hf : ∀ c : Crew, c.wakes (f c))
    (hout : ∀ (c : Crew) (v w : Warp), (f (c.modWarp x.ref.warp fun _ => v)).modWarp x.ref.warp (fun _ => w) =
      (f c).modWarp x.ref.warp fun _ => w) :
    s.issues i x (s.modCrew x.ref.crew f) (x.next x.w) false [] none := by
  have hr := (State.ready_elim h).1
  obtain ⟨u, k, hexec, hissued⟩ := issues_of_crewDone h hi hb hf
  refine ⟨u, k, hexec.trans (congrArg _ (x.leaves_congr _ _ _ ?_)), hissued⟩
  unfold Cx.put State.modWarp
  rw [hr.state, State.modCrew_modCrew (f := fun c => c.modWarp x.ref.warp fun _ => x.w) fun _ => rfl,
    State.modCrew_modCrew fun c => (hf (c.modWarp x.ref.warp fun _ => x.w)).1, State.modCrew_modCrew fun c => (hf c).1]
  exact congrArg _ (funext fun c => hout c x.w u)

end CrewDone

/-! ## The barrier instructions (R268, R270) -/

section Barrier

variable {x : Cx} {b : BarName} {ph valid : Bool} {go : Nat → Barrier → Attempt}

theorem Cx.barrier_none (h : x.c.barrierOf x.w b = none) : x.barrier b ph valid go = .trap x.w 1 1 := by
  unfold Cx.barrier
  rw [h]

variable {g : Nat} {r : Barrier} (h : x.c.barrierOf x.w b = some (g, r))
include h

theorem Cx.barrier_invalid (hvalid : valid = true) (hinv : r.inv = true) :
    x.barrier b ph valid go = .trap x.w 12 (barByte b ph) := by
  unfold Cx.barrier
  rw [h, hvalid]
  exact if_pos hinv

theorem Cx.barrier_go (hgo : ¬ (valid = true ∧ r.inv = true)) : x.barrier b ph valid go = go g r := by
  unfold Cx.barrier
  rw [h]
  exact if_neg fun hbad => hgo (by simpa using hbad)

end Barrier

/-- The body of the instructions that change one barrier, over the row of `Claims.barrierOp`. -/
def Cx.changeBarrier (x : Cx) (b : BarName) (valid : Bool) (f : Nat → Barrier → Option (Crew → Crew)) : Attempt :=
  x.barrier b false valid fun g r =>
    match f g r with
    | none => .trap x.w 12 (barByte b false)
    | some f => x.crewDone f none

theorem exec_of_barrierOp {s : State} {i : Instr} {x : Cx} {b : BarName} {valid : Bool} {f : Nat → Barrier → Option (Crew → Crew)}
    (hop : Claims.barrierOp x i = some (b, valid, f)) :
    ∃ body, exec i s = issue i s body ∧ body x = x.changeBarrier b valid f := by
  cases i with
  | barinit c b n =>
    cases hop
    refine ⟨_, rfl, ?_⟩
    unfold Cx.changeBarrier
    congr 1
    funext g r
    have inUse : (r.arrived != 0 || r.pend != 0) = !(r.arrived == 0 && r.pend == 0) := (Bool.not_and ..).symm
    dsimp only
    rw [inUse]
    cases (r.arrived == 0 && r.pend == 0) with
    | true => rfl
    | false => rfl
  | barinitInv | bararr =>
    cases hop
    exact ⟨_, rfl, rfl⟩
  | _ => cases hop

/-- R268, R272, R273: every row of the table leaves the warps of the crew but for what blocks them and what they owe. -/
theorem wakes_of_barrierOp {i : Instr} {x : Cx} {b : BarName} {valid : Bool} {f : Nat → Barrier → Option (Crew → Crew)}
    (hop : Claims.barrierOp x i = some (b, valid, f)) {g : Nat} {r : Barrier} {k : Crew → Crew} (hk : f g r = some k) (c : Crew) :
    c.wakes (k c) := by
  cases i with
  | barinit _ b n =>
    cases hop
    obtain ⟨-, hk⟩ := Option.ite_none_right_eq_some.1 hk
    cases hk
    exact Crew.wakes_of_skel ((Crew.skel_settleBarrier ..).trans (Crew.skel_modBarrier ..))
  | barinitInv _ b =>
    cases hop
    cases hk
    exact Crew.wakes_wakeOnBarrier ..
  | bararr =>
    cases hop
    cases hk
    exact Crew.wakes_of_skel rfl
  | _ => cases hop

/-- Settles O25: the three bodies are the table's change under the checks of R270, and what wakes from it leaves the issue as it is. -/
theorem barrierChanges : Obligations.BarrierChanges := by
  intro s i x b valid f h hop
  obtain ⟨body, hi, hbody⟩ := exec_of_barrierOp (s := s) hop
  unfold Cx.changeBarrier at hbody
  split
  next hnone => exact exec_of_trap h hi (hbody.trans (Cx.barrier_none hnone))
  next g r hsome =>
    extract_lets byte
    split
    next hbad => exact exec_of_trap h hi (hbody.trans (Cx.barrier_invalid hsome hbad.1 hbad.2))
    next hgood =>
      rw [Cx.barrier_go hsome hgood] at hbody
      split
      next hbusy =>
        rw [hbusy] at hbody
        exact exec_of_trap h hi hbody
      next k hk =>
        rw [hk] at hbody
        exact issues_of_crewDone h hi hbody (wakes_of_barrierOp hop hk)

/-- Settles O26: the pending bytes change and the barrier settles, into which the registers of no warp enter. -/
theorem transactionBytes : Obligations.TransactionBytes := by
  intro s c b a ib imm x h
  split
  next hnone => exact exec_of_trap h rfl (Cx.barrier_none hnone)
  next g r hsome =>
    refine ⟨fun hinv => exec_of_trap h rfl (Cx.barrier_invalid hsome rfl hinv), fun hinv => ?_⟩
    let d := BitVec.ofNat 48 (if ib then imm.toNat else (x.scal a).toNat)
    have hgood : ¬ (true = true ∧ r.inv = true) := by simp [hinv]
    refine ⟨fun c => c.addPend g b.bar.toNat d, ?_, Crew.bar?_addPend (Crew.bar?_of_barrierOf hsome) d, Crew.scratch_addPend ..,
      Crew.banks_of_skel (Crew.skel_addPend ..)⟩
    exact issues_of_crewDone_outside h rfl (Cx.barrier_go hsome hgood) (fun c => Crew.wakes_of_skel (Crew.skel_addPend ..))
      fun c v w => c.addPend_modWarp ..

end Sys2Proof.Machine
end

section
/-! ### The wait instruction (10 R268, R276 to R278)

The two masks of an evaluation are `WaitArgs.maskWhere` of a test on conditions, and what such a mask says bit by bit is said once. A
`wait` whose slot checks pass comes to one evaluation with its deadline, `Cx.tryWait`; it ends in `Cx.waitDone` or blocks. -/

namespace Sys2Proof.Machine

/-! ## Masks of slots (R277) -/

/-- Slots above every bit of `m`, added to it in ascending order, set their own bits and no other. -/
theorem testBit_foldl_two_pow {l : List Nat} (hl : l.Pairwise (· < ·)) {m : Nat} (hm : ∀ k ∈ l, m < 2 ^ k) (n : Nat) :
    (l.foldl (fun m k => m + 2 ^ k) m).testBit n = (m.testBit n || decide (n ∈ l)) := by
  induction l generalizing m with
  | nil => simp only [List.foldl_nil, List.not_mem_nil, decide_false, Bool.or_false]
  | cons k l ih =>
    obtain ⟨hfirst, hrest⟩ := List.pairwise_cons.1 hl
    have hk : m < 2 ^ k := hm k List.mem_cons_self
    have above : ∀ j ∈ l, m + 2 ^ k < 2 ^ j := fun j hj => by
      have hpow : 2 ^ (k + 1) ≤ 2 ^ j := Nat.pow_le_pow_right (by decide) (hfirst j hj)
      rw [Nat.pow_succ] at hpow
      omega
    have added : m + 2 ^ k = m ||| 2 ^ k := by
      rw [Nat.add_comm, Nat.or_comm]
      simpa only [Nat.mul_one] using Nat.two_pow_add_eq_or_of_lt hk 1
    have member : decide (n ∈ k :: l) = (decide (k = n) || decide (n ∈ l)) := by
      rw [← Bool.decide_or]
      exact decide_eq_decide.2 (List.mem_cons.trans (or_congr_left eq_comm))
    rw [List.foldl_cons, ih hrest above, added, Nat.testBit_or, Nat.testBit_two_pow, member, Bool.or_assoc]

theorem testBit_slotMask {l : List Nat} (hl : l.Pairwise (· < ·)) (n : Nat) : (slotMask l).testBit n = decide (n ∈ l) := by
  unfold slotMask
  rw [testBit_foldl_two_pow hl (fun k _ => Nat.two_pow_pos k), Nat.zero_testBit, Bool.false_or]

/-- The conditions of a `wait` in slot order (R276). -/
def WaitArgs.conds (a : WaitArgs) : List Cond := [a.c0, a.c1, a.c2, a.c3]

/-- The mask of the slots whose condition passes a test. -/
def WaitArgs.maskWhere (a : WaitArgs) (p : Cond → Bool) : Nat := slotMask (((WaitArgs.slots a).filter fun t => p t.2).map (·.1))

theorem WaitArgs.testBit_maskWhere (a : WaitArgs) (p : Cond → Bool) (n : Nat) :
    (WaitArgs.maskWhere a p).testBit n = (decide (n < 4) && p ((WaitArgs.conds a).getD n .none)) := by
  have ascending : (((WaitArgs.slots a).filter fun t => p t.2).map (·.1)).Pairwise (· < ·) := by
    have numbers : ((WaitArgs.slots a).map (·.1)).Pairwise (· < ·) := (by decide : [0, 1, 2, 3].Pairwise (· < ·))
    exact numbers.sublist (List.filter_sublist.map _)
  have member : n ∈ ((WaitArgs.slots a).filter fun t => p t.2).map (·.1) ↔
      n < 4 ∧ p ((WaitArgs.conds a).getD n .none) = true := by
    match n with
    | 0 | 1 | 2 | 3 => simp [WaitArgs.slots, WaitArgs.conds]
    | n + 4 => exact iff_of_false (by simp [WaitArgs.slots]) fun h => absurd h.1 (by omega)
  unfold WaitArgs.maskWhere
  rw [testBit_slotMask ascending, Bool.eq_iff_iff, decide_eq_true_iff, member, Bool.and_eq_true, decide_eq_true_iff]

theorem WaitArgs.forall_mem_conds {a : WaitArgs} {P : Cond → Prop} :
    (∀ c ∈ WaitArgs.conds a, P c) ↔ ∀ n < 4, P ((WaitArgs.conds a).getD n .none) := by
  refine List.forall_mem_iff_forall_getElem.trans (forall_congr' fun n => forall_congr' fun hn => ?_)
  rw [← List.getElem_eq_getD (h := hn)]

theorem WaitArgs.maskWhere_eq_iff {a : WaitArgs} {p q : Cond → Bool} :
    WaitArgs.maskWhere a p = WaitArgs.maskWhere a q ↔ ∀ c ∈ WaitArgs.conds a, p c = q c := by
  rw [WaitArgs.forall_mem_conds]
  constructor
  · intro h n hn
    have bit := congrArg (·.testBit n) h
    simpa [WaitArgs.testBit_maskWhere, hn] using bit
  · intro h
    refine Nat.eq_of_testBit_eq fun n => ?_
    rw [WaitArgs.testBit_maskWhere, WaitArgs.testBit_maskWhere]
    by_cases hn : n < 4
    · rw [h n hn]
    · simp [hn]

theorem WaitArgs.maskWhere_eq_zero {a : WaitArgs} {p : Cond → Bool} :
    WaitArgs.maskWhere a p = 0 ↔ ∀ c ∈ WaitArgs.conds a, p c = false := by
  have empty : WaitArgs.maskWhere a (fun _ => false) = 0 := rfl
  rw [← empty, WaitArgs.maskWhere_eq_iff]

/-! ## One evaluation (R277) -/

/-- Whether an evaluation ends the wait by its conditions. -/
def Watch.met (k : Watch) (a : WaitArgs) (d : Option DWord) : Bool :=
  if WaitArgs.maskWhere a (· != .none) == 0 then d.isNone
  else if a.all then WaitArgs.maskWhere a k.holds == WaitArgs.maskWhere a (· != .none) else WaitArgs.maskWhere a k.holds != 0

theorem Watch.evaluate_eq (k : Watch) (a : WaitArgs) (d : Option DWord) :
    k.evaluate a d =
      if k.met a d then some (WaitArgs.maskWhere a k.holds, false)
      else if d.any fun t => decide (t.toNat ≤ k.s.clock.tick.toNat) then some (WaitArgs.maskWhere a k.holds, true)
      else none := rfl

/-- A slot that is not used does not hold. -/
theorem Watch.used_of_holds {k : Watch} {c : Cond} (h : k.holds c = true) : (c != .none) = true := by
  cases c with
  | none => cases h
  | _ => rfl

theorem Watch.met_iff (k : Watch) (a : WaitArgs) (d : Option DWord) :
    let used := (WaitArgs.conds a).filter fun c => c != .none
    k.met a d = true ↔
      if used = [] then d = none else if a.all then ∀ c ∈ used, k.holds c = true else ∃ c ∈ used, k.holds c = true := by
  intro used
  have unused : WaitArgs.maskWhere a (· != .none) = 0 ↔ used = [] := by
    rw [WaitArgs.maskWhere_eq_zero, List.filter_eq_nil_iff]
    simp only [Bool.not_eq_true]
  have allHold : WaitArgs.maskWhere a k.holds = WaitArgs.maskWhere a (· != .none) ↔ ∀ c ∈ used, k.holds c = true := by
    rw [WaitArgs.maskWhere_eq_iff]
    simp only [used, List.mem_filter]
    exact ⟨fun h c hc => (h c hc.1).trans hc.2,
      fun h c hc => Bool.eq_iff_iff.2 ⟨Watch.used_of_holds, fun hused => h c ⟨hc, hused⟩⟩⟩
  have someHolds : WaitArgs.maskWhere a k.holds ≠ 0 ↔ ∃ c ∈ used, k.holds c = true := by
    rw [ne_eq, WaitArgs.maskWhere_eq_zero]
    simp only [used, List.mem_filter, Classical.not_forall, Bool.not_eq_false]
    exact ⟨fun ⟨c, hc, hh⟩ => ⟨c, ⟨hc, Watch.used_of_holds hh⟩, hh⟩, fun ⟨c, hc, hh⟩ => ⟨c, hc.1, hh⟩⟩
  unfold Watch.met
  simp only [beq_iff_eq, unused]
  split
  · exact Option.isNone_iff_eq_none
  · split
    · rw [beq_iff_eq, allHold]
    · rw [bne_iff_ne, someHolds]

/-! ## The attempt of a `wait` (R268, R277) -/

theorem State.uncached_invalidate (s : State) (n : Nat) : (s.invalidate n).uncached = s.uncached :=
  (State.uncached_modDie _ _ fun _ => []).trans (s.uncached_modCore n fun _ => [])

theorem Cx.uncached_acquire (x : Cx) (e : State) (on : Bool) (sc : Scope) : (x.acquire e on sc).uncached = e.uncached := by
  unfold Cx.acquire
  split
  · exact e.uncached_invalidate x.core
  · rfl

/-- R235: an acquire by all agents invalidates. -/
theorem Cx.acquire_sys (x : Cx) (e : State) (on : Bool) : x.acquire e on .sys = if on then e.invalidate x.core else e := by
  cases on with
  | true => rfl
  | false => rfl

/-- What an attempt evaluates (R277). -/
def Cx.watch (x : Cx) : Watch := ⟨x.s, x.l.ctx, x.c, x.w, x.ref⟩

/-- An evaluation against the deadline `d`: the wait issues, or blocks and keeps its deadline. -/
def Cx.tryWait (x : Cx) (a : WaitArgs) (d : Option DWord) : Attempt :=
  match x.watch.evaluate a d with
  | some (h, late) => x.waitDone a h late
  | none => .block (x.s.modWarp x.ref fun w => { w with deadline := some d }) (.wait (WaitArgs.used a) a.all)

/-- The deadline of an attempt: the first one sets it (R277). -/
def Cx.waitDeadline (x : Cx) (a : WaitArgs) : Option DWord :=
  match x.w.deadline with
  | some d => d
  | none => x.watch.deadline a

/-- R277: an attempt after an evaluation that succeeded ends as that one did; any other, its checks passed, is an evaluation. -/
theorem exec_wait (s : State) (c : Ctl) (a : WaitArgs) (x : Cx) :
    ∃ body, exec (.wait c a) s = issue (.wait c a) s body ∧
      (∀ hit late, x.w.waitHit = some (hit, late) → body x = x.waitDone a hit late) ∧
      (x.w.waitHit = none →
        (∀ t ∈ WaitArgs.slots a, (if x.w.deadline = none then x.checkCond t.2 else x.checkPhase t.2).isNone) →
        body x = x.tryWait a (x.waitDeadline a)) := by
  refine ⟨_, rfl, fun hit late hhit => ?_, fun hhit hchecks => ?_⟩
  · dsimp only
    rw [hhit]
  · unfold Cx.waitDeadline
    cases hd : x.w.deadline with
    | none =>
      have checked : ((WaitArgs.slots a).findSome? fun t => x.checkCond t.2) = none :=
        List.findSome?_eq_none_iff.2 fun t ht => by simpa [hd] using hchecks t ht
      dsimp only
      rw [hhit, checked]
      rfl
    | some d =>
      have checked : ((WaitArgs.slots a).findSome? fun t => x.checkPhase t.2) = none :=
        List.findSome?_eq_none_iff.2 fun t ht => by simpa [hd] using hchecks t ht
      dsimp only
      rw [hhit, checked]
      rfl

section Wait

variable {s : State} {c : Ctl} {a : WaitArgs} {x : Cx} {body : Cx → Attempt} (h : s.ready (.wait c a) = some x)
  (hi : exec (.wait c a) s = issue (.wait c a) s body)
include h hi

theorem issues_of_waitDone {hit : Nat} {late : Bool} (hb : body x = x.waitDone a hit late) :
    let w := x.writeScal x.w a.dst (BitVec.ofNat 32 hit)
    s.issues (.wait c a) x
      (if (WaitArgs.slots a).any fun t => hit.testBit t.1 && condAcquires t.2 then s.invalidate x.core else s)
      (x.next (if a.tp = 7 then w else x.writePred w a.tp x.act (if late then BitVec.allOnes 48 else 0))) true [] none := by
  intro w
  have hr := (State.ready_elim h).1
  unfold Cx.waitDone at hb
  rw [hr.state] at hb
  have course : (if (a.tp == 7) = true then w else x.writePred w a.tp x.act (if late then BitVec.allOnes 48 else 0)).course =
      x.w.course := by
    split
    · exact x.course_writeScal ..
    · exact (x.course_writePred ..).trans (x.course_writeScal ..)
  have issued := issues_of_uncached h hi hb (x.uncached_acquire ..) course rfl rfl
  simp only [x.acquire_sys, beq_iff_eq] at issued
  exact issued

end Wait

/-- Settles O28: with its checks passed an attempt is one evaluation, whose masks say slot by slot which conditions hold. -/
theorem waits : Obligations.Waits := by
  refine ⟨fun s c a x h => ?_, fun k a d => ?_⟩
  · intro k slots deadline hchecks
    obtain rfl := (State.ready_elim h).1.state
    obtain ⟨body, hi, hended, hchecked⟩ := exec_wait x.s c a x
    cases hhit : x.w.waitHit with
    | some hit =>
      obtain ⟨m, late⟩ := hit
      exact issues_of_waitDone h hi (hended m late hhit)
    | none =>
      have hbody : body x = x.tryWait a deadline := hchecked hhit (hchecks hhit)
      unfold Cx.tryWait at hbody
      rw [Option.none_or]
      split
      next m late heval =>
        rw [show x.watch.evaluate a deadline = some (m, late) from heval] at hbody
        exact issues_of_waitDone h hi hbody
      next heval =>
        rw [show x.watch.evaluate a deadline = none from heval] at hbody
        exact exec_of_block h hi hbody
  · intro conds used passed met
    rw [Watch.evaluate_eq]
    have hmet : k.met a d = true ↔ met := k.met_iff a d
    have hpassed : (d.any fun t => decide (t.toNat ≤ k.s.clock.tick.toNat)) = true ↔ passed := by
      simp [passed, Option.any_eq_true]
    have bits := WaitArgs.testBit_maskWhere a k.holds
    rw [← hmet, ← hpassed]
    split
    next hm => exact ⟨fun hit late e => by cases e; exact ⟨bits, by simp [hm]⟩, by simp [hm]⟩
    next hm =>
      split
      next hp => exact ⟨fun hit late e => by cases e; exact ⟨bits, by simp [hm]⟩, by simp [hp]⟩
      next hp => exact ⟨nofun, by simp [hp, hm]⟩

end Sys2Proof.Machine
end
